-- ==== Sys2Proof/Word.lean ====
section
/-! DEFINITION. The bit vectors the manual treats as bits: a byte of a frame, a 32-bit field, and a
run of data bytes of a fixed length. -/

namespace Sys2Proof

/-- One byte of a frame or of a line's data. -/
abbrev Byte := BitVec 8

/-- A 32-bit field of a message: an address or a parameter value (R192). -/
abbrev Word32 := BitVec 32

/-- `n` data bytes, byte 0 first (R13: byte k of the data). -/
abbrev Bytes (n : Nat) := Vector Byte n

/-- `n` zero bytes (R15: the base line of an UNSET line). -/
def zeroBytes (n : Nat) : Bytes n := Vector.replicate n 0#8

end Sys2Proof
end

