-- ==== Sys2Proof/Config.lean ====
section
/-! DEFINITION. What the part fixes: interval lengths, thresholds, ranges and identification values,
each from the rule it cites, and the one free value of the model. Times are in tenths of a
nanosecond, the smallest unit in which every length of the manual is whole (R167). -/

namespace Sys2Proof.Config

/-- `n` nanoseconds in clock units. -/
def ns (n : Nat) : Nat := 10 * n

/-- `n` microseconds in clock units. -/
def us (n : Nat) : Nat := 10000 * n

/-! Interval lengths of the channel controller (R41). -/

def openSettle : Nat := ns 14
def minimumOpen : Nat := ns 34
def rowCycle : Nat := ns 48
def closeTime : Nat := ns 14
def readAccessLine : Nat := ns 18
def readAccessHalf : Nat := ns 16
def writeAccessLine : Nat := ns 10
def writeAccessHalf : Nat := ns 8
def writeRecovery : Nat := ns 15
def openSpacing : Nat := ns 5
def openingWindow : Nat := ns 40
def sweepTime : Nat := ns 300
def shortTrim : Nat := ns 96
def longTrim : Nat := ns 512

/-- The most moments the opening record holds (R49). -/
def openingRecordSize : Nat := 6

/-! Exits from the low-power states (R115, R121). -/

def napExit : Nat := ns 24
def retainExit : Nat := ns 420

/-- The sensor period (R98). -/
def sensorPeriod : Nat := us 1000

/-- Lane time of one byte: 0.8 ns (R167). -/
def byteTime : Nat := 8

/-! Refresh (R77, R81, R92). -/

def maxDebt : Int := 7
def urgentDebt : Int := 5
def wakeDebt : Int := 4

/-! Link (R163, R165, R169), rejects (R24), notices (R186), counts (R140). -/

def replayBufferSize : Nat := 32
def maxReplays : Nat := 4
def maxAnswersSinceNotice : Nat := 8
def maxRejects : Nat := 32
def maxNoticeCount : Nat := 255
def maxUncorrectable : Nat := 65535

/-- Channel lines of one channel, 2^24 (R1, R199). -/
def channelLines : Nat := 16777216

/-! Identification values (R199). -/

def partId : Nat := 0x00005A16
def revision : Nat := 3
def banks : Nat := 16

/-- FREE VALUE: the rank that the `draw`-th free order gives to `item`. The manual fixes no order
among several TRIM entries answered in one trim end (R89 reports a set of tags) nor among the two
channels in one zone change (R105); the answers are posted by rising rank. DESIGN CHOICE, log 6. -/
opaque freeRank (draw item : Nat) : Nat

end Sys2Proof.Config
end

