-- ==== Sys2Proof/Syntax.lean ====
section
/-! DEFINITION. The commands of the part: one constructor of `Instr` for each row of
spec/opcode_table.json, with the fields that the manual gives the event, and the enumerations those
fields and the request messages use. -/

namespace Sys2Proof

/-- A channel of the storage array: A (0) or B (1) (R1). -/
inductive Chan where
  | a
  | b
  deriving DecidableEq, Repr

/-- The other channel. -/
def Chan.other : Chan → Chan
  | .a => .b
  | .b => .a

/-- The channel's number in messages and in the SPLIT decode (R3, R194). -/
def Chan.num : Chan → Nat
  | .a => 0
  | .b => 1

/-- The size of a memory request or leg (R5). -/
inductive Size where
  | line
  | half
  deriving DecidableEq, Repr

/-- A tag, 0 to 63 (R16). -/
abbrev Tag := Fin 64
/-- A bank of a channel (R1). -/
abbrev BankNo := Fin 16
/-- A row of a bank (R1). -/
abbrev RowNo := Fin 16384
/-- A column of a row (R1). -/
abbrev ColNo := Fin 64
/-- A channel line index M (R1). -/
abbrev LineNo := Fin 16777216
/-- An internal entry (R16). -/
abbrev InternalNo := Fin 4

/-- The target of a POWER request (R194). -/
inductive Target where
  | active
  | nap
  | retain
  deriving DecidableEq, Repr

/-- The channel field of a PWR or TRIM (R194). -/
inductive ChanSel where
  | one (c : Chan)
  | both
  deriving DecidableEq, Repr

/-- Whether a channel field names a channel. -/
def ChanSel.names : ChanSel → Chan → Bool
  | .one c, d => c == d
  | .both, _ => true

/-- The action of an SVC (R194): OUT or IN. -/
inductive SvcAction where
  | takeOut
  | takeIn
  deriving DecidableEq, Repr

/-- A request as the request table keeps it once it is not malformed (R17, R192). A WR's mask has
flag k at bit k; a HALF write uses flags and data bytes 0 to 31 alone (R13, R14). -/
inductive Req where
  | rd (sz : Size) (addr : Word32)
  | wr (sz : Size) (mask : Option (BitVec 64)) (addr : Word32) (data : Bytes 64)
  | bar
  | can (victim : Tag)
  | get (id : Byte)
  | setParam (id : Byte) (value : Word32)
  | pwr (sel : ChanSel) (target : Target)
  | trim (sel : ChanSel)
  | svc (c : Chan) (action : SvcAction)
  | stat
  | rst
  deriving DecidableEq, Repr

/-- Sequence and acknowledgement of a good REQUEST frame (R153). -/
structure FrameHdr where
  seq : Byte
  ack : Byte
  deriving DecidableEq, Repr

/-- A good REQUEST frame's header with its payload length and the tag byte of its payload (R192).
The tag byte is there when the length is at least 2. -/
structure ReqHdr where
  seq : Byte
  ack : Byte
  len : Nat
  tag : Byte
  deriving DecidableEq, Repr

/-- The two causes of the power-on event (R201). -/
inductive PowerOnCause where
  | suppliesApplied
  | pinReleased
  deriving DecidableEq, Repr

/-- What one sample event carries (R98): the die temperature, or "no reading". -/
inductive Sample where
  | reading (celsius : Int)
  | noReading
  deriving DecidableEq, Repr

/-- Why an inbound frame is bad (R154). -/
inductive BadFrameCause where
  | check
  | length
  deriving DecidableEq, Repr

/-- Good frames that are discarded without reply in either link state (R160, R191). -/
inductive DiscardedFrame where
  | synr
  | notControl
  | answer
  | notice
  | unknownClass (cls : Byte)
  deriving DecidableEq, Repr

/-- The commands: one constructor per row of the opcode table. -/
inductive Instr where
  /-- POWER_ON (R201). -/
  | powerOn (cause : PowerOnCause)
  /-- RESET_PIN_ASSERT (R201). -/
  | resetPinAssert
  /-- DISTURBANCE (R8) of channel line `m` of channel `c`. -/
  | disturbance (c : Chan) (m : LineNo)
  /-- SENSOR_SAMPLE (R98). -/
  | sensorSample (x : Sample)
  /-- RD (R173): size code, mask flag and address as received. -/
  | rd (h : ReqHdr) (sz maskFlag : Byte) (addr : Word32)
  /-- WR (R174): size code, mask flag, address, mask and data as received. -/
  | wr (h : ReqHdr) (sz maskFlag : Byte) (addr : Word32) (mask : BitVec 64) (data : Bytes 64)
  /-- BAR (R175). -/
  | bar (h : ReqHdr)
  /-- CAN (R176). -/
  | can (h : ReqHdr) (victim : Byte)
  /-- GET (R177). -/
  | get (h : ReqHdr) (id : Byte)
  /-- SET of MODE, id 1 (R131). -/
  | setMode (h : ReqHdr) (value : Word32)
  /-- SET of PULL_IN, id 13 (R84). -/
  | setPullIn (h : ReqHdr) (value : Word32)
  /-- SET of REBUILD_DEPTH, id 14 (R147). -/
  | setRebuildDepth (h : ReqHdr) (value : Word32)
  /-- SET of NAP_IDLE, id 5 (R113). -/
  | setNapIdle (h : ReqHdr) (value : Word32)
  /-- SET of RETAIN_IDLE, id 6 (R117). -/
  | setRetainIdle (h : ReqHdr) (value : Word32)
  /-- SET of any other parameter (R178). -/
  | setParameter (h : ReqHdr) (id : Byte) (value : Word32)
  /-- PWR with target ACTIVE (R124): channel code as received. -/
  | pwrActive (h : ReqHdr) (chan : Byte)
  /-- PWR with target NAP (R125). -/
  | pwrNap (h : ReqHdr) (chan : Byte)
  /-- PWR with target RETAIN (R126). -/
  | pwrRetain (h : ReqHdr) (chan : Byte)
  /-- TRIM (R180). -/
  | trim (h : ReqHdr) (chan : Byte)
  /-- SVC with action OUT (R142). -/
  | svcOut (h : ReqHdr) (chan : Byte)
  /-- SVC with action IN (R145). -/
  | svcIn (h : ReqHdr) (chan : Byte)
  /-- STAT (R182). -/
  | stat (h : ReqHdr)
  /-- RST (R183). -/
  | rst (h : ReqHdr)
  /-- SYNC (R157). -/
  | sync
  /-- ACK (R161): a good ACK frame with its acknowledgement field. -/
  | ack (a : Byte)
  /-- RSND (R160): a good RSND frame naming sequence `n`. -/
  | rsnd (n : Byte)
  /-- BAD_FRAME (R159). -/
  | badFrame (cause : BadFrameCause)
  /-- REQUEST_FRAME_AHEAD (R158): a good request frame `d + 1` ahead of the expected sequence. -/
  | requestFrameAhead (d : Fin 127) (ack : Byte)
  /-- REQUEST_FRAME_BEHIND (R158): a good request frame `d + 1` behind the expected sequence. -/
  | requestFrameBehind (d : Fin 128) (ack : Byte)
  /-- FRAME_DISCARDED (R160). -/
  | frameDiscarded (frame : DiscardedFrame)
  /-- OPEN_SETTLE_EXPIRY (R46). -/
  | openSettleExpiry (c : Chan) (bank : BankNo)
  /-- MINIMUM_OPEN_EXPIRY (R47). -/
  | minimumOpenExpiry (c : Chan) (bank : BankNo)
  /-- ROW_CYCLE_EXPIRY (R47). -/
  | rowCycleExpiry (c : Chan) (bank : BankNo)
  /-- CLOSE_EXPIRY (R48). -/
  | closeExpiry (c : Chan) (bank : BankNo)
  /-- READ_ACCESS_COMPLETE (R52). -/
  | readAccessComplete (c : Chan) (bank : BankNo)
  /-- WRITE_ACCESS_COMPLETE (R52). -/
  | writeAccessComplete (c : Chan) (bank : BankNo)
  /-- WRITE_RECOVERY_EXPIRY (R47). -/
  | writeRecoveryExpiry (c : Chan) (bank : BankNo)
  /-- OPEN_SPACING_EXPIRY (R49). -/
  | openSpacingExpiry (c : Chan)
  /-- OPENING_WINDOW_EXPIRY (R49). -/
  | openingWindowExpiry (c : Chan)
  /-- IDLE_CLOSE_EXPIRY (R62). -/
  | idleCloseExpiry (c : Chan) (bank : BankNo)
  /-- SWEEP_END (R87). -/
  | sweepEnd (c : Chan)
  /-- SHORT_TRIM_END (R89). -/
  | shortTrimEnd (c : Chan)
  /-- LONG_TRIM_END (R202). -/
  | longTrimEnd (c : Chan)
  /-- ISSUE_ACCESS (R51). -/
  | issueAccess (c : Chan)
  /-- OPEN_BEGIN (R46). -/
  | openBegin (c : Chan)
  /-- CLOSE_BEGIN (R48). -/
  | closeBegin (c : Chan)
  /-- SWEEP_BEGIN (R87). -/
  | sweepBegin (c : Chan)
  /-- SHORT_TRIM_BEGIN (R89). -/
  | shortTrimBegin (c : Chan)
  /-- REFRESH_TIMER_EXPIRY (R79). -/
  | refreshTimerExpiry (c : Chan)
  /-- NAP_IDLE_EXPIRY (R113). -/
  | napIdleExpiry (c : Chan)
  /-- RETAIN_IDLE_EXPIRY (R117). -/
  | retainIdleExpiry (c : Chan)
  /-- NAP_EXIT_EXPIRY (R116). -/
  | napExitExpiry (c : Chan)
  /-- RETAIN_EXIT_EXPIRY (R122). -/
  | retainExitExpiry (c : Chan)
  /-- RETAIN_ENTRY_COMPLETE (R119). -/
  | retainEntryComplete (c : Chan)
  /-- ACK_DELAY_EXPIRY (R162). -/
  | ackDelayExpiry
  /-- REPLAY_TIMER_EXPIRY (R165). -/
  | replayTimerExpiry
  /-- TRANSMISSION_END (R167). -/
  | transmissionEnd
  /-- TRANSMIT_CONTROL (R168). -/
  | transmitControl
  /-- RETRANSMIT (R166). -/
  | retransmit
  /-- TRANSMIT_ANSWER (R170). -/
  | transmitAnswer
  /-- TRANSMIT_NOTICE (R170). -/
  | transmitNotice
  /-- BARRIER_ANSWERED (R32). -/
  | barrierAnswered
  /-- COPY_START (R147). -/
  | copyStart
  /-- RESTART_END (R208). -/
  | restartEnd
  /-- MALFORMED_MESSAGE (R20): an in-order request frame with this payload. -/
  | malformedMessage (h : FrameHdr) (payload : List Byte)
  /-- POWER_REMOVED (R184). -/
  | powerRemoved
  deriving DecidableEq, Repr

end Sys2Proof
end

