-- ==== Sys2Proof/Decode.lean ====
section
/-! DEFINITION. From bytes to commands and back: little-endian fields and the frame check (R154,
R191), request payloads (R192, R194) with the tests of R20 that need no state, the host's frames read
as commands, the encoder of those frames, and `decodeTableWord` (the table gives no row any bits). -/

namespace Sys2Proof

/-! ### Little-endian fields (R191) -/

/-- The four bytes of a 32-bit field, least significant first. -/
def le32Bytes (w : Word32) : List Byte :=
  [w.extractLsb' 0 8, w.extractLsb' 8 8, w.extractLsb' 16 8, w.extractLsb' 24 8]

/-- The 32-bit field of four bytes. -/
def le32 (b0 b1 b2 b3 : Byte) : Word32 := b3 ++ b2 ++ b1 ++ b0

/-- The two bytes of a 16-bit field, least significant first. -/
def le16Bytes (w : BitVec 16) : List Byte := [w.extractLsb' 0 8, w.extractLsb' 8 8]

/-- The flags of mask bytes: flag k is bit (k mod 8) of byte k div 8 (R192). -/
def maskOf : List Byte → BitVec 64
  | [] => 0
  | b :: bs => (b.zeroExtend 64) ||| (maskOf bs <<< 8)

/-- The first `n` mask bytes of a set of flags (R192). -/
def maskBytes (n : Nat) (m : BitVec 64) : List Byte :=
  (List.range n).map fun k => m.extractLsb' (8 * k) 8

/-- Data bytes from a list; bytes past its end are 0. -/
def bytesOf (n : Nat) (l : List Byte) : Bytes n := Vector.ofFn fun i => l.getD i.val 0

/-! ### The frame check (R154) -/

/-- One bit taken into the CRC register: generator 0x04C11DB7. -/
def crcBit (r : Word32) (b : Bool) : Word32 :=
  (r <<< 1) ^^^ (if r.msb != b then 0x04C11DB7#32 else 0#32)

/-- One byte taken into the CRC register, least significant bit first. -/
def crcByte (r : Word32) (b : Byte) : Word32 :=
  ((List.range 8).map b.getLsbD).foldl crcBit r

/-- The register's 32 bits in reverse order. -/
def reflect32 (r : Word32) : Word32 :=
  ((List.range 32).map r.getLsbD).foldl (fun acc b => (acc <<< 1) ||| (if b then 1#32 else 0#32)) 0#32

/-- The frame check over the bytes from class to the last payload byte: all bits set at the start,
result reflected, all bits inverted at the end (R154). -/
def frameCheck (bytes : List Byte) : Word32 :=
  ~~~ reflect32 (bytes.foldl crcByte 0xFFFFFFFF#32)

/-- The start marker (R191). -/
def startMarker : Byte := 0xB6

/-- The bytes of a frame, in transmission order (R191). -/
def frameBytes (cls sequence ack : Byte) (payload : List Byte) : List Byte :=
  let covered := cls :: sequence :: ack :: BitVec.ofNat 8 payload.length :: payload
  startMarker :: (covered ++ le32Bytes (frameCheck covered))

/-! ### Codes of the enumerated request fields (R194) -/

def sizeOfCode (b : Byte) : Option Size :=
  if b = 0 then some .line else if b = 1 then some .half else none

def chanOfCode (b : Byte) : Option Chan :=
  if b = 0 then some .a else if b = 1 then some .b else none

/-- PWR and TRIM admit BOTH (R194). -/
def chanSelOfCode (b : Byte) : Option ChanSel :=
  if b = 2 then some .both else (chanOfCode b).map .one

def tagOfByte (b : Byte) : Option Tag := if h : b.toNat < 64 then some ⟨b.toNat, h⟩ else none

/-! ### Request messages (R20, R192) -/

/-- A message as the request table takes it: the kind byte and the tag byte where the payload holds
them, and the request unless the message is malformed (R20). -/
structure RawMsg where
  kind : Option Byte
  tag : Option Byte
  req : Option (Tag × Req)
  deriving DecidableEq, Repr

/-- A message of kind `kind` and length `len` whose fields read as `r`: malformed when the length is
not `want`, the tag is above 63, or a field lies outside its set (R20). -/
def rawMsg (kind : Byte) (len : Nat) (tag : Byte) (want : Nat) (r : Option Req) : RawMsg where
  kind := if 1 ≤ len then some kind else none
  tag := if 2 ≤ len then some tag else none
  req := if len = want then (tagOfByte tag).bind fun t => r.map fun q => (t, q) else none

/-- An RD's fields; one that carries a mask is malformed (R20). Log 12 for other flag bytes. -/
def rdFields (sz maskFlag : Byte) (addr : Word32) : Option Req :=
  if maskFlag = 0 then (sizeOfCode sz).map fun z => .rd z addr else none

/-- A WR's mask from its flag byte: 0 absent, 1 present (R192); log 12 for other values. -/
def maskField (maskFlag : Byte) (mask : BitVec 64) : Option (Option (BitVec 64)) :=
  if maskFlag = 0 then some none else if maskFlag = 1 then some (some mask) else none

/-- A WR's fields. -/
def wrFields (sz maskFlag : Byte) (addr : Word32) (mask : BitVec 64) (data : Bytes 64) : Option Req :=
  match sizeOfCode sz, maskField maskFlag mask with
  | some z, some m => some (.wr z m addr data)
  | _, _ => none

/-- The payload length of a WR (R192). -/
def wrLength (sz maskFlag : Byte) : Nat :=
  if sz = 0 then (if maskFlag = 1 then 80 else 72) else (if maskFlag = 1 then 44 else 40)

def canFields (victim : Byte) : Option Req := (tagOfByte victim).map .can
def pwrFields (chan : Byte) (target : Target) : Option Req := (chanSelOfCode chan).map fun c => .pwr c target
def trimFields (chan : Byte) : Option Req := (chanSelOfCode chan).map .trim
def svcFields (chan : Byte) (action : SvcAction) : Option Req := (chanOfCode chan).map fun c => .svc c action

/-- The frame fields of a request row's header. -/
def ReqHdr.frame (h : ReqHdr) : FrameHdr := { seq := h.seq, ack := h.ack }

/-! The message of each request row: its kind code, its length and the reading of its fields (R192). -/

def rdMessage (h : ReqHdr) (sz maskFlag : Byte) (addr : Word32) : RawMsg :=
  rawMsg 1 h.len h.tag 8 (rdFields sz maskFlag addr)
def wrMessage (h : ReqHdr) (sz maskFlag : Byte) (addr : Word32) (mask : BitVec 64) (data : Bytes 64) : RawMsg :=
  rawMsg 2 h.len h.tag (wrLength sz maskFlag) (wrFields sz maskFlag addr mask data)
def barMessage (h : ReqHdr) : RawMsg := rawMsg 3 h.len h.tag 2 (some .bar)
def canMessage (h : ReqHdr) (victim : Byte) : RawMsg := rawMsg 4 h.len h.tag 3 (canFields victim)
def getMessage (h : ReqHdr) (id : Byte) : RawMsg := rawMsg 5 h.len h.tag 3 (some (.get id))
def setMessage (h : ReqHdr) (id : Byte) (value : Word32) : RawMsg :=
  rawMsg 6 h.len h.tag 7 (some (.setParam id value))
def pwrMessage (h : ReqHdr) (chan : Byte) (target : Target) : RawMsg :=
  rawMsg 7 h.len h.tag 4 (pwrFields chan target)
def trimMessage (h : ReqHdr) (chan : Byte) : RawMsg := rawMsg 8 h.len h.tag 3 (trimFields chan)
def svcMessage (h : ReqHdr) (chan : Byte) (action : SvcAction) : RawMsg :=
  rawMsg 9 h.len h.tag 4 (svcFields chan action)
def statMessage (h : ReqHdr) : RawMsg := rawMsg 10 h.len h.tag 2 (some .stat)
def rstMessage (h : ReqHdr) : RawMsg := rawMsg 11 h.len h.tag 2 (some .rst)

def targetOfCode (b : Byte) : Option Target :=
  if b = 0 then some .active else if b = 1 then some .nap else if b = 2 then some .retain else none

def actionOfCode (b : Byte) : Option SvcAction :=
  if b = 0 then some .takeOut else if b = 1 then some .takeIn else none

/-- Mask and data of a WR from the payload bytes after the address; the lengths are those of R192. -/
def wrBody (sz maskFlag : Byte) (body : List Byte) : Option (BitVec 64 × Bytes 64) :=
  let dataLen := if sz = 0 then 64 else 32
  let maskLen := if maskFlag = 1 then dataLen / 8 else 0
  if body.length = maskLen + dataLen then
    some (maskOf (body.take maskLen), bytesOf 64 (body.drop maskLen))
  else none

/-- The fields after kind and tag, read by kind (R192); none when the length is not the kind's, the
kind is none of the eleven, or a field lies outside its set. -/
def payloadFields (kind : Nat) (rest : List Byte) : Option Req :=
  match kind, rest with
  | 1, [sz, mf, a0, a1, a2, a3] => rdFields sz mf (le32 a0 a1 a2 a3)
  | 2, sz :: mf :: a0 :: a1 :: a2 :: a3 :: body =>
    (wrBody sz mf body).bind fun (m, d) => wrFields sz mf (le32 a0 a1 a2 a3) m d
  | 3, [] => some .bar
  | 4, [v] => canFields v
  | 5, [id] => some (.get id)
  | 6, [id, v0, v1, v2, v3] => some (.setParam id (le32 v0 v1 v2 v3))
  | 7, [c, t] => (targetOfCode t).bind (pwrFields c)
  | 8, [c] => trimFields c
  | 9, [c, x] => (actionOfCode x).bind (svcFields c)
  | 10, [] => some .stat
  | 11, [] => some .rst
  | _, _ => none

/-- A payload as the request table takes it (R19, R20, R185: what it cannot read it cannot echo). -/
def readPayload : List Byte → RawMsg
  | [] => { kind := none, tag := none, req := none }
  | [k] => { kind := some k, tag := none, req := none }
  | k :: t :: rest =>
    { kind := some k, tag := some t,
      req := (tagOfByte t).bind fun g => (payloadFields k.toNat rest).map fun q => (g, q) }

/-! ### The host's frames as commands (R154, R158, R160, R191) -/

/-- The SET row that a parameter id falls under. -/
def setCommand (h : ReqHdr) (id : Byte) (value : Word32) : Instr :=
  if id = 1 then .setMode h value
  else if id = 13 then .setPullIn h value
  else if id = 14 then .setRebuildDepth h value
  else if id = 5 then .setNapIdle h value
  else if id = 6 then .setRetainIdle h value
  else .setParameter h id value

/-- The command of a good REQUEST frame: the row of its kind when its payload has that kind's layout,
else MALFORMED_MESSAGE. -/
def requestCommand (h : FrameHdr) (payload : List Byte) : Instr :=
  match payload with
  | k :: t :: rest =>
    let hd : ReqHdr := { seq := h.seq, ack := h.ack, len := rest.length + 2, tag := t }
    match k.toNat, rest with
    | 1, [sz, mf, a0, a1, a2, a3] => .rd hd sz mf (le32 a0 a1 a2 a3)
    | 2, sz :: mf :: a0 :: a1 :: a2 :: a3 :: body =>
      match wrBody sz mf body with
      | some (m, d) => .wr hd sz mf (le32 a0 a1 a2 a3) m d
      | none => .malformedMessage h payload
    | 3, [] => .bar hd
    | 4, [v] => .can hd v
    | 5, [id] => .get hd id
    | 6, [id, v0, v1, v2, v3] => setCommand hd id (le32 v0 v1 v2 v3)
    | 7, [c, x] =>
      match targetOfCode x with
      | some .active => .pwrActive hd c
      | some .nap => .pwrNap hd c
      | some .retain => .pwrRetain hd c
      | none => .malformedMessage h payload
    | 8, [c] => .trim hd c
    | 9, [c, x] =>
      match actionOfCode x with
      | some .takeOut => .svcOut hd c
      | some .takeIn => .svcIn hd c
      | none => .malformedMessage h payload
    | 10, [] => .stat hd
    | 11, [] => .rst hd
    | _, _ => .malformedMessage h payload
  | _ => .malformedMessage h payload

/-- The command of a good CONTROL frame (R160, R191). -/
def controlCommand (ack : Byte) (payload : List Byte) : Instr :=
  match payload with
  | [k] => if k = 1 then .sync else if k = 3 then .ack ack else .frameDiscarded .notControl
  | [k, n] => if k = 4 then .rsnd n else if k = 2 then .frameDiscarded .synr else .frameDiscarded .notControl
  | _ => .frameDiscarded .notControl

/-- The command of a good frame, by its class (R160, R191). -/
def classCommand (cls sequence ack : Byte) (payload : List Byte) : Instr :=
  if cls = 1 then requestCommand { seq := sequence, ack := ack } payload
  else if cls = 2 then .frameDiscarded .answer
  else if cls = 3 then .frameDiscarded .notice
  else if cls = 4 then controlCommand ack payload
  else .frameDiscarded (.unknownClass cls)

/-- The command of the bytes found at a start marker (R154): a length above 96 or a check that does
not agree is a bad frame. -/
def commandOfFrame : List Byte → Instr
  | _ :: cls :: sequence :: ack :: len :: rest =>
    if 96 < len.toNat then .badFrame .length
    else
      let payload := rest.take len.toNat
      if rest.drop len.toNat = le32Bytes (frameCheck (cls :: sequence :: ack :: len :: payload)) then
        classCommand cls sequence ack payload
      else .badFrame .check
  | _ => .badFrame .check

/-- The commands of a run of lane bytes (R154): bytes that are not a start marker are passed over, a
length above 96 is judged as soon as it arrives, and a frame ends with its last check byte. What is left
at the end belongs to a frame that has not arrived whole. -/
def receiveLoop : Nat → List Byte → List Instr
  | 0, _ => []
  | _ + 1, [] => []
  | fuel + 1, b :: bs =>
    if b = startMarker then
      match bs with
      | cls :: sequence :: ack :: len :: rest =>
        if 96 < len.toNat then .badFrame .length :: receiveLoop fuel rest
        else if rest.length < len.toNat + 4 then []
        else
          commandOfFrame (b :: cls :: sequence :: ack :: len :: rest.take (len.toNat + 4)) ::
            receiveLoop fuel (rest.drop (len.toNat + 4))
      | _ => []
    else receiveLoop fuel bs

/-- The commands of the bytes that have arrived; each byte takes at most one turn. -/
def receive (bytes : List Byte) : List Instr := receiveLoop bytes.length bytes

/-! ### The encoder of the host's frames -/

/-- The frame of a request whose payload is `kind`, the tag and `fields`. -/
def requestFrame (kind : Byte) (h : ReqHdr) (fields : List Byte) : List Byte :=
  frameBytes 1 h.seq h.ack (kind :: h.tag :: fields)

/-- Mask bytes and data bytes of a WR (R192). -/
def wrBodyBytes (sz maskFlag : Byte) (mask : BitVec 64) (data : Bytes 64) : List Byte :=
  let dataLen := if sz = 0 then 64 else 32
  let maskLen := if maskFlag = 1 then dataLen / 8 else 0
  maskBytes maskLen mask ++ data.toList.take dataLen

/-- The bytes of the host frame that a command stands for; none for a command that no good frame of
the host spells (an expiry, a pin, a sample, a damaged frame, a frame named by its distance). -/
def encodeCommand : Instr → Option (List Byte)
  | .rd h sz mf a => some (requestFrame 1 h (sz :: mf :: le32Bytes a))
  | .wr h sz mf a m d => some (requestFrame 2 h (sz :: mf :: (le32Bytes a ++ wrBodyBytes sz mf m d)))
  | .bar h => some (requestFrame 3 h [])
  | .can h v => some (requestFrame 4 h [v])
  | .get h id => some (requestFrame 5 h [id])
  | .setMode h v => some (requestFrame 6 h (1 :: le32Bytes v))
  | .setPullIn h v => some (requestFrame 6 h (13 :: le32Bytes v))
  | .setRebuildDepth h v => some (requestFrame 6 h (14 :: le32Bytes v))
  | .setNapIdle h v => some (requestFrame 6 h (5 :: le32Bytes v))
  | .setRetainIdle h v => some (requestFrame 6 h (6 :: le32Bytes v))
  | .setParameter h id v => some (requestFrame 6 h (id :: le32Bytes v))
  | .pwrActive h c => some (requestFrame 7 h [c, 0])
  | .pwrNap h c => some (requestFrame 7 h [c, 1])
  | .pwrRetain h c => some (requestFrame 7 h [c, 2])
  | .trim h c => some (requestFrame 8 h [c])
  | .svcOut h c => some (requestFrame 9 h [c, 0])
  | .svcIn h c => some (requestFrame 9 h [c, 1])
  | .stat h => some (requestFrame 10 h [])
  | .rst h => some (requestFrame 11 h [])
  | .malformedMessage h p => some (frameBytes 1 h.seq h.ack p)
  | .sync => some (frameBytes 4 0 0 [1])
  | .ack a => some (frameBytes 4 0 a [3])
  | .rsnd n => some (frameBytes 4 0 0 [4, n])
  | .powerOn _ | .resetPinAssert | .disturbance _ _ | .sensorSample _ | .badFrame _
  | .requestFrameAhead _ _ | .requestFrameBehind _ _ | .frameDiscarded _
  | .openSettleExpiry _ _ | .minimumOpenExpiry _ _ | .rowCycleExpiry _ _ | .closeExpiry _ _
  | .readAccessComplete _ _ | .writeAccessComplete _ _ | .writeRecoveryExpiry _ _
  | .openSpacingExpiry _ | .openingWindowExpiry _ | .idleCloseExpiry _ _ | .sweepEnd _
  | .shortTrimEnd _ | .longTrimEnd _ | .issueAccess _ | .openBegin _ | .closeBegin _
  | .sweepBegin _ | .shortTrimBegin _ | .refreshTimerExpiry _ | .napIdleExpiry _
  | .retainIdleExpiry _ | .napExitExpiry _ | .retainExitExpiry _ | .retainEntryComplete _
  | .ackDelayExpiry | .replayTimerExpiry | .transmissionEnd | .transmitControl | .retransmit
  | .transmitAnswer | .transmitNotice | .barrierAnswered | .copyStart | .restartEnd
  | .powerRemoved => none

/-! ### The opcode table's bits -/

/-- The command that a word spells by the table's bits: no row of spec/opcode_table.json gives bits. -/
def decodeTableWord (_nbits _w : Nat) : Option Instr := none

end Sys2Proof
end

