-- ==== Sys2Proof/WellFormed.lean ====
section
/-! DEFINITION. When a command's operands are ones that its row can carry: a request row names a
message that passes the tests of R20, a sample lies in the sensor's range (R98), and the rows that the
manual splits off are not spelled under another row's name. -/

namespace Sys2Proof

/-- The message of a request row passes the tests of R20, payload length included. -/
def RawMsg.wf (m : RawMsg) : Bool := m.req.isSome

/-- A SET row other than the five named ones (R178). -/
def otherParameter (id : Byte) : Bool :=
  id != 1 && id != 13 && id != 14 && id != 5 && id != 6

/-- A WR carries the mask and data that its size and mask flag give it, and zeros where it carries
nothing (R192). -/
def wrCarried (sz maskFlag : Byte) (mask : BitVec 64) (data : Bytes 64) : Bool :=
  (maskFlag == 1 || mask == 0) &&
    (sz == 0 || (mask.toNat < 2 ^ 32 && (data.toList.drop 32).all (· == 0)))

/-- The message of a request row, as R20 judges it; none for the other rows. -/
def Instr.message : Instr → Option RawMsg
  | .rd h sz mf a => some (rdMessage h sz mf a)
  | .wr h sz mf a m d => some (wrMessage h sz mf a m d)
  | .bar h => some (barMessage h)
  | .can h v => some (canMessage h v)
  | .get h id => some (getMessage h id)
  | .setMode h v => some (setMessage h 1 v)
  | .setPullIn h v => some (setMessage h 13 v)
  | .setRebuildDepth h v => some (setMessage h 14 v)
  | .setNapIdle h v => some (setMessage h 5 v)
  | .setRetainIdle h v => some (setMessage h 6 v)
  | .setParameter h id v => some (setMessage h id v)
  | .pwrActive h c => some (pwrMessage h c .active)
  | .pwrNap h c => some (pwrMessage h c .nap)
  | .pwrRetain h c => some (pwrMessage h c .retain)
  | .trim h c => some (trimMessage h c)
  | .svcOut h c => some (svcMessage h c .takeOut)
  | .svcIn h c => some (svcMessage h c .takeIn)
  | .stat h => some (statMessage h)
  | .rst h => some (rstMessage h)
  | .malformedMessage _ p => some (readPayload p)
  | .powerOn _ | .resetPinAssert | .disturbance _ _ | .sensorSample _ | .sync | .ack _ | .rsnd _
  | .badFrame _ | .requestFrameAhead _ _ | .requestFrameBehind _ _ | .frameDiscarded _
  | .openSettleExpiry _ _ | .minimumOpenExpiry _ _ | .rowCycleExpiry _ _ | .closeExpiry _ _
  | .readAccessComplete _ _ | .writeAccessComplete _ _ | .writeRecoveryExpiry _ _
  | .openSpacingExpiry _ | .openingWindowExpiry _ | .idleCloseExpiry _ _ | .sweepEnd _
  | .shortTrimEnd _ | .longTrimEnd _ | .issueAccess _ | .openBegin _ | .closeBegin _
  | .sweepBegin _ | .shortTrimBegin _ | .refreshTimerExpiry _ | .napIdleExpiry _
  | .retainIdleExpiry _ | .napExitExpiry _ | .retainExitExpiry _ | .retainEntryComplete _
  | .ackDelayExpiry | .replayTimerExpiry | .transmissionEnd | .transmitControl | .retransmit
  | .transmitAnswer | .transmitNotice | .barrierAnswered | .copyStart | .restartEnd
  | .powerRemoved => none

/-- Well-formed commands. -/
def Instr.wf (i : Instr) : Bool :=
  match i with
  | .sensorSample (.reading t) => decide (-40 ≤ t) && decide (t ≤ 150)
  | .wr _ sz mf _ m d => (i.message.map RawMsg.wf).getD true && wrCarried sz mf m d
  | .setParameter _ id _ => (i.message.map RawMsg.wf).getD true && otherParameter id
  | .malformedMessage h p =>
    (readPayload p).req.isNone && decide (p.length ≤ 96) && requestCommand h p == .malformedMessage h p
  | .frameDiscarded (.unknownClass c) => c != 1 && c != 2 && c != 3 && c != 4
  | _ => (i.message.map RawMsg.wf).getD true

end Sys2Proof
end

