-- ==== Sys2Proof/Machine/State.lean ====
section
/-! DEFINITION. The state of the part as plain data: every piece of state that the manual gives each
block, with its value after power-on, and the clock, the supplies, the reset pin and the queue of
waiting commands. -/

namespace Sys2Proof.Machine
open Sys2Proof

/-- A timer: STOPPED, or RUNNING with the moment of its expiry. -/
abbrev Timer := Option Nat

/-! ### Storage array (R2) -/

/-- A line record: its condition, with the data where the condition has data (R2). -/
inductive LineRec where
  | unset
  | intact (data : Bytes 64)
  | flawed (data : Bytes 64)
  | broken
  | poisoned
  deriving DecidableEq, Repr

/-- The storage array: (record index, record), record index 2 × M + channel, indexes strictly rising,
no UNSET record listed; a record that is not listed is UNSET. -/
structure Memory where
  cells : List (Nat × LineRec)
  deriving DecidableEq, Repr

/-! ### Legs and entries (R17, R25, R27) -/

/-- The entry that a leg belongs to. -/
inductive Owner where
  | host (t : Tag)
  | internal (n : InternalNo)
  deriving DecidableEq, Repr

/-- The purpose of a WRITE leg (R25). -/
inductive Purpose where
  | host
  | writeback
  | repair
  | copy
  deriving DecidableEq, Repr

/-- The kind of a leg; a WRITE has a purpose. -/
inductive LegKind where
  | read
  | fetch
  | write (p : Purpose)
  deriving DecidableEq, Repr

/-- The state of a leg (R27). -/
inductive LegState where
  | waiting
  | blocked
  | issued
  | done
  deriving DecidableEq, Repr

/-- What a WRITE leg will store (R25): nothing yet, a whole line, or a POISONED marking. -/
inductive Store where
  | absent
  | line (data : Bytes 64)
  | poison
  deriving DecidableEq, Repr

/-- Bank, row and column of a line in its channel (R1). -/
structure Loc where
  bank : BankNo
  row : RowNo
  col : ColNo
  deriving DecidableEq, Repr

/-- A leg's name: its entry and the order of its creation in the entry. -/
structure LegId where
  owner : Owner
  no : Nat
  deriving DecidableEq, Repr

/-- A leg (R25). Its channel is that of the queue that holds it; `age` is its entry's place in the
order of creation (R18); `recovery` marks the legs added by R137. -/
structure Leg where
  owner : Owner
  no : Nat
  age : Nat
  kind : LegKind
  size : Size
  loc : Loc
  state : LegState
  store : Store
  recovery : Bool
  deriving DecidableEq, Repr

/-- The state of an entry (R17). -/
inductive EntryState where
  | held
  | active
  | answered
  deriving DecidableEq, Repr

/-- Answer statuses (R194). -/
inductive Status where
  | ok | corrected | recovered | uncorrectable | poison | unset | poisonedMerge | cancelled
  | tooLate | noSuchTag | range | align | thermal | busy | mode | lastCopy | notReady | aborted
  | badParam | readOnly
  deriving DecidableEq, Repr

/-- The data of an RD answer: a line, or the selected half (R10). -/
inductive ReadData where
  | whole (data : Bytes 64)
  | half (data : Bytes 32)
  deriving DecidableEq, Repr

/-- The decoded fields of an RD or WR (R17): the channel (SPLIT), the place, and which half. -/
structure Decoded where
  chan : Option Chan
  loc : Loc
  second : Bool
  deriving DecidableEq, Repr

/-- A host entry (R17). Its leg list is `done` together with its legs in the channel queues;
`legsMade` counts the legs created. -/
structure Entry where
  age : Nat
  req : Req
  decoded : Option Decoded
  state : EntryState
  legsMade : Nat
  done : List Leg
  status : Option Status
  data : Option ReadData
  served : Option Chan
  deriving DecidableEq, Repr

/-- An internal entry, of kind COPY (R37): the channel line it copies and its legs as in `Entry`. It has
no status field: no rule gives a completed copy leg a status to record, and the entry posts no answer
(log 23). -/
structure CopyEntry where
  age : Nat
  line : Nat
  legsMade : Nat
  done : List Leg
  deriving DecidableEq, Repr

/-! ### Channel controller (R41 to R57) -/

/-- The state of a bank (R44). -/
inductive BankState where
  | closed
  | opening
  | opened
  | closing
  | maintaining
  deriving DecidableEq, Repr

/-- The page-policy close of a bank (R44, R62): RUNNING holds the expiry of the idle-close interval. -/
inductive IdleClose where
  | stopped
  | running (expiry : Nat)
  | due
  deriving DecidableEq, Repr

/-- A bank record (R44) with the intervals of R41 that belong to the bank. -/
structure Bank where
  state : BankState
  openRow : Option RowNo
  closable : Bool
  reopenable : Bool
  access : Option LegId
  idleClose : IdleClose
  openSettle : Timer
  minimumOpen : Timer
  rowCycle : Timer
  closeTimer : Timer
  readAccess : Timer
  writeAccess : Timer
  writeRecovery : Timer
  deriving DecidableEq, Repr

/-- A channel controller (R43, R44, R49, R50, R57): the queue ordered by arrival, the bank table, the
moments of the opening record, the intervals of the channel, the data path, the oldest-leg record and
passed count. `due`: a decision of the present event is still to be made (R54; log 3). -/
structure Control where
  queue : List Leg
  banks : Vector Bank 16
  openings : List Nat
  openSpacing : Timer
  pathBusy : Bool
  sweepTimer : Timer
  shortTrimTimer : Timer
  longTrimTimer : Timer
  oldest : Option LegId
  passed : Nat
  due : Bool
  deriving DecidableEq, Repr

/-! ### Refresh unit (R76) -/

/-- The sweep demand (R76). -/
inductive Demand where
  | none
  | opportunistic
  | retention
  | urgent
  deriving DecidableEq, Repr

/-- The trim in progress (R76). -/
inductive TrimKind where
  | none
  | short
  | long
  deriving DecidableEq, Repr

/-- A refresh unit (R76). -/
structure Refresh where
  debt : Int
  timer : Timer
  demand : Demand
  sweeping : Bool
  trimOwed : Bool
  trimming : TrimKind
  owedWaiters : List Tag
  runningWaiters : List Tag
  deriving DecidableEq, Repr

/-! ### Power control (R110) -/

/-- Channel power states (R110). -/
inductive PowerState where
  | starting
  | active
  | nap
  | napExit
  | retainEntry
  | retain
  | retainExit
  deriving DecidableEq, Repr

/-- The exit timer (R110). -/
inductive ExitTimer where
  | stopped
  | nap (expiry : Nat)
  | retain (expiry : Nat)
  deriving DecidableEq, Repr

/-- A pending POWER (R110, R123): tag, whether the target is RETAIN (else ACTIVE), whether BOTH. -/
structure PendingPower where
  tag : Tag
  toRetain : Bool
  both : Bool
  deriving DecidableEq, Repr

/-- A power control (R110). `idle` is its last judgement of R111. -/
structure Power where
  state : PowerState
  napIdle : Timer
  retainIdle : Timer
  exit : ExitTimer
  onward : Bool
  pendingPower : Option PendingPower
  idle : Bool
  deriving DecidableEq, Repr

/-- The blocks that each channel has one of. -/
structure Channel where
  ctl : Control
  refr : Refresh
  pwr : Power
  deriving DecidableEq, Repr

/-! ### Thermal monitor (R97) -/

inductive Zone where
  | normal
  | warm
  | hot
  | critical
  deriving DecidableEq, Repr

inductive SensorState where
  | awaiting
  | ok
  | lost
  deriving DecidableEq, Repr

/-- The thermal monitor (R97) and the sensor period (R98): before the first sample `sampleAt` is the
latest moment at which it comes, afterwards the moment of the next sample. -/
structure Thermal where
  zone : Zone
  sensor : SensorState
  lastTemp : Option Int
  missed : Nat
  sampleAt : Nat
  sampled : Bool
  deriving DecidableEq, Repr

/-! ### Mirror control (R129, R146) -/

inductive Mode where
  | split
  | mirror
  deriving DecidableEq, Repr

inductive Health where
  | inService
  | degraded
  | rebuilding
  deriving DecidableEq, Repr

/-- The rebuild record (R146); the source is the channel other than the target. -/
structure Rebuild where
  target : Chan
  next : Nat
  copies : List (InternalNo × Nat)
  frontier : Nat
  deriving DecidableEq, Repr

/-- Mirror control (R129). -/
structure Mirror where
  mode : Mode
  healthA : Health
  healthB : Health
  uncA : Nat
  uncB : Nat
  toggle : Chan
  rebuild : Option Rebuild
  deriving DecidableEq, Repr

/-! ### Answers, rejects, notices (R182 to R190) -/

/-- A channel's part of a STAT answer (R182). -/
structure ChannelStat where
  power : PowerState
  health : Health
  queueLength : Nat
  openBanks : Nat
  debt : Int
  trimOwed : Bool
  uncorrectable : Nat
  deriving DecidableEq, Repr

/-- The snapshot of a STAT answer (R182); the rebuild part is target, next line and frontier. -/
structure Snapshot where
  mode : Mode
  zone : Zone
  sensor : SensorState
  temperature : Option Int
  hostEntries : Nat
  internalEntries : Nat
  holdLength : Nat
  barrier : Bool
  replayCount : Nat
  rebuild : Option (Chan × Nat × Nat)
  chanA : ChannelStat
  chanB : ChannelStat
  deriving DecidableEq, Repr

/-- What an answer's kind adds after the status (R184). -/
inductive Extra where
  | nothing
  | read (served : Option Chan) (data : Option ReadData)
  | param (id : Byte)
  | value (id : Byte) (v : Word32)
  | snapshot (s : Snapshot)
  deriving DecidableEq, Repr

/-- An answer (R184); `kind` is the request's kind code (R192). -/
structure Answer where
  kind : Byte
  tag : Tag
  status : Status
  extra : Extra
  deriving DecidableEq, Repr

/-- Reject reasons (R185). -/
inductive Reason where
  | malformed
  | duplicate
  | restarting
  deriving DecidableEq, Repr

/-- A reject (R185): the tag and kind bytes as received, absent where the payload is too short. -/
structure Reject where
  tag : Option Byte
  reason : Reason
  kind : Option Byte
  deriving DecidableEq, Repr

/-- What stands in the answer queue (R31). -/
inductive QueueItem where
  | answer (a : Answer)
  | reject (r : Reject)
  deriving DecidableEq, Repr

/-- Notice kinds (R186). -/
inductive NoticeKind where
  | ready
  | zone
  | sensorLost
  | sensorBack
  | linkRecovered
  | corrected
  | uncorrectable
  | degraded
  | rebuildDone
  | rebuildAborted
  deriving DecidableEq, Repr

/-- Degrade reasons (R143). -/
inductive DegradeReason where
  | limit
  | request
  deriving DecidableEq, Repr

/-- The fields of a posting (R190). -/
inductive NoticeFields where
  | nothing
  | zone (old new : Zone) (temperature : Option Int)
  | address (a : Word32)
  | reason (r : DegradeReason)
  deriving DecidableEq, Repr

/-- A notice record (R186). -/
structure Notice where
  kind : NoticeKind
  chan : Option Chan
  count : Nat
  first : NoticeFields
  latest : NoticeFields
  deriving DecidableEq, Repr

/-! ### Frame link (R155) -/

/-- The message of an ANSWER or NOTICE frame. -/
inductive FrameMsg where
  | item (q : QueueItem)
  | notice (n : Notice)
  deriving DecidableEq, Repr

/-- A frame of the replay buffer: its sequence and message; the class follows from the message (R163). -/
structure Buffered where
  seq : Byte
  msg : FrameMsg
  deriving DecidableEq, Repr

/-- A frame under way on the transmit path (R167): its bytes and the moment its transmission ends. -/
structure Transmission where
  bytes : List Byte
  ends : Nat
  deriving DecidableEq, Repr

/-- The frame link (R155). The resend point is the place of a frame in the replay buffer, 0 the
oldest; pending SYNR holds the ready flag it carries (R157). -/
structure Link where
  up : Bool
  expected : Byte
  resendOutstanding : Bool
  ackOwed : Bool
  ackTimer : Timer
  nextSeq : Byte
  replay : List Buffered
  replayTimer : Timer
  replayCount : Nat
  resendPoint : Option Nat
  pendingSynr : Option Bool
  pendingRsnd : Bool
  pendingAck : Bool
  tx : Option Transmission
  answersSinceNotice : Nat
  deriving DecidableEq, Repr

/-! ### Settings table (R195) -/

inductive PagePolicy where
  | keepOpen
  | closeIdle
  deriving DecidableEq, Repr

inductive ReadChoice where
  | alternate
  | preferA
  | preferB
  deriving DecidableEq, Repr

/-- The writable parameters other than MODE, in the units of R195. -/
structure Settings where
  pagePolicy : PagePolicy
  idleClose : Nat
  starveLimit : Nat
  napIdle : Nat
  retainIdle : Nat
  writeback : Bool
  readChoice : ReadChoice
  degradeLimit : Nat
  noticeMask : BitVec 10
  replayTimeout : Nat
  ackDelay : Nat
  pullIn : Nat
  rebuildDepth : Nat
  deriving DecidableEq, Repr

/-! ### Request table (R16 to R40) -/

/-- The request table. `arrivals` counts the entries created since power-on: the arrival counter of
R18 is its value modulo 2^32, and the order of creation is kept across a wrap. -/
structure Table where
  hosts : Vector (Option Entry) 64
  internals : Vector (Option CopyEntry) 4
  arrivals : Nat
  holdQueue : List Tag
  barrier : Option Tag
  answers : List QueueItem
  restarting : Bool
  ready : Bool
  deriving DecidableEq, Repr

/-! ### The part -/

/-- A judgement that an event makes after the answers it posts, and so after the releases and the copies
that these lead to: a bank's idleness (R52 step 4), or a channel's (R89 step 4, R116, R120 step 4, R122). -/
inductive Judgement where
  | bank (c : Chan) (b : BankNo)
  | channel (c : Chan)
  deriving DecidableEq, Repr

/-- The state of the part. `clock` is the present moment, `draws` counts the free orders drawn
(log 6), `judgements` lists the judgements that wait for the release or the copies of the present event
(log 22), `pending` is the queue of waiting commands, first in, first out. -/
structure State where
  clock : Nat
  powered : Bool
  pinHeld : Bool
  mem : Memory
  table : Table
  chA : Channel
  chB : Channel
  therm : Thermal
  mir : Mirror
  notices : List Notice
  conf : Settings
  link : Link
  draws : Nat
  judgements : List Judgement
  pending : List Instr
  deriving DecidableEq, Repr

/-! ### Values after power-on -/

/-- A bank after power-on (R74). -/
def Bank.powerOn : Bank where
  state := .maintaining
  openRow := none
  closable := false
  reopenable := false
  access := none
  idleClose := .stopped
  openSettle := none
  minimumOpen := none
  rowCycle := none
  closeTimer := none
  readAccess := none
  writeAccess := none
  writeRecovery := none

/-- A channel after power-on at `now`: R74, R95, R128. -/
def Channel.powerOn (now : Nat) : Channel where
  ctl :=
    { queue := [], banks := Vector.replicate 16 Bank.powerOn, openings := [], openSpacing := none,
      pathBusy := false, sweepTimer := none, shortTrimTimer := none,
      longTrimTimer := some (now + Config.longTrim), oldest := none, passed := 0, due := false }
  refr :=
    { debt := 0, timer := none, demand := .none, sweeping := false, trimOwed := false,
      trimming := .long, owedWaiters := [], runningWaiters := [] }
  pwr :=
    { state := .starting, napIdle := none, retainIdle := none, exit := .stopped, onward := false,
      pendingPower := none, idle := false }

/-- The power-on values of the settings (R195). -/
def Settings.powerOn : Settings where
  pagePolicy := .keepOpen
  idleClose := 400
  starveLimit := 8
  napIdle := 2000
  retainIdle := 0
  writeback := true
  readChoice := .alternate
  degradeLimit := 16
  noticeMask := 0
  replayTimeout := 20
  ackDelay := 500
  pullIn := 2
  rebuildDepth := 2

/-- The request table after power-on (R40, R201). -/
def Table.powerOn : Table where
  hosts := Vector.replicate 64 none
  internals := Vector.replicate 4 none
  arrivals := 0
  holdQueue := []
  barrier := none
  answers := []
  restarting := false
  ready := false

/-- The frame link after power-on (R171). -/
def Link.powerOn : Link where
  up := false
  expected := 0
  resendOutstanding := false
  ackOwed := false
  ackTimer := none
  nextSeq := 0
  replay := []
  replayTimer := none
  replayCount := 0
  resendPoint := none
  pendingSynr := none
  pendingRsnd := false
  pendingAck := false
  tx := none
  answersSinceNotice := 0

/-- Mirror control after power-on (R152). -/
def Mirror.powerOn : Mirror where
  mode := .split
  healthA := .inService
  healthB := .inService
  uncA := 0
  uncB := 0
  toggle := .a
  rebuild := none

/-- The thermal monitor after power-on at `now` (R109, R98). -/
def Thermal.powerOn (now : Nat) : Thermal where
  zone := .normal
  sensor := .awaiting
  lastTemp := none
  missed := 0
  sampleAt := now + Config.sensorPeriod
  sampled := false

/-- The part right after the power-on event at `now` (R201), with `pending` still waiting. -/
def State.powerOn (now draws : Nat) (pending : List Instr) : State where
  clock := now
  powered := true
  pinHeld := false
  mem := { cells := [] }
  table := Table.powerOn
  chA := Channel.powerOn now
  chB := Channel.powerOn now
  therm := Thermal.powerOn now
  mir := Mirror.powerOn
  notices := []
  conf := Settings.powerOn
  link := Link.powerOn
  draws := draws
  judgements := []
  pending := pending

/-- The machine right after reset: the part after power-on (R201), at moment 0, with no command
waiting. -/
def State.reset : State := State.powerOn 0 0 []

/-! ### Why a step can stop -/

/-- Faults. The manual describes no stop of the part, so there is none. -/
inductive Fault where
  deriving DecidableEq, Repr

/-- Refusals. -/
inductive Refusal where
  /-- Raised by an arm of `exec` that has no meaning yet; safe, since the model stops where the part
  goes on. No arm raises it. -/
  | notModelled (mnemonic : String)
  deriving DecidableEq, Repr

end Sys2Proof.Machine
end

