-- ==== Sys2Proof/Machine/Ops.lean ====
section
/-! DEFINITION. The named operations that every meaning is written over: the accessors of the two
channels and their blocks, the storage array, the entries, the notice table and the answer queue.
What other machines call taking an exception this part does not have: an error is a status, a reject
or a notice, and those are posted here. -/

namespace Sys2Proof.Machine
open Sys2Proof

/-! ### Channels and their blocks -/

/-- The blocks of channel `c`. -/
def State.ch (s : State) : Chan → Channel
  | .a => s.chA
  | .b => s.chB

/-- The state with the blocks of channel `c` replaced. -/
def State.setCh (s : State) (c : Chan) (x : Channel) : State :=
  match c with
  | .a => { s with chA := x }
  | .b => { s with chB := x }

def State.modCtl (s : State) (c : Chan) (f : Control → Control) : State :=
  s.setCh c { s.ch c with ctl := f (s.ch c).ctl }

def State.modRefr (s : State) (c : Chan) (f : Refresh → Refresh) : State :=
  s.setCh c { s.ch c with refr := f (s.ch c).refr }

def State.modPwr (s : State) (c : Chan) (f : Power → Power) : State :=
  s.setCh c { s.ch c with pwr := f (s.ch c).pwr }

/-- The record of bank `b`. -/
def Control.bank (k : Control) (b : BankNo) : Bank := k.banks[b]

/-- The controller with the record of bank `b` changed by `f`. -/
def Control.modBank (k : Control) (b : BankNo) (f : Bank → Bank) : Control :=
  { k with banks := k.banks.set b (f (k.bank b)) }

/-- The controller with every bank record changed by `f`. -/
def Control.mapBanks (k : Control) (f : Bank → Bank) : Control := { k with banks := k.banks.map f }

def State.modBank (s : State) (c : Chan) (b : BankNo) (f : Bank → Bank) : State :=
  s.modCtl c fun k => k.modBank b f

/-- The sixteen banks, in order. -/
def allBanks : List BankNo := [0, 1, 2, 3, 4, 5, 6, 7, 8, 9, 10, 11, 12, 13, 14, 15]

/-- The sixty-four tags, in order. -/
def allTags : List Tag := List.finRange 64

/-- The four internal entries, in order. -/
def allInternals : List InternalNo := [0, 1, 2, 3]

/-- The channel's next event is followed by a scheduling decision (R54). -/
def State.callDecision (s : State) (c : Chan) : State := s.modCtl c fun k => { k with due := true }

/-! ### Storage array (R2, R8) -/

/-- The index of the record of channel line `m` of channel `c`: 2 × M + c. -/
def recordIndex (c : Chan) (m : Nat) : Nat := 2 * m + c.num

def LineRec.isUnset : LineRec → Bool
  | .unset => true
  | _ => false

def cellsRead (k : Nat) : List (Nat × LineRec) → LineRec
  | [] => .unset
  | (a, r) :: t => if a = k then r else cellsRead k t

/-- The record at `k` replaced in a rising list; an UNSET record is taken out of the list. -/
def cellsWrite (k : Nat) (r : LineRec) : List (Nat × LineRec) → List (Nat × LineRec)
  | [] => if r.isUnset then [] else [(k, r)]
  | (a, x) :: t =>
    if k < a then (if r.isUnset then (a, x) :: t else (k, r) :: (a, x) :: t)
    else if k = a then (if r.isUnset then t else (k, r) :: t)
    else (a, x) :: cellsWrite k r t

/-- The line record of channel line `m` of channel `c`. -/
def Memory.read (mem : Memory) (c : Chan) (m : Nat) : LineRec := cellsRead (recordIndex c m) mem.cells

/-- The array with the line record of channel line `m` of channel `c` replaced. -/
def Memory.write (mem : Memory) (c : Chan) (m : Nat) (r : LineRec) : Memory :=
  { cells := cellsWrite (recordIndex c m) r mem.cells }

/-- Rising from `lo` on, below the number of records, with no UNSET record listed. -/
def cellsWf (lo : Nat) : List (Nat × LineRec) → Bool
  | [] => true
  | (a, r) :: t =>
    decide (lo ≤ a) && decide (a < 2 * Config.channelLines) && !r.isUnset && cellsWf (a + 1) t

/-- The canonical form of the storage array. -/
def Memory.wf (mem : Memory) : Bool := cellsWf 0 mem.cells

/-- The effect of a disturbance on a line record (R8). -/
def LineRec.disturbed : LineRec → LineRec
  | .unset => .unset
  | .intact d => .flawed d
  | .flawed _ => .broken
  | .broken => .broken
  | .poisoned => .poisoned

/-! ### Entries -/

/-- The entry of tag `t`, if in use (R16). -/
def State.host (s : State) (t : Tag) : Option Entry := s.table.hosts[t]

/-- Internal entry `n`, if in use. -/
def State.internal (s : State) (n : InternalNo) : Option CopyEntry := s.table.internals[n]

def State.setHost (s : State) (t : Tag) (e : Option Entry) : State :=
  { s with table := { s.table with hosts := s.table.hosts.set t e } }

def State.setInternal (s : State) (n : InternalNo) (e : Option CopyEntry) : State :=
  { s with table := { s.table with internals := s.table.internals.set n e } }

/-- The entry of tag `t` changed by `f`, if it is in use. -/
def State.modHost (s : State) (t : Tag) (f : Entry → Entry) : State :=
  s.setHost t ((s.host t).map f)

def State.modInternal (s : State) (n : InternalNo) (f : CopyEntry → CopyEntry) : State :=
  s.setInternal n ((s.internal n).map f)

/-- The arrival counter (R18). -/
def State.arrivalCounter (s : State) : BitVec 32 := BitVec.ofNat 32 s.table.arrivals

/-- The arrival number of an entry or leg (R18). -/
def arrivalNumber (age : Nat) : BitVec 32 := BitVec.ofNat 32 age

/-- Host entries in use (R16). -/
def Table.hostsInUse (t : Table) : Nat := (allTags.filter fun g => t.hosts[g].isSome).length

/-- Internal entries in use (R16). -/
def Table.internalsInUse (t : Table) : Nat := (allInternals.filter fun n => t.internals[n].isSome).length

/-! ### Legs in queues -/

def Leg.id (l : Leg) : LegId := { owner := l.owner, no := l.no }

/-- The leg is in its queue and not issued (R27). -/
def Leg.unissued (l : Leg) : Bool := l.state == .waiting || l.state == .blocked

def LegKind.isWrite : LegKind → Bool
  | .write _ => true
  | _ => false

/-- A leg put in its place in the queue (R26): after every leg whose arrival number is lower than or
equal to its own. -/
def insertLeg (l : Leg) : List Leg → List Leg
  | [] => [l]
  | m :: ms => if m.age ≤ l.age then m :: insertLeg l ms else l :: m :: ms

/-- The queue without leg `i`. -/
def eraseLeg (i : LegId) (q : List Leg) : List Leg := q.filter fun l => l.id != i

def findLeg (i : LegId) (q : List Leg) : Option Leg := q.find? fun l => l.id == i

/-- The queue with leg `i` changed by `f`. -/
def mapLeg (i : LegId) (f : Leg → Leg) (q : List Leg) : List Leg :=
  q.map fun l => if l.id == i then f l else l

/-- The oldest leg of a queue: the first WAITING leg (R57). -/
def oldestOf (q : List Leg) : Option LegId := (q.find? fun l => l.state == .waiting).map Leg.id

/-- The oldest-leg record brought up to the queue: a new oldest leg starts a fresh count (R57). -/
def Control.track (k : Control) : Control :=
  if oldestOf k.queue = k.oldest then k else { k with oldest := oldestOf k.queue, passed := 0 }

/-- The queue replaced, with the oldest leg found again and a decision called (R43, R57). -/
def Control.withQueue (k : Control) (q : List Leg) : Control :=
  Control.track { k with queue := q, due := true }

/-- The legs of an entry in the queues of both channels. -/
def State.queued (s : State) (o : Owner) : List Leg :=
  (s.chA.ctl.queue ++ s.chB.ctl.queue).filter fun l => l.owner == o

/-! ### Notices (R186 to R188) -/

/-- The code of a notice kind (R194). -/
def NoticeKind.code : NoticeKind → Nat
  | .ready => 1
  | .zone => 2
  | .sensorLost => 3
  | .sensorBack => 4
  | .linkRecovered => 5
  | .corrected => 6
  | .uncorrectable => 7
  | .degraded => 8
  | .rebuildDone => 9
  | .rebuildAborted => 10

/-- NOTICE_MASK holds the kind's flag: bit k − 1 for code k (R192). -/
def masked (mask : BitVec 10) (k : NoticeKind) : Bool := mask.getLsbD (k.code - 1)

def Notice.hasKey (n : Notice) (k : NoticeKind) (c : Option Chan) : Bool := n.kind == k && n.chan == c

/-- A posting to the table: a record of the key counts up and takes the fields, else a record is
appended (R187). -/
def noticesPost (k : NoticeKind) (c : Option Chan) (f : NoticeFields) : List Notice → List Notice
  | [] => [{ kind := k, chan := c, count := 1, first := f, latest := f }]
  | n :: ns =>
    if n.hasKey k c then { n with count := min (n.count + 1) Config.maxNoticeCount, latest := f } :: ns
    else n :: noticesPost k c f ns

/-- A posting (R187, R188); a record that joins an empty table becomes its head, which makes answers
since notice 0 (R169). -/
def State.postNotice (s : State) (k : NoticeKind) (c : Option Chan) (f : NoticeFields) : State :=
  if masked s.conf.noticeMask k then s
  else
    { s with
      notices := noticesPost k c f s.notices
      link := { s.link with
        answersSinceNotice := if s.notices = [] then 0 else s.link.answersSinceNotice } }

/-! ### Answers and rejects (R24, R30, R31, R184) -/

/-- The kind code of a request (R192). -/
def reqCode : Req → Byte
  | .rd .. => 1
  | .wr .. => 2
  | .bar => 3
  | .can _ => 4
  | .get _ => 5
  | .setParam .. => 6
  | .pwr .. => 7
  | .trim _ => 8
  | .svc .. => 9
  | .stat => 10
  | .rst => 11

/-- The statuses with which an RD answer carries data (R184). -/
def Status.carriesData : Status → Bool
  | .ok | .corrected | .recovered => true
  | _ => false

/-- What an entry's kind adds to its answer (R184). GET and STAT answer through `answerWith`. -/
def Entry.extra (e : Entry) (st : Status) : Extra :=
  match e.req with
  | .rd .. => .read e.served (if st.carriesData then e.data else none)
  | .setParam id _ => .param id
  | .get id => .value id 0
  | .wr .. | .bar | .can _ | .pwr .. | .trim _ | .svc .. | .stat | .rst => .nothing

def State.pushItem (s : State) (q : QueueItem) : State :=
  { s with table := { s.table with answers := s.table.answers ++ [q] } }

/-- The answer of tag `t` posted: the entry becomes ANSWERED (R30). -/
def State.answerWith (s : State) (t : Tag) (st : Status) (x : Entry → Extra) : State :=
  match s.host t with
  | none => s
  | some e =>
    (s.setHost t (some { e with state := .answered, status := some st })).pushItem
      (.answer { kind := reqCode e.req, tag := t, status := st, extra := x e })

/-- The answer of tag `t` posted with status `st` and what its kind adds. -/
def State.answer (s : State) (t : Tag) (st : Status) : State := s.answerWith t st fun e => e.extra st

def QueueItem.isReject : QueueItem → Bool
  | .reject _ => true
  | .answer _ => false

def rejectsIn (q : List QueueItem) : Nat := (q.filter QueueItem.isReject).length

/-- A reject posted; dropped when 32 rejects wait (R24). -/
def State.reject (s : State) (m : RawMsg) (r : Reason) : State :=
  if Config.maxRejects ≤ rejectsIn s.table.answers then s
  else s.pushItem (.reject { tag := m.tag, reason := r, kind := m.kind })

/-! ### Mirror control's record -/

def Mirror.health (m : Mirror) : Chan → Health
  | .a => m.healthA
  | .b => m.healthB

def Mirror.setHealth (m : Mirror) (c : Chan) (h : Health) : Mirror :=
  match c with
  | .a => { m with healthA := h }
  | .b => { m with healthB := h }

def Mirror.unc (m : Mirror) : Chan → Nat
  | .a => m.uncA
  | .b => m.uncB

def Mirror.setUnc (m : Mirror) (c : Chan) (n : Nat) : Mirror :=
  match c with
  | .a => { m with uncA := n }
  | .b => { m with uncB := n }

/-- A channel's uncorrectable count rises by one, staying at 65,535 (R140). -/
def State.countUncorrectable (s : State) (c : Chan) : State :=
  { s with mir := s.mir.setUnc c (min (s.mir.unc c + 1) Config.maxUncorrectable) }

/-! ### Free orders (log 6) -/

/-- A list put in order of rising rank; a list of at most one member needs no rank. -/
def insertRanked {α : Type} (rank : α → Nat) (x : α) : List α → List α
  | [] => [x]
  | y :: ys => if rank x < rank y then x :: y :: ys else y :: insertRanked rank x ys

def sortRanked {α : Type} (rank : α → Nat) : List α → List α
  | [] => []
  | x :: xs => insertRanked rank x (sortRanked rank xs)

end Sys2Proof.Machine
end

