-- ==== Sys2Proof/Machine/Operands.lean ====
section
/-! DEFINITION. The operand forms of memory requests: geometry and the two address decodes (R1, R3,
R4), alignment and range (R5, R6), line addresses (R7), full and partial writes, masks, halves and
merges (R13 to R15), and what a read returns (R10). -/

namespace Sys2Proof.Machine
open Sys2Proof

/-! ### Geometry and decode -/

/-- M = row × 1024 + column × 16 + bank (R1). -/
def Loc.line (l : Loc) : Nat := l.row.val * 1024 + l.col.val * 16 + l.bank.val

/-- Bank, column and row of channel line `m` (R1). -/
def locOfLine (m : Nat) : Loc where
  bank := ⟨m % 16, Nat.mod_lt _ (by decide)⟩
  row := ⟨m / 1024 % 16384, Nat.mod_lt _ (by decide)⟩
  col := ⟨m / 16 % 64, Nat.mod_lt _ (by decide)⟩

/-- The half that a HALF request names: bit 5 of the address (R5). -/
def secondHalf (a : Word32) : Bool := a.getLsbD 5

/-- The decode of an address in range, in the mode in force (R3, R4). -/
def decodeAddr (mode : Mode) (a : Word32) : Decoded :=
  let l := a.toNat / 64
  match mode with
  | .split =>
    { chan := some (if l % 2 = 0 then .a else .b), loc := locOfLine (l / 2), second := secondHalf a }
  | .mirror => { chan := none, loc := locOfLine l, second := secondHalf a }

/-- R5. -/
def aligned (sz : Size) (a : Word32) : Bool :=
  match sz with
  | .line => a.toNat % 64 == 0
  | .half => a.toNat % 32 == 0

/-- R6. -/
def inRange (mode : Mode) (a : Word32) : Bool :=
  match mode with
  | .split => decide (a.toNat ≤ 0x7FFFFFFF)
  | .mirror => decide (a.toNat ≤ 0x3FFFFFFF)

/-- The line address that the part reports for channel line `m` of channel `c` (R7). -/
def lineAddress (mode : Mode) (c : Chan) (m : Nat) : Word32 :=
  match mode with
  | .split => BitVec.ofNat 32 (64 * (2 * m + c.num))
  | .mirror => BitVec.ofNat 32 (64 * m)

/-! ### Writes -/

/-- A full write: LINE with the mask absent or selecting all 64 bytes (R13). -/
def fullWrite (sz : Size) (mask : Option (BitVec 64)) : Bool :=
  match sz, mask with
  | .line, none => true
  | .line, some m => m == BitVec.allOnes 64
  | .half, _ => false

/-- The request's data byte for byte `k` of the line, if the request selects that byte (R13, R15). -/
def selectedByte (sz : Size) (second : Bool) (mask : Option (BitVec 64)) (data : Bytes 64) (k : Fin 64) :
    Option Byte :=
  match sz with
  | .line => if (mask.map fun m => m.getLsbD k.val).getD true then some data[k] else none
  | .half =>
    if second == decide (32 ≤ k.val) then
      let j : Fin 64 := ⟨k.val % 32, Nat.lt_of_lt_of_le (Nat.mod_lt _ (by decide)) (by decide)⟩
      if (mask.map fun m => m.getLsbD j.val).getD true then some data[j] else none
    else none

/-- The merge of a partial write onto a base line (R15). -/
def mergeLine (sz : Size) (second : Bool) (mask : Option (BitVec 64)) (data base : Bytes 64) : Bytes 64 :=
  Vector.ofFn fun k => (selectedByte sz second mask data k).getD base[k]

/-- What the writes of a partial write whose FETCH found `r` receive (R15, R139). -/
def mergeStore (sz : Size) (second : Bool) (mask : Option (BitVec 64)) (data : Bytes 64) : LineRec → Store
  | .unset => .line (mergeLine sz second mask data (zeroBytes 64))
  | .intact d => .line (mergeLine sz second mask data d)
  | .flawed d => .line (mergeLine sz second mask data d)
  | .broken => .poison
  | .poisoned => .poison

/-- What a COPY WRITE whose FETCH found `r` receives (R148). -/
def copyStore : LineRec → Store
  | .unset => .line (zeroBytes 64)
  | .intact d => .line d
  | .flawed d => .line d
  | .broken => .poison
  | .poisoned => .poison

/-- The line record that a completing WRITE leaves (R13): INTACT with its line, or POISONED. -/
def Store.record : Store → Option LineRec
  | .absent => none
  | .line d => some (.intact d)
  | .poison => some .poisoned

/-! ### Reads -/

/-- 32 bytes of a line: the half that R5 selects. -/
def halfOf (second : Bool) (d : Bytes 64) : Bytes 32 :=
  Vector.ofFn fun k : Fin 32 =>
    if second then d[(⟨32 + k.val, by omega⟩ : Fin 64)] else d[(⟨k.val, by omega⟩ : Fin 64)]

/-- The data that a read of size `sz` records from a line (R10). -/
def readData (sz : Size) (second : Bool) (d : Bytes 64) : ReadData :=
  match sz with
  | .line => .whole d
  | .half => .half (halfOf second d)

/-- The data that a line record holds, as it reads after correction (R2). -/
def LineRec.data? : LineRec → Option (Bytes 64)
  | .intact d => some d
  | .flawed d => some d
  | .unset | .broken | .poisoned => none

/-- The status that a READ records for the condition it found (R10). -/
def LineRec.readStatus : LineRec → Status
  | .unset => .unset
  | .intact _ => .ok
  | .flawed _ => .corrected
  | .broken => .uncorrectable
  | .poisoned => .poison

/-- The entry status after a recovery READ (R138). -/
def LineRec.recoveryStatus : LineRec → Status
  | .unset => .unset
  | .intact _ => .recovered
  | .flawed _ => .recovered
  | .broken => .uncorrectable
  | .poisoned => .poison

/-- The entry status that the FETCH of a partial write records (R15). -/
def LineRec.fetchStatus : LineRec → Status
  | .unset => .ok
  | .intact _ => .ok
  | .flawed _ => .ok
  | .broken => .poisonedMerge
  | .poisoned => .poison

/-- The entry status after a recovery FETCH (R139). -/
def LineRec.recoveryFetchStatus : LineRec → Status
  | .unset => .recovered
  | .intact _ => .recovered
  | .flawed _ => .recovered
  | .broken => .poisonedMerge
  | .poisoned => .poison

/-! ### Parameters (R192, R195, R199) -/

def Mode.code : Mode → Nat
  | .split => 0
  | .mirror => 1

def PagePolicy.code : PagePolicy → Nat
  | .keepOpen => 0
  | .closeIdle => 1

def ReadChoice.code : ReadChoice → Nat
  | .alternate => 0
  | .preferA => 1
  | .preferB => 2

/-- What a parameter id names (R195, R199). -/
inductive ParamKind where
  | writable
  | readOnly
  | unknown
  deriving DecidableEq, Repr

def paramKind (id : Byte) : ParamKind :=
  if 1 ≤ id.toNat ∧ id.toNat ≤ 14 then .writable
  else if 32 ≤ id.toNat ∧ id.toNat ≤ 35 then .readOnly
  else .unknown

/-- The value lies in the parameter's range (R195, R198). -/
def paramInRange (id : Byte) (value : Word32) : Bool :=
  let v := value.toNat
  match id.toNat with
  | 1 => decide (v ≤ 1)
  | 2 => decide (v ≤ 1)
  | 3 => decide (v ≤ 10000)
  | 4 => decide (1 ≤ v ∧ v ≤ 32)
  | 5 => decide (v ≤ 1000000)
  | 6 => decide (v ≤ 1000000)
  | 7 => decide (v ≤ 1)
  | 8 => decide (v ≤ 2)
  | 9 => decide (v ≤ 255)
  | 10 => decide (v < 1024)
  | 11 => decide (1 ≤ v ∧ v ≤ 1000)
  | 12 => decide (50 ≤ v ∧ v ≤ 5000)
  | 13 => decide (v ≤ 2)
  | 14 => decide (1 ≤ v ∧ v ≤ 4)
  | _ => false

/-- The settings with a parameter written (R178); MODE is mirror control's (R196). -/
def Settings.write (f : Settings) (id : Byte) (value : Word32) : Settings :=
  let v := value.toNat
  match id.toNat with
  | 2 => { f with pagePolicy := if v = 0 then .keepOpen else .closeIdle }
  | 3 => { f with idleClose := v }
  | 4 => { f with starveLimit := v }
  | 5 => { f with napIdle := v }
  | 6 => { f with retainIdle := v }
  | 7 => { f with writeback := v == 1 }
  | 8 => { f with readChoice := if v = 0 then .alternate else if v = 1 then .preferA else .preferB }
  | 9 => { f with degradeLimit := v }
  | 10 => { f with noticeMask := BitVec.ofNat 10 v }
  | 11 => { f with replayTimeout := v }
  | 12 => { f with ackDelay := v }
  | 13 => { f with pullIn := v }
  | 14 => { f with rebuildDepth := v }
  | _ => f

/-- The value of a parameter or identification value (R177, R195, R196, R199); none for other ids. -/
def paramValue (mode : Mode) (f : Settings) (id : Byte) : Option Word32 :=
  let w (n : Nat) : Option Word32 := some (BitVec.ofNat 32 n)
  match id.toNat with
  | 1 => w mode.code
  | 2 => w f.pagePolicy.code
  | 3 => w f.idleClose
  | 4 => w f.starveLimit
  | 5 => w f.napIdle
  | 6 => w f.retainIdle
  | 7 => w (if f.writeback then 1 else 0)
  | 8 => w f.readChoice.code
  | 9 => w f.degradeLimit
  | 10 => w f.noticeMask.toNat
  | 11 => w f.replayTimeout
  | 12 => w f.ackDelay
  | 13 => w f.pullIn
  | 14 => w f.rebuildDepth
  | 32 => w Config.partId
  | 33 => w Config.revision
  | 34 => w Config.channelLines
  | 35 => w Config.banks
  | _ => none

end Sys2Proof.Machine
end

