-- ==== Sys2Proof/Machine/Flags.lean ====
section
/-! DEFINITION. Every condition that the blocks judge: thermal zones (R99, R100), refresh intervals and
sweep demands (R78 to R84), idleness (R61, R111), the maintenance gate (R65), eligibility and the step
that a scheduling decision takes next (R55 to R60, R67, R69, R86), the barrier's test (R32), copy
starts (R147), the drain test (R206), the arbiter's choice (R168, R169) and the order of expiries. -/

namespace Sys2Proof.Machine
open Sys2Proof

/-! ### Thermal zones -/

def Zone.rank : Zone → Nat
  | .normal => 0
  | .warm => 1
  | .hot => 2
  | .critical => 3

/-- HOT or CRITICAL (R106). -/
def Zone.isHot (z : Zone) : Bool := decide (2 ≤ z.rank)

/-- The rising zone of a reading (R99). -/
def risingZone (t : Int) : Zone :=
  if 125 ≤ t then .critical else if 105 ≤ t then .hot else if 85 ≤ t then .warm else .normal

/-- The zone after a fall from `z` at a reading (R100). -/
def fallZone (z : Zone) (t : Int) : Zone :=
  let fromWarm : Zone := if t ≤ 81 then .normal else .warm
  let fromHot : Zone := if t ≤ 101 then fromWarm else .hot
  let fromCritical : Zone := if t ≤ 121 then fromHot else .critical
  match z with
  | .normal => .normal
  | .warm => fromWarm
  | .hot => fromHot
  | .critical => fromCritical

/-- A reading applied to the zone with hysteresis (R99, R100). -/
def hysteresisZone (z : Zone) (t : Int) : Zone :=
  if z.rank < (risingZone t).rank then risingZone t else fallZone z t

/-- A die temperature as the sensor reports it (R98). -/
def sensorRange (t : Int) : Int := if t < -40 then -40 else if 150 < t then 150 else t

/-! ### Refresh -/

/-- The refresh interval of a zone (R78). -/
def refreshInterval : Zone → Nat
  | .normal => Config.ns 6400
  | .warm => Config.ns 3200
  | .hot => Config.ns 1600
  | .critical => Config.ns 1600

/-- The power states in which the refresh timer runs (R78). -/
def PowerState.timerRuns : PowerState → Bool
  | .starting | .retain | .retainExit => false
  | .active | .nap | .napExit | .retainEntry => true

/-- The ground on which a sweep is owed (R81, R82, R83). -/
def Channel.demandNow (x : Channel) (pullIn : Nat) : Demand :=
  if Config.urgentDebt ≤ x.refr.debt ∧ x.pwr.state.timerRuns = true then .urgent
  else if x.pwr.state = .active ∧ x.ctl.queue = [] ∧ -(pullIn : Int) < x.refr.debt then .opportunistic
  else if x.pwr.state = .retainEntry ∧ 0 < x.refr.debt then .retention
  else .none

/-- Maintenance is owed or in progress (R94). -/
def Refresh.maintenance (r : Refresh) : Bool :=
  r.demand != .none || r.sweeping || r.trimOwed || r.trimming != .none

/-! ### Banks and idleness -/

/-- No leg of the queue, in any state, addresses the bank and row (R61). -/
def noLegFor (q : List Leg) (b : BankNo) (r : RowNo) : Bool :=
  q.all fun l => !(l.loc.bank == b && l.loc.row == r)

/-- The bank is idle (R61). -/
def Control.bankIdle (k : Control) (b : BankNo) : Bool :=
  let x := k.bank b
  x.state == .opened && x.access.isNone &&
    (match x.openRow with
     | none => false
     | some r => noLegFor k.queue b r)

/-- The bank is open: OPENING, OPEN or CLOSING (R44). -/
def Bank.isOpen (x : Bank) : Bool := x.openRow.isSome

/-- The open bank count (R44). -/
def Control.openBanks (k : Control) : Nat := (allBanks.filter fun b => (k.bank b).isOpen).length

def Control.allClosed (k : Control) : Bool := allBanks.all fun b => (k.bank b).state == .closed

/-- The channel is idle (R111). -/
def Channel.isIdle (x : Channel) (restarting : Bool) : Bool :=
  x.pwr.state == .active && x.ctl.queue.isEmpty && !x.refr.maintenance && !restarting &&
    (allBanks.all fun b => (x.ctl.bank b).state != .opening && (x.ctl.bank b).state != .closing) &&
    !x.ctl.pathBusy

/-- The condition under which RETAIN_ENTRY completes (R119). -/
def Channel.retainReady (x : Channel) : Bool :=
  x.pwr.state == .retainEntry && x.ctl.queue.isEmpty && x.ctl.allClosed && !x.ctl.pathBusy &&
    !x.refr.maintenance

/-- The channel is at rest (R206). -/
def Control.atRest (k : Control) : Bool :=
  k.queue.all (fun l => l.state != .issued) && k.allClosed

/-! ### The scheduling decision -/

/-- The maintenance gate is up (R65): a sweep or trim is owed, or the retention gate or the drain gate
stands. -/
def Channel.gateUp (x : Channel) (restarting : Bool) : Bool :=
  x.refr.demand != .none || x.refr.trimOwed || x.pwr.state == .retainEntry || restarting

/-- The controller makes decisions: ACTIVE or RETAIN_ENTRY with no sweep or trim in progress (R54). -/
def Channel.decides (x : Channel) : Bool :=
  (x.pwr.state == .active || x.pwr.state == .retainEntry) && !x.refr.sweeping && x.refr.trimming == .none

/-- An operation of the controller (R56). -/
inductive Operation where
  | issue (leg : LegId)
  | openBank (bank : BankNo) (row : RowNo)
  | closeBank (bank : BankNo)
  | sweep
  | shortTrim
  deriving DecidableEq, Repr

/-- The opening record allows an open (R49). -/
def Control.mayOpen (k : Control) : Bool :=
  decide (k.openings.length < Config.openingRecordSize) && k.openSpacing.isNone

/-- The leg is eligible (R55). -/
def Control.eligible (k : Control) (l : Leg) : Bool :=
  l.state == .waiting && (k.bank l.loc.bank).access.isNone &&
    (k.queue.takeWhile fun m => m.id != l.id).all fun m => m.loc != l.loc

/-- The leg's bank is OPEN on its row (R51). -/
def Control.rowHit (k : Control) (l : Leg) : Bool :=
  (k.bank l.loc.bank).state == .opened && (k.bank l.loc.bank).openRow == some l.loc.row

/-- The bank is OPEN on a row other than the leg's (R60). -/
def Control.rowMiss (k : Control) (l : Leg) : Bool :=
  (k.bank l.loc.bank).state == .opened && (k.bank l.loc.bank).openRow != some l.loc.row

/-- The bank can begin an open: CLOSED and reopenable (R46). -/
def Bank.canOpen (x : Bank) : Bool := x.state == .closed && x.reopenable

/-- The bank can begin a close: OPEN, closable, no access in progress (R48). -/
def Bank.canClose (x : Bank) : Bool := x.state == .opened && x.closable && x.access.isNone

/-- The maintenance that begins under the gate (R86). -/
def Refresh.choice (r : Refresh) : Option Operation :=
  if r.demand = .urgent then some .sweep
  else if r.trimOwed then some .shortTrim
  else if r.demand = .none then none
  else some .sweep

/-- The gate step (R67, R69). Of several banks that can be closed it takes the lowest number first; all
the closes of a decision begin at one moment (log 24). -/
def Channel.gateStep (x : Channel) : Option Operation :=
  match allBanks.find? fun b => (x.ctl.bank b).canClose with
  | some b => some (.closeBank b)
  | none => if x.ctl.allClosed && !x.ctl.pathBusy then x.refr.choice else none

/-- The operations that the starvation restriction allows, for the oldest leg (R57). -/
def Control.starvedStep (k : Control) (l : Leg) : Option Operation :=
  if k.eligible l && k.rowHit l && !k.pathBusy then some (.issue l.id)
  else if (k.bank l.loc.bank).canOpen && k.mayOpen then some (.openBank l.loc.bank l.loc.row)
  else if k.rowMiss l && (k.bank l.loc.bank).canClose then some (.closeBank l.loc.bank)
  else none

/-- The issue step (R58). -/
def Control.issueStep (k : Control) : Option Operation :=
  if k.pathBusy then none
  else (k.queue.find? fun l => k.eligible l && k.rowHit l).map fun l => .issue l.id

/-- The open step (R59). -/
def Control.openStep (k : Control) : Option Operation :=
  match k.queue.find? fun l => k.eligible l && (k.bank l.loc.bank).canOpen with
  | none => none
  | some l => if k.mayOpen then some (.openBank l.loc.bank l.loc.row) else none

/-- An eligible WAITING leg addresses the bank's open row (R60). -/
def Control.rowWanted (k : Control) (b : BankNo) : Bool :=
  k.queue.any fun l => l.loc.bank == b && k.eligible l && (k.bank b).openRow == some l.loc.row

/-- The close step (R60). -/
def Control.closeStep (k : Control) : Option Operation :=
  (k.queue.find? fun l =>
    k.eligible l && k.rowMiss l && (k.bank l.loc.bank).canClose && !k.rowWanted l.loc.bank).map
      fun l => .closeBank l.loc.bank

/-- The policy-close step (R60), the lowest bank number first (log 24). -/
def Control.policyStep (k : Control) : Option Operation :=
  (allBanks.find? fun b => (k.bank b).canClose && (k.bank b).idleClose == .due).map .closeBank

/-- The oldest leg, when the starvation restriction holds (R57). -/
def Control.starved (k : Control) (limit : Nat) : Option Leg :=
  if limit ≤ k.passed then k.oldest.bind fun i => findLeg i k.queue else none

/-- The operation that a decision starts next (R56); none when the decision ends. -/
def Channel.nextOp (x : Channel) (restarting : Bool) (limit : Nat) : Option Operation :=
  if !x.decides then none
  else if x.gateUp restarting then x.gateStep
  else
    match x.ctl.starved limit with
    | some l => x.ctl.starvedStep l
    | none => x.ctl.issueStep <|> x.ctl.openStep <|> x.ctl.closeStep <|> x.ctl.policyStep

/-- The operation that the decision still to be made on channel `c` starts next. -/
def State.decisionOp (s : State) (c : Chan) : Option Operation :=
  if (s.ch c).ctl.due then (s.ch c).nextOp s.table.restarting s.conf.starveLimit else none

/-! ### Request table and mirror control -/

/-- The entry holds back an active barrier of age `age`: older, and HELD or ACTIVE (R32). -/
def Entry.holdsBack (e : Entry) (age : Nat) : Bool := decide (e.age < age) && e.state != .answered

/-- There is an active barrier and its test succeeds (R32). -/
def State.barrierReady (s : State) : Bool :=
  match s.table.barrier with
  | none => false
  | some t =>
    match s.host t with
    | none => false
    | some e => allTags.all fun g => !((s.host g).map fun x => x.holdsBack e.age).getD false

/-- A free internal entry, the lowest number first (log 10). -/
def State.freeInternal (s : State) : Option InternalNo := allInternals.find? fun n => (s.internal n).isNone

/-- Mirror control would start a copy (R147). -/
def State.canStartCopy (s : State) : Bool :=
  match s.mir.rebuild with
  | none => false
  | some r =>
    decide (r.copies.length < s.conf.rebuildDepth) && s.freeInternal.isSome &&
      s.therm.zone != .critical && decide (r.next < Config.channelLines) && !s.table.restarting

/-- No work that stands before the judgements and decisions of the event is left: no barrier to answer
and no copy to start (R32, R147; log 3). -/
def State.decisionsTurn (s : State) : Bool := !s.barrierReady && !s.canStartCopy

/-- The drain test finds both channels at rest during a RESTART (R206). -/
def State.restartReady (s : State) : Bool :=
  s.table.restarting && s.chA.ctl.atRest && s.chB.ctl.atRest

/-- The channel is the target or the source of a rebuild in progress (R117, R126): both are. -/
def State.rebuildOn (s : State) : Bool := s.mir.rebuild.isSome

/-! ### The outbound arbiter -/

/-- What the arbiter takes when the transmit path is free (R168). -/
inductive Choice where
  | control
  | retransmit
  | answer
  | notice
  deriving DecidableEq, Repr

def Link.controlPending (l : Link) : Bool := l.pendingSynr.isSome || l.pendingRsnd || l.pendingAck

/-- The choice between answer queue and notice table (R169). -/
def State.newChoice (s : State) : Option Choice :=
  if s.table.answers ≠ [] then
    if s.notices ≠ [] ∧ Config.maxAnswersSinceNotice ≤ s.link.answersSinceNotice then some .notice
    else some .answer
  else if s.notices ≠ [] then some .notice
  else none

/-- The arbiter's choice (R168); none while the path is busy or nothing can be taken. -/
def State.arbiterChoice (s : State) : Option Choice :=
  if s.link.tx.isSome then none
  else if s.link.controlPending then some .control
  else if s.link.up && s.link.resendPoint.isSome then some .retransmit
  else if s.link.up && decide (s.link.replay.length < Config.replayBufferSize) then s.newChoice
  else none

/-! ### Time (log 1, log 4) -/

/-- The part takes events: supplies applied and reset pin not asserted (R201). -/
def State.live (s : State) : Bool := s.powered && !s.pinHeld

def IdleClose.timer : IdleClose → Timer
  | .running m => some m
  | .stopped | .due => none

def ExitTimer.timer : ExitTimer → Timer
  | .stopped => none
  | .nap m => some m
  | .retain m => some m

/-- The moment at which the oldest opening window expires (R49). -/
def Control.windowTimer (k : Control) : Timer := k.openings.head?.map (· + Config.openingWindow)

def Bank.timers (x : Bank) : List Timer :=
  [x.openSettle, x.minimumOpen, x.rowCycle, x.closeTimer, x.readAccess, x.writeAccess,
    x.writeRecovery, x.idleClose.timer]

def Channel.timers (x : Channel) : List Timer :=
  [x.ctl.openSpacing, x.ctl.windowTimer, x.ctl.sweepTimer, x.ctl.shortTrimTimer,
    x.ctl.longTrimTimer, x.refr.timer, x.pwr.napIdle, x.pwr.retainIdle, x.pwr.exit.timer] ++
    allBanks.flatMap fun b => (x.ctl.bank b).timers

/-- Every interval of the part, running or not. -/
def State.timers (s : State) : List Timer :=
  [some s.therm.sampleAt, s.link.ackTimer, s.link.replayTimer, s.link.tx.map (·.ends)] ++
    s.chA.timers ++ s.chB.timers

/-- No running interval expires before `m`. -/
def State.noneBefore (s : State) (m : Nat) : Bool :=
  s.timers.all fun t => (t.map fun e => decide (m ≤ e)).getD true

/-- The clock may stand at `m`: no running interval expires earlier, and the arbiter has begun what it
could at the present moment (R167) unless `m` is that moment. -/
def State.mayTake (s : State) (m : Nat) : Bool :=
  s.noneBefore m && (decide (m ≤ s.clock) || s.arbiterChoice.isNone)

end Sys2Proof.Machine
end

