-- ==== Sys2Proof/Machine/Power.lean ====
section
/-! DEFINITION. What the refresh unit and the power control of a channel do inside an event: the
recomputed sweep demand (R84), the judgements of idleness (R61 to R64, R111, R113), the moves between
power states (R114 to R122), the reports to a pending POWER (R123, R127), and a trim becoming owed
(R85). Legs joining and leaving a channel queue, which start and stop these, stand at the end
(R26, R43, R115, R120, R121). -/

namespace Sys2Proof.Machine
open Sys2Proof

/-! ### Demands and idleness -/

/-- The sweep demand recomputed, unless a sweep is in progress; a change is a decision event (R84). -/
def State.recompute (s : State) (c : Chan) : State :=
  let x := s.ch c
  if x.refr.sweeping then s
  else
    let d := x.demandNow s.conf.pullIn
    if d = x.refr.demand then s
    else (s.modRefr c fun r => { r with demand := d }).callDecision c

/-- A timer armed at the present moment; a length of 0 leaves it stopped (R62, R113, R117). -/
def armed (now length : Nat) : Timer := if length = 0 then none else some (now + length)

/-- Power control judges the channel's idleness: becoming idle arms the nap-idle timer, ceasing to be
idle stops it (R111, R113). -/
def State.judgeIdle (s : State) (c : Chan) : State :=
  let x := s.ch c
  let now := x.isIdle s.table.restarting
  s.modPwr c fun p =>
    { p with
      idle := now
      napIdle :=
        if !now then none
        else if p.idle then p.napIdle
        else armed s.clock (Config.ns s.conf.napIdle) }

/-- A report about channel `c` that changes what its blocks judge: the refresh unit recomputes its demand
(R84) and power control judges idleness (R111). -/
def State.report (s : State) (c : Chan) : State := (s.recompute c).judgeIdle c

/-- The reports that close every event: both power controls judge idleness. -/
def State.conclude (s : State) : State := (s.judgeIdle .a).judgeIdle .b

/-- The page policy's act on a bank that has become idle (R62, R63). -/
def policyClose (f : Settings) (now : Nat) : IdleClose :=
  match f.pagePolicy with
  | .closeIdle => .due
  | .keepOpen => if f.idleClose = 0 then .stopped else .running (now + Config.ns f.idleClose)

/-- The bank judged for idleness: idle with its idle close STOPPED, the policy acts (R61). -/
def Control.judgeBank (k : Control) (f : Settings) (now : Nat) (b : BankNo) : Control :=
  if k.bankIdle b ∧ (k.bank b).idleClose = .stopped then
    k.modBank b fun x => { x with idleClose := policyClose f now }
  else k

def State.judgeBank (s : State) (c : Chan) (b : BankNo) : State :=
  s.modCtl c fun k => k.judgeBank s.conf s.clock b

/-- Every bank judged, as at the end of NAP_EXIT (R64). -/
def State.judgeBanks (s : State) (c : Chan) : State :=
  s.modCtl c fun k => allBanks.foldl (fun k b => k.judgeBank s.conf s.clock b) k

/-! ### Judgements after the answers of an event -/

/-- A judgement made. A channel is judged afresh: a timer that it arms has the length of this moment
(R116, R120, R122). -/
def State.judge (s : State) : Judgement → State
  | .bank c b => s.judgeBank c b
  | .channel c => (s.modPwr c fun p => { p with idle := false }).judgeIdle c

/-- A judgement whose place is after an answer: made at once unless that answer lets a barrier be answered
or a copy starts, in which case it waits for them (R30, R32, R33; log 22). -/
def State.later (s : State) (j : Judgement) : State :=
  if s.decisionsTurn then s.judge j else { s with judgements := s.judgements ++ [j] }

/-- The judgements that waited, once no release and no copy is left to do. -/
def State.judgeDue (s : State) : State :=
  if s.decisionsTurn then s.judgements.foldl State.judge { s with judgements := [] } else s

/-! ### Pending POWER requests -/

/-- A pending POWER of channel `c` reported reached: its record is cleared, and the request is
answered OK unless it named BOTH and still waits for the other channel (R124, R127). -/
def State.powerReached (s : State) (c : Chan) : State :=
  match (s.ch c).pwr.pendingPower with
  | none => s
  | some p =>
    let s := s.modPwr c fun w => { w with pendingPower := none }
    if ((s.ch c.other).pwr.pendingPower.map (·.tag)) = some p.tag then s
    else s.answer p.tag .ok

/-- A pending POWER RETAIN of channel `c` reported aborted: cleared, with the other channel's record
of the same request, and answered ABORTED (R120, R127). -/
def State.powerAborted (s : State) (c : Chan) : State :=
  match (s.ch c).pwr.pendingPower with
  | none => s
  | some p =>
    if !p.toRetain then s
    else
      let s := s.modPwr c fun w => { w with pendingPower := none }
      let s :=
        if ((s.ch c.other).pwr.pendingPower.map (·.tag)) = some p.tag then
          s.modPwr c.other fun w => { w with pendingPower := none }
        else s
      s.answer p.tag .aborted

/-! ### Moves between power states -/

/-- NAP is entered (R114). -/
def State.enterNap (s : State) (c : Chan) : State :=
  let s := s.modPwr c fun p =>
    { p with
      state := .nap
      napIdle := none
      retainIdle := armed s.clock (Config.us s.conf.retainIdle) }
  let s := s.modCtl c fun k =>
    k.mapBanks fun x =>
      { x with
        idleClose :=
          match x.idleClose with
          | .running _ => .stopped
          | .stopped => .stopped
          | .due => .due }
  s.report c

/-- NAP_EXIT begins (R115). -/
def State.beginNapExit (s : State) (c : Chan) (onward : Bool) : State :=
  (s.modPwr c fun p =>
    { p with
      state := .napExit
      retainIdle := none
      exit := .nap (s.clock + Config.napExit)
      onward := onward }).report c

/-- RETAIN_EXIT begins (R121). -/
def State.beginRetainExit (s : State) (c : Chan) : State :=
  (s.modPwr c fun p =>
    { p with state := .retainExit, exit := .retain (s.clock + Config.retainExit) }).report c

/-- RETAIN_ENTRY completes: RETAIN is entered, the refresh timer stops, a pending POWER RETAIN is
reported reached (R119, R93). -/
def State.completeRetain (s : State) (c : Chan) : State :=
  let s := s.modPwr c fun p => { p with state := .retain }
  let s := s.modRefr c fun r => { r with timer := none }
  let s := s.report c
  if ((s.ch c).pwr.pendingPower.map (·.toRetain)) = some true then s.powerReached c else s

/-- RETAIN_ENTRY begins, and completes at once where it can (R118). -/
def State.beginRetainEntry (s : State) (c : Chan) : State :=
  let s := s.modPwr c fun p =>
    { p with state := .retainEntry, napIdle := none, exit := .stopped, onward := false }
  let s := (s.report c).callDecision c
  if (s.ch c).retainReady then s.completeRetain c else s

/-- RETAIN_ENTRY is aborted (R120). -/
def State.abortRetain (s : State) (c : Chan) : State :=
  let s := s.modPwr c fun p => { p with state := .active }
  (((s.report c).callDecision c).powerAborted c).later (.channel c)

/-- An onward target of RETAIN is cleared during NAP_EXIT (R120). -/
def State.clearOnward (s : State) (c : Chan) : State :=
  if (s.ch c).pwr.onward then (s.modPwr c fun p => { p with onward := false }).powerAborted c else s

/-- A leg joining, or a POWER ACTIVE, acts on the power state: the wake causes of R115 and R121, the
abort of R120. -/
def State.wakeFor (s : State) (c : Chan) : State :=
  match (s.ch c).pwr.state with
  | .nap => s.beginNapExit c false
  | .napExit => s.clearOnward c
  | .retainEntry => s.abortRetain c
  | .retain => s.beginRetainExit c
  | .starting | .active | .retainExit => s

/-- A report of the refresh unit wakes a channel that rests (R92, R93). -/
def State.wakeForRefresh (s : State) (c : Chan) : State :=
  match (s.ch c).pwr.state with
  | .nap => s.beginNapExit c false
  | .retain => s.beginRetainExit c
  | .starting | .active | .napExit | .retainEntry | .retainExit => s

/-- A short trim becomes owed on a channel (R85). -/
def State.oweTrim (s : State) (c : Chan) : State :=
  if (s.ch c).refr.trimOwed then s
  else
    (((s.modRefr c fun r => { r with trimOwed := true }).callDecision c).judgeIdle c).wakeForRefresh c

/-! ### Legs joining and leaving a queue -/

/-- A joining leg stops the idle close of the bank open on its row (R61). -/
def Control.stopIdleClose (k : Control) (l : Loc) : Control :=
  if (k.bank l.bank).openRow = some l.row then
    k.modBank l.bank fun x => { x with idleClose := .stopped }
  else k

/-- A leg joins the queue of channel `c` (R26, R43, R61, R68, R115, R120, R121). -/
def State.placeLeg (s : State) (c : Chan) (l : Leg) : State :=
  let s := s.modCtl c fun k => (k.stopIdleClose l.loc).withQueue (insertLeg l k.queue)
  (s.report c).wakeFor c

/-- A BLOCKED WRITE taken out of a queue and placed again, behind the FETCH just placed (R135). -/
def replaceBlocked (o : Owner) (q : List Leg) : List Leg :=
  (q.filter fun l => l.owner == o && l.state == .blocked).foldl
    (fun q w => insertLeg w (eraseLeg w.id q)) q

/-- A FETCH joins the queue of channel `c` ahead of its entry's BLOCKED WRITE there (R135). -/
def State.placeFetch (s : State) (c : Chan) (l : Leg) : State :=
  (s.placeLeg c l).modCtl c fun k => k.withQueue (replaceBlocked l.owner k.queue)

/-- A leg leaves the queue of channel `c`; the queue's emptiness is reported (R43, R84). -/
def State.takeLeg (s : State) (c : Chan) (i : LegId) : State :=
  (s.modCtl c fun k => k.withQueue (eraseLeg i k.queue)).report c

/-- A leg leaves unissued, by a drop or a removal: its bank is judged for idleness when the leg
addressed its open row (R43, R61). -/
def State.withdrawLeg (s : State) (c : Chan) (l : Leg) : State :=
  let s := s.takeLeg c l.id
  if ((s.ch c).ctl.bank l.loc.bank).openRow = some l.loc.row then s.judgeBank c l.loc.bank else s

/-- A leg recorded as DONE in its entry's leg list (R27). -/
def State.recordDone (s : State) (l : Leg) : State :=
  let d : Leg := { l with state := .done }
  match l.owner with
  | .host t => s.modHost t fun e => { e with done := e.done ++ [d] }
  | .internal n => s.modInternal n fun e => { e with done := e.done ++ [d] }

/-- A leg made DONE without access (R27, R143). -/
def State.dropLeg (s : State) (c : Chan) (l : Leg) : State := (s.withdrawLeg c l).recordDone l

end Sys2Proof.Machine
end

