-- ==== Sys2Proof/Machine/Legs.lean ====
section
/-! DEFINITION. The legs of entries: making them, completing entries, the degrade of a channel (R143,
R144), the rebuild with its copies and its abort (R145 to R151), and what the request table and mirror
control do at the completion of an access (R28, R29, R39, R136 to R141, R148, R149). -/

namespace Sys2Proof.Machine
open Sys2Proof

/-! ### Making legs (R25, R26, R29) -/

/-- A leg made for host entry `t` on channel `c` and placed there; it carries the entry's arrival
number. A FETCH is placed ahead of the entry's BLOCKED WRITE there, if there is one (R135). -/
def State.addLeg (s : State) (t : Tag) (c : Chan) (kind : LegKind) (sz : Size) (loc : Loc)
    (st : LegState) (store : Store) (recovery : Bool) : State :=
  match s.host t with
  | none => s
  | some e =>
    let l : Leg :=
      { owner := .host t, no := e.legsMade, age := e.age, kind := kind, size := sz, loc := loc,
        state := st, store := store, recovery := recovery }
    let s := s.modHost t fun e => { e with legsMade := e.legsMade + 1 }
    match kind with
    | .fetch => s.placeFetch c l
    | .read | .write _ => s.placeLeg c l

/-- A leg of internal entry `n` made and placed (R37). -/
def State.addCopyLeg (s : State) (n : InternalNo) (c : Chan) (kind : LegKind) (loc : Loc)
    (st : LegState) : State :=
  match s.internal n with
  | none => s
  | some e =>
    let l : Leg :=
      { owner := .internal n, no := e.legsMade, age := e.age, kind := kind, size := .line, loc := loc,
        state := st, store := .absent, recovery := false }
    (s.modInternal n fun e => { e with legsMade := e.legsMade + 1 }).placeLeg c l

/-- The channel's writeback WRITE of a corrected line (R12): with WRITEBACK ON and the channel
IN_SERVICE (R136). -/
def State.addWriteback (s : State) (t : Tag) (c : Chan) (loc : Loc) : LineRec → State
  | .flawed d =>
    if s.conf.writeback = true ∧ s.mir.health c = .inService then
      s.addLeg t c (.write .writeback) .line loc .waiting (.line d) false
    else s
  | .unset | .intact _ | .broken | .poisoned => s

/-! ### Settling WRITE legs -/

def Leg.isBlockedWrite (l : Leg) (o : Owner) (p : Purpose) : Bool :=
  l.owner == o && l.kind == .write p && l.state == .blocked

/-- The BLOCKED WRITE legs of an entry and purpose on one channel receive what they will store and
become WAITING: an unblock event where there is one (R43, R53). -/
def Control.unblock (k : Control) (o : Owner) (p : Purpose) (st : Store) : Control :=
  if k.queue.any fun l => l.isBlockedWrite o p then
    k.withQueue (k.queue.map fun l =>
      if l.isBlockedWrite o p then { l with state := .waiting, store := st } else l)
  else k

/-- `Control.unblock` on both channels (R53, R135). -/
def State.unblock (s : State) (o : Owner) (p : Purpose) (st : Store) : State :=
  (s.modCtl .a fun k => k.unblock o p st).modCtl .b fun k => k.unblock o p st

/-- The legs of channel `c` that satisfy `want`, dropped unissued (R143, R144, R150). -/
def State.dropWhere (s : State) (c : Chan) (want : Leg → Bool) : State :=
  ((s.ch c).ctl.queue.filter fun l => l.unissued && want l).foldl (fun s l => s.dropLeg c l) s

/-- The legs of channel `c` that satisfy `want`, removed unissued: struck from their entries' lists
(R27, R35, R38, R150). -/
def State.removeWhere (s : State) (c : Chan) (want : Leg → Bool) : State :=
  ((s.ch c).ctl.queue.filter fun l => l.unissued && want l).foldl (fun s l => s.withdrawLeg c l) s

/-- The REPAIR legs of an entry on channel `c` made DONE without access (R138, R144). -/
def State.dropRepair (s : State) (c : Chan) (o : Owner) : State :=
  s.dropWhere c fun l => l.owner == o && l.kind == .write .repair

/-! ### Completion of entries (R28, R30) -/

def isMemoryReq : Req → Bool
  | .rd .. | .wr .. => true
  | .bar | .can _ | .get _ | .setParam .. | .pwr .. | .trim _ | .svc .. | .stat | .rst => false

/-- The entry of tag `t` is an ACTIVE RD or WR whose legs are all DONE (R30). -/
def State.legsDone (s : State) (t : Tag) : Bool :=
  match s.host t with
  | none => false
  | some e =>
    isMemoryReq e.req && e.state == .active && !e.done.isEmpty && (s.queued (.host t)).isEmpty

/-- The entry judged complete: its answer carries the status recorded, or OK if none was (R30, R143). -/
def State.judgeEntry (s : State) (t : Tag) : State :=
  if s.legsDone t then s.answer t (((s.host t).bind (·.status)).getD .ok) else s

def State.ageOf (s : State) (t : Tag) : Nat := ((s.host t).map (·.age)).getD 0

/-- Every complete entry but `keep` completes, in the order of arrival numbers (R143 step 4). -/
def State.judgeEntries (s : State) (keep : Option Owner) : State :=
  (sortRanked s.ageOf (allTags.filter fun t => s.legsDone t && some (.host t) != keep)).foldl
    State.judgeEntry s

/-! ### Degrade (R141, R143, R144) -/

/-- One unissued leg of a degraded channel `c`, by R143 step 3 and R144. -/
def State.degradeLeg (s : State) (c : Chan) (i : LegId) : State :=
  match findLeg i (s.ch c).ctl.queue with
  | none => s
  | some l =>
    match l.kind, l.recovery, l.owner with
    | .read, false, _ => (s.withdrawLeg c l).placeLeg c.other l
    | .fetch, false, _ => (s.withdrawLeg c l).placeFetch c.other l
    | .write _, _, _ => s.dropLeg c l
    | .read, true, .host t =>
      ((s.dropLeg c l).modHost t fun e => { e with status := some .uncorrectable, data := none }).dropRepair
        c.other l.owner
    | .fetch, true, .host t =>
      ((s.dropLeg c l).unblock l.owner .host .poison).modHost t fun e =>
        { e with status := some .poisonedMerge }
    | _, true, .internal _ => s.dropLeg c l

/-- Channel `c` is degraded (R143). `keep` is the entry whose completion is still to be judged in this
event (R28). -/
def State.degrade (s : State) (c : Chan) (r : DegradeReason) (keep : Option Owner) : State :=
  let s := { s with mir := s.mir.setHealth c .degraded }
  let s := s.postNotice .degraded (some c) (.reason r)
  let s := (((s.ch c).ctl.queue.filter Leg.unissued).map Leg.id).foldl (fun s i => s.degradeLeg c i) s
  s.judgeEntries keep

/-- The automatic degrade judged after a BROKEN result on channel `c` (R141). -/
def State.autoDegrade (s : State) (c : Chan) (keep : Option Owner) : State :=
  if s.mir.mode = .mirror ∧ s.table.restarting = false ∧ s.mir.health c = .inService ∧
      s.conf.degradeLimit ≠ 0 ∧ s.conf.degradeLimit ≤ s.mir.unc c ∧
      s.mir.health c.other = .inService then
    s.degrade c .limit keep
  else s

/-! ### Rebuild (R146 to R151) -/

/-- The frontier: the lowest channel line in flight, or the next line when none is (R146). -/
def frontierOf (next : Nat) (copies : List (InternalNo × Nat)) : Nat :=
  copies.foldl (fun m p => min m p.2) next

/-- A copy is complete: it leaves the copies in flight, and the rebuild completes when its frontier
stands at 2^24 (R149). -/
def State.copyComplete (s : State) (n : InternalNo) : State :=
  match s.mir.rebuild with
  | none => s
  | some r =>
    if r.copies.any fun p => p.1 == n then
      let copies := r.copies.filter fun p => p.1 != n
      let f := frontierOf r.next copies
      if f = Config.channelLines then
        let m := (s.mir.setHealth r.target .inService).setUnc r.target 0
        { s with mir := { m with rebuild := none } }.postNotice .rebuildDone (some r.target) .nothing
      else { s with mir := { s.mir with rebuild := some { r with copies := copies, frontier := f } } }
    else s

/-- The internal entry is released when it has no leg left in a queue (R37, R151). -/
def State.judgeInternal (s : State) (n : InternalNo) : State :=
  if (s.queued (.internal n)).isEmpty then (s.setInternal n none).copyComplete n else s

/-- Mirror control starts one copy (R147). -/
def State.startCopy (s : State) : State :=
  match s.mir.rebuild, s.freeInternal with
  | some r, some n =>
    let e : CopyEntry := { age := s.table.arrivals, line := r.next, legsMade := 0, done := [] }
    let s := s.setInternal n (some e)
    let s := { s with table := { s.table with arrivals := s.table.arrivals + 1 } }
    let copies := r.copies ++ [(n, r.next)]
    let r' := { r with next := r.next + 1, copies := copies, frontier := frontierOf (r.next + 1) copies }
    let s := { s with mir := { s.mir with rebuild := some r' } }
    let loc := locOfLine r.next
    (s.addCopyLeg n r.target.other .fetch loc .waiting).addCopyLeg n r.target (.write .copy) loc .blocked
  | _, _ => s

/-- Copies started one after another until a condition of R147 fails; there are four internal entries. -/
def State.startCopies : Nat → State → State
  | 0, s => s
  | fuel + 1, s => if s.canStartCopy then s.startCopy.startCopies fuel else s

/-- A rebuild in progress is aborted (R150); `byService` for a SVC OUT, else for an RST. -/
def State.abortRebuild (s : State) (byService : Bool) : State :=
  match s.mir.rebuild with
  | none => s
  | some r =>
    let inFlight (l : Leg) : Bool := r.copies.any fun p => l.owner == .internal p.1
    let s := (s.removeWhere .a inFlight).removeWhere .b inFlight
    let hostWrite (l : Leg) : Bool :=
      l.kind.isWrite &&
        (match l.owner with
         | .host _ => true
         | .internal _ => false)
    let s := if byService then (s.dropWhere r.target hostWrite).judgeEntries none else s
    let s := r.copies.foldl
      (fun s p => if (s.queued (.internal p.1)).isEmpty then s.setInternal p.1 none else s) s
    let s := { s with mir := { s.mir.setHealth r.target .degraded with rebuild := none } }
    if byService then s.postNotice .rebuildAborted (some r.target) .nothing else s

/-! ### Completion of a READ or FETCH -/

/-- The notices and the count of a READ or FETCH that found `r` on channel `c` (R11). -/
def State.noteCondition (s : State) (c : Chan) (loc : Loc) (r : LineRec) : State :=
  match r with
  | .flawed _ => s.postNotice .corrected (some c) (.address (lineAddress s.mir.mode c loc.line))
  | .broken =>
    (s.postNotice .uncorrectable (some c) (.address (lineAddress s.mir.mode c loc.line))).countUncorrectable c
  | .unset | .intact _ | .poisoned => s

/-- The data an RD entry records from a line (R10): of the request's size and half. -/
def Entry.readData? (e : Entry) (r : LineRec) : Option ReadData :=
  match e.req with
  | .rd sz _ => r.data?.map (readData sz ((e.decoded.map (·.second)).getD false))
  | .wr .. | .bar | .can _ | .get _ | .setParam .. | .pwr .. | .trim _ | .svc .. | .stat | .rst => none

/-- What a WR entry's writes receive when its FETCH found `r` (R15, R139). -/
def Entry.mergeStore (e : Entry) (r : LineRec) : Store :=
  match e.req with
  | .wr sz mask _ data => Machine.mergeStore sz ((e.decoded.map (·.second)).getD false) mask data r
  | .rd .. | .bar | .can _ | .get _ | .setParam .. | .pwr .. | .trim _ | .svc .. | .stat | .rst => .absent

/-- The result of a READ recorded in its entry (R10, R136). -/
def State.recordRead (s : State) (t : Tag) (c : Chan) (st : Status) (r : LineRec) : State :=
  s.modHost t fun e => { e with status := some st, data := e.readData? r, served := some c }

/-- A recovery is made for a failed leg on channel `c` (R137 step 3). -/
def State.recovers (s : State) (c : Chan) : Bool :=
  s.mir.mode == .mirror && s.mir.health c.other == .inService

/-- A READ that is not a recovery leg, found BROKEN on channel `c` (R137). -/
def State.brokenRead (s : State) (t : Tag) (c : Chan) (loc : Loc) : State :=
  let s := s.autoDegrade c (some (.host t))
  if s.recovers c then
    let s := s.addLeg t c.other .read .line loc .waiting .absent true
    if s.mir.health c = .inService then s.addLeg t c (.write .repair) .line loc .blocked .absent false
    else s
  else s.recordRead t c .uncorrectable .broken

/-- A recovery READ on channel `c` found `r`: the entry's outcome and its REPAIR leg settled (R138). -/
def State.settleRecovery (s : State) (t : Tag) (c : Chan) (loc : Loc) (r : LineRec) : State :=
  let o : Owner := .host t
  let s := match r with
    | .broken => s.autoDegrade c (some o)
    | .unset | .intact _ | .flawed _ | .poisoned => s
  let s := s.recordRead t c r.recoveryStatus r
  let s := match r with
    | .intact d => s.unblock o .repair (.line d)
    | .flawed d => s.unblock o .repair (.line d)
    | .poisoned => s.unblock o .repair .poison
    | .unset | .broken => s.dropRepair c.other o
  s.addWriteback t c loc r

/-- A host READ on channel `c` found `r` (R28 steps 2 and 3). -/
def State.finishRead (s : State) (t : Tag) (c : Chan) (l : Leg) (r : LineRec) : State :=
  if l.recovery then s.settleRecovery t c l.loc r
  else
    match r with
    | .broken => s.brokenRead t c l.loc
    | .unset | .intact _ | .flawed _ | .poisoned =>
      (s.recordRead t c r.readStatus r).addWriteback t c l.loc r

/-- The writes of a partial write receive what its FETCH gives them, and the status is recorded
(R15, R139). -/
def State.settleFetch (s : State) (t : Tag) (st : Status) (r : LineRec) : State :=
  match s.host t with
  | none => s
  | some e => (s.unblock (.host t) .host (e.mergeStore r)).modHost t fun e => { e with status := some st }

/-- A host FETCH on channel `c` found `r` (R15, R135, R137, R139). -/
def State.finishFetch (s : State) (t : Tag) (c : Chan) (l : Leg) (r : LineRec) : State :=
  match r with
  | .broken =>
    let s := s.autoDegrade c (some (.host t))
    if !l.recovery && s.recovers c then s.addLeg t c.other .fetch .line l.loc .waiting .absent true
    else s.settleFetch t .poisonedMerge .broken
  | .unset | .intact _ | .flawed _ | .poisoned =>
    s.settleFetch t (if l.recovery then r.recoveryFetchStatus else r.fetchStatus) r

/-- A copy's FETCH on channel `c` found `r` (R148): the degrade of the source is judged as R141 gives. The
internal entry records no status (log 23). -/
def State.finishCopyFetch (s : State) (n : InternalNo) (c : Chan) (r : LineRec) : State :=
  let s := match r with
    | .broken => s.autoDegrade c none
    | .unset | .intact _ | .flawed _ | .poisoned => s
  s.unblock (.internal n) .copy (copyStore r)

/-- What a completed READ or FETCH records and adds (R28 steps 2 and 3); nothing while the restarting
flag is set (R39). -/
def State.finishReading (s : State) (c : Chan) (l : Leg) (r : LineRec) : State :=
  if s.table.restarting then s
  else
    match l.owner, l.kind with
    | .host t, .fetch => s.finishFetch t c l r
    | .host t, .read => s.finishRead t c l r
    | .host _, .write _ => s
    | .internal n, _ => s.finishCopyFetch n c r

/-- What a completed WRITE records (R28 step 2): HOST sets OK where there is no status yet. -/
def State.finishWriting (s : State) (l : Leg) : State :=
  if s.table.restarting then s
  else
    match l.owner, l.kind with
    | .host t, .write .host => s.modHost t fun e => { e with status := some (e.status.getD .ok) }
    | .host _, _ => s
    | .internal _, _ => s

/-- The entry of a completed leg judged (R28 step 4): complete, discarded without answer during a
RESTART (R39), or an internal entry released (R37, R151). -/
def State.judgeOwner (s : State) (o : Owner) : State :=
  match o with
  | .internal n => s.judgeInternal n
  | .host t =>
    if s.table.restarting then
      if (s.queued (.host t)).isEmpty then s.setHost t none else s
    else s.judgeEntry t

/-- The leg whose access is in progress on bank `b` of channel `c`. -/
def State.accessLeg (s : State) (c : Chan) (b : BankNo) : Option Leg :=
  ((s.ch c).ctl.bank b).access.bind fun i => findLeg i (s.ch c).ctl.queue

/-- The data path freed and the bank's access set to none (R52 step 1). -/
def Control.endAccess (k : Control) (b : BankNo) : Control :=
  { k.modBank b fun x => { x with access := none, readAccess := none, writeAccess := none } with
    pathBusy := false }

/-- A READ or FETCH access of bank `b` completes (R52). The judgement of step 4 comes after the release that
an answer of step 3 leads to. -/
def State.completeRead (s : State) (c : Chan) (b : BankNo) : State :=
  match s.accessLeg c b with
  | none => s
  | some l =>
    let r := s.mem.read c l.loc.line
    let s := s.modCtl c fun k => k.endAccess b
    let s := (s.takeLeg c l.id).recordDone l
    let s := (s.noteCondition c l.loc r).finishReading c l r
    ((s.judgeOwner l.owner).later (.bank c b)).callDecision c

/-- A WRITE access of bank `b` completes (R52): the line record is replaced (R13) and write recovery
armed (R47). -/
def State.completeWrite (s : State) (c : Chan) (b : BankNo) : State :=
  match s.accessLeg c b with
  | none => s
  | some l =>
    let s := s.modCtl c fun k =>
      (k.endAccess b).modBank b fun x =>
        { x with closable := false, writeRecovery := some (s.clock + Config.writeRecovery) }
    let s :=
      match l.store.record with
      | none => s
      | some r => { s with mem := s.mem.write c l.loc.line r }
    let s := ((s.takeLeg c l.id).recordDone l).finishWriting l
    ((s.judgeOwner l.owner).later (.bank c b)).callDecision c

/-! ### The choice of channel (R133) -/

/-- The channel that a READ or FETCH in MIRROR mode goes to, and whether the toggle moves (R133). -/
def State.chooseChannel (s : State) : Chan × Bool :=
  match s.mir.healthA, s.mir.healthB with
  | .inService, .inService =>
    let upA := s.chA.pwr.state == .active
    let upB := s.chB.pwr.state == .active
    if upA && !upB then (.a, false)
    else if upB && !upA then (.b, false)
    else
      match s.conf.readChoice with
      | .alternate => (s.mir.toggle, true)
      | .preferA => (.a, false)
      | .preferB => (.b, false)
  | .inService, _ => (.a, false)
  | _, .inService => (.b, false)
  | _, _ => (.a, false)

/-- The toggle moved after an alternating choice (R133 step 3). -/
def State.moveToggle (s : State) (moves : Bool) : State :=
  if moves then { s with mir := { s.mir with toggle := s.mir.toggle.other } } else s

/-- The channel receives the writes of host requests (R130). -/
def Mirror.takesWrites (m : Mirror) (c : Chan) : Bool :=
  m.health c == .inService || m.health c == .rebuilding

end Sys2Proof.Machine
end

