-- ==== Sys2Proof/Machine/Table.lean ====
section
/-! DEFINITION. The request table's work: the kind-specific checks of every request kind (R131, R142,
R145, R172 to R183), the hold queue and barriers (R32, R33), cancellation (R34 to R36), the begin and
end of a RESTART (R38, R205, R208), and the admission of messages (R19 to R24). -/

namespace Sys2Proof.Machine
open Sys2Proof

/-! ### RD and WR (R172 to R174) -/

/-- The tests of R172, the first that fails. -/
def State.memoryRefusal (s : State) (sz : Size) (addr : Word32) : Option Status :=
  if s.table.ready = false then some .notReady
  else if s.therm.zone = .critical then some .thermal
  else if aligned sz addr = false then some .align
  else if inRange s.mir.mode addr = false then some .range
  else none

/-- The decoded fields filled (R17). -/
def State.decodeFor (s : State) (t : Tag) (d : Decoded) : State :=
  s.modHost t fun e => { e with decoded := some d }

/-- The legs of an RD (R25, R134). -/
def State.readLegs (s : State) (t : Tag) (sz : Size) (d : Decoded) : State :=
  match d.chan with
  | some c => s.addLeg t c .read sz d.loc .waiting .absent false
  | none =>
    let choice := s.chooseChannel
    (s.moveToggle choice.2).addLeg t choice.1 .read sz d.loc .waiting .absent false

/-- A WRITE leg of purpose HOST, on a channel that receives writes (R134, R135). -/
def State.hostWrite (s : State) (t : Tag) (c : Chan) (sz : Size) (loc : Loc) (st : LegState)
    (store : Store) : State :=
  if s.mir.takesWrites c then s.addLeg t c (.write .host) sz loc st store false else s

/-- The legs of a full write (R13, R134). -/
def State.fullWriteLegs (s : State) (t : Tag) (data : Bytes 64) (d : Decoded) : State :=
  match d.chan with
  | some c => s.addLeg t c (.write .host) .line d.loc .waiting (.line data) false
  | none =>
    (s.hostWrite t .a .line d.loc .waiting (.line data)).hostWrite t .b .line d.loc .waiting (.line data)

/-- The legs of a partial write (R14, R135). -/
def State.partWriteLegs (s : State) (t : Tag) (sz : Size) (d : Decoded) : State :=
  match d.chan with
  | some c =>
    (s.addLeg t c .fetch .line d.loc .waiting .absent false).addLeg t c (.write .host) sz d.loc .blocked
      .absent false
  | none =>
    let choice := s.chooseChannel
    let s := (s.moveToggle choice.2).addLeg t choice.1 .fetch .line d.loc .waiting .absent false
    (s.hostWrite t choice.1 sz d.loc .blocked .absent).hostWrite t choice.1.other sz d.loc .blocked .absent

/-- The checks of an RD (R173). -/
def State.checkRd (s : State) (t : Tag) (sz : Size) (addr : Word32) : State :=
  match s.memoryRefusal sz addr with
  | some st => s.answer t st
  | none =>
    let d := decodeAddr s.mir.mode addr
    (s.decodeFor t d).readLegs t sz d

/-- The checks of a WR (R174). -/
def State.checkWr (s : State) (t : Tag) (sz : Size) (mask : Option (BitVec 64)) (addr : Word32)
    (data : Bytes 64) : State :=
  match s.memoryRefusal sz addr with
  | some st => s.answer t st
  | none =>
    let d := decodeAddr s.mir.mode addr
    let s := s.decodeFor t d
    if fullWrite sz mask then s.fullWriteLegs t data d else s.partWriteLegs t sz d

/-! ### SET (R131, R132, R178) -/

/-- Another host entry than `t` is HELD or ACTIVE (R131). -/
def State.othersAtWork (s : State) (t : Tag) : Bool :=
  allTags.any fun g => g != t && ((s.host g).map fun e => e.state != .answered).getD false

/-- The busy conditions of a mode change (R131). -/
def State.modeBusy (s : State) (t : Tag) : Bool :=
  s.othersAtWork t || !s.table.holdQueue.isEmpty ||
    (allInternals.any fun n => (s.internal n).isSome) || s.mir.rebuild.isSome

/-- An accepted change of mode (R132). -/
def Mirror.changeMode (m : Mirror) (mode : Mode) : Mirror :=
  match mode with
  | .mirror =>
    { m with mode := .mirror, healthA := .inService, healthB := .degraded, uncA := 0, uncB := 0, toggle := .a }
  | .split => { m with mode := .split, healthA := .inService, healthB := .inService, uncA := 0, uncB := 0 }

/-- A SET of MODE with a value in range (R131, R196). -/
def State.checkMode (s : State) (t : Tag) (value : Word32) : State :=
  let mode : Mode := if value = 0 then .split else .mirror
  if mode = s.mir.mode then s.answer t .ok
  else if s.modeBusy t then s.answer t .busy
  else { s with mir := s.mir.changeMode mode }.answer t .ok

/-- What a written parameter makes of state derived from it: a NAP_IDLE or RETAIN_IDLE of 0 stops the
running timers (R113, R117), a PULL_IN recomputes the demands (R84). -/
def State.paramWritten (s : State) (id : Byte) (value : Word32) : State :=
  if id = 5 ∧ value = 0 then
    (s.modPwr .a fun p => { p with napIdle := none }).modPwr .b fun p => { p with napIdle := none }
  else if id = 6 ∧ value = 0 then
    (s.modPwr .a fun p => { p with retainIdle := none }).modPwr .b fun p => { p with retainIdle := none }
  else if id = 13 then (s.report .a).report .b
  else s

/-- The checks of a SET (R178). -/
def State.checkSet (s : State) (t : Tag) (id : Byte) (value : Word32) : State :=
  match paramKind id with
  | .unknown => s.answer t .badParam
  | .readOnly => s.answer t .readOnly
  | .writable =>
    if paramInRange id value = false then s.answer t .badParam
    else if id = 1 then s.checkMode t value
    else ({ s with conf := s.conf.write id value }.paramWritten id value).answer t .ok

/-! ### PWR (R123 to R127) -/

/-- The refusal of a POWER for one channel, by R123, R125 and R126; none when it is accepted. A POWER NAP
tests the condition of R111 as it stands, also where the answer of a trim's end has released it before R89's step
4 reports that end to power control: the trim then counts as ended (log 29). -/
def State.powerRefusal (s : State) (c : Chan) (target : Target) : Option Status :=
  let x : Channel := s.ch c
  if x.pwr.state = .starting then some .busy
  else if ((x.pwr.pendingPower.map fun p => !(p.toRetain && target == .active)).getD false) = true then
    some .busy
  else
    match target with
    | .active => none
    | .nap => if x.pwr.state = .nap ∨ x.isIdle s.table.restarting = true then none else some .busy
    | .retain =>
      if s.therm.zone.isHot then some .thermal
      else if x.ctl.queue ≠ [] ∨ s.rebuildOn = true ∨ x.pwr.state = .retainExit then some .busy
      else none

/-- An overridden POWER RETAIN is aborted as R120 gives, before a POWER ACTIVE acts (R123). -/
def State.overridePower (s : State) (c : Chan) (target : Target) : State :=
  match target with
  | .active =>
    if (s.ch c).pwr.pendingPower.isSome then
      match (s.ch c).pwr.state with
      | .retainEntry => s.abortRetain c
      | .napExit => (s.clearOnward c).powerAborted c
      | .starting | .active | .nap | .retain | .retainExit => s.powerAborted c
    else s
  | .nap | .retain => s

/-- A POWER recorded as pending on a channel (R123). -/
def State.recordPower (s : State) (c : Chan) (p : PendingPower) : State :=
  s.modPwr c fun w => { w with pendingPower := some p }

/-- The action of an accepted POWER on one channel, whose record is pending: a target reached at once
is reported (R124, R125, R126). -/
def State.actPower (s : State) (c : Chan) (target : Target) : State :=
  match target, (s.ch c).pwr.state with
  | .active, .active => s.powerReached c
  | .active, .nap => s.beginNapExit c false
  | .active, .napExit => s.clearOnward c
  | .active, .retainEntry => (s.abortRetain c).powerReached c
  | .active, .retain => s.beginRetainExit c
  | .active, .retainExit => s
  | .active, .starting => s
  | .nap, .nap => s.powerReached c
  | .nap, .active => (s.enterNap c).powerReached c
  | .nap, _ => s
  | .retain, .active => s.beginRetainEntry c
  | .retain, .nap => s.beginNapExit c true
  | .retain, .napExit => s.modPwr c fun p => { p with onward := true }
  | .retain, .retainEntry => s
  | .retain, .retain => s.powerReached c
  | .retain, _ => s

/-- The channels that a channel field names, A before B. -/
def chansOf : ChanSel → List Chan
  | .one c => [c]
  | .both => [.a, .b]

/-- The refusal of a POWER for the channels that it names: BUSY when one of them is STARTING (R179, R203),
ahead of any other refusal (log 27); else the first refusal found, A's before B's (R127). -/
def State.pwrRefusal (s : State) (sel : ChanSel) (target : Target) : Option Status :=
  if (chansOf sel).any fun c => (s.ch c).pwr.state == .starting then some .busy
  else (chansOf sel).findSome? fun c => s.powerRefusal c target

/-- The checks of a PWR (R179): every channel named is judged before any acts; then overridden requests are
aborted, the request is recorded, and the channels act. -/
def State.checkPwr (s : State) (t : Tag) (sel : ChanSel) (target : Target) : State :=
  match s.pwrRefusal sel target with
  | some st => s.answer t st
  | none =>
    let s := (chansOf sel).foldl (fun s c => s.overridePower c target) s
    let p : PendingPower := { tag := t, toRetain := target == .retain, both := sel == .both }
    let s := (chansOf sel).foldl (fun s c => s.recordPower c p) s
    (chansOf sel).foldl (fun s c => s.actPower c target) s

/-! ### TRIM (R90, R180) -/

/-- A TRIM handed to the refresh unit of a channel (R90). -/
def State.trimFor (s : State) (t : Tag) (c : Chan) : State :=
  (s.modRefr c fun r => { r with owedWaiters := r.owedWaiters ++ [t] }).oweTrim c

/-- The checks of a TRIM (R180). -/
def State.checkTrim (s : State) (t : Tag) (sel : ChanSel) : State :=
  if (chansOf sel).any fun c => (s.ch c).pwr.state == .starting then s.answer t .busy
  else (chansOf sel).foldl (fun s c => s.trimFor t c) s

/-- A TRIM's trim on channel `c` has ended: answered OK when no channel still has it waiting (R89, R30). -/
def State.trimEnded (s : State) (c : Chan) (t : Tag) : State :=
  let r := (s.ch c.other).refr
  if r.owedWaiters.contains t || r.runningWaiters.contains t then s else s.answer t .ok

/-! ### SVC (R142, R145) -/

/-- The checks of an SVC OUT (R142). -/
def State.checkSvcOut (s : State) (t : Tag) (c : Chan) : State :=
  if s.mir.mode = .split then s.answer t .mode
  else if (s.ch c).pwr.state = .starting then s.answer t .busy
  else if s.mir.health c = .degraded then s.answer t .ok
  else if s.mir.health c = .rebuilding then (s.abortRebuild true).answer t .ok
  else if s.mir.health c.other ≠ .inService then s.answer t .lastCopy
  else (s.degrade c .request none).answer t .ok

/-- A rebuild starts (R145). -/
def State.startRebuild (s : State) (c : Chan) : State :=
  { s with
    mir := { s.mir.setHealth c .rebuilding with
      rebuild := some { target := c, next := 0, copies := [], frontier := 0 } } }

/-- The checks of an SVC IN (R145); the copies that R147 allows are the event's remaining work. -/
def State.checkSvcIn (s : State) (t : Tag) (c : Chan) : State :=
  if s.mir.mode = .split then s.answer t .mode
  else if s.chA.pwr.state = .starting ∨ s.chB.pwr.state = .starting then s.answer t .busy
  else if s.mir.health c ≠ .degraded then s.answer t .busy
  else (s.startRebuild c).answer t .ok

/-! ### GET and STAT (R177, R182) -/

/-- The checks of a GET (R177). -/
def State.checkGet (s : State) (t : Tag) (id : Byte) : State :=
  match paramValue s.mir.mode s.conf id with
  | some v => s.answerWith t .ok fun _ => .value id v
  | none => s.answerWith t .badParam fun _ => .value id 0

/-- A channel's part of the snapshot (R182); trim owed as R76 gives it. -/
def State.channelStat (s : State) (c : Chan) : ChannelStat where
  power := (s.ch c).pwr.state
  health := s.mir.health c
  queueLength := (s.ch c).ctl.queue.length
  openBanks := (s.ch c).ctl.openBanks
  debt := (s.ch c).refr.debt
  trimOwed := (s.ch c).refr.trimOwed || (s.ch c).refr.trimming != .none
  uncorrectable := s.mir.unc c

/-- The snapshot of a STAT (R182). -/
def State.snapshot (s : State) : Snapshot where
  mode := s.mir.mode
  zone := s.therm.zone
  sensor := s.therm.sensor
  temperature := s.therm.lastTemp
  hostEntries := s.table.hostsInUse
  internalEntries := s.table.internalsInUse
  holdLength := s.table.holdQueue.length
  barrier := s.table.barrier.isSome
  replayCount := s.link.replayCount
  rebuild := s.mir.rebuild.map fun r => (r.target, r.next, r.frontier)
  chanA := s.channelStat .a
  chanB := s.channelStat .b

/-- The checks of a STAT (R182). -/
def State.checkStat (s : State) (t : Tag) : State := s.answerWith t .ok fun _ => .snapshot s.snapshot

/-! ### The hold queue and barriers (R32, R33) -/

/-- The checks of the kinds that can be held (R22, R23). -/
def State.checkHeld (s : State) (t : Tag) : Req → State
  | .rd sz addr => s.checkRd t sz addr
  | .wr sz mask addr data => s.checkWr t sz mask addr data
  | .bar => { s with table := { s.table with barrier := some t } }
  | .setParam id value => s.checkSet t id value
  | .pwr sel target => s.checkPwr t sel target
  | .trim sel => s.checkTrim t sel
  | .svc c .takeOut => s.checkSvcOut t c
  | .svc c .takeIn => s.checkSvcIn t c
  | .can _ | .get _ | .stat | .rst => s

/-- The active barrier answered (R32). -/
def State.answerBarrier (s : State) : State :=
  match s.table.barrier with
  | none => s
  | some t => { s with table := { s.table with barrier := none } }.answer t .ok

/-- The head of the hold queue released: it becomes ACTIVE and its checks run (R33), and the copies that a
rebuild it starts or a depth it sets allows begin before the next entry is released (R147). -/
def State.releaseHead (s : State) : State :=
  match s.table.holdQueue with
  | [] => s
  | t :: rest =>
    let s := { s with table := { s.table with holdQueue := rest } }
    match s.host t with
    | none => s
    | some e => ((s.modHost t fun e => { e with state := .active }).checkHeld t e.req).startCopies 4

/-- Barrier tests and releases, one after another (R32, R33), at most `fuel` of them. -/
def State.releaseLoop : Nat → State → State
  | 0, s => s
  | fuel + 1, s =>
    if s.table.barrier.isSome then
      if s.barrierReady then s.answerBarrier.releaseLoop fuel else s
    else if s.table.holdQueue.isEmpty then s
    else s.releaseHead.releaseLoop fuel

/-- The active barrier tested; release runs until a barrier stands or the hold queue is empty. Each of
at most 64 entries takes at most two turns. -/
def State.release (s : State) : State := s.releaseLoop 130

/-! ### CAN (R34 to R36) -/

/-- No leg of the entry is ISSUED or DONE (R35). -/
def State.noneIssued (s : State) (t : Tag) (e : Entry) : Bool :=
  e.done.isEmpty && (s.queued (.host t)).all Leg.unissued

/-- The victim is cancellable (R35). -/
def State.cancellable (s : State) (v : Tag) (e : Entry) : Bool :=
  e.state == .held ||
    (e.state == .active && (isMemoryReq e.req || e.req == .bar) && s.noneIssued v e)

/-- The victim's work withdrawn and its answer posted, with the barrier's test and the release that
follow (R35 steps 1 to 3). -/
def State.cancel (s : State) (v : Tag) : State :=
  let own (l : Leg) : Bool := l.owner == .host v
  let s := (s.removeWhere .a own).removeWhere .b own
  let s := { s with table := { s.table with
    holdQueue := s.table.holdQueue.filter (· != v)
    barrier := if s.table.barrier = some v then none else s.table.barrier } }
  (s.answer v .cancelled).release

/-- The checks of a CAN (R176). -/
def State.checkCan (s : State) (t v : Tag) : State :=
  match s.host v with
  | none => s.answer t .noSuchTag
  | some e =>
    if v = t ∨ e.state = .answered ∨ e.req = .rst then s.answer t .noSuchTag
    else if s.cancellable v e then (s.cancel v).answer t .ok
    else s.answer t .tooLate

/-! ### RST and the end of a RESTART (R38, R205, R208) -/

/-- What the admission of RST `t` leaves of a host entry (R38): its own, and an ACTIVE RD or WR that
has an ISSUED leg. The DONE legs of a kept entry stay in its list, as R27 has it (log 25). -/
def State.keptAtRestart (s : State) (t g : Tag) : Option Entry :=
  match s.host g with
  | none => none
  | some e =>
    if g = t then some e
    else if e.state = .active ∧ isMemoryReq e.req = true ∧ !(s.queued (.host g)).isEmpty then some e
    else none

/-- The RESTART's effect on one channel at its admission: waiters and pending POWER dropped (R90,
R128), the drain gate's wake of a channel in NAP with a bank OPEN (R72), and a decision event. -/
def State.drainChannel (s : State) (c : Chan) : State :=
  let s := s.modRefr c fun r => { r with owedWaiters := [], runningWaiters := [] }
  let s := s.modPwr c fun p => { p with pendingPower := none }
  let s := s.callDecision c
  if (s.ch c).pwr.state = .nap ∧ allBanks.any (fun b => ((s.ch c).ctl.bank b).state == .opened) then
    s.beginNapExit c false
  else s

/-- The admission of RST `t` (R38, R183, R205). -/
def State.beginRestart (s : State) (t : Tag) : State :=
  let host (l : Leg) : Bool :=
    match l.owner with
    | .host _ => true
    | .internal _ => false
  let s := { s with table := { s.table with restarting := true } }
  let s := s.abortRebuild false
  let s := (s.removeWhere .a host).removeWhere .b host
  let s := { s with table := { s.table with
    hosts := Vector.ofFn fun g => s.keptAtRestart t g
    holdQueue := []
    barrier := none
    answers := [] } }
  (s.drainChannel .a).drainChannel .b

/-- The writable parameters back at their power-on values (R200). -/
def State.restoreSettings (s : State) : State :=
  let s := if s.conf.retainIdle = 0 then s else
    (s.modPwr .a fun p => { p with retainIdle := none }).modPwr .b fun p => { p with retainIdle := none }
  { s with conf := Settings.powerOn }

/-- The RST's entry, ACTIVE during the drain. -/
def State.restartTag (s : State) : Option Tag :=
  allTags.find? fun t => ((s.host t).map fun e => e.req == .rst && e.state == .active).getD false

/-- The end of a RESTART (R208). -/
def State.endRestart (s : State) : State :=
  let s := s.restoreSettings
  let s := { s with mir := { s.mir with uncA := 0, uncB := 0, toggle := .a } }
  let s := { s with notices := [], link := { s.link with answersSinceNotice := 0 } }
  let s := { s with table := { s.table with restarting := false } }
  let s := match s.restartTag with
    | some t => s.answer t .ok
    | none => s
  let s := (s.recompute .a).recompute .b
  (s.callDecision .a).callDecision .b

/-! ### Admission (R19 to R24) -/

/-- The kinds that a barrier holds back (R22). -/
def holdable : Req → Bool
  | .rd .. | .wr .. | .bar | .setParam .. | .pwr .. | .trim _ | .svc .. => true
  | .can _ | .get _ | .stat | .rst => false

/-- The kind-specific checks at admission (R23); a BAR that becomes active is tested at once (R32). -/
def State.runChecks (s : State) (t : Tag) (q : Req) : State :=
  match q with
  | .can v => s.checkCan t v
  | .get id => s.checkGet t id
  | .stat => s.checkStat t
  | .rst => s.beginRestart t
  | .bar => (s.checkHeld t .bar).release
  | .rd .. | .wr .. | .setParam .. | .pwr .. | .trim _ | .svc .. => s.checkHeld t q

/-- A host entry created, with the next arrival number (R18, R21). -/
def State.createEntry (s : State) (t : Tag) (q : Req) (st : EntryState) : State :=
  let e : Entry :=
    { age := s.table.arrivals, req := q, decoded := none, state := st, legsMade := 0, done := [],
      status := none, data := none, served := none }
  let s := s.setHost t (some e)
  { s with table := { s.table with arrivals := s.table.arrivals + 1 } }

/-- A holdable message is held while a barrier is active or the hold queue is not empty (R22). -/
def State.mustHold (s : State) (q : Req) : Bool :=
  holdable q && (s.table.barrier.isSome || !s.table.holdQueue.isEmpty)

/-- A message that has passed R19 to R21 becomes an entry (R21, R22, R23). -/
def State.enterRequest (s : State) (t : Tag) (q : Req) : State :=
  if s.mustHold q then
    let s := s.createEntry t q .held
    { s with table := { s.table with holdQueue := s.table.holdQueue ++ [t] } }
  else (s.createEntry t q .active).runChecks t q

/-- A STAT message, by its kind byte (R19). -/
def isStatMessage (m : RawMsg) : Bool := m.kind == some 10

/-- A message taken by the request table (R19 to R24). -/
def State.takeMessage (s : State) (m : RawMsg) : State :=
  if s.table.restarting && !isStatMessage m then s.reject m .restarting
  else
    match m.req with
    | none => s.reject m .malformed
    | some (t, q) => if (s.host t).isSome then s.reject m .duplicate else s.enterRequest t q

end Sys2Proof.Machine
end

