-- ==== Sys2Proof/Machine/Messages.lean ====
section
/-! DEFINITION. The byte layouts of what the part sends: answers, rejects, notices and control messages
(R191, R193, R194), and the frame that carries each of them (R153, R154). -/

namespace Sys2Proof.Machine
open Sys2Proof

/-! ### Codes (R194) -/

def Status.code : Status → Byte
  | .ok => 0
  | .corrected => 1
  | .recovered => 2
  | .uncorrectable => 3
  | .poison => 4
  | .unset => 5
  | .poisonedMerge => 6
  | .cancelled => 7
  | .tooLate => 8
  | .noSuchTag => 9
  | .range => 10
  | .align => 11
  | .thermal => 12
  | .busy => 13
  | .mode => 14
  | .lastCopy => 15
  | .notReady => 16
  | .aborted => 17
  | .badParam => 18
  | .readOnly => 19

def Reason.code : Reason → Byte
  | .malformed => 0
  | .duplicate => 1
  | .restarting => 2

def DegradeReason.code : DegradeReason → Byte
  | .limit => 0
  | .request => 1

def SensorState.code : SensorState → Byte
  | .awaiting => 0
  | .ok => 1
  | .lost => 2

def PowerState.code : PowerState → Byte
  | .starting => 0
  | .active => 1
  | .nap => 2
  | .napExit => 3
  | .retainEntry => 4
  | .retain => 5
  | .retainExit => 6

def Health.code : Health → Byte
  | .inService => 0
  | .degraded => 1
  | .rebuilding => 2

/-- A number as a byte. -/
def byteOf (n : Nat) : Byte := BitVec.ofNat 8 n

def Zone.code (z : Zone) : Byte := byteOf z.rank

def flagByte (b : Bool) : Byte := if b then 1 else 0

/-- A channel, or 0xFF for none (R193). -/
def chanByte : Option Chan → Byte
  | none => 0xFF
  | some c => byteOf c.num

/-- A temperature field: whether it is present, and 2 signed bytes, 0 when absent (R193). -/
def temperatureBytes (t : Option Int) : List Byte :=
  flagByte t.isSome :: le16Bytes (BitVec.ofInt 16 (t.getD 0))

/-! ### Payloads (R193) -/

def ReadData.bytes : ReadData → List Byte
  | .whole d => d.toList
  | .half d => d.toList

/-- The 9 bytes of a channel block of the STAT answer. -/
def ChannelStat.bytes (x : ChannelStat) : List Byte :=
  [x.power.code, x.health.code] ++ le16Bytes (BitVec.ofNat 16 x.queueLength) ++
    [byteOf x.openBanks, BitVec.ofInt 8 x.debt, flagByte x.trimOwed] ++
    le16Bytes (BitVec.ofNat 16 x.uncorrectable)

/-- The rebuild part of the STAT answer: present flag, target, next line and frontier as MIRROR line
addresses (R7, R182). -/
def rebuildBytes : Option (Chan × Nat × Nat) → List Byte
  | none => [0, 0xFF] ++ le32Bytes 0 ++ le32Bytes 0
  | some (target, next, frontier) =>
    [1, byteOf target.num] ++ le32Bytes (lineAddress .mirror target next) ++
      le32Bytes (lineAddress .mirror target frontier)

/-- Offsets 3 to 41 of the STAT answer. -/
def Snapshot.bytes (s : Snapshot) : List Byte :=
  [byteOf s.mode.code, s.zone.code, s.sensor.code] ++ temperatureBytes s.temperature ++
    [byteOf s.hostEntries, byteOf s.internalEntries, byteOf s.holdLength, flagByte s.barrier,
      byteOf s.replayCount] ++
    rebuildBytes s.rebuild ++ s.chanA.bytes ++ s.chanB.bytes

def Extra.bytes : Extra → List Byte
  | .nothing => []
  | .read served data => chanByte served :: (data.map ReadData.bytes).getD []
  | .param id => [id]
  | .value id v => id :: le32Bytes v
  | .snapshot s => s.bytes

def Answer.bytes (a : Answer) : List Byte := [a.kind, byteOf a.tag.val, a.status.code] ++ a.extra.bytes

/-- 0xFF for a tag or kind that the payload was too short to hold (R185). -/
def Reject.bytes (r : Reject) : List Byte := [0xE0, r.tag.getD 0xFF, r.reason.code, r.kind.getD 0xFF]

def QueueItem.bytes : QueueItem → List Byte
  | .answer a => a.bytes
  | .reject r => r.bytes

def NoticeFields.bytes : NoticeFields → List Byte
  | .nothing => []
  | .zone old new t => [old.code, new.code] ++ temperatureBytes t
  | .address a => le32Bytes a
  | .reason r => [r.code]

def Notice.bytes (n : Notice) : List Byte :=
  [byteOf n.kind.code, chanByte n.chan, byteOf n.count] ++ n.first.bytes ++ n.latest.bytes

/-! ### Frames (R153, R191) -/

/-- Class ANSWER for answers and rejects, NOTICE for notices (R153). -/
def FrameMsg.cls : FrameMsg → Byte
  | .item _ => 2
  | .notice _ => 3

def FrameMsg.payload : FrameMsg → List Byte
  | .item q => q.bytes
  | .notice n => n.bytes

/-- The acknowledgement that a frame begun now carries: the expected sequence less one (R153). -/
def Link.ackField (l : Link) : Byte := l.expected - 1

/-- A buffered frame as it goes out now (R154, R166). -/
def Buffered.frame (b : Buffered) (ack : Byte) : List Byte := frameBytes b.msg.cls b.seq ack b.msg.payload

/-- The control messages that the part sends (R191). -/
def synrPayload (ready : Bool) : List Byte := [2, flagByte ready]
def ackPayload : List Byte := [3]
def rsndPayload (n : Byte) : List Byte := [4, n]

/-- A control frame of the part: sequence 0 (R153). -/
def controlFrame (ack : Byte) (payload : List Byte) : List Byte := frameBytes 4 0 ack payload

end Sys2Proof.Machine
end

