-- ==== Sys2Proof/Machine/Link.lean ====
section
/-! DEFINITION. The frame link: acknowledgements and the replay buffer (R161, R163, R164), link states
and synchronisation (R156, R157), inbound frames in UP (R158 to R160), the timers (R162, R165), and the
outbound arbiter's frames (R166 to R170). -/

namespace Sys2Proof.Machine
open Sys2Proof

/-! ### Acknowledgement of the part's frames -/

/-- The place of the buffered frame with sequence `a`. -/
def replayIndex (a : Byte) (buf : List Buffered) : Option Nat := buf.findIdx? fun b => b.seq == a

/-- The resend point after `k` frames have left the head of the buffer, with `rest` frames remaining
(R161). -/
def resendAfter (k rest : Nat) : Option Nat → Option Nat
  | none => none
  | some p => if k ≤ p then some (p - k) else if rest = 0 then none else some 0

/-- An acknowledgement `a` applied to the replay buffer (R161). -/
def Link.applyAck (l : Link) (now timeout : Nat) (a : Byte) : Link :=
  match replayIndex a l.replay with
  | none => l
  | some i =>
    let rest := l.replay.drop (i + 1)
    { l with
      replay := rest
      replayCount := 0
      replayTimer := if rest.isEmpty then none else some (now + Config.us timeout)
      resendPoint := resendAfter (i + 1) rest.length l.resendPoint }

def State.modLink (s : State) (f : Link → Link) : State := { s with link := f s.link }

def State.applyAck (s : State) (a : Byte) : State :=
  s.modLink fun l => l.applyAck s.clock s.conf.replayTimeout a

/-! ### Link states (R156, R157) -/

/-- The link goes DOWN (R156). -/
def Link.goDown (l : Link) : Link :=
  { l with
    up := false
    replayTimer := none
    ackTimer := none
    resendPoint := none
    pendingSynr := none
    pendingRsnd := false
    pendingAck := false
    resendOutstanding := false
    ackOwed := false }

/-- Frames numbered from `n` on in buffer order (R157 step 2). -/
def renumber (n : Nat) : List Buffered → List Buffered
  | [] => []
  | b :: bs => { b with seq := byteOf n } :: renumber (n + 1) bs

/-- The link record after a SYNC taken at `now` (R157 steps 1 to 4). -/
def Link.synced (l : Link) (now timeout : Nat) (ready : Bool) : Link :=
  { l with
    up := true
    expected := 0
    resendOutstanding := false
    ackOwed := false
    ackTimer := none
    nextSeq := byteOf l.replay.length
    replay := renumber 0 l.replay
    replayTimer := if l.replay.isEmpty then none else some (now + Config.us timeout)
    replayCount := 0
    resendPoint := if l.replay.isEmpty then none else some 0
    pendingSynr := some ready
    pendingRsnd := false
    pendingAck := false }

/-- A good SYNC taken (R157). -/
def State.takeSync (s : State) : State :=
  let t := s.modLink fun l => l.synced s.clock s.conf.replayTimeout s.table.ready
  if s.link.up then t else t.postNotice .linkRecovered none .nothing

/-! ### Inbound frames in UP (R158, R159) -/

/-- The acceptance of an in-order request frame (R158). -/
def Link.accept (l : Link) (now delay : Nat) : Link :=
  { l with
    expected := l.expected + 1
    resendOutstanding := false
    pendingRsnd := false
    ackOwed := true
    ackTimer := if l.ackTimer.isSome then l.ackTimer else some (now + Config.ns delay) }

/-- The resend rule of a bad frame or a frame ahead (R159). -/
def Link.askResend (l : Link) : Link :=
  if l.resendOutstanding then l else { l with pendingRsnd := true, resendOutstanding := true }

/-- A good REQUEST frame is behind (R158). -/
def Link.isBehind (l : Link) (sequence : Byte) : Bool := decide ((l.expected - sequence).toNat ≤ 128)

/-- A good REQUEST frame taken (R156, R158): its acknowledgement field is applied (R161; log 14), then
it is accepted and its message handed to the request table, or discarded. -/
def State.takeRequestFrame (s : State) (h : FrameHdr) (m : RawMsg) : State :=
  if s.link.up then
    let s := s.applyAck h.ack
    if h.seq = s.link.expected then (s.modLink fun l => l.accept s.clock s.conf.ackDelay).takeMessage m
    else if s.link.isBehind h.seq then s.modLink fun l => { l with pendingAck := true }
    else s.modLink Link.askResend
  else s

/-- A bad frame taken (R156, R159). -/
def State.takeBadFrame (s : State) : State := if s.link.up then s.modLink Link.askResend else s

/-- A good REQUEST frame `d + 1` ahead of the expected sequence (R158). -/
def State.takeAhead (s : State) (d : Fin 127) (ack : Byte) : State :=
  s.takeRequestFrame { seq := s.link.expected + byteOf (d.val + 1), ack := ack }
    { kind := none, tag := none, req := none }

/-- A good REQUEST frame `d + 1` behind the expected sequence (R158). -/
def State.takeBehind (s : State) (d : Fin 128) (ack : Byte) : State :=
  s.takeRequestFrame { seq := s.link.expected - byteOf (d.val + 1), ack := ack }
    { kind := none, tag := none, req := none }

/-- A good ACK frame (R160, R161). -/
def State.takeAck (s : State) (a : Byte) : State := if s.link.up then s.applyAck a else s

/-- A good RSND frame (R160). -/
def State.takeRsnd (s : State) (n : Byte) : State :=
  if s.link.up && (replayIndex n s.link.replay).isSome then
    let s := s.applyAck (n - 1)
    s.modLink fun l => { l with resendPoint := replayIndex n l.replay }
  else s

/-! ### Timers (R162, R165) -/

/-- The ack-delay timer's expiry (R162). -/
def Link.ackDelayExpired (l : Link) : Link :=
  { l with ackTimer := none, pendingAck := l.pendingAck || l.ackOwed }

/-- The replay timer's expiry (R165). -/
def Link.replayExpired (l : Link) (now timeout : Nat) : Link :=
  if l.replayCount + 1 < Config.maxReplays then
    { l with
      replayCount := l.replayCount + 1
      resendPoint := if l.replay.isEmpty then none else some 0
      replayTimer := some (now + Config.us timeout) }
  else { l.goDown with replayCount := Config.maxReplays }

/-! ### The outbound arbiter (R166 to R170) -/

/-- A frame begun: the path is busy for its lane time and the acknowledgement is no longer owed
(R162, R167). -/
def Link.begin (l : Link) (now : Nat) (bytes : List Byte) : Link :=
  { l with
    tx := some { bytes := bytes, ends := now + Config.byteTime * bytes.length }
    ackOwed := false }

/-- The pending control frame that goes first is taken (R168 step 1, R170). An ACK carries the
acknowledgement as it stands at its begin (R153), whatever was accepted since it was made pending (log 26). -/
def State.sendControl (s : State) : State :=
  s.modLink fun l =>
    match l.pendingSynr with
    | some ready =>
      { l with pendingSynr := none }.begin s.clock (controlFrame l.ackField (synrPayload ready))
    | none =>
      if l.pendingRsnd then
        { l with pendingRsnd := false }.begin s.clock (controlFrame l.ackField (rsndPayload l.expected))
      else { l with pendingAck := false }.begin s.clock (controlFrame l.ackField ackPayload)

/-- The frame at the resend point is transmitted again (R166). -/
def State.resend (s : State) : State :=
  s.modLink fun l =>
    match l.resendPoint with
    | none => l
    | some p =>
      match l.replay[p]? with
      | none => { l with resendPoint := none }
      | some b =>
        { l with resendPoint := if p + 1 < l.replay.length then some (p + 1) else none }.begin s.clock
          (b.frame l.ackField)

/-- A new answer or notice is numbered, buffered and begun (R170). -/
def Link.sendNew (l : Link) (now timeout : Nat) (msg : FrameMsg) : Link :=
  let b : Buffered := { seq := l.nextSeq, msg := msg }
  { l with
    nextSeq := l.nextSeq + 1
    replay := l.replay ++ [b]
    replayTimer := if l.replay.isEmpty then some (now + Config.us timeout) else l.replayTimer }.begin now
    (b.frame l.ackField)

/-- The release of a taken answer's host entry (R31). A reject frees nothing (R24). -/
def State.releaseTaken (s : State) : QueueItem → State
  | .answer a => s.setHost a.tag none
  | .reject _ => s

/-- The head of the answer queue is taken (R169, R170). -/
def State.sendAnswer (s : State) : State :=
  match s.table.answers with
  | [] => s
  | q :: rest =>
    let s := { s with table := { s.table with answers := rest } }
    let s := s.releaseTaken q
    s.modLink fun l =>
      { l.sendNew s.clock s.conf.replayTimeout (.item q) with
        answersSinceNotice :=
          if s.notices = [] then l.answersSinceNotice
          else min (l.answersSinceNotice + 1) Config.maxAnswersSinceNotice }

/-- The head notice is taken; the count becomes 0 (R169, R170). -/
def State.sendNotice (s : State) : State :=
  match s.notices with
  | [] => s
  | n :: rest =>
    let s := { s with notices := rest }
    s.modLink fun l =>
      { l.sendNew s.clock s.conf.replayTimeout (.notice n) with answersSinceNotice := 0 }

end Sys2Proof.Machine
end

