-- ==== Sys2Proof/Machine/Thermal.lean ====
section
/-! DEFINITION. The thermal monitor: what a sample does in each sensor state (R101 to R104), and a zone
change with its effects on the refresh units and power controls (R80, R85, R105, R106). -/

namespace Sys2Proof.Machine
open Sys2Proof

/-- A running refresh timer moved nearer by a shorter interval (R80). -/
def shortenTimer (now interval : Nat) : Timer → Timer
  | none => none
  | some e => if now + interval < e then some (now + interval) else some e

/-- The refresh unit of a channel takes the new zone: its interval (R80) and a short trim owed (R85). -/
def State.zoneForRefresh (s : State) (z : Zone) (c : Chan) : State :=
  (s.modRefr c fun r => { r with timer := shortenTimer s.clock (refreshInterval z) r.timer }).oweTrim c

/-- The power control of a channel takes a rise to HOT or CRITICAL (R106, R120, R121). -/
def State.heatRise (s : State) (c : Chan) : State :=
  match (s.ch c).pwr.state with
  | .retain => s.beginRetainExit c
  | .retainEntry => s.abortRetain c
  | .napExit => s.clearOnward c
  | .starting | .active | .nap | .retainExit => s

/-- A POWER RETAIN of its own is pending on each channel: a rise aborts both (R105: no order is fixed). -/
def State.bothAborted (s : State) : Bool :=
  match s.chA.pwr.pendingPower, s.chB.pwr.pendingPower with
  | some p, some q => p.toRetain && q.toRetain && p.tag != q.tag
  | _, _ => false

/-- Both power controls take a rise, in a free order where it can be seen (log 6). -/
def State.heatRises (s : State) : State :=
  if s.bothAborted then
    let order := sortRanked (fun c => Config.freeRank s.draws c.num) [Chan.a, Chan.b]
    order.foldl State.heatRise { s with draws := s.draws + 1 }
  else (s.heatRise .a).heatRise .b

/-- The zone becomes `new`; a change has the effects of R105. The ZONE notice is posted with them, ahead of
whatever the held entries do that an ABORTED answer of the change releases (log 28). -/
def State.moveZone (s : State) (new : Zone) (temp : Option Int) : State :=
  let old := s.therm.zone
  if new = old then s
  else
    let s := { s with therm := { s.therm with zone := new } }
    let s := (s.zoneForRefresh new .a).zoneForRefresh new .b
    let s := if !old.isHot && new.isHot then s.heatRises else s
    s.postNotice .zone none (.zone old new temp)

/-- The third missed sample (R103). -/
def State.loseSensor (s : State) : State :=
  let s := { s with therm := { s.therm with sensor := .lost, lastTemp := none, missed := 3 } }
  let s := s.postNotice .sensorLost none .nothing
  if s.therm.zone.isHot then s else s.moveZone .hot none

/-- A sample without a reading (R101 to R104). -/
def State.missSample (s : State) : State :=
  match s.therm.sensor with
  | .lost => s
  | .awaiting | .ok =>
    if s.therm.missed + 1 < 3 then { s with therm := { s.therm with missed := s.therm.missed + 1 } }
    else s.loseSensor

/-- A sample with a reading (R101, R102, R104). -/
def State.takeReading (s : State) (t : Int) : State :=
  let was := s.therm.sensor
  let s := { s with therm := { s.therm with sensor := .ok, missed := 0, lastTemp := some t } }
  match was with
  | .awaiting => s.moveZone (risingZone t) (some t)
  | .ok => s.moveZone (hysteresisZone s.therm.zone t) (some t)
  | .lost => (s.postNotice .sensorBack none .nothing).moveZone (risingZone t) (some t)

/-- What a sample event carries, taken by the monitor (R98). -/
def State.takeSample (s : State) : Sample → State
  | .reading t => s.takeReading (sensorRange t)
  | .noReading => s.missSample

end Sys2Proof.Machine
end

