-- ==== Sys2Proof/Machine/Maintenance.lean ====
section
/-! DEFINITION. What each expiry does: the bank intervals (R46 to R49, R62), the ends of sweeps and trims
(R70, R87, R89, R202), the refresh timer (R79), the idle timers and the exits of power control (R113 to
R122); and the begin of each operation of a scheduling decision (R46, R48, R51, R57, R69, R87, R89). -/

namespace Sys2Proof.Machine
open Sys2Proof

/-! ### Bank intervals; each expiry is a decision event (R42, R54) -/

def State.openSettled (s : State) (c : Chan) (b : BankNo) : State :=
  ((s.modBank c b fun x => { x with state := .opened, openSettle := none }).judgeBank c b).callDecision c

def State.minimumOpenExpired (s : State) (c : Chan) (b : BankNo) : State :=
  (s.modBank c b fun x =>
    { x with minimumOpen := none, closable := x.closable || x.writeRecovery.isNone }).callDecision c

def State.rowCycleExpired (s : State) (c : Chan) (b : BankNo) : State :=
  (s.modBank c b fun x => { x with rowCycle := none, reopenable := true }).callDecision c

def State.closeExpired (s : State) (c : Chan) (b : BankNo) : State :=
  (s.modBank c b fun x => { x with state := .closed, openRow := none, closeTimer := none }).callDecision c

def State.writeRecoveryExpired (s : State) (c : Chan) (b : BankNo) : State :=
  (s.modBank c b fun x =>
    { x with writeRecovery := none, closable := x.closable || x.minimumOpen.isNone }).callDecision c

def State.openSpacingExpired (s : State) (c : Chan) : State :=
  (s.modCtl c fun k => { k with openSpacing := none }).callDecision c

/-- The oldest moment leaves the opening record (R49). -/
def State.openingWindowExpired (s : State) (c : Chan) : State :=
  (s.modCtl c fun k => { k with openings := k.openings.tail }).callDecision c

def State.idleCloseExpired (s : State) (c : Chan) (b : BankNo) : State :=
  (s.modBank c b fun x => { x with idleClose := .due }).callDecision c

/-! ### The begin of an operation -/

/-- The access of leg `l` begins (R51); the passed count follows R57 and R58. -/
def Control.issue (k : Control) (now : Nat) (l : Leg) : Control :=
  let k := k.modBank l.loc.bank fun x =>
    { x with
      access := some l.id
      readAccess :=
        match l.kind, l.size with
        | .write _, _ => x.readAccess
        | .fetch, _ => some (now + Config.readAccessLine)
        | .read, .line => some (now + Config.readAccessLine)
        | .read, .half => some (now + Config.readAccessHalf)
      writeAccess :=
        match l.kind, l.size with
        | .write _, .line => some (now + Config.writeAccessLine)
        | .write _, .half => some (now + Config.writeAccessHalf)
        | .read, _ => x.writeAccess
        | .fetch, _ => x.writeAccess }
  Control.track
    { k with
      queue := mapLeg l.id (fun m => { m with state := .issued }) k.queue
      pathBusy := true
      passed := if k.oldest = some l.id then k.passed else k.passed + 1 }

/-- An open begins (R46, R49). -/
def Control.beginOpen (k : Control) (now : Nat) (b : BankNo) (r : RowNo) : Control :=
  { k.modBank b fun x =>
      { x with
        state := .opening
        openRow := some r
        closable := false
        reopenable := false
        idleClose := .stopped
        openSettle := some (now + Config.openSettle)
        minimumOpen := some (now + Config.minimumOpen)
        rowCycle := some (now + Config.rowCycle) } with
    openings := k.openings ++ [now]
    openSpacing := some (now + Config.openSpacing) }

/-- A close begins (R48). -/
def Control.beginClose (k : Control) (now : Nat) (b : BankNo) : Control :=
  k.modBank b fun x =>
    { x with state := .closing, idleClose := .stopped, closeTimer := some (now + Config.closeTime) }

/-- Every bank becomes MAINTAINING, its intervals stopped (R42, R69). -/
def Bank.maintain (x : Bank) : Bank :=
  { x with
    state := .maintaining
    idleClose := .stopped
    minimumOpen := none
    rowCycle := none
    writeRecovery := none }

/-- A sweep begins on channel `c` (R69, R87). -/
def State.beginSweep (s : State) (c : Chan) : State :=
  (s.modCtl c fun k =>
      { k.mapBanks Bank.maintain with sweepTimer := some (s.clock + Config.sweepTime) }).modRefr c
    fun r => { r with sweeping := true, demand := .none }

/-- A short trim begins on channel `c` (R69, R89). -/
def State.beginShortTrim (s : State) (c : Chan) : State :=
  (s.modCtl c fun k =>
      { k.mapBanks Bank.maintain with shortTrimTimer := some (s.clock + Config.shortTrim) }).modRefr c
    fun r =>
      { r with
        trimOwed := false
        trimming := .short
        runningWaiters := r.runningWaiters ++ r.owedWaiters
        owedWaiters := [] }

/-- An operation of a decision begins on channel `c` at the present moment (R56). -/
def State.beginOp (s : State) (c : Chan) : Operation → State
  | .issue i =>
    match findLeg i (s.ch c).ctl.queue with
    | none => s
    | some l => s.modCtl c fun k => k.issue s.clock l
  | .openBank b r => s.modCtl c fun k => k.beginOpen s.clock b r
  | .closeBank b => s.modCtl c fun k => k.beginClose s.clock b
  | .sweep => s.beginSweep c
  | .shortTrim => s.beginShortTrim c

/-! ### The ends of maintenance -/

/-- A bank at the end of a maintenance (R70, R74). -/
def Bank.maintained (x : Bank) : Bank :=
  { x with
    state := .closed
    openRow := none
    reopenable := true
    closable := false
    access := none
    idleClose := .stopped }

/-- The end of a sweep (R70, R87). -/
def State.sweepEnded (s : State) (c : Chan) : State :=
  let s := s.modCtl c fun k => { k.mapBanks Bank.maintained with sweepTimer := none }
  let s := s.modRefr c fun r => { r with debt := r.debt - 1, sweeping := false }
  (s.report c).callDecision c

/-- The running waiters reported, in a free order where there are several (R89 step 2; log 6). -/
def State.reportWaiters (s : State) (c : Chan) : State :=
  let w := (s.ch c).refr.runningWaiters
  let rank (t : Tag) : Nat := Config.freeRank s.draws t.val
  let s := s.modRefr c fun r => { r with runningWaiters := [] }
  if w.length ≤ 1 then w.foldl (fun s t => s.trimEnded c t) s
  else (sortRanked rank w).foldl (fun s t => s.trimEnded c t) { s with draws := s.draws + 1 }

/-- The end of a short trim (R70, R89). -/
def State.shortTrimEnded (s : State) (c : Chan) : State :=
  let s := s.modCtl c fun k => { k.mapBanks Bank.maintained with shortTrimTimer := none }
  let s := s.modRefr c fun r => { r with trimming := .none }
  (((s.reportWaiters c).recompute c).callDecision c).later (.channel c)

/-- The ready flag set and READY posted, once both channels have left STARTING (R202). -/
def State.judgeReady (s : State) : State :=
  if s.table.ready = false ∧ s.chA.pwr.state ≠ .starting ∧ s.chB.pwr.state ≠ .starting then
    { s with table := { s.table with ready := true } }.postNotice .ready none .nothing
  else s

/-- The end of a long trim (R74, R89, R95, R112, R202). -/
def State.longTrimEnded (s : State) (c : Chan) : State :=
  let s := s.modCtl c fun k => { k.mapBanks Bank.maintained with longTrimTimer := none }
  let s := s.modRefr c fun r =>
    { r with trimming := .none, timer := some (s.clock + refreshInterval s.therm.zone) }
  let s := s.reportWaiters c
  let s := s.modPwr c fun p => { p with state := .active }
  ((s.report c).callDecision c).judgeReady

/-! ### The refresh timer (R79) -/

/-- The debt raised, up to 7 (R77, R79). -/
def raiseDebt (d : Int) : Int := if d < Config.maxDebt then d + 1 else d

def State.refreshExpired (s : State) (c : Chan) : State :=
  let s := s.modRefr c fun r =>
    { r with timer := some (s.clock + refreshInterval s.therm.zone), debt := raiseDebt r.debt }
  let s :=
    if (s.ch c).pwr.state = .nap ∧ Config.wakeDebt ≤ (s.ch c).refr.debt then s.wakeForRefresh c else s
  s.report c

/-! ### Power control's timers -/

/-- The nap-idle timer's expiry (R113, R114). -/
def State.napIdleExpired (s : State) (c : Chan) : State := s.enterNap c

/-- The channel may be taken toward retention on its own account (R117). -/
def State.mayRetainAlone (s : State) : Bool :=
  !s.therm.zone.isHot && !s.rebuildOn && !s.table.restarting

/-- The retain-idle timer's expiry (R117). -/
def State.retainIdleExpired (s : State) (c : Chan) : State :=
  let s := s.modPwr c fun p => { p with retainIdle := none }
  if s.mayRetainAlone then s.beginNapExit c true else s

/-- A pending POWER ACTIVE reported reached (R116, R122, R124). -/
def State.activeReached (s : State) (c : Chan) : State :=
  if ((s.ch c).pwr.pendingPower.map (·.toRetain)) = some false then s.powerReached c else s

/-- The nap exit's expiry (R116, R64). -/
def State.napExitExpired (s : State) (c : Chan) : State :=
  if (s.ch c).pwr.onward then s.beginRetainEntry c
  else
    let s := s.modPwr c fun p => { p with state := .active, exit := .stopped }
    ((((s.report c).judgeBanks c).callDecision c).activeReached c).later (.channel c)

/-- The retain exit's expiry (R122, R93). -/
def State.retainExitExpired (s : State) (c : Chan) : State :=
  let s := s.modPwr c fun p => { p with state := .active, exit := .stopped }
  let s := s.modRefr c fun r => { r with timer := some (s.clock + refreshInterval s.therm.zone) }
  (((s.report c).callDecision c).activeReached c).later (.channel c)

end Sys2Proof.Machine
end

