-- ==== Sys2Proof/Machine/Work.lean ====
section
/-! DEFINITION. How commands are taken. An event leaves the work that the manual puts in its own event
(the barrier's answer, copies, decisions, the completion of RETAIN_ENTRY, the end of a RESTART) either to
the rows of the opcode table that name it or, before the next event is taken, to `State.settled` (log 3).
An interval's expiry is taken at its moment (log 4). -/

namespace Sys2Proof.Machine
open Sys2Proof

/-- A command's outcome: the manual gives every event a next state. -/
abbrev Result := Host.Outcome State Fault Refusal

/-! ### Work left by an event -/

/-- A piece of work that an event leaves. -/
inductive Work where
  | barrier
  | copy
  | decision (c : Chan) (op : Operation)
  | retainComplete (c : Chan)
  | restartEnd
  deriving DecidableEq, Repr

/-- The work that comes next, if any. The decision runs after everything else that the event does (R56);
the completion of RETAIN_ENTRY and the end of a RESTART follow it (R119, R206). -/
def State.nextWork (s : State) : Option Work :=
  if s.barrierReady then some .barrier
  else if s.canStartCopy then some .copy
  else
    match s.decisionOp .a, s.decisionOp .b with
    | some op, _ => some (.decision .a op)
    | none, some op => some (.decision .b op)
    | none, none =>
      if s.chA.retainReady then some (.retainComplete .a)
      else if s.chB.retainReady then some (.retainComplete .b)
      else if s.restartReady then some .restartEnd
      else none

/-- One piece of work done. -/
def State.doWork (s : State) : Work → State
  | .barrier => s.release.judgeDue
  | .copy => s.startCopy.judgeDue
  | .decision c op => s.beginOp c op
  | .retainComplete c => s.completeRetain c
  | .restartEnd => s.endRestart

/-- The decisions of the event are over (R56). -/
def State.endDecisions (s : State) : State :=
  (s.modCtl .a fun k => { k with due := false }).modCtl .b fun k => { k with due := false }

/-- Work done until none is left, at most `fuel` pieces. -/
def State.settleLoop : Nat → State → State
  | 0, s => s.endDecisions
  | fuel + 1, s =>
    match s.nextWork with
    | none => s.endDecisions
    | some w => State.settleLoop fuel (s.doWork w).conclude

/-- The state after all the work that past events have left. One event leaves far fewer pieces than the
fuel: 4 copies, and on each channel 16 closes, an issue, an open and a maintenance. -/
def State.settled (s : State) : State := s.settleLoop 128

/-! ### How a command is taken -/

/-- An event of the outside world, of the host or of the part, taken at the present moment. -/
def State.event (s : State) (f : State → State) : Result :=
  if s.live then .next (f s.settled).conclude else .next s

/-- The expiry of an interval, taken at its moment; an interval that is stopped, or that is not among the
first to expire, has no expiry now and the state keeps (log 4). -/
def State.expiry (s : State) (timer : State → Timer) (f : State → State) : Result :=
  if s.live then
    let t := s.settled
    match timer t with
    | none => .next t
    | some m => if t.mayTake m then .next (f { t with clock := max t.clock m }).conclude else .next t
  else .next s

/-- A piece of work of the present event, done by its own row when it is due (log 3). -/
def State.own (s : State) (due : Bool) (f : State → State) : Result :=
  if s.live && due then .next (f s).conclude else .next s

/-- An operation of the decision on channel `c`, when it is the one that comes next and is of the wanted
kind. -/
def State.operation (s : State) (c : Chan) (want : Operation → Bool) : Result :=
  match s.decisionOp c with
  | none => .next s
  | some op => s.own (s.decisionsTurn && want op) fun s => s.beginOp c op

/-- A step of the outbound arbiter: what it takes when the path is free (R168). -/
def State.arbiter (s : State) (want : Choice) (f : State → State) : Result :=
  if s.live then
    let t := s.settled
    if t.arbiterChoice = some want then .next (f t).conclude else .next t
  else .next s

/-- No command waits: the clock moves on by one unit, unless an interval expires or a frame can be begun
at the present moment (log 1, log 7). -/
def State.idleTick (s : State) : State :=
  if s.live then
    let t := s.settled
    if t.mayTake (t.clock + 1) then { t with clock := t.clock + 1 } else t
  else { s with clock := s.clock + 1 }

end Sys2Proof.Machine
end

