-- ==== Sys2Proof/Machine/Banks.lean ====
section
/-! DEFINITION. The expiries of the intervals of R41 and the operations of a scheduling decision. -/

namespace Sys2Proof.Machine
open Sys2Proof

/-- The record of bank `b` of channel `c`. -/
def State.bank (s : State) (c : Chan) (b : BankNo) : Bank := (s.ch c).ctl.bank b

/-- OPEN_SETTLE_EXPIRY (R46). -/
def execOpenSettleExpiry (c : Chan) (b : BankNo) (s : State) : Result :=
  s.expiry (fun s => (s.bank c b).openSettle) fun s => s.openSettled c b

/-- MINIMUM_OPEN_EXPIRY (R47). -/
def execMinimumOpenExpiry (c : Chan) (b : BankNo) (s : State) : Result :=
  s.expiry (fun s => (s.bank c b).minimumOpen) fun s => s.minimumOpenExpired c b

/-- ROW_CYCLE_EXPIRY (R47). -/
def execRowCycleExpiry (c : Chan) (b : BankNo) (s : State) : Result :=
  s.expiry (fun s => (s.bank c b).rowCycle) fun s => s.rowCycleExpired c b

/-- CLOSE_EXPIRY (R48). -/
def execCloseExpiry (c : Chan) (b : BankNo) (s : State) : Result :=
  s.expiry (fun s => (s.bank c b).closeTimer) fun s => s.closeExpired c b

/-- READ_ACCESS_COMPLETE (R52). -/
def execReadAccessComplete (c : Chan) (b : BankNo) (s : State) : Result :=
  s.expiry (fun s => (s.bank c b).readAccess) fun s => s.completeRead c b

/-- WRITE_ACCESS_COMPLETE (R52). -/
def execWriteAccessComplete (c : Chan) (b : BankNo) (s : State) : Result :=
  s.expiry (fun s => (s.bank c b).writeAccess) fun s => s.completeWrite c b

/-- WRITE_RECOVERY_EXPIRY (R47). -/
def execWriteRecoveryExpiry (c : Chan) (b : BankNo) (s : State) : Result :=
  s.expiry (fun s => (s.bank c b).writeRecovery) fun s => s.writeRecoveryExpired c b

/-- OPEN_SPACING_EXPIRY (R49). -/
def execOpenSpacingExpiry (c : Chan) (s : State) : Result :=
  s.expiry (fun s => (s.ch c).ctl.openSpacing) fun s => s.openSpacingExpired c

/-- OPENING_WINDOW_EXPIRY (R49). -/
def execOpeningWindowExpiry (c : Chan) (s : State) : Result :=
  s.expiry (fun s => (s.ch c).ctl.windowTimer) fun s => s.openingWindowExpired c

/-- IDLE_CLOSE_EXPIRY (R62). -/
def execIdleCloseExpiry (c : Chan) (b : BankNo) (s : State) : Result :=
  s.expiry (fun s => (s.bank c b).idleClose.timer) fun s => s.idleCloseExpired c b

/-- SWEEP_END (R70, R87). -/
def execSweepEnd (c : Chan) (s : State) : Result :=
  s.expiry (fun s => (s.ch c).ctl.sweepTimer) fun s => s.sweepEnded c

/-- SHORT_TRIM_END (R70, R89). -/
def execShortTrimEnd (c : Chan) (s : State) : Result :=
  s.expiry (fun s => (s.ch c).ctl.shortTrimTimer) fun s => s.shortTrimEnded c

/-- LONG_TRIM_END (R202). -/
def execLongTrimEnd (c : Chan) (s : State) : Result :=
  s.expiry (fun s => (s.ch c).ctl.longTrimTimer) fun s => s.longTrimEnded c

/-! ### Operations of a decision (R56) -/

def Operation.isIssue : Operation → Bool
  | .issue _ => true
  | _ => false

def Operation.isOpen : Operation → Bool
  | .openBank _ _ => true
  | _ => false

def Operation.isClose : Operation → Bool
  | .closeBank _ => true
  | _ => false

/-- ISSUE_ACCESS (R51, R57, R58). -/
def execIssueAccess (c : Chan) (s : State) : Result := s.operation c Operation.isIssue

/-- OPEN_BEGIN (R46, R57, R59). -/
def execOpenBegin (c : Chan) (s : State) : Result := s.operation c Operation.isOpen

/-- CLOSE_BEGIN (R48, R57, R60, R67). -/
def execCloseBegin (c : Chan) (s : State) : Result := s.operation c Operation.isClose

/-- SWEEP_BEGIN (R69, R87). -/
def execSweepBegin (c : Chan) (s : State) : Result := s.operation c fun op => op == .sweep

/-- SHORT_TRIM_BEGIN (R69, R89). -/
def execShortTrimBegin (c : Chan) (s : State) : Result := s.operation c fun op => op == .shortTrim

end Sys2Proof.Machine
end

