-- ==== Sys2Proof/Machine/Frames.lean ====
section
/-! DEFINITION. The frame link's own rows: inbound control frames and frames that are not accepted (R157
to R161), its timers (R162, R165), the end of a transmission (R167) and the four things the outbound
arbiter takes (R168). -/

namespace Sys2Proof.Machine
open Sys2Proof

/-- SYNC (R157). -/
def execSync (s : State) : Result := s.event State.takeSync

/-- ACK (R160, R161). -/
def execAck (a : Byte) (s : State) : Result := s.event fun s => s.takeAck a

/-- RSND (R160). -/
def execRsnd (n : Byte) (s : State) : Result := s.event fun s => s.takeRsnd n

/-- BAD_FRAME (R156, R159): the cause makes no difference. -/
def execBadFrame (_cause : BadFrameCause) (s : State) : Result := s.event State.takeBadFrame

/-- REQUEST_FRAME_AHEAD (R158). -/
def execRequestFrameAhead (d : Fin 127) (ack : Byte) (s : State) : Result :=
  s.event fun s => s.takeAhead d ack

/-- REQUEST_FRAME_BEHIND (R158). -/
def execRequestFrameBehind (d : Fin 128) (ack : Byte) (s : State) : Result :=
  s.event fun s => s.takeBehind d ack

/-- FRAME_DISCARDED: no reply, and no field of the frame is looked at (R156, R160, R191). -/
def execFrameDiscarded (_frame : DiscardedFrame) (s : State) : Result := s.event fun s => s

/-- ACK_DELAY_EXPIRY (R162). -/
def execAckDelayExpiry (s : State) : Result :=
  s.expiry (fun s => s.link.ackTimer) fun s => s.modLink Link.ackDelayExpired

/-- REPLAY_TIMER_EXPIRY (R165). -/
def execReplayTimerExpiry (s : State) : Result :=
  s.expiry (fun s => s.link.replayTimer) fun s =>
    s.modLink fun l => l.replayExpired s.clock s.conf.replayTimeout

/-- TRANSMISSION_END (R167). -/
def execTransmissionEnd (s : State) : Result :=
  s.expiry (fun s => s.link.tx.map (·.ends)) fun s => s.modLink fun l => { l with tx := none }

/-- TRANSMIT_CONTROL (R168 step 1). -/
def execTransmitControl (s : State) : Result := s.arbiter .control State.sendControl

/-- RETRANSMIT (R166, R168 step 2). -/
def execRetransmit (s : State) : Result := s.arbiter .retransmit State.resend

/-- TRANSMIT_ANSWER (R169, R170). -/
def execTransmitAnswer (s : State) : Result := s.arbiter .answer State.sendAnswer

/-- TRANSMIT_NOTICE (R169, R170). -/
def execTransmitNotice (s : State) : Result := s.arbiter .notice State.sendNotice

end Sys2Proof.Machine
end

