-- ==== Sys2Proof/Machine/Outside.lean ====
section
/-! DEFINITION. The outside world: supplies and reset pin (R201, R184; log 8), disturbances (R8), the
sensor's samples (R98; log 5). -/

namespace Sys2Proof.Machine
open Sys2Proof

/-- The power-on event at the present moment (R201). -/
def State.restartPart (s : State) : State := State.powerOn s.clock s.draws s.pending

/-- POWER_ON: the supplies are applied, or the asserted reset pin is released (R201). While the pin is
held, applied supplies wait for its release. -/
def execPowerOn (cause : PowerOnCause) (s : State) : Result :=
  match cause with
  | .suppliesApplied => .next (if s.pinHeld then { s with powered := true } else s.restartPart)
  | .pinReleased =>
    .next
      (if s.pinHeld then (if s.powered then s.restartPart else { s with pinHeld := false }) else s)

/-- RESET_PIN_ASSERT: from now on the part takes no event and transmits nothing (R201). -/
def execResetPinAssert (s : State) : Result :=
  .next { s with pinHeld := true, link := { s.link with tx := none } }

/-- POWER_REMOVED: all work ends without answer (R184); the line records stay until power-on (R2). -/
def execPowerRemoved (s : State) : Result :=
  .next { s.restartPart with powered := false, pinHeld := s.pinHeld, mem := s.mem }

/-- DISTURBANCE (R8). -/
def execDisturbance (c : Chan) (m : LineNo) (s : State) : Result :=
  s.event fun s => { s with mem := s.mem.write c m.val (s.mem.read c m.val).disturbed }

/-- The moment of the sample event: the present one for the first, the end of the running period for
each later one (R98; log 5). -/
def State.sampleMoment (s : State) : Nat := if s.therm.sampled then s.therm.sampleAt else s.clock

/-- A sample event at moment `m` (R98). -/
def State.sampleAtMoment (s : State) (m : Nat) (x : Sample) : State :=
  { s with
    clock := max s.clock m
    therm := { s.therm with sampleAt := m + Config.sensorPeriod, sampled := true } }.takeSample x

/-- SENSOR_SAMPLE (R98). -/
def execSensorSample (x : Sample) (s : State) : Result :=
  if s.live then
    let t := s.settled
    if t.mayTake t.sampleMoment then .next (t.sampleAtMoment t.sampleMoment x).conclude else .next t
  else .next s

end Sys2Proof.Machine
end

