-- ==== Sys2Proof/Machine/Requests.lean ====
section
/-! DEFINITION. The request rows: each is a good REQUEST frame, judged by the frame link (R158), whose
message the request table then takes (R19 to R23) and whose kind-specific checks run as the rule of the
row gives. -/

namespace Sys2Proof.Machine
open Sys2Proof

/-- A good REQUEST frame with this message, as an event (R154, R158). -/
def State.request (s : State) (h : FrameHdr) (m : RawMsg) : Result :=
  s.event fun s => s.takeRequestFrame h m

/-- RD (R173). -/
def execRd (h : ReqHdr) (sz maskFlag : Byte) (addr : Word32) (s : State) : Result :=
  s.request h.frame (rdMessage h sz maskFlag addr)

/-- WR (R174). -/
def execWr (h : ReqHdr) (sz maskFlag : Byte) (addr : Word32) (mask : BitVec 64) (data : Bytes 64)
    (s : State) : Result :=
  s.request h.frame (wrMessage h sz maskFlag addr mask data)

/-- BAR (R175). -/
def execBar (h : ReqHdr) (s : State) : Result := s.request h.frame (barMessage h)

/-- CAN (R176). -/
def execCan (h : ReqHdr) (victim : Byte) (s : State) : Result := s.request h.frame (canMessage h victim)

/-- GET (R177). -/
def execGet (h : ReqHdr) (id : Byte) (s : State) : Result := s.request h.frame (getMessage h id)

/-- SET of MODE (R131, R132, R196). -/
def execSetMode (h : ReqHdr) (value : Word32) (s : State) : Result :=
  s.request h.frame (setMessage h 1 value)

/-- SET of PULL_IN (R84, R178). -/
def execSetPullIn (h : ReqHdr) (value : Word32) (s : State) : Result :=
  s.request h.frame (setMessage h 13 value)

/-- SET of REBUILD_DEPTH (R147, R178). -/
def execSetRebuildDepth (h : ReqHdr) (value : Word32) (s : State) : Result :=
  s.request h.frame (setMessage h 14 value)

/-- SET of NAP_IDLE (R113, R178). -/
def execSetNapIdle (h : ReqHdr) (value : Word32) (s : State) : Result :=
  s.request h.frame (setMessage h 5 value)

/-- SET of RETAIN_IDLE (R117, R178). -/
def execSetRetainIdle (h : ReqHdr) (value : Word32) (s : State) : Result :=
  s.request h.frame (setMessage h 6 value)

/-- SET of any other parameter (R178). -/
def execSetParameter (h : ReqHdr) (id : Byte) (value : Word32) (s : State) : Result :=
  s.request h.frame (setMessage h id value)

/-- PWR with target ACTIVE (R124, R179). -/
def execPwrActive (h : ReqHdr) (chan : Byte) (s : State) : Result :=
  s.request h.frame (pwrMessage h chan .active)

/-- PWR with target NAP (R125, R179). -/
def execPwrNap (h : ReqHdr) (chan : Byte) (s : State) : Result :=
  s.request h.frame (pwrMessage h chan .nap)

/-- PWR with target RETAIN (R126, R179). -/
def execPwrRetain (h : ReqHdr) (chan : Byte) (s : State) : Result :=
  s.request h.frame (pwrMessage h chan .retain)

/-- TRIM (R180). -/
def execTrim (h : ReqHdr) (chan : Byte) (s : State) : Result := s.request h.frame (trimMessage h chan)

/-- SVC with action OUT (R142). -/
def execSvcOut (h : ReqHdr) (chan : Byte) (s : State) : Result :=
  s.request h.frame (svcMessage h chan .takeOut)

/-- SVC with action IN (R145). -/
def execSvcIn (h : ReqHdr) (chan : Byte) (s : State) : Result :=
  s.request h.frame (svcMessage h chan .takeIn)

/-- STAT (R182). -/
def execStat (h : ReqHdr) (s : State) : Result := s.request h.frame (statMessage h)

/-- RST (R183, R205). -/
def execRst (h : ReqHdr) (s : State) : Result := s.request h.frame (rstMessage h)

/-- MALFORMED_MESSAGE: a payload that names no request kind or does not have its kind's layout (R20). -/
def execMalformedMessage (h : FrameHdr) (payload : List Byte) (s : State) : Result :=
  s.request h (readPayload payload)

end Sys2Proof.Machine
end

