-- ==== Sys2Proof/Machine/Rest.lean ====
section
/-! DEFINITION. The timers of the refresh unit and of power control, and the rows by which the part ends
what an event has left: a RETAIN_ENTRY, a barrier, a copy, a RESTART. -/

namespace Sys2Proof.Machine
open Sys2Proof

/-- The exit timer while it runs as nap exit. -/
def ExitTimer.napTimer : ExitTimer → Timer
  | .nap m => some m
  | .stopped | .retain _ => none

/-- The exit timer while it runs as retain exit. -/
def ExitTimer.retainTimer : ExitTimer → Timer
  | .retain m => some m
  | .stopped | .nap _ => none

/-- REFRESH_TIMER_EXPIRY (R79). -/
def execRefreshTimerExpiry (c : Chan) (s : State) : Result :=
  s.expiry (fun s => (s.ch c).refr.timer) fun s => s.refreshExpired c

/-- NAP_IDLE_EXPIRY (R113). -/
def execNapIdleExpiry (c : Chan) (s : State) : Result :=
  s.expiry (fun s => (s.ch c).pwr.napIdle) fun s => s.napIdleExpired c

/-- RETAIN_IDLE_EXPIRY (R117). -/
def execRetainIdleExpiry (c : Chan) (s : State) : Result :=
  s.expiry (fun s => (s.ch c).pwr.retainIdle) fun s => s.retainIdleExpired c

/-- NAP_EXIT_EXPIRY (R116). -/
def execNapExitExpiry (c : Chan) (s : State) : Result :=
  s.expiry (fun s => (s.ch c).pwr.exit.napTimer) fun s => s.napExitExpired c

/-- RETAIN_EXIT_EXPIRY (R122). -/
def execRetainExitExpiry (c : Chan) (s : State) : Result :=
  s.expiry (fun s => (s.ch c).pwr.exit.retainTimer) fun s => s.retainExitExpired c

/-- RETAIN_ENTRY_COMPLETE (R119): once the decisions of its channel have ended. -/
def execRetainEntryComplete (c : Chan) (s : State) : Result :=
  s.own (s.decisionsTurn && (s.decisionOp c).isNone && (s.ch c).retainReady) fun s => s.completeRetain c

/-- BARRIER_ANSWERED (R32, R33). -/
def execBarrierAnswered (s : State) : Result := s.own s.barrierReady fun s => s.release.judgeDue

/-- COPY_START (R147): one copy. -/
def execCopyStart (s : State) : Result :=
  s.own (!s.barrierReady && s.canStartCopy) fun s => s.startCopy.judgeDue

/-- RESTART_END (R208): after all other work of the event. -/
def execRestartEnd (s : State) : Result := s.own (s.nextWork == some .restartEnd) State.endRestart

end Sys2Proof.Machine
end

