-- ==== Sys2Proof/Machine/Dispatch.lean ====
section
/-! DEFINITION. One arm per command. -/

namespace Sys2Proof.Machine
open Sys2Proof

def exec (i : Instr) (s : State) : Host.Outcome State Fault Refusal :=
  match i with
  | .powerOn cause => Sys2Proof.Machine.execPowerOn cause s
  | .resetPinAssert => Sys2Proof.Machine.execResetPinAssert s
  | .disturbance c m => Sys2Proof.Machine.execDisturbance c m s
  | .sensorSample x => Sys2Proof.Machine.execSensorSample x s
  | .rd h sz maskFlag addr => Sys2Proof.Machine.execRd h sz maskFlag addr s
  | .wr h sz maskFlag addr mask data => Sys2Proof.Machine.execWr h sz maskFlag addr mask data s
  | .bar h => Sys2Proof.Machine.execBar h s
  | .can h victim => Sys2Proof.Machine.execCan h victim s
  | .get h id => Sys2Proof.Machine.execGet h id s
  | .setMode h value => Sys2Proof.Machine.execSetMode h value s
  | .setPullIn h value => Sys2Proof.Machine.execSetPullIn h value s
  | .setRebuildDepth h value => Sys2Proof.Machine.execSetRebuildDepth h value s
  | .setNapIdle h value => Sys2Proof.Machine.execSetNapIdle h value s
  | .setRetainIdle h value => Sys2Proof.Machine.execSetRetainIdle h value s
  | .setParameter h id value => Sys2Proof.Machine.execSetParameter h id value s
  | .pwrActive h chan => Sys2Proof.Machine.execPwrActive h chan s
  | .pwrNap h chan => Sys2Proof.Machine.execPwrNap h chan s
  | .pwrRetain h chan => Sys2Proof.Machine.execPwrRetain h chan s
  | .trim h chan => Sys2Proof.Machine.execTrim h chan s
  | .svcOut h chan => Sys2Proof.Machine.execSvcOut h chan s
  | .svcIn h chan => Sys2Proof.Machine.execSvcIn h chan s
  | .stat h => Sys2Proof.Machine.execStat h s
  | .rst h => Sys2Proof.Machine.execRst h s
  | .sync => Sys2Proof.Machine.execSync s
  | .ack a => Sys2Proof.Machine.execAck a s
  | .rsnd n => Sys2Proof.Machine.execRsnd n s
  | .badFrame cause => Sys2Proof.Machine.execBadFrame cause s
  | .requestFrameAhead d ack => Sys2Proof.Machine.execRequestFrameAhead d ack s
  | .requestFrameBehind d ack => Sys2Proof.Machine.execRequestFrameBehind d ack s
  | .frameDiscarded frame => Sys2Proof.Machine.execFrameDiscarded frame s
  | .openSettleExpiry c bank => Sys2Proof.Machine.execOpenSettleExpiry c bank s
  | .minimumOpenExpiry c bank => Sys2Proof.Machine.execMinimumOpenExpiry c bank s
  | .rowCycleExpiry c bank => Sys2Proof.Machine.execRowCycleExpiry c bank s
  | .closeExpiry c bank => Sys2Proof.Machine.execCloseExpiry c bank s
  | .readAccessComplete c bank => Sys2Proof.Machine.execReadAccessComplete c bank s
  | .writeAccessComplete c bank => Sys2Proof.Machine.execWriteAccessComplete c bank s
  | .writeRecoveryExpiry c bank => Sys2Proof.Machine.execWriteRecoveryExpiry c bank s
  | .openSpacingExpiry c => Sys2Proof.Machine.execOpenSpacingExpiry c s
  | .openingWindowExpiry c => Sys2Proof.Machine.execOpeningWindowExpiry c s
  | .idleCloseExpiry c bank => Sys2Proof.Machine.execIdleCloseExpiry c bank s
  | .sweepEnd c => Sys2Proof.Machine.execSweepEnd c s
  | .shortTrimEnd c => Sys2Proof.Machine.execShortTrimEnd c s
  | .longTrimEnd c => Sys2Proof.Machine.execLongTrimEnd c s
  | .issueAccess c => Sys2Proof.Machine.execIssueAccess c s
  | .openBegin c => Sys2Proof.Machine.execOpenBegin c s
  | .closeBegin c => Sys2Proof.Machine.execCloseBegin c s
  | .sweepBegin c => Sys2Proof.Machine.execSweepBegin c s
  | .shortTrimBegin c => Sys2Proof.Machine.execShortTrimBegin c s
  | .refreshTimerExpiry c => Sys2Proof.Machine.execRefreshTimerExpiry c s
  | .napIdleExpiry c => Sys2Proof.Machine.execNapIdleExpiry c s
  | .retainIdleExpiry c => Sys2Proof.Machine.execRetainIdleExpiry c s
  | .napExitExpiry c => Sys2Proof.Machine.execNapExitExpiry c s
  | .retainExitExpiry c => Sys2Proof.Machine.execRetainExitExpiry c s
  | .retainEntryComplete c => Sys2Proof.Machine.execRetainEntryComplete c s
  | .ackDelayExpiry => Sys2Proof.Machine.execAckDelayExpiry s
  | .replayTimerExpiry => Sys2Proof.Machine.execReplayTimerExpiry s
  | .transmissionEnd => Sys2Proof.Machine.execTransmissionEnd s
  | .transmitControl => Sys2Proof.Machine.execTransmitControl s
  | .retransmit => Sys2Proof.Machine.execRetransmit s
  | .transmitAnswer => Sys2Proof.Machine.execTransmitAnswer s
  | .transmitNotice => Sys2Proof.Machine.execTransmitNotice s
  | .barrierAnswered => Sys2Proof.Machine.execBarrierAnswered s
  | .copyStart => Sys2Proof.Machine.execCopyStart s
  | .restartEnd => Sys2Proof.Machine.execRestartEnd s
  | .malformedMessage h payload => Sys2Proof.Machine.execMalformedMessage h payload s
  | .powerRemoved => Sys2Proof.Machine.execPowerRemoved s

end Sys2Proof.Machine
end

