-- ==== Sys2Proof/Machine/Step.lean ====
section
/-! DEFINITION. One step: the command at the front of the queue, or a unit of time when none waits. -/

namespace Sys2Proof.Machine
open Sys2Proof

/-- One step. On an empty queue time passes (log 1). -/
def step (s : State) : Host.Outcome State Fault Refusal :=
  match s.pending with
  | [] => .next s.idleTick
  | c :: rest => exec c { s with pending := rest }

/-- `s` with the command that a word spells by the opcode table's bits put at the front of its queue; `s`
itself where the word spells none (log 15: no row has bits). -/
def State.withFetchWord (s : State) (nbits w : Nat) : State :=
  match decodeTableWord nbits w with
  | some c => { s with pending := c :: s.pending }
  | none => s

end Sys2Proof.Machine
end

