-- ==== Sys2Proof/Safety.lean ====
section
/-! DEFINITION. What a safe run of the part is, the invariants that every step keeps, and the words
that the statements of Certificates/Slice0/Obligations.lean are phrased in. -/

namespace Sys2Proof

/-- The commands that act although the part takes no event (R201): supplies and reset pin. -/
def Instr.ofSupplies : Instr → Bool
  | .powerOn _ | .resetPinAssert | .powerRemoved => true
  | _ => false

/-- The frame header of a request row. -/
def Instr.frameHdr : Instr → Option FrameHdr
  | .rd h .. => some h.frame
  | .wr h .. => some h.frame
  | .bar h => some h.frame
  | .can h _ => some h.frame
  | .get h _ => some h.frame
  | .setMode h _ => some h.frame
  | .setPullIn h _ => some h.frame
  | .setRebuildDepth h _ => some h.frame
  | .setNapIdle h _ => some h.frame
  | .setRetainIdle h _ => some h.frame
  | .setParameter h _ _ => some h.frame
  | .pwrActive h _ => some h.frame
  | .pwrNap h _ => some h.frame
  | .pwrRetain h _ => some h.frame
  | .trim h _ => some h.frame
  | .svcOut h _ => some h.frame
  | .svcIn h _ => some h.frame
  | .stat h => some h.frame
  | .rst h => some h.frame
  | .malformedMessage h _ => some h
  | _ => none

end Sys2Proof

namespace Sys2Proof.Machine
open Sys2Proof

/-- A run of `k` steps from `s` is safe: no step stops. The manual gives the part no stop, so a step of
this model never ends in a fault or a refusal. -/
def SafeFrom (s : State) (k : Nat) : Prop := ∃ t, Host.Core.run Sys2Proof.core k s = .next t

/-! ### Invariants -/

/-- The debt and the demand of a channel (R76, R77, R81, R87). -/
def Channel.debtOk (x : Channel) : Prop :=
  -2 ≤ x.refr.debt ∧ x.refr.debt ≤ 7 ∧
    (x.ctl.sweepTimer ≠ none → -1 ≤ x.refr.debt) ∧ (x.refr.demand ≠ .none → -1 ≤ x.refr.debt)

def State.debtOk (s : State) : Prop := s.conf.pullIn ≤ 2 ∧ ∀ c, (s.ch c).debtOk

/-- Frame `i` of the buffer has the sequence that lies `buf.length - i` behind `next`. -/
def bufferNumbered (next : Byte) (buf : List Buffered) : Prop :=
  ∀ i b, buf[i]? = some b → b.seq = next - byteOf (buf.length - i)

/-- The replay buffer and what depends on it (R155, R156, R163, R164, R166). -/
def Link.ok (l : Link) : Prop :=
  l.replay.length ≤ 32 ∧ bufferNumbered l.nextSeq l.replay ∧
    (∀ p, l.resendPoint = some p → p < l.replay.length) ∧ l.replayCount ≤ 4 ∧
    (l.replayTimer.isSome = true ↔ (l.up = true ∧ l.replay ≠ [])) ∧
    (l.up = false →
      l.ackTimer = none ∧ l.resendPoint = none ∧ l.pendingSynr = none ∧ l.pendingRsnd = false ∧
        l.pendingAck = false ∧ l.resendOutstanding = false ∧ l.ackOwed = false)

/-- The keys that notices have (R186): five kinds of the whole part, five of a channel. -/
def noticeKeyOk : NoticeKind → Option Chan → Bool
  | .ready, none | .zone, none | .sensorLost, none | .sensorBack, none | .linkRecovered, none => true
  | .corrected, some _ | .uncorrectable, some _ | .degraded, some _ => true
  | .rebuildDone, some _ | .rebuildAborted, some _ => true
  | _, _ => false

/-- At most one record of a key, each key one of R186, each count 1 to 255 (R186, R187). -/
def noticesOk (l : List Notice) : Prop :=
  (l.map fun n => (n.kind, n.chan)).Nodup ∧
    ∀ n ∈ l, noticeKeyOk n.kind n.chan = true ∧ 1 ≤ n.count ∧ n.count ≤ 255

/-- Mode, health and rebuild record agree (R129, R130, R132, R146), and the counts stay in range (R140). -/
def Mirror.ok (m : Mirror) : Prop :=
  (m.mode = .split → m.healthA = .inService ∧ m.healthB = .inService ∧ m.rebuild = none) ∧
    (m.healthA = .inService ∨ m.healthB = .inService) ∧
    (∀ c, m.health c = .rebuilding → ∃ r, m.rebuild = some r ∧ r.target = c) ∧
    (∀ r, m.rebuild = some r →
      m.health r.target = .rebuilding ∧ m.health r.target.other = .inService ∧
        r.frontier = frontierOf r.next r.copies ∧ r.next ≤ Config.channelLines) ∧
    m.uncA ≤ Config.maxUncorrectable ∧ m.uncB ≤ Config.maxUncorrectable

/-- Tag `g` is in use in state `st` by a request whose kind code is one of `kinds`. -/
def State.tagUsed (s : State) (g : Tag) (st : EntryState) (kinds : List Byte) : Bool :=
  match s.host g with
  | none => false
  | some e => e.state == st && kinds.contains (reqCode e.req)

/-- Every tag that a block refers to is in use, by a request of the kind and in the state that the block's
rule gives: pending POWER (R110), waiters (R76), active barrier (R32), hold queue (R33), answers (R31), the
legs of host entries (R17, R25). -/
def State.tagsOk (s : State) : Bool :=
  ([Chan.a, Chan.b].all fun c =>
    ((s.ch c).pwr.pendingPower.map fun p => s.tagUsed p.tag .active [7]).getD true &&
      (((s.ch c).refr.owedWaiters ++ (s.ch c).refr.runningWaiters).all fun g => s.tagUsed g .active [8]) &&
      decide ((s.ch c).refr.owedWaiters ++ (s.ch c).refr.runningWaiters).Nodup &&
      ((s.ch c).ctl.queue.all fun l =>
        match l.owner with
        | .host g => s.tagUsed g .active [1, 2]
        | .internal _ => true)) &&
    (s.table.barrier.map fun g => s.tagUsed g .active [3]).getD true &&
    (s.table.holdQueue.all fun g => s.tagUsed g .held [1, 2, 3, 6, 7, 8, 9]) &&
    decide s.table.holdQueue.Nodup &&
    (s.table.answers.all fun q =>
      match q with
      | .answer x => s.tagUsed x.tag .answered [1, 2, 3, 4, 5, 6, 7, 8, 9, 10, 11]
      | .reject _ => true) &&
    decide
      (s.table.answers.filterMap fun q =>
        match q with
        | .answer x => some x.tag
        | .reject _ => none).Nodup

/-- No interval of a live part expires before the present moment, and the opening records list past
moments, oldest first (R41, R42, R49). -/
def State.intervalsAhead (s : State) : Prop :=
  s.live = true →
    s.noneBefore s.clock = true ∧
      ∀ c, (s.ch c).ctl.openings.Pairwise (· ≤ ·) ∧ ∀ m ∈ (s.ch c).ctl.openings, m ≤ s.clock

/-- No more moments than the opening record holds, on either channel (R49). -/
def State.openingsOk (s : State) : Prop := ∀ c, (s.ch c).ctl.openings.length ≤ 6

/-- The zones in which a channel may be in RETAIN or on its way there (R117, R120, R121, R126). -/
def Zone.retains : Zone → Bool
  | .normal | .warm => true
  | .hot | .critical => false

/-- R121's law for a channel in zone `z`, with what keeps it: each of power control's timers runs in the state
that it belongs to (R112 to R117, R121), a bank's settle and close run while it is OPENING and CLOSING (R46,
R48), no maintenance runs beside either (R69), and a channel in RETAIN_ENTRY that owes no sweep has a debt of 0
or less (R83, R119). -/
def Channel.retainOk (x : Channel) (z : Zone) : Prop :=
  (∀ b, ((x.ctl.bank b).openSettle ≠ none → (x.ctl.bank b).state = .opening) ∧
    ((x.ctl.bank b).closeTimer ≠ none → (x.ctl.bank b).state = .closing) ∧
    (x.refr.sweeping = true ∨ x.refr.trimming ≠ .none →
      (x.ctl.bank b).openSettle = none ∧ (x.ctl.bank b).closeTimer = none)) ∧
  (x.ctl.sweepTimer ≠ none → x.refr.sweeping = true) ∧
  (x.ctl.shortTrimTimer ≠ none → x.refr.trimming = .short) ∧
  (x.ctl.longTrimTimer ≠ none → x.refr.trimming = .long ∧ x.pwr.state = .starting) ∧
  (x.pwr.napIdle ≠ none → x.pwr.state = .active) ∧
  (x.pwr.retainIdle ≠ none → x.pwr.state = .nap) ∧
  (x.pwr.exit.napTimer ≠ none → x.pwr.state = .napExit) ∧
  (x.pwr.exit.retainTimer ≠ none → x.pwr.state = .retainExit) ∧
  (x.pwr.onward = true → x.pwr.state = .napExit ∧ z.retains = true) ∧
  (x.pwr.state = .retainEntry →
    z.retains = true ∧ (x.refr.demand = .none → x.refr.sweeping = false → x.refr.debt ≤ 0)) ∧
  (x.pwr.state = .retain →
    z.retains = true ∧ x.ctl.queue = [] ∧ (∀ b, (x.ctl.bank b).state = .closed) ∧ x.refr.debt ≤ 0 ∧
      x.refr.timer = none ∧ x.refr.trimOwed = false)

def State.retainOk (s : State) : Prop := ∀ c, (s.ch c).retainOk s.therm.zone

/-! ### Taking events -/

/-- An inbound request frame with header `h` is in order on a link that is UP (R158). -/
def State.hears (s : State) (h : FrameHdr) : Bool :=
  s.live && s.settled.link.up && h.seq == s.settled.link.expected

/-- The state in which the request table takes the message of an accepted frame: its acknowledgement
applied (R161) and the acceptance recorded (R158). Only the link record differs from `s.settled`. -/
def State.handed (s : State) (h : FrameHdr) : State :=
  (s.settled.applyAck h.ack).modLink fun l => l.accept s.settled.clock s.settled.conf.ackDelay

/-- The message of a row, tag `g` and request `q`, is taken, and its kind-specific checks run now
(R19 to R23): it is in order and well formed, no RESTART runs, its tag is free and it is not held. -/
def State.takes (s : State) (h : ReqHdr) (m : RawMsg) (g : Tag) (q : Req) : Bool :=
  s.hears h.frame && m.req == some (g, q) && !s.settled.table.restarting &&
    (s.settled.host g).isNone && !s.settled.mustHold q

/-- A host entry for a request just taken, in state `st`. -/
def newEntry (r : State) (q : Req) (st : EntryState) (status : Option Status) : Entry where
  age := r.table.arrivals
  req := q
  decoded := none
  state := st
  legsMade := 0
  done := []
  status := status
  data := none
  served := none

/-- `r` with a new ACTIVE entry for request `q` of tag `g` (R18, R21). -/
def State.entered (r : State) (g : Tag) (q : Req) : State :=
  { r with table := { r.table with
    arrivals := r.table.arrivals + 1
    hosts := r.table.hosts.set g (some (newEntry r q .active none)) } }

/-- `r` with a new entry for request `q` of tag `g` that is answered at once with status `st` and
fields `x`: the answer stands at the tail of the answer queue, and nothing else is changed (R23, R30). -/
def State.answeredNew (r : State) (g : Tag) (q : Req) (st : Status) (x : Extra) : State :=
  { r with table := { r.table with
    arrivals := r.table.arrivals + 1
    hosts := r.table.hosts.set g (some (newEntry r q .answered (some st)))
    answers := r.table.answers ++ [.answer { kind := reqCode q, tag := g, status := st, extra := x }] } }

/-- The interval that `timer` reads is the next to expire, at moment `m` (R42; log 4). -/
def State.expires (s : State) (timer : State → Timer) (m : Nat) : Bool :=
  s.live && timer s.settled == some m && s.settled.mayTake m

/-- The state in which an expiry at moment `m` is taken. -/
def State.atMoment (s : State) (m : Nat) : State :=
  { s.settled with clock := max s.settled.clock m }

/-- The outbound arbiter of a live part takes `want` now (R168). -/
def State.sends (s : State) (want : Choice) : Bool :=
  s.live && s.settled.arbiterChoice == some want

/-- The decision of channel `c` starts `op` next, and no work that stands before it is left (R56). -/
def State.starts (s : State) (c : Chan) (op : Operation) : Bool :=
  s.live && s.decisionsTurn && s.decisionOp c == some op

/-- The idle close that bank `b` with record `x` has after it is judged with queue `q` (R61 to R63): a bank
that is OPEN with no access and no leg for its open row, and its idle close STOPPED, gets what the page
policy gives. -/
def judgedIdleClose (f : Settings) (now : Nat) (q : List Leg) (b : BankNo) (x : Bank) : IdleClose :=
  if x.state == .opened && x.access.isNone && x.idleClose == .stopped &&
      (x.openRow.map fun r => q.all fun l => !(l.loc.bank == b && l.loc.row == r)).getD false then
    policyClose f now
  else x.idleClose

end Sys2Proof.Machine
end

