-- ==== Sys2Proof/Certificates/Slice0/Obligations.lean ====
section
/-! DEFINITION. The statements for the provers. In a statement about a command, `s.settled` is the state
in which the command is taken (the work that past events have left is done first, log 3), and every
event closes with `State.conclude`, whose effect `Obligations.EveryEventJudgesIdleness` states. -/

section Statements
open Sys2Proof Sys2Proof.Machine

/-! ### The block and its queue -/

/-- A step takes the command at the front of the queue, with the queue's rest. -/
def Obligations.StepTakesFrontCommand : Prop :=
  ∀ (c : Instr) (rest : List Instr) (s : State),
    step { s with pending := c :: rest } = exec c { s with pending := rest }

/-- On an empty queue time passes by one unit, but not past the expiry of a running interval and not
while the arbiter can begin a frame; a part that takes no event lets time pass. The model's choice: log 1
and log 7. -/
def Obligations.EmptyQueueStepPassesTime : Prop :=
  ∀ s : State, s.pending = [] →
    (s.live = false → step s = .next { s with clock := s.clock + 1 }) ∧
    (s.live = true →
      step s =
        .next
          (if (s.settled.timers.all fun e => (e.map fun m => decide (s.clock + 1 ≤ m)).getD true) = true ∧
              s.settled.arbiterChoice = none then
            { s.settled with clock := s.clock + 1 }
          else s.settled))

/-- Every command of a live part, those of the supplies apart, either takes no event now, or its next
state is one that `State.conclude` closes. What `State.conclude` does: both power controls judge idleness by
R111, becoming idle arms the nap-idle timer, ceasing to be idle stops it (R113), and nothing else is
changed. -/
def Obligations.EveryEventJudgesIdleness : Prop :=
  (∀ (i : Instr) (s : State), s.live = true → i.ofSupplies = false →
    exec i s = .next s ∨ exec i s = .next s.settled ∨ ∃ x : State, exec i s = .next x.conclude) ∧
  ∀ (s : State) (c : Chan),
    let x := s.ch c
    let idle : Bool :=
      x.pwr.state == .active && x.ctl.queue.isEmpty &&
        (x.refr.demand == .none && !x.refr.sweeping && !x.refr.trimOwed && x.refr.trimming == .none) &&
        !s.table.restarting &&
        (allBanks.all fun b => (x.ctl.bank b).state != .opening && (x.ctl.bank b).state != .closing) &&
        !x.ctl.pathBusy
    let y := s.conclude.ch c
    s.conclude = { s with chA := s.conclude.chA, chB := s.conclude.chB } ∧
      y.ctl = x.ctl ∧ y.refr = x.refr ∧
      y.pwr =
        { x.pwr with
          idle := idle
          napIdle :=
            if idle = false then none
            else if x.pwr.idle = true then x.pwr.napIdle
            else if s.conf.napIdle = 0 then none
            else some (s.clock + 10 * s.conf.napIdle) }

/-! ### Power-on and the outside world -/

/-- The part right after power-on at `now` (R40, R74, R95, R109, R128, R152, R171, R189, R195, R201):
every field of State. The clock, the queue of commands, the first sample's latest moment, the marks of the
present event's work and the count of free orders are the model's (log 1, log 2, log 3, log 5, log 6, log 22). -/
def Obligations.PowerOnValues : Prop :=
  ∀ (now draws : Nat) (pending : List Instr),
    let s := State.powerOn now draws pending
    (s.clock = now ∧ s.powered = true ∧ s.pinHeld = false ∧ s.draws = draws ∧ s.pending = pending ∧
      s.judgements = []) ∧
    (∀ c m, s.mem.read c m = .unset) ∧
    ((∀ g, s.host g = none) ∧ (∀ n, s.internal n = none) ∧ s.arrivalCounter = 0 ∧
      s.table.holdQueue = [] ∧ s.table.answers = [] ∧ s.table.barrier = none ∧
      s.table.restarting = false ∧ s.table.ready = false) ∧
    (∀ c, (s.ch c).ctl.queue = [] ∧ (s.ch c).ctl.openings = [] ∧ (s.ch c).ctl.openSpacing = none ∧
      (s.ch c).ctl.pathBusy = false ∧ (s.ch c).ctl.oldest = none ∧ (s.ch c).ctl.passed = 0 ∧
      (s.ch c).ctl.longTrimTimer = some (now + 5120) ∧ (s.ch c).ctl.sweepTimer = none ∧
      (s.ch c).ctl.shortTrimTimer = none ∧ (s.ch c).ctl.due = false ∧
      ∀ b, s.bank c b =
        { state := .maintaining, openRow := none, closable := false, reopenable := false, access := none,
          idleClose := .stopped, openSettle := none, minimumOpen := none, rowCycle := none,
          closeTimer := none, readAccess := none, writeAccess := none, writeRecovery := none }) ∧
    (∀ c, (s.ch c).refr =
        { debt := 0, timer := none, demand := .none, sweeping := false, trimOwed := false,
          trimming := .long, owedWaiters := [], runningWaiters := [] } ∧
      (s.ch c).pwr =
        { state := .starting, napIdle := none, retainIdle := none, exit := .stopped, onward := false,
          pendingPower := none, idle := false }) ∧
    (s.therm.zone = .normal ∧ s.therm.sensor = .awaiting ∧ s.therm.lastTemp = none ∧ s.therm.missed = 0 ∧
      s.therm.sampled = false ∧ s.therm.sampleAt = now + 10000000) ∧
    s.mir =
      { mode := .split, healthA := .inService, healthB := .inService, uncA := 0, uncB := 0, toggle := .a,
        rebuild := none } ∧
    s.notices = [] ∧
    s.link =
      { up := false, expected := 0, resendOutstanding := false, ackOwed := false, ackTimer := none,
        nextSeq := 0, replay := [], replayTimer := none, replayCount := 0, resendPoint := none,
        pendingSynr := none, pendingRsnd := false, pendingAck := false, tx := none,
        answersSinceNotice := 0 } ∧
    s.conf =
      { pagePolicy := .keepOpen, idleClose := 400, starveLimit := 8, napIdle := 2000, retainIdle := 0,
        writeback := true, readChoice := .alternate, degradeLimit := 16, noticeMask := 0,
        replayTimeout := 20, ackDelay := 500, pullIn := 2, rebuildDepth := 2 } ∧
    State.reset = State.powerOn 0 0 []

/-- The power-on event is taken when the supplies are applied or the reset pin is released (R201), and
from the pin's assertion on the part transmits nothing and takes no event. What applied supplies do while
the pin is held, what a pin does without supplies, and that the line records last until power-on are the
model's choice: log 8. -/
def Obligations.SuppliesAndResetPin : Prop :=
  ∀ s : State,
    (s.pinHeld = false →
      exec (.powerOn .suppliesApplied) s = .next (State.powerOn s.clock s.draws s.pending)) ∧
    (s.pinHeld = true → exec (.powerOn .suppliesApplied) s = .next { s with powered := true }) ∧
    (s.pinHeld = true → s.powered = true →
      exec (.powerOn .pinReleased) s = .next (State.powerOn s.clock s.draws s.pending)) ∧
    (s.pinHeld = true → s.powered = false →
      exec (.powerOn .pinReleased) s = .next { s with pinHeld := false }) ∧
    (s.pinHeld = false → exec (.powerOn .pinReleased) s = .next s) ∧
    exec .resetPinAssert s = .next { s with pinHeld := true, link := { s.link with tx := none } } ∧
    exec .powerRemoved s =
      .next
        { State.powerOn s.clock s.draws s.pending with
          powered := false, pinHeld := s.pinHeld, mem := s.mem }

/-- Without supplies, and while the reset pin is held, no event is taken (R201). -/
def Obligations.NoEventWithoutSuppliesOrUnderReset : Prop :=
  ∀ (i : Instr) (s : State), (s.powered = false ∨ s.pinHeld = true) → i.ofSupplies = false →
    exec i s = .next s

/-- A disturbance of a line record (R8): the record changes as its condition gives, no other record
changes, and nothing else is observed. -/
def Obligations.DisturbanceDamagesOneRecord : Prop :=
  ∀ (c : Chan) (m : LineNo) (s : State), s.mem.wf = true → s.live = true →
    ∃ mem,
      exec (.disturbance c m) s = .next ({ s.settled with mem := mem }).conclude ∧
      mem.read c m.val =
        (match s.mem.read c m.val with
         | .unset => .unset
         | .intact d => .flawed d
         | .flawed _ => .broken
         | .broken => .broken
         | .poisoned => .poisoned) ∧
      ∀ (d : Chan) (n : Nat), ¬(d = c ∧ n = m.val) → mem.read d n = s.mem.read d n

/-! ### The thermal monitor -/

/-- The rising zone of a reading, and the rise with hysteresis (R99). -/
def Obligations.ZoneRises : Prop :=
  ∀ (z : Zone) (t : Int),
    ((t ≤ 84 → risingZone t = .normal) ∧ (85 ≤ t → t ≤ 104 → risingZone t = .warm) ∧
      (105 ≤ t → t ≤ 124 → risingZone t = .hot) ∧ (125 ≤ t → risingZone t = .critical)) ∧
    (z.rank < (risingZone t).rank → hysteresisZone z t = risingZone t) ∧
    ((risingZone t).rank ≤ z.rank → (hysteresisZone z t).rank ≤ z.rank)

/-- The fall with hysteresis (R100): every zone left has its downward limit met, and the zone reached is
NORMAL or one whose limit the reading exceeds; it is never below the rising zone. -/
def Obligations.ZoneFalls : Prop :=
  ∀ (z : Zone) (t : Int), (risingZone t).rank ≤ z.rank →
    let limit : Zone → Int := fun x =>
      match x with
      | .critical => 121
      | .hot => 101
      | .warm => 81
      | .normal => -41
    let w := hysteresisZone z t
    w.rank ≤ z.rank ∧ (∀ x : Zone, w.rank < x.rank → x.rank ≤ z.rank → t ≤ limit x) ∧
      (w ≠ .normal → limit w < t) ∧ (risingZone t).rank ≤ w.rank

/-- What a sample leaves in the monitor's record (R98, R101 to R104). The first sample may come at any
moment of the first period; the model takes it at the present one (log 5). -/
def Obligations.SampleUpdatesMonitor : Prop :=
  ∀ (x : Sample) (s : State), s.live = true →
    let t := s.settled
    let m := if t.therm.sampled then t.therm.sampleAt else t.clock
    t.mayTake m = true →
    let next (z : Zone) (sensor : SensorState) (last : Option Int) (missed : Nat) : Thermal :=
      { zone := z, sensor := sensor, lastTemp := last, missed := missed, sampleAt := m + 10000000,
        sampled := true }
    let reading (v : Int) : Int := if v < -40 then -40 else if 150 < v then 150 else v
    ∃ u,
      exec (.sensorSample x) s = .next u ∧
      u.clock = max t.clock m ∧ u.mem = s.mem ∧ u.conf = t.conf ∧ u.mir = t.mir ∧
      u.therm =
        (match x, t.therm.sensor with
         | .reading v, .ok => next (hysteresisZone t.therm.zone (reading v)) .ok (some (reading v)) 0
         | .reading v, .awaiting => next (risingZone (reading v)) .ok (some (reading v)) 0
         | .reading v, .lost => next (risingZone (reading v)) .ok (some (reading v)) 0
         | .noReading, .lost => next t.therm.zone .lost t.therm.lastTemp t.therm.missed
         | .noReading, sensor =>
           if t.therm.missed + 1 < 3 then next t.therm.zone sensor t.therm.lastTemp (t.therm.missed + 1)
           else next (if 2 ≤ t.therm.zone.rank then t.therm.zone else .hot) .lost none 3)

/-- A sample and the zone it leaves, in each sensor state (R101 to R104): with hysteresis from OK, without it
from AWAITING and LOST, forced to HOT at the third sample in a row without a reading. The loss posts
SENSOR_LOST, the return SENSOR_BACK, ahead of the ZONE notice. That the ZONE notice stands ahead of what held
entries post that the change releases is the model's choice (log 28). A change (R80, R85, R105, R106): each refresh
unit owes a short trim and has its running timer shortened to the new interval where that is nearer, a
channel in NAP or RETAIN begins its exit, and a rise to HOT or CRITICAL ends a RETAIN_ENTRY and an onward
target and answers a POWER RETAIN that waits for one ABORTED (R120). A sample that leaves the zone changes no
channel. -/
def Obligations.ZoneChangeActsOnBothChannels : Prop :=
  ∀ (s : State) (x : Sample), s.live = true →
    let t := s.settled
    let m := if t.therm.sampled then t.therm.sampleAt else t.clock
    t.mayTake m = true →
    let old := t.therm.zone
    let reading (v : Int) : Int := if v < -40 then -40 else if 150 < v then 150 else v
    let lost : Bool := x == .noReading && t.therm.sensor != .lost && decide (3 ≤ t.therm.missed + 1)
    let back : Bool := x != .noReading && t.therm.sensor == .lost
    let new : Zone :=
      match x, t.therm.sensor with
      | .reading v, .ok => hysteresisZone old (reading v)
      | .reading v, .awaiting => risingZone (reading v)
      | .reading v, .lost => risingZone (reading v)
      | .noReading, _ => if lost = true ∧ old.rank < 2 then .hot else old
    let temperature : Option Int :=
      match x with
      | .reading v => some (reading v)
      | .noReading => none
    let post (k : NoticeKind) (f : NoticeFields) (l : List Notice) : List Notice :=
      if masked t.conf.noticeMask k = true then l else noticesPost k none f l
    let first : List Notice :=
      if lost = true then post .sensorLost .nothing t.notices
      else if back = true then post .sensorBack .nothing t.notices
      else t.notices
    ∃ u, exec (.sensorSample x) s = .next u ∧
      u.notices = (if new = old then first else post .zone (.zone old new temperature) first) ∧
      (new = old → ∀ c, (u.ch c).refr = (t.ch c).refr ∧ (u.ch c).ctl = (t.ch c).ctl ∧
        (u.ch c).pwr.state = (t.ch c).pwr.state ∧
        (u.ch c).pwr.pendingPower = (t.ch c).pwr.pendingPower) ∧
      (new ≠ old → ∀ c,
        (u.ch c).refr.trimOwed = true ∧
        (u.ch c).refr.timer =
          (t.ch c).refr.timer.map (fun e => min e (max t.clock m + refreshInterval new)) ∧
        (u.ch c).refr.debt = (t.ch c).refr.debt ∧
        ((t.ch c).refr.trimOwed = false →
          (u.ch c).pwr.state =
            (match (t.ch c).pwr.state with
             | .nap => .napExit
             | .retain => .retainExit
             | .retainEntry => if old.rank < 2 ∧ 2 ≤ new.rank then .active else .retainEntry
             | z => z)) ∧
        (old.rank < 2 → 2 ≤ new.rank → (t.ch c).pwr.state = .napExit → (u.ch c).pwr.onward = false) ∧
        (old.rank < 2 → 2 ≤ new.rank → t.tagsOk = true →
          ((t.ch c).pwr.state = .retainEntry ∨
            ((t.ch c).pwr.state = .napExit ∧ (t.ch c).pwr.onward = true)) →
          ∀ p, (t.ch c).pwr.pendingPower = some p → p.toRetain = true →
            (u.ch c).pwr.pendingPower = none ∧
            .answer { kind := 7, tag := p.tag, status := .aborted, extra := .nothing } ∈ u.table.answers))

/-! ### Invariants that every step keeps -/

/-- The canonical form of the model's storage array: a rising list of record indexes that lists no UNSET
record. The form is the model's choice (log 16: the manual says what a record holds, R2, not how a state
lists them). -/
def Obligations.EveryStepKeepsMemoryForm : Prop :=
  ∀ s t : State, s.mem.wf = true → step s = .next t → t.mem.wf = true

/-- Debt −2 to 7, with room for every sweep that is owed or running (R76, R77, R81, R87). -/
def Obligations.EveryStepKeepsDebtInRange : Prop :=
  ∀ s t : State, s.debtOk → step s = .next t → t.debtOk

/-- The replay buffer holds at most 32 frames of consecutive sequences that end just before next sequence,
the resend point is one of them, the replay timer runs exactly while the link is UP and the buffer is not
empty, and a link that is DOWN has no control frame pending and no timer running (R155, R156, R163, R164,
R166). -/
def Obligations.EveryStepKeepsReplayBuffer : Prop :=
  ∀ s t : State, s.link.ok → step s = .next t → t.link.ok

/-- At most one notice record of a key, each key one of R186, each count 1 to 255, so at most 15 records
(R186, R187). -/
def Obligations.EveryStepKeepsNoticeTable : Prop :=
  (∀ s t : State, noticesOk s.notices → step s = .next t → noticesOk t.notices) ∧
    ∀ l : List Notice, noticesOk l → l.length ≤ 15

/-- At most six moments in an opening record (R49) and at most 32 rejects in the answer queue (R24). -/
def Obligations.EveryStepKeepsQueueBounds : Prop :=
  ∀ s t : State, s.openingsOk → rejectsIn s.table.answers ≤ 32 → step s = .next t →
    t.openingsOk ∧ rejectsIn t.table.answers ≤ 32

/-- Mode, health and rebuild record agree, a copy to serve reads from is there, and the counts stay in
range (R129, R130, R132, R140, R143, R145, R146, R149, R150). -/
def Obligations.EveryStepKeepsMirrorRecord : Prop :=
  ∀ s t : State, s.mir.ok → step s = .next t → t.mir.ok

/-- Every tag that a block refers to is in use, by a request of the right kind and in the right state
(R17, R31, R32, R33, R76, R110): no block answers a request twice or one that is gone. -/
def Obligations.EveryStepKeepsTagsInUse : Prop :=
  ∀ s t : State, s.tagsOk = true → step s = .next t → t.tagsOk = true

/-- The invariants hold after power-on. -/
def Obligations.InvariantsHoldAtReset : Prop :=
  State.reset.mem.wf = true ∧ State.reset.debtOk ∧ State.reset.link.ok ∧ noticesOk State.reset.notices ∧
    State.reset.openingsOk ∧ rejectsIn State.reset.table.answers ≤ 32 ∧ State.reset.mir.ok ∧
    State.reset.intervalsAhead ∧ State.reset.tagsOk = true ∧ State.reset.retainOk

/-- No interval of a live part expires before the present moment, so that none is missed (R41, R42). -/
def Obligations.EveryStepKeepsIntervalsAhead : Prop :=
  ∀ s t : State, s.intervalsAhead → step s = .next t → t.intervalsAhead

/-! ### Frames and addresses -/

/-- The frame of every well-formed command that a host frame spells is read back as that command. -/
def Obligations.FramesReadBack : Prop :=
  ∀ (i : Instr) (bytes : List Byte), i.wf = true → encodeCommand i = some bytes → commandOfFrame bytes = i

/-- Channel line index, bank, column and row determine each other (R1). -/
def Obligations.LineIndexAndPlace : Prop :=
  (Chan.num .a = 0 ∧ Chan.num .b = 1) ∧
  (∀ l : Loc, l.bank.val ≤ 15 ∧ l.row.val ≤ 16383 ∧ l.col.val ≤ 63 ∧ l.line < 2 ^ 24 ∧
    l.line = l.row.val * 1024 + l.col.val * 16 + l.bank.val ∧ locOfLine l.line = l) ∧
  ∀ m : Nat, m < 2 ^ 24 →
    (locOfLine m).bank.val = m % 16 ∧ (locOfLine m).col.val = m / 16 % 64 ∧
      (locOfLine m).row.val = m / 1024 ∧ (locOfLine m).line = m

/-- The two address decodes (R3, R4), the alignment and range of an address (R5, R6), and the line address
as the lowest address that decodes to a line (R7). -/
def Obligations.AddressDecode : Prop :=
  ∀ a : Word32,
    (a.toNat ≤ 0x7FFFFFFF →
      (decodeAddr .split a).chan = some (if a.toNat / 64 % 2 = 0 then .a else .b) ∧
        (decodeAddr .split a).loc.line = a.toNat / 64 / 2) ∧
    (a.toNat ≤ 0x3FFFFFFF →
      (decodeAddr .mirror a).chan = none ∧ (decodeAddr .mirror a).loc.line = a.toNat / 64) ∧
    (∀ mode, (decodeAddr mode a).second = decide (a.toNat / 32 % 2 = 1)) ∧
    ((aligned .line a = true ↔ a.toNat % 64 = 0) ∧ (aligned .half a = true ↔ a.toNat % 32 = 0)) ∧
    ((inRange .split a = true ↔ a.toNat ≤ 2 ^ 31 - 1) ∧
      (inRange .mirror a = true ↔ a.toNat ≤ 2 ^ 30 - 1)) ∧
    (∀ (c : Chan) (m : Nat), m < 2 ^ 24 →
      (decodeAddr .split (lineAddress .split c m)).chan = some c ∧
      (decodeAddr .split (lineAddress .split c m)).loc.line = m ∧
      (decodeAddr .mirror (lineAddress .mirror c m)).loc.line = m ∧
      (a.toNat ≤ 0x7FFFFFFF → (decodeAddr .split a).chan = some c → (decodeAddr .split a).loc.line = m →
        (lineAddress .split c m).toNat = a.toNat / 64 * 64) ∧
      (a.toNat ≤ 0x3FFFFFFF → (decodeAddr .mirror a).loc.line = m →
        (lineAddress .mirror c m).toNat = a.toNat / 64 * 64))

/-- What a partial write stores (R13, R14, R15): which writes are full, each byte of the merge, and what
the WRITE legs receive for each condition fetched. -/
def Obligations.PartialWriteMerges : Prop :=
  (∀ (mask : BitVec 64), fullWrite .line none = true ∧
    (fullWrite .line (some mask) = true ↔ ∀ k, k < 64 → mask.getLsbD k = true)) ∧
  (∀ mask, fullWrite .half mask = false) ∧
  (∀ (second : Bool) (mask : Option (BitVec 64)) (data base : Bytes 64) (k : Fin 64),
    (mergeLine .line second mask data base)[k] =
      if mask = none ∨ (∃ m, mask = some m ∧ m.getLsbD k.val = true) then data[k] else base[k]) ∧
  (∀ (mask : Option (BitVec 64)) (data base : Bytes 64) (k : Fin 32),
    ((mergeLine .half false mask data base)[k.val] =
        if mask = none ∨ (∃ m, mask = some m ∧ m.getLsbD k.val = true) then data[k.val] else base[k.val]) ∧
      (mergeLine .half false mask data base)[32 + k.val] = base[32 + k.val] ∧
      ((mergeLine .half true mask data base)[32 + k.val] =
        if mask = none ∨ (∃ m, mask = some m ∧ m.getLsbD k.val = true) then data[k.val]
        else base[32 + k.val]) ∧
      (mergeLine .half true mask data base)[k.val] = base[k.val]) ∧
  ∀ (sz : Size) (second : Bool) (mask : Option (BitVec 64)) (data : Bytes 64) (r : LineRec),
    mergeStore sz second mask data r =
      (match r with
       | .unset => .line (mergeLine sz second mask data (zeroBytes 64))
       | .intact d => .line (mergeLine sz second mask data d)
       | .flawed d => .line (mergeLine sz second mask data d)
       | .broken => .poison
       | .poisoned => .poison)

/-! ### The frame link takes the host's frames -/

/-- The frames that are not accepted. While the link is DOWN every inbound frame but a good SYNC is
discarded (R156); a frame of R160 that calls for no reply is discarded in either state. A request frame
that is not in order on a link that is UP (R158, R159), named by its row or by its distance from the
expected sequence E, makes ACK pending when it is behind, and like a bad frame asks for a resend, unless
one is outstanding, when it is ahead; the acknowledgement of a good frame is applied first (R161). -/
def Obligations.FramesNotAccepted : Prop :=
  (∀ s : State, s.live = true →
      (s.settled.link.up = false →
        (∀ (i : Instr) (h : FrameHdr), i.frameHdr = some h → exec i s = .next s.settled.conclude) ∧
        (∀ x, exec (.ack x) s = .next s.settled.conclude) ∧
        (∀ n, exec (.rsnd n) s = .next s.settled.conclude) ∧
        (∀ cause, exec (.badFrame cause) s = .next s.settled.conclude) ∧
        (∀ d x, exec (.requestFrameAhead d x) s = .next s.settled.conclude) ∧
        (∀ d x, exec (.requestFrameBehind d x) s = .next s.settled.conclude)) ∧
      ∀ f, exec (.frameDiscarded f) s = .next s.settled.conclude) ∧
  (∀ s : State, s.live = true → s.settled.link.up = true →
      let e := s.settled.link.expected
      let behind (r : State) : State := { r with link := { r.link with pendingAck := true } }
      let ahead (r : State) : State :=
        if r.link.resendOutstanding = true then r
        else { r with link := { r.link with pendingRsnd := true, resendOutstanding := true } }
      (∀ (i : Instr) (h : FrameHdr), i.frameHdr = some h →
        (1 ≤ (e - h.seq).toNat → (e - h.seq).toNat ≤ 128 →
          exec i s = .next (behind (s.settled.applyAck h.ack)).conclude) ∧
        (1 ≤ (h.seq - e).toNat → (h.seq - e).toNat ≤ 127 →
          exec i s = .next (ahead (s.settled.applyAck h.ack)).conclude)) ∧
      (∀ d x, exec (.requestFrameBehind d x) s = .next (behind (s.settled.applyAck x)).conclude) ∧
      (∀ d x, exec (.requestFrameAhead d x) s = .next (ahead (s.settled.applyAck x)).conclude) ∧
      ∀ cause, exec (.badFrame cause) s = .next (ahead s.settled).conclude)

/-- A request frame in order is accepted (R158, R162): its acknowledgement is applied (R161), the acceptance
recorded, and its message handed to the request table. That the acknowledgement is applied before the message
is taken is the model's reading (log 14, DEDUCED). -/
def Obligations.FrameInOrderAccepted : Prop :=
  ∀ (s : State) (h : FrameHdr),
    let l := (s.settled.applyAck h.ack).link
    (s.handed h = { s.settled with link := (s.handed h).link }) ∧
    (s.handed h).link =
      { l with
        expected := l.expected + 1
        resendOutstanding := false
        pendingRsnd := false
        ackOwed := true
        ackTimer :=
          if l.ackTimer = none then some (s.settled.clock + 10 * s.settled.conf.ackDelay) else l.ackTimer } ∧
    l.expected = s.settled.link.expected ∧
    ∀ (i : Instr) (m : RawMsg), i.frameHdr = some h → i.message = some m → s.hears h = true →
      exec i s = .next ((s.handed h).takeMessage m).conclude

/-- An acknowledgement of sequence x (R161), as a good ACK frame brings it: it removes the buffered frame
of that sequence and every frame ahead of it; and an RSND of x (R160): the frames ahead of the one it names are
removed as an acknowledgement of x − 1 removes them, with the replay count 0 and the replay timer armed again
exactly when there are any, the named frame, now the head, is the resend point, and nothing else changes. -/
def Obligations.AckAndRsnd : Prop :=
  ∀ (s : State) (x : Byte), s.live = true → s.settled.link.up = true →
    let t := s.settled
    let l := t.link
    (exec (.ack x) s = .next (t.applyAck x).conclude) ∧
    ((∀ b ∈ l.replay, b.seq ≠ x) → t.applyAck x = t) ∧
    (∀ front b rest, l.replay = front ++ b :: rest → b.seq = x → (∀ f ∈ front, f.seq ≠ x) →
      t.applyAck x =
        { t with
          link :=
            { l with
              replay := rest
              replayCount := 0
              replayTimer :=
                if rest = [] then none else some (t.clock + 10000 * t.conf.replayTimeout)
              resendPoint :=
                match l.resendPoint with
                | none => none
                | some p =>
                  if front.length + 1 ≤ p then some (p - (front.length + 1))
                  else if rest = [] then none
                  else some 0 } }) ∧
    ((∀ b ∈ l.replay, b.seq ≠ x) → exec (.rsnd x) s = .next t.conclude) ∧
    (l.ok → ∀ front b rest, l.replay = front ++ b :: rest → b.seq = x →
      exec (.rsnd x) s =
        .next
          ({ t with
            link :=
              { l with
                replay := b :: rest
                replayCount := if front = [] then l.replayCount else 0
                replayTimer :=
                  if front = [] then l.replayTimer else some (t.clock + 10000 * t.conf.replayTimeout)
                resendPoint := some 0 } }).conclude)

/-- A good SYNC, in DOWN or UP (R157). That a second SYNC, taken while a SYNR waits, leaves one SYNR with the
ready flag of the later SYNC is the model's reading (log 11, DEDUCED). And the law of the posting that it makes,
as of every posting: a record of the key counts up to 255, takes the fields as its latest and keeps its first
fields and its place; without one a record is appended with count 1 (R187). A mask bit suppresses its kind,
bit k − 1 the kind of code k (R188, R192). -/
def Obligations.SyncRestartsSequences : Prop :=
  (∀ (k : NoticeKind) (c : Option Chan) (f : NoticeFields) (table : List Notice),
    (∀ front n back, table = front ++ n :: back → n.kind = k → n.chan = c →
      (∀ w ∈ front, ¬(w.kind = k ∧ w.chan = c)) →
      noticesPost k c f table =
        front ++
          { kind := k, chan := c, count := if n.count < 255 then n.count + 1 else 255, first := n.first,
            latest := f } :: back) ∧
    ((∀ w ∈ table, ¬(w.kind = k ∧ w.chan = c)) →
      noticesPost k c f table = table ++ [{ kind := k, chan := c, count := 1, first := f, latest := f }])) ∧
  (∀ mask : BitVec 10,
    masked mask .ready = mask.getLsbD 0 ∧ masked mask .zone = mask.getLsbD 1 ∧
    masked mask .sensorLost = mask.getLsbD 2 ∧ masked mask .sensorBack = mask.getLsbD 3 ∧
    masked mask .linkRecovered = mask.getLsbD 4 ∧ masked mask .corrected = mask.getLsbD 5 ∧
    masked mask .uncorrectable = mask.getLsbD 6 ∧ masked mask .degraded = mask.getLsbD 7 ∧
    masked mask .rebuildDone = mask.getLsbD 8 ∧ masked mask .rebuildAborted = mask.getLsbD 9) ∧
  (∀ (k : NoticeKind) (c : Option Chan) (f : NoticeFields) (x : State),
    x.postNotice k c f =
      if masked x.conf.noticeMask k = true then x
      else
        { x with
          notices := noticesPost k c f x.notices
          link := { x.link with
            answersSinceNotice := if x.notices = [] then 0 else x.link.answersSinceNotice } }) ∧
  ∀ s : State, s.live = true →
    let t := s.settled
    let l := t.link
    ∃ u, exec .sync s = .next u ∧
      u.link =
        { up := true, expected := 0, resendOutstanding := false, ackOwed := false, ackTimer := none,
          nextSeq := BitVec.ofNat 8 l.replay.length, replay := u.link.replay,
          replayTimer :=
            if l.replay = [] then none else some (t.clock + 10000 * t.conf.replayTimeout),
          replayCount := 0, resendPoint := if l.replay = [] then none else some 0,
          pendingSynr := some t.table.ready, pendingRsnd := false, pendingAck := false, tx := l.tx,
          answersSinceNotice := u.link.answersSinceNotice } ∧
      u.link.replay.map (·.msg) = l.replay.map (·.msg) ∧
      (∀ i b, u.link.replay[i]? = some b → b.seq = BitVec.ofNat 8 i) ∧
      u.notices =
        (if l.up = true ∨ masked t.conf.noticeMask .linkRecovered = true then t.notices
         else noticesPost .linkRecovered none .nothing t.notices) ∧
      u.table = t.table ∧ u.mem = t.mem ∧ u.mir = t.mir ∧ u.conf = t.conf ∧ u.therm = t.therm ∧
      ∀ c, (u.ch c).ctl = (t.ch c).ctl ∧ (u.ch c).refr = (t.ch c).refr

/-! ### Admission -/

/-- A message that is rejected (R19, R20, R21): RESTARTING for every kind but STAT while the restarting
flag is set, MALFORMED for one that the tests of R20 refuse, DUPLICATE for a tag in use. The reject
carries the tag and kind bytes received and stands at the tail of the answer queue; with 32 rejects
waiting it is dropped (R24). A message that is held (R22): while a barrier is active or the hold queue is
not empty, an RD, WR, BAR, SET, PWR, TRIM or SVC becomes a HELD entry at the tail of the hold queue.
Nothing else is changed. -/
def Obligations.MessagesRejectedOrHeld : Prop :=
  (∀ (i : Instr) (s : State) (h : FrameHdr) (m : RawMsg) (why : Reason),
      i.frameHdr = some h → i.message = some m → s.hears h = true →
      let r := s.handed h
      (if r.table.restarting = true ∧ m.kind ≠ some 10 then some Reason.restarting
       else
         match m.req with
         | none => some Reason.malformed
         | some (g, _) => if r.host g = none then none else some Reason.duplicate) = some why →
      exec i s =
        .next
          (if 32 ≤ (r.table.answers.filter QueueItem.isReject).length then r
           else
             { r with table := { r.table with
               answers := r.table.answers ++ [.reject { tag := m.tag, reason := why, kind := m.kind }] } }).conclude) ∧
  (∀ (i : Instr) (s : State) (h : FrameHdr) (m : RawMsg) (g : Tag) (q : Req),
      i.frameHdr = some h → i.message = some m → s.hears h = true → m.req = some (g, q) →
      let r := s.handed h
      r.table.restarting = false → r.host g = none →
      (r.table.barrier ≠ none ∨ r.table.holdQueue ≠ []) →
      (match q with
       | .can _ | .get _ | .stat | .rst => False
       | _ => True) →
      exec i s =
        .next
          ({ r with table := { r.table with
            arrivals := r.table.arrivals + 1
            hosts := r.table.hosts.set g (some (newEntry r q .held none))
            holdQueue := r.table.holdQueue ++ [g] } }).conclude)

/-! ### RD and WR -/

/-- The tests of an RD and a WR, the first that fails (R172, R107, R5, R6): each refusal is answered at once
and nothing else is changed. -/
def Obligations.MemoryRequestsRefused : Prop :=
  ∀ (s : State) (h : ReqHdr) (g : Tag) (st : Status),
    let t := s.settled
    let r := s.handed h.frame
    let refusal (z : Size) (x : Word32) : Option Status :=
      if t.table.ready = false then some .notReady
      else if t.therm.zone = .critical then some .thermal
      else if x.toNat % (match z with | .line => 64 | .half => 32) ≠ 0 then some .align
      else if (match t.mir.mode with | .split => 0x7FFFFFFF | .mirror => 0x3FFFFFFF) < x.toNat then some .range
      else none
    (∀ sz mf x z, s.takes h (rdMessage h sz mf x) g (.rd z x) = true → refusal z x = some st →
      exec (.rd h sz mf x) s = .next (r.answeredNew g (.rd z x) st (.read none none)).conclude) ∧
    ∀ sz mf x mask data z fm,
      s.takes h (wrMessage h sz mf x mask data) g (.wr z fm x data) = true → refusal z x = some st →
      exec (.wr h sz mf x mask data) s = .next (r.answeredNew g (.wr z fm x data) st .nothing).conclude

/-- An RD in SPLIT mode that passes its tests (R3, R25, R26): the entry is ACTIVE with its decoded fields,
and one WAITING READ leg of the request's size stands in the queue of the decoded channel, which wakes if
it rests and gives up a way toward retention (R115, R120, R121). The other channel's controller is
unchanged. A leg's place in a queue is behind every leg of a lower or equal arrival number and ahead of every
higher one (R26). The joining leg stops the idle close of the bank that is open on its row, RUNNING or DUE, and
of no other (R61). -/
def Obligations.RdInSplitMode : Prop :=
  (∀ (l : Leg) (q : List Leg), ∃ front back, q = front ++ back ∧ insertLeg l q = front ++ l :: back ∧
    (∀ w ∈ front, w.age ≤ l.age) ∧
    (∀ w, back.head? = some w → l.age < w.age) ∧
    (q.Pairwise (fun v w => v.age ≤ w.age) → ∀ w ∈ back, l.age < w.age)) ∧
  ∀ (s : State) (h : ReqHdr) (sz mf : Byte) (x : Word32) (z : Size) (g : Tag),
    let t := s.settled
    s.takes h (rdMessage h sz mf x) g (.rd z x) = true → t.memoryRefusal z x = none →
    t.mir.mode = .split →
    let c : Chan := if x.toNat / 64 % 2 = 0 then .a else .b
    let loc := locOfLine (x.toNat / 64 / 2)
    ∃ u e, exec (.rd h sz mf x) s = .next u ∧ u.host g = some e ∧
      e.req = .rd z x ∧ e.age = t.table.arrivals ∧ e.done = [] ∧ e.legsMade = 1 ∧ e.data = none ∧
      e.served = none ∧
      e.decoded = some { chan := some c, loc := loc, second := decide (x.toNat / 32 % 2 = 1) } ∧
      (t.tagsOk = true → e.state = .active ∧ e.status = none) ∧
      u.table.arrivals = t.table.arrivals + 1 ∧
      (u.ch c).ctl.queue =
        insertLeg
          { owner := .host g, no := 0, age := t.table.arrivals, kind := .read, size := z, loc := loc,
            state := .waiting, store := .absent, recovery := false }
          (t.ch c).ctl.queue ∧
      (∀ b, u.bank c b =
        if b = loc.bank ∧ (t.bank c b).openRow = some loc.row then
          { t.bank c b with idleClose := .stopped }
        else t.bank c b) ∧
      (u.ch c.other).ctl = (t.ch c.other).ctl ∧
      (u.ch c).pwr.state =
        (match (t.ch c).pwr.state with
         | .nap => .napExit
         | .retain => .retainExit
         | .retainEntry => .active
         | y => y) ∧
      ((t.ch c).pwr.state = .nap ∨ (t.ch c).pwr.state = .napExit → (u.ch c).pwr.onward = false) ∧
      u.mem = t.mem ∧ u.mir = t.mir ∧ u.conf = t.conf ∧ u.notices = t.notices ∧
      u.link = (s.handed h.frame).link

/-- The channel that an RD in MIRROR mode reads from (R133, R134): the one IN_SERVICE channel; of two, the
only one that is ACTIVE; else by READ_CHOICE, and only the alternating choice moves the toggle. -/
def Obligations.RdInMirrorMode : Prop :=
  ∀ (s : State) (h : ReqHdr) (sz mf : Byte) (x : Word32) (z : Size) (g : Tag),
    let t := s.settled
    s.takes h (rdMessage h sz mf x) g (.rd z x) = true → t.memoryRefusal z x = none →
    t.mir.mode = .mirror → t.mir.ok →
    let both := t.mir.healthA = .inService ∧ t.mir.healthB = .inService
    let oneActive := (t.chA.pwr.state = .active ∧ t.chB.pwr.state ≠ .active) ∨
      (t.chB.pwr.state = .active ∧ t.chA.pwr.state ≠ .active)
    let c : Chan :=
      if t.mir.healthB ≠ .inService then .a
      else if t.mir.healthA ≠ .inService then .b
      else if oneActive then (if t.chA.pwr.state = .active then .a else .b)
      else
        match t.conf.readChoice with
        | .alternate => t.mir.toggle
        | .preferA => .a
        | .preferB => .b
    let loc := locOfLine (x.toNat / 64)
    ∃ u e, exec (.rd h sz mf x) s = .next u ∧ u.host g = some e ∧
      e.req = .rd z x ∧ e.age = t.table.arrivals ∧ e.done = [] ∧ e.legsMade = 1 ∧
      e.decoded = some { chan := none, loc := loc, second := decide (x.toNat / 32 % 2 = 1) } ∧
      u.mir =
        { t.mir with
          toggle :=
            if both ∧ ¬oneActive ∧ t.conf.readChoice = .alternate then t.mir.toggle.other
            else t.mir.toggle } ∧
      (u.ch c).ctl.queue =
        insertLeg
          { owner := .host g, no := 0, age := t.table.arrivals, kind := .read, size := z, loc := loc,
            state := .waiting, store := .absent, recovery := false }
          (t.ch c).ctl.queue ∧
      (u.ch c.other).ctl = (t.ch c.other).ctl ∧ u.mem = t.mem ∧ u.conf = t.conf ∧ u.notices = t.notices

/-- The legs of a WR that passes its tests. A full write (R13, R134): in SPLIT mode one WRITE leg on the
decoded channel, in MIRROR mode one on each channel that is IN_SERVICE or REBUILDING, A's made before B's,
each WAITING with the data. A partial write (R14, R135): a WAITING FETCH on the decoded channel, in MIRROR
mode on the channel of R133, and a BLOCKED WRITE of the request's size behind it and, in MIRROR mode, on the
other channel if that receives writes. R133's choice is that of an RD, and it alone moves the read toggle. No
line record changes before a WRITE completes. -/
def Obligations.WriteRequestsMakeLegs : Prop :=
  (∀ (s : State) (h : ReqHdr) (sz mf : Byte) (x : Word32) (mask : BitVec 64) (data : Bytes 64)
      (fm : Option (BitVec 64)) (g : Tag),
      let t := s.settled
      s.takes h (wrMessage h sz mf x mask data) g (.wr .line fm x data) = true →
      t.memoryRefusal .line x = none → fullWrite .line fm = true →
      let d := decodeAddr t.mir.mode x
      let goes (c : Chan) : Bool :=
        match t.mir.mode with
        | .split => decide (d.chan = some c)
        | .mirror => t.mir.health c == .inService || t.mir.health c == .rebuilding
      let leg (c : Chan) : Leg :=
        { owner := .host g, no := if c = .b ∧ goes .a = true then 1 else 0, age := t.table.arrivals,
          kind := .write .host, size := .line, loc := d.loc, state := .waiting, store := .line data,
          recovery := false }
      ∃ u e, exec (.wr h sz mf x mask data) s = .next u ∧ u.host g = some e ∧
        e.req = .wr .line fm x data ∧ e.decoded = some d ∧ e.done = [] ∧
        e.legsMade = (if goes .a = true then 1 else 0) + (if goes .b = true then 1 else 0) ∧
        (∀ c, (u.ch c).ctl.queue =
          if goes c = true then insertLeg (leg c) (t.ch c).ctl.queue else (t.ch c).ctl.queue) ∧
        u.mem = t.mem ∧ u.mir = t.mir ∧ u.conf = t.conf ∧ u.notices = t.notices) ∧
  (∀ (s : State) (h : ReqHdr) (sz mf : Byte) (x : Word32) (mask : BitVec 64) (data : Bytes 64)
      (z : Size) (fm : Option (BitVec 64)) (g : Tag),
      let t := s.settled
      s.takes h (wrMessage h sz mf x mask data) g (.wr z fm x data) = true →
      t.memoryRefusal z x = none → fullWrite z fm = false → t.mir.ok →
      let d := decodeAddr t.mir.mode x
      let both := t.mir.healthA = .inService ∧ t.mir.healthB = .inService
      let oneActive := (t.chA.pwr.state = .active ∧ t.chB.pwr.state ≠ .active) ∨
        (t.chB.pwr.state = .active ∧ t.chA.pwr.state ≠ .active)
      let chosen : Chan :=
        if t.mir.healthB ≠ .inService then .a
        else if t.mir.healthA ≠ .inService then .b
        else if oneActive then (if t.chA.pwr.state = .active then .a else .b)
        else
          match t.conf.readChoice with
          | .alternate => t.mir.toggle
          | .preferA => .a
          | .preferB => .b
      let c : Chan := d.chan.getD chosen
      let other : Bool :=
        t.mir.mode == .mirror && (t.mir.health c.other == .inService || t.mir.health c.other == .rebuilding)
      let leg (no : Nat) (k : LegKind) (w : Size) (st : LegState) : Leg :=
        { owner := .host g, no := no, age := t.table.arrivals, kind := k, size := w, loc := d.loc, state := st,
          store := .absent, recovery := false }
      ∃ u e, exec (.wr h sz mf x mask data) s = .next u ∧ u.host g = some e ∧
        e.req = .wr z fm x data ∧ e.decoded = some d ∧ e.done = [] ∧
        e.legsMade = (if other = true then 3 else 2) ∧
        ((∀ l ∈ (t.ch c).ctl.queue, l.owner ≠ .host g) →
          (u.ch c).ctl.queue =
            insertLeg (leg 1 (.write .host) z .blocked)
              (insertLeg (leg 0 .fetch .line .waiting) (t.ch c).ctl.queue)) ∧
        (u.ch c.other).ctl.queue =
          (if other = true then
            insertLeg (leg 2 (.write .host) z .blocked) (t.ch c.other).ctl.queue
           else (t.ch c.other).ctl.queue) ∧
        u.mir =
          { t.mir with
            toggle :=
              if t.mir.mode = .mirror ∧ both ∧ ¬oneActive ∧ t.conf.readChoice = .alternate then
                t.mir.toggle.other
              else t.mir.toggle } ∧
        u.mem = t.mem ∧ u.conf = t.conf ∧ u.notices = t.notices)

/-! ### BAR, CAN, GET, SET -/

/-- A BAR that is not held becomes the active barrier and is tested at once (R32): answered OK in the same
event when no older host entry is HELD or ACTIVE, else it stands as the active barrier. -/
def Obligations.BarrierTestedAtAdmission : Prop :=
  ∀ (s : State) (h : ReqHdr) (g : Tag),
    let t := s.settled
    let r := s.handed h.frame
    s.takes h (barMessage h) g .bar = true →
    let clear := ∀ (v : Tag) (e : Entry), v ≠ g → t.host v = some e → e.age < t.table.arrivals →
      e.state = .answered
    (clear → exec (.bar h) s = .next (r.answeredNew g .bar .ok .nothing).conclude) ∧
    (¬clear →
      exec (.bar h) s =
        .next
          ({ r with table := { r.table with
            arrivals := r.table.arrivals + 1
            hosts := r.table.hosts.set g (some (newEntry r .bar .active none))
            barrier := some g } }).conclude)

/-- A CAN (R34, R35, R36). Of a free, answered or RST victim, or of itself, it is answered NO_SUCH_TAG; of
a victim that is not cancellable, TOO_LATE, and the victim goes on as it was. Every cancellable victim is
answered CANCELLED; none of its legs is left in a queue, and it is neither HELD nor the barrier. Where no
barrier stands and nothing is held, or an older entry still holds the barrier back, the CAN's OK follows at
once and the other legs, the hold queue and the barrier stay. Where the victim was the last that held the
barrier back, the barrier's OK comes next; there, and where the victim is the barrier, release takes entries
from the head of the hold queue until a released BAR stands or the queue is empty (R32, R33), and the CAN's OK
comes last. That it comes last is the model's reading (log 9, DEDUCED). -/
def Obligations.CancelOutcomes : Prop :=
  ∀ (s : State) (h : ReqHdr) (v : Byte) (g w : Tag),
    let t := s.settled
    let r := s.handed h.frame
    s.takes h (canMessage h v) g (.can w) = true →
    let memory (e : Entry) : Prop := (∃ z x, e.req = .rd z x) ∨ ∃ z fm x d, e.req = .wr z fm x d
    let cancellable (e : Entry) : Prop :=
      e.state = .held ∨
        (e.state = .active ∧ (memory e ∨ e.req = .bar) ∧ e.done = [] ∧
          ∀ c, ∀ l ∈ (t.ch c).ctl.queue, l.owner = .host w → l.state = .waiting ∨ l.state = .blocked)
    ((w = g ∨ t.host w = none ∨ ∃ e, t.host w = some e ∧ (e.state = .answered ∨ e.req = .rst)) →
      exec (.can h v) s = .next (r.answeredNew g (.can w) .noSuchTag .nothing).conclude) ∧
    ∀ e, w ≠ g → t.host w = some e → e.state ≠ .answered → e.req ≠ .rst →
      (¬cancellable e → exec (.can h v) s = .next (r.answeredNew g (.can w) .tooLate .nothing).conclude) ∧
      (cancellable e →
        ∃ u, exec (.can h v) s = .next u ∧ u.mem = t.mem ∧
          (e.state = .active → memory e → t.table.barrier = none → t.table.holdQueue = [] →
            u.table.answers =
              t.table.answers ++
                [.answer { kind := reqCode e.req, tag := w, status := .cancelled,
                           extra := e.extra .cancelled },
                  .answer { kind := 4, tag := g, status := .ok, extra := .nothing }] ∧
            (∀ c, ∀ l ∈ (u.ch c).ctl.queue, l.owner ≠ .host w) ∧
            u.host w = some { e with state := .answered, status := some .cancelled }) ∧
          (e.state = .held → ∀ b x y o, t.table.barrier = some b → b ≠ w → t.host b = some x →
            o ≠ w → o ≠ g → t.host o = some y → y.state = .active → y.age < x.age →
            (∀ c, ∀ l ∈ (t.ch c).ctl.queue, l.owner ≠ .host w) →
            u.table.answers =
              t.table.answers ++
                [.answer { kind := reqCode e.req, tag := w, status := .cancelled,
                           extra := e.extra .cancelled },
                  .answer { kind := 4, tag := g, status := .ok, extra := .nothing }] ∧
            u.table.holdQueue = t.table.holdQueue.filter (· ≠ w) ∧ u.table.barrier = some b ∧
            (∀ c, (u.ch c).ctl = (t.ch c).ctl)) ∧
          (t.tagsOk = true →
            let rest := t.table.holdQueue.filter (· ≠ w)
            let heldBack (b : Tag) : Prop := ∃ x, t.host b = some x ∧
              (t.table.arrivals < x.age ∨
                ∃ o y, o ≠ w ∧ t.host o = some y ∧ y.age < x.age ∧ y.state ≠ .answered)
            let released : Prop :=
              (u.table.barrier = none → u.table.holdQueue = []) ∧
                ∃ k, k ≤ rest.length ∧ u.table.holdQueue = rest.drop k ∧
                  ∀ n, u.table.barrier = some n → 1 ≤ k ∧ rest[k - 1]? = some n
            ∃ others,
              u.table.answers =
                t.table.answers ++
                  .answer { kind := reqCode e.req, tag := w, status := .cancelled,
                            extra := e.extra .cancelled } ::
                    others ++ [.answer { kind := 4, tag := g, status := .ok, extra := .nothing }] ∧
              u.host w = some { e with state := .answered, status := some .cancelled } ∧
              (∀ c, ∀ l ∈ (u.ch c).ctl.queue, l.owner ≠ .host w) ∧
              w ∉ u.table.holdQueue ∧ u.table.barrier ≠ some w ∧
              ((t.table.barrier = none ∧ t.table.holdQueue = []) ∨
                  (∃ b, t.table.barrier = some b ∧ b ≠ w ∧ heldBack b) →
                others = [] ∧ u.table.holdQueue = rest ∧ u.table.barrier = t.table.barrier ∧
                  ∀ c, (u.ch c).ctl.queue = (t.ch c).ctl.queue.filter (fun l => l.owner ≠ .host w)) ∧
              (∀ b, t.table.barrier = some b → b ≠ w → ¬heldBack b →
                released ∧ u.table.barrier ≠ some b ∧
                  ∃ more,
                    others = .answer { kind := 3, tag := b, status := .ok, extra := .nothing } :: more ∧
                      (rest = [] → more = [])) ∧
              (t.table.barrier = some w → released ∧ (rest = [] → others = []))))

/-- A GET (R177): OK with the value of a parameter or identification value, BAD_PARAM with 0 for any other
id. Nothing else is changed. -/
def Obligations.GetReadsParameter : Prop :=
  ∀ (s : State) (h : ReqHdr) (id : Byte) (g : Tag),
    let t := s.settled
    s.takes h (getMessage h id) g (.get id) = true →
    (∀ v, paramValue t.mir.mode t.conf id = some v →
      exec (.get h id) s =
        .next ((s.handed h.frame).answeredNew g (.get id) .ok (.value id v)).conclude) ∧
    (paramValue t.mir.mode t.conf id = none →
      exec (.get h id) s =
        .next ((s.handed h.frame).answeredNew g (.get id) .badParam (.value id 0)).conclude)

/-- The parameters: which ids name one, the range of each (R195, R198), what a written value reads back as,
that no other parameter is changed by the write (R177, R178), and the identification values (R199). -/
def Obligations.ParameterTable : Prop :=
  (∀ id : Byte,
    (paramKind id = .writable ↔ 1 ≤ id.toNat ∧ id.toNat ≤ 14) ∧
    (paramKind id = .readOnly ↔ 32 ≤ id.toNat ∧ id.toNat ≤ 35) ∧
    ∀ mode f, (paramValue mode f id = none ↔ paramKind id = .unknown)) ∧
  (∀ (id : Byte) (v : Word32),
    let limits : List (Nat × Nat) :=
      [(0, 1), (0, 1), (0, 10000), (1, 32), (0, 1000000), (0, 1000000), (0, 1), (0, 2), (0, 255), (0, 1023),
        (1, 1000), (50, 5000), (0, 2), (1, 4)]
    paramInRange id v = true ↔
      ∃ lo hi, 1 ≤ id.toNat ∧ limits[id.toNat - 1]? = some (lo, hi) ∧ lo ≤ v.toNat ∧ v.toNat ≤ hi) ∧
  (∀ (mode : Mode) (f : Settings) (id : Byte) (v : Word32), 2 ≤ id.toNat → paramInRange id v = true →
    paramValue mode (f.write id v) id = some v ∧
      ∀ other : Byte, other ≠ id → paramValue mode (f.write id v) other = paramValue mode f other) ∧
  (∀ mode f, paramValue mode f 1 = some (match mode with | .split => 0 | .mirror => 1)) ∧
  ∀ mode f, paramValue mode f 32 = some 0x00005A16 ∧ paramValue mode f 33 = some 3 ∧
    paramValue mode f 34 = some 0x01000000 ∧ paramValue mode f 35 = some 16

/-- The refusals of SET, PWR and SVC, each answered at once with nothing else changed. A SET (R178):
READ_ONLY for an identification value, BAD_PARAM for an id that names nothing and for a value out of range,
for the six SET rows alike. A PWR, judged for A and then for B before either acts (R123, R125, R126, R127): BUSY
in STARTING, BUSY while a POWER is pending unless a POWER ACTIVE overrides a pending RETAIN, and the target's own
refusals. A PWR of BOTH is BUSY when either channel is STARTING (R179, R203); that this stands ahead of a refusal
of A by another status is the model's reading (log 27, DEDUCED). An SVC that starts nothing (R142, R145): MODE in SPLIT mode, BUSY while a channel is
STARTING; for OUT, OK of a channel already DEGRADED and LAST_COPY when the other is not IN_SERVICE; for IN,
BUSY of a channel that is not DEGRADED. -/
def Obligations.RequestsRefusedAtOnce : Prop :=
  (∀ (i : Instr) (s : State) (h : ReqHdr) (id : Byte) (v : Word32) (g : Tag) (st : Status),
      i.frameHdr = some h.frame → i.message = some (setMessage h id v) →
      s.takes h (setMessage h id v) g (.setParam id v) = true →
      (if 32 ≤ id.toNat ∧ id.toNat ≤ 35 then some Status.readOnly
       else if paramInRange id v = false then some Status.badParam
       else none) = some st →
      exec i s = .next ((s.handed h.frame).answeredNew g (.setParam id v) st (.param id)).conclude) ∧
  (∀ (s : State) (h : ReqHdr) (chan : Byte) (sel : ChanSel) (g : Tag) (st : Status),
      let t := s.settled
      let refusal (target : Target) (c : Chan) : Option Status :=
        let x := t.ch c
        if x.pwr.state = .starting then some .busy
        else if ∃ p, x.pwr.pendingPower = some p ∧ ¬(p.toRetain = true ∧ target = .active) then some .busy
        else
          match target with
          | .active => none
          | .nap =>
            if x.pwr.state = .nap ∨ (x.pwr.state = .active ∧ x.isIdle t.table.restarting = true) then none
            else some .busy
          | .retain =>
            if t.therm.zone = .hot ∨ t.therm.zone = .critical then some .thermal
            else if x.ctl.queue ≠ [] ∨ t.mir.rebuild ≠ none ∨ x.pwr.state = .retainExit then some .busy
            else none
      let first (target : Target) : Option Status :=
        match sel with
        | .one c => refusal target c
        | .both =>
          if t.chA.pwr.state = .starting ∨ t.chB.pwr.state = .starting then some .busy
          else (refusal target .a).or (refusal target .b)
      let answered (target : Target) : Host.Outcome State Fault Refusal :=
        .next ((s.handed h.frame).answeredNew g (.pwr sel target) st .nothing).conclude
      (s.takes h (pwrMessage h chan .active) g (.pwr sel .active) = true → first .active = some st →
        exec (.pwrActive h chan) s = answered .active) ∧
      (s.takes h (pwrMessage h chan .nap) g (.pwr sel .nap) = true → first .nap = some st →
        exec (.pwrNap h chan) s = answered .nap) ∧
      (s.takes h (pwrMessage h chan .retain) g (.pwr sel .retain) = true → first .retain = some st →
        exec (.pwrRetain h chan) s = answered .retain)) ∧
  (∀ (s : State) (h : ReqHdr) (chan : Byte) (c : Chan) (g : Tag) (st : Status),
      let t := s.settled
      (s.takes h (svcMessage h chan .takeOut) g (.svc c .takeOut) = true →
        (if t.mir.mode = .split then some Status.mode
         else if (t.ch c).pwr.state = .starting then some Status.busy
         else if t.mir.health c = .degraded then some Status.ok
         else if t.mir.health c = .inService ∧ t.mir.health c.other ≠ .inService then some Status.lastCopy
         else none) = some st →
        exec (.svcOut h chan) s =
          .next ((s.handed h.frame).answeredNew g (.svc c .takeOut) st .nothing).conclude) ∧
      (s.takes h (svcMessage h chan .takeIn) g (.svc c .takeIn) = true →
        (if t.mir.mode = .split then some Status.mode
         else if t.chA.pwr.state = .starting ∨ t.chB.pwr.state = .starting then some Status.busy
         else if t.mir.health c ≠ .degraded then some Status.busy
         else none) = some st →
        exec (.svcIn h chan) s =
          .next ((s.handed h.frame).answeredNew g (.svc c .takeIn) st .nothing).conclude))

/-- A SET of a parameter other than MODE with a value in range (R178, R197): the setting takes the value
and the SET is answered OK. NAP_IDLE and RETAIN_IDLE at 0 stop the running timers (R113, R117), and a
change of PULL_IN recomputes the sweep demands (R84). -/
def Obligations.SetWritesParameter : Prop :=
  ∀ (s : State) (h : ReqHdr) (v : Word32) (g : Tag),
    let r := s.handed h.frame
    let wrote (id : Byte) : State := { r with conf := r.conf.write id v }
    let each (x : State) (f : Power → Power) : State :=
      { x with chA := { x.chA with pwr := f x.chA.pwr }, chB := { x.chB with pwr := f x.chB.pwr } }
    (∀ id, 2 ≤ id.toNat → id ∉ [5, 6, 13, 14] →
      s.takes h (setMessage h id v) g (.setParam id v) = true → paramInRange id v = true →
      exec (.setParameter h id v) s =
        .next ((wrote id).answeredNew g (.setParam id v) .ok (.param id)).conclude) ∧
    (s.takes h (setMessage h 14 v) g (.setParam 14 v) = true → paramInRange 14 v = true →
      exec (.setRebuildDepth h v) s =
        .next ((wrote 14).answeredNew g (.setParam 14 v) .ok (.param 14)).conclude) ∧
    (s.takes h (setMessage h 5 v) g (.setParam 5 v) = true → paramInRange 5 v = true →
      exec (.setNapIdle h v) s =
        .next
          ((if v = 0 then each (wrote 5) (fun p => { p with napIdle := none }) else wrote 5).answeredNew g
            (.setParam 5 v) .ok (.param 5)).conclude) ∧
    (s.takes h (setMessage h 6 v) g (.setParam 6 v) = true → paramInRange 6 v = true →
      exec (.setRetainIdle h v) s =
        .next
          ((if v = 0 then each (wrote 6) (fun p => { p with retainIdle := none }) else wrote 6).answeredNew g
            (.setParam 6 v) .ok (.param 6)).conclude) ∧
    (s.takes h (setMessage h 13 v) g (.setParam 13 v) = true → paramInRange 13 v = true →
      exec (.setPullIn h v) s =
        .next
          ((((wrote 13).recompute .a).recompute .b).answeredNew g (.setParam 13 v) .ok (.param 13)).conclude)

/-- The recomputed sweep demand (R81, R82, R83, R84): URGENT from a debt of 5 while the refresh timer
runs, OPPORTUNISTIC in ACTIVE with an empty queue and the debt above −PULL_IN, RETENTION in RETAIN_ENTRY
with the debt above 0, in that order; it is left alone while a sweep is in progress, and a change calls a
decision. -/
def Obligations.SweepDemandRecomputed : Prop :=
  ∀ (s : State) (c : Chan),
    let x := s.ch c
    let runs := x.pwr.state = .active ∨ x.pwr.state = .nap ∨ x.pwr.state = .napExit ∨
      x.pwr.state = .retainEntry
    let d : Demand :=
      if 5 ≤ x.refr.debt ∧ runs then .urgent
      else if x.pwr.state = .active ∧ x.ctl.queue = [] ∧ -(s.conf.pullIn : Int) < x.refr.debt then
        .opportunistic
      else if x.pwr.state = .retainEntry ∧ 0 < x.refr.debt then .retention
      else .none
    (x.refr.sweeping = true → s.recompute c = s) ∧
    (x.refr.sweeping = false → d = x.refr.demand → s.recompute c = s) ∧
    (x.refr.sweeping = false → d ≠ x.refr.demand →
      s.recompute c =
        s.setCh c { x with refr := { x.refr with demand := d }, ctl := { x.ctl with due := true } })

/-- A SET of MODE with a value in range (R131, R132, R196): OK at once for the mode in force, BUSY while
other work stands, else the change with its resets of health, counts and toggle. -/
def Obligations.SetChangesMode : Prop :=
  ∀ (s : State) (h : ReqHdr) (v : Word32) (g : Tag),
    let t := s.settled
    let r := s.handed h.frame
    s.takes h (setMessage h 1 v) g (.setParam 1 v) = true → v.toNat ≤ 1 →
    let mode : Mode := if v.toNat = 0 then .split else .mirror
    let busy := (∃ (o : Tag) (e : Entry), o ≠ g ∧ t.host o = some e ∧ e.state ≠ .answered) ∨
      t.table.holdQueue ≠ [] ∨ (∃ n, t.internal n ≠ none) ∨ t.mir.rebuild ≠ none
    let done (x : State) (st : Status) : Host.Outcome State Fault Refusal :=
      .next (x.answeredNew g (.setParam 1 v) st (.param 1)).conclude
    (mode = t.mir.mode → exec (.setMode h v) s = done r .ok) ∧
    (mode ≠ t.mir.mode → busy → exec (.setMode h v) s = done r .busy) ∧
    (mode = .mirror → t.mir.mode = .split → ¬busy →
      exec (.setMode h v) s =
        done
          { r with mir := { r.mir with mode := .mirror, healthA := .inService, healthB := .degraded,
                                       uncA := 0, uncB := 0, toggle := .a } }
          .ok) ∧
    (mode = .split → t.mir.mode = .mirror → ¬busy →
      exec (.setMode h v) s =
        done
          { r with mir := { r.mir with mode := .split, healthA := .inService, healthB := .inService,
                                       uncA := 0, uncB := 0 } }
          .ok)

/-! ### PWR, TRIM, SVC, STAT, RST -/

/-- An accepted POWER NAP (R114, R125, R127): each named channel is in NAP, one that was ACTIVE with its
nap-idle timer stopped and its retain-idle timer armed by RETAIN_IDLE, and the request is answered OK at
once. A channel that is not named keeps its power state. -/
def Obligations.PowerNapEntersNap : Prop :=
  ∀ (s : State) (h : ReqHdr) (chan : Byte) (sel : ChanSel) (g : Tag),
    let t := s.settled
    s.takes h (pwrMessage h chan .nap) g (.pwr sel .nap) = true →
    t.tagsOk = true → (∀ c, sel.names c = true → t.powerRefusal c .nap = none) →
    ∃ u, exec (.pwrNap h chan) s = .next u ∧
      u.table.answers =
        t.table.answers ++ [.answer { kind := 7, tag := g, status := .ok, extra := .nothing }] ∧
      u.mem = t.mem ∧ u.conf = t.conf ∧ u.mir = t.mir ∧ u.notices = t.notices ∧
      ∀ c,
        (sel.names c = true → (u.ch c).pwr.state = .nap ∧ (u.ch c).pwr.pendingPower = none ∧
          (u.ch c).ctl.queue = (t.ch c).ctl.queue ∧
          ((t.ch c).pwr.state = .active →
            (u.ch c).pwr.napIdle = none ∧
            (u.ch c).pwr.retainIdle =
              (if t.conf.retainIdle = 0 then none else some (t.clock + 10000 * t.conf.retainIdle)) ∧
            ∀ b, (u.bank c b).idleClose =
              (match (t.bank c b).idleClose with
               | .running _ => .stopped
               | x => x))) ∧
        (sel.names c = false →
          (u.ch c).pwr.state = (t.ch c).pwr.state ∧ (u.ch c).ctl = (t.ch c).ctl)

/-- An accepted POWER ACTIVE (R124, R127): the power state that each named channel is left in, with the
exit it begins. For one channel: OK at once from ACTIVE and from RETAIN_ENTRY, else the request is pending
on the channel. Where it overrides a pending POWER RETAIN (R123), that request is answered ABORTED first, and
one that named BOTH is cleared from the other channel too. For BOTH: OK at once when both channels are up,
else pending on each channel that is not (R127); the pending POWER RETAIN of either channel is overridden, and one
request that is pending on both is answered ABORTED once. Where two different requests are overridden, A's is
answered ABORTED before B's: that order is the model's choice (log 17, DEDUCED; R127 orders the judging and not
the answers). -/
def Obligations.PowerActiveWakes : Prop :=
  ∀ (s : State) (h : ReqHdr) (chan : Byte) (sel : ChanSel) (g : Tag),
    let t := s.settled
    s.takes h (pwrMessage h chan .active) g (.pwr sel .active) = true →
    t.tagsOk = true → (∀ c, sel.names c = true → t.powerRefusal c .active = none) →
    ∃ u, exec (.pwrActive h chan) s = .next u ∧ u.mem = t.mem ∧ u.conf = t.conf ∧ u.mir = t.mir ∧
      (∀ c,
        (sel.names c = true →
          (u.ch c).pwr.onward = (if (t.ch c).pwr.state = .nap ∨ (t.ch c).pwr.state = .napExit then false
            else (t.ch c).pwr.onward) ∧
          (u.ch c).pwr.state =
            (match (t.ch c).pwr.state with
             | .nap => .napExit
             | .retainEntry => .active
             | .retain => .retainExit
             | z => z) ∧
          ((t.ch c).pwr.state = .nap → (u.ch c).pwr.exit = .nap (t.clock + 240)) ∧
          ((t.ch c).pwr.state = .retain → (u.ch c).pwr.exit = .retain (t.clock + 4200))) ∧
        (sel.names c = false → (u.ch c).pwr.state = (t.ch c).pwr.state)) ∧
      (∀ c, sel = .one c → (t.ch c).pwr.pendingPower = none →
        ((t.ch c).pwr.state = .active ∨ (t.ch c).pwr.state = .retainEntry →
          u.table.answers =
            t.table.answers ++ [.answer { kind := 7, tag := g, status := .ok, extra := .nothing }] ∧
          (u.ch c).pwr.pendingPower = none) ∧
        ((t.ch c).pwr.state ≠ .active → (t.ch c).pwr.state ≠ .retainEntry →
          u.table.answers = t.table.answers ∧
          (u.ch c).pwr.pendingPower = some { tag := g, toRetain := false, both := false })) ∧
      (let up (c : Chan) : Prop := (t.ch c).pwr.state = .active ∨ (t.ch c).pwr.state = .retainEntry
       let ok : QueueItem := .answer { kind := 7, tag := g, status := .ok, extra := .nothing }
       (∀ c p, sel = .one c → (t.ch c).pwr.pendingPower = some p →
          let aborted : QueueItem := .answer { kind := 7, tag := p.tag, status := .aborted, extra := .nothing }
          (((t.ch c.other).pwr.pendingPower.map (·.tag)) = some p.tag →
            (u.ch c.other).pwr.pendingPower = none) ∧
          (up c → u.table.answers = t.table.answers ++ [aborted, ok] ∧ (u.ch c).pwr.pendingPower = none) ∧
          (¬up c → u.table.answers = t.table.answers ++ [aborted] ∧
            (u.ch c).pwr.pendingPower = some { tag := g, toRetain := false, both := false })) ∧
        (sel = .both → (∀ c, (t.ch c).pwr.pendingPower = none) →
          (up .a ∧ up .b → u.table.answers = t.table.answers ++ [ok]) ∧
          (¬(up .a ∧ up .b) → u.table.answers = t.table.answers) ∧
          ∀ c, (up c → (u.ch c).pwr.pendingPower = none) ∧
            (¬up c → (u.ch c).pwr.pendingPower = some { tag := g, toRetain := false, both := true })) ∧
        (sel = .both →
          let tags (c : Chan) : List Tag := ((t.ch c).pwr.pendingPower.map (·.tag)).toList
          let aborted : List QueueItem := (tags .a ++ (tags .b).filter fun o => o ∉ tags .a).map fun o =>
            .answer { kind := 7, tag := o, status := .aborted, extra := .nothing }
          (up .a ∧ up .b → u.table.answers = t.table.answers ++ aborted ++ [ok]) ∧
          (¬(up .a ∧ up .b) → u.table.answers = t.table.answers ++ aborted) ∧
          ∀ c, (up c → (u.ch c).pwr.pendingPower = none) ∧
            (¬up c → (u.ch c).pwr.pendingPower = some { tag := g, toRetain := false, both := true })))

/-- An accepted POWER RETAIN (R118, R126, R127): an ACTIVE channel begins RETAIN_ENTRY, or is in RETAIN at
once; one in NAP begins NAP_EXIT with onward target RETAIN; one in NAP_EXIT takes that target. For one
channel in RETAIN the request is answered OK at once; in NAP and NAP_EXIT it is pending. The request is
answered OK at once exactly when every channel it names is then in RETAIN, and is pending on each that is
not (R126, R127). An ACTIVE channel is in RETAIN at once exactly when R119 holds of it: its queue empty, every
bank CLOSED, the data path free, the debt 0 or less, and no sweep or trim owed or in progress. And R121's law,
with what it needs, is one that every step keeps (`State.retainOk`): a channel in RETAIN has an empty queue,
every bank CLOSED and a debt of 0 or less, and the zone is not HOT or CRITICAL. -/
def Obligations.PowerRetainBeginsEntry : Prop :=
  (∀ s t : State, s.retainOk → step s = .next t → t.retainOk) ∧
  (∀ s : State, s.retainOk → ∀ c, (s.ch c).pwr.state = .retain →
    (s.ch c).ctl.queue = [] ∧ (∀ b, (s.bank c b).state = .closed) ∧ (s.ch c).refr.debt ≤ 0 ∧
      s.therm.zone ≠ .hot ∧ s.therm.zone ≠ .critical) ∧
  ∀ (s : State) (h : ReqHdr) (chan : Byte) (sel : ChanSel) (g : Tag),
    let t := s.settled
    s.takes h (pwrMessage h chan .retain) g (.pwr sel .retain) = true →
    t.tagsOk = true → (∀ c, sel.names c = true → t.powerRefusal c .retain = none) →
    ∃ u, exec (.pwrRetain h chan) s = .next u ∧ u.mem = t.mem ∧ u.conf = t.conf ∧ u.mir = t.mir ∧
      (∀ c,
        (sel.names c = true →
          ((t.ch c).pwr.state = .active →
            (u.ch c).pwr.napIdle = none ∧
            ((u.ch c).pwr.state = .retainEntry ∨
              ((u.ch c).pwr.state = .retain ∧ (u.ch c).refr.timer = none ∧ (u.ch c).ctl.queue = [] ∧
                (u.ch c).refr.debt ≤ 0 ∧ ∀ b, (u.bank c b).state = .closed)) ∧
            ((u.ch c).pwr.state = .retain ↔
              (t.ch c).ctl.queue = [] ∧ (∀ b, (t.bank c b).state = .closed) ∧
              (t.ch c).ctl.pathBusy = false ∧ (t.ch c).refr.debt ≤ 0 ∧ (t.ch c).refr.sweeping = false ∧
              (t.ch c).refr.trimOwed = false ∧ (t.ch c).refr.trimming = .none)) ∧
          ((t.ch c).pwr.state = .nap →
            (u.ch c).pwr.state = .napExit ∧ (u.ch c).pwr.onward = true ∧
            (u.ch c).pwr.exit = .nap (t.clock + 240) ∧ (u.ch c).pwr.retainIdle = none) ∧
          ((t.ch c).pwr.state = .napExit →
            (u.ch c).pwr.state = .napExit ∧ (u.ch c).pwr.onward = true) ∧
          ((t.ch c).pwr.state = .retainEntry → (u.ch c).pwr.state = .retainEntry) ∧
          ((t.ch c).pwr.state = .retain → (u.ch c).pwr.state = .retain)) ∧
        (sel.names c = false → (u.ch c).pwr.state = (t.ch c).pwr.state)) ∧
      (∀ c, sel = .one c →
        ((t.ch c).pwr.state = .retain →
          u.table.answers =
            t.table.answers ++ [.answer { kind := 7, tag := g, status := .ok, extra := .nothing }]) ∧
        ((t.ch c).pwr.state = .nap ∨ (t.ch c).pwr.state = .napExit →
          u.table.answers = t.table.answers ∧
          (u.ch c).pwr.pendingPower = some { tag := g, toRetain := true, both := false })) ∧
      ((∀ c, sel.names c = true → (u.ch c).pwr.state = .retain) →
        u.table.answers =
          t.table.answers ++ [.answer { kind := 7, tag := g, status := .ok, extra := .nothing }]) ∧
      ((∃ c, sel.names c = true ∧ (u.ch c).pwr.state ≠ .retain) → u.table.answers = t.table.answers) ∧
      ∀ c, sel.names c = true →
        ((u.ch c).pwr.state = .retain → (u.ch c).pwr.pendingPower = none) ∧
        ((u.ch c).pwr.state ≠ .retain →
          (u.ch c).pwr.pendingPower = some { tag := g, toRetain := true, both := decide (sel = .both) })

/-- A TRIM (R85, R90, R180): BUSY when a named channel is STARTING; else a short trim is owed on each named
channel, which joins the owed waiters and wakes from NAP or RETAIN, and the request waits without answer. -/
def Obligations.TrimOwesShortTrim : Prop :=
  ∀ (s : State) (h : ReqHdr) (chan : Byte) (sel : ChanSel) (g : Tag),
    let t := s.settled
    s.takes h (trimMessage h chan) g (.trim sel) = true →
    ((∃ c, sel.names c = true ∧ (t.ch c).pwr.state = .starting) →
      exec (.trim h chan) s =
        .next ((s.handed h.frame).answeredNew g (.trim sel) .busy .nothing).conclude) ∧
    ((∀ c, sel.names c = true → (t.ch c).pwr.state ≠ .starting) →
      ∃ u, exec (.trim h chan) s = .next u ∧ u.mem = t.mem ∧ u.conf = t.conf ∧ u.mir = t.mir ∧
        u.table.answers = t.table.answers ∧
        u.host g = some (newEntry t (.trim sel) .active none) ∧
        ∀ c,
          (sel.names c = true →
            (u.ch c).refr.trimOwed = true ∧
            (u.ch c).refr.owedWaiters = (t.ch c).refr.owedWaiters ++ [g] ∧
            (u.ch c).refr.runningWaiters = (t.ch c).refr.runningWaiters ∧
            ((t.ch c).refr.trimOwed = false →
              (u.ch c).pwr.state =
                (match (t.ch c).pwr.state with
                 | .nap => .napExit
                 | .retain => .retainExit
                 | z => z)) ∧
            ((t.ch c).refr.trimOwed = true → (u.ch c).pwr.state = (t.ch c).pwr.state)) ∧
          (sel.names c = false → (u.ch c).refr = (t.ch c).refr ∧ (u.ch c).ctl = (t.ch c).ctl ∧
            (u.ch c).pwr.state = (t.ch c).pwr.state))

/-- An SVC OUT of a channel in service (R142, R143): the channel becomes DEGRADED, a DEGRADED notice of
reason REQUEST is posted, no WAITING or BLOCKED leg is left in its queue, and the SVC is answered OK after
the answers of the entries that the drops completed. Of those legs, a READ or FETCH that is no recovery leg
moves to the other channel as it is and wakes it, and a WRITE is DONE in its entry; an ISSUED leg stays
(R143 step 3). An accepted SVC IN starts a rebuild (R145). That its OK is posted while no copy has begun, and so
stands ahead of what the first copies lead to, is the model's choice (log 17, DEDUCED; R145 names the copies before
the OK and gives no order); the copies start next, as the event's remaining work (log 3). An
SVC OUT of the target of a rebuild aborts it (R142, R150): the unissued legs of the copies in flight leave both
queues, the unissued WRITEs of host entries leave the target's and are DONE in their entries, every other leg
stays, an entry whose legs are then all DONE is answered, and a copy's internal entry is released unless an
ISSUED leg of it is left (R151). -/
def Obligations.ServiceChangesHealth : Prop :=
  (∀ (s : State) (h : ReqHdr) (chan : Byte) (c : Chan) (g : Tag),
      let t := s.settled
      s.takes h (svcMessage h chan .takeOut) g (.svc c .takeOut) = true →
      t.mir.mode = .mirror → (t.ch c).pwr.state ≠ .starting → t.mir.health c = .inService →
      t.mir.health c.other = .inService →
      ∃ u, exec (.svcOut h chan) s = .next u ∧
        u.mir = t.mir.setHealth c .degraded ∧ u.mem = t.mem ∧ u.conf = t.conf ∧
        u.notices =
          (if masked t.conf.noticeMask .degraded = true then t.notices
           else noticesPost .degraded (some c) (.reason .request) t.notices) ∧
        (∀ l ∈ (u.ch c).ctl.queue, l.state = .issued ∨ l.state = .done) ∧
        (∃ others,
          u.table.answers =
            t.table.answers ++ others ++
              [.answer { kind := 9, tag := g, status := .ok, extra := .nothing }]) ∧
        ∀ l ∈ (t.ch c).ctl.queue, findLeg l.id (t.ch c).ctl.queue = some l →
          (∀ w ∈ (t.ch c.other).ctl.queue, w.id ≠ l.id) →
          (l.state = .issued → (∀ w ∈ (t.ch c).ctl.queue, w.id = l.id → w = l) → l ∈ (u.ch c).ctl.queue) ∧
          (l.state = .waiting → l.kind = .read ∨ l.kind = .fetch → l.recovery = false →
            l ∈ (u.ch c.other).ctl.queue ∧ (u.ch c.other).pwr.state ≠ .nap ∧
              (u.ch c.other).pwr.state ≠ .retainEntry ∧ (u.ch c.other).pwr.state ≠ .retain) ∧
          (l.state = .waiting ∨ l.state = .blocked → (∃ p, l.kind = .write p) →
            ∀ o, l.owner = .host o → t.tagsOk = true →
              ∃ e, u.host o = some e ∧ ∃ d ∈ e.done, d.id = l.id ∧ d.state = .done)) ∧
  (∀ (s : State) (h : ReqHdr) (chan : Byte) (c : Chan) (g : Tag),
      let t := s.settled
      (s.takes h (svcMessage h chan .takeIn) g (.svc c .takeIn) = true →
        t.mir.mode = .mirror → t.chA.pwr.state ≠ .starting → t.chB.pwr.state ≠ .starting →
        t.mir.health c = .degraded →
        exec (.svcIn h chan) s =
          .next
            (({ s.handed h.frame with
                mir := { t.mir.setHealth c .rebuilding with
                  rebuild := some { target := c, next := 0, copies := [], frontier := 0 } } }).answeredNew g
              (.svc c .takeIn) .ok .nothing).conclude) ∧
      (s.takes h (svcMessage h chan .takeOut) g (.svc c .takeOut) = true →
        t.mir.mode = .mirror → (t.ch c).pwr.state ≠ .starting → t.mir.health c = .rebuilding → t.mir.ok →
        ∃ u, exec (.svcOut h chan) s = .next u ∧
          u.mir = { t.mir.setHealth c .degraded with rebuild := none } ∧ u.mem = t.mem ∧ u.conf = t.conf ∧
          u.notices =
            (if masked t.conf.noticeMask .rebuildAborted = true then t.notices
             else noticesPost .rebuildAborted (some c) .nothing t.notices) ∧
          (∃ others,
            u.table.answers =
              t.table.answers ++ others ++
                [.answer { kind := 9, tag := g, status := .ok, extra := .nothing }]) ∧
          ∀ x, t.mir.rebuild = some x →
            let copies (l : Leg) : Prop := ∃ p ∈ x.copies, l.owner = .internal p.1
            let hostWrite (l : Leg) : Prop := (∃ o, l.owner = .host o) ∧ ∃ k, l.kind = .write k
            let leaves (d : Chan) (l : Leg) : Prop :=
              (l.state = .waiting ∨ l.state = .blocked) ∧ (copies l ∨ (d = c ∧ hostWrite l))
            (∀ d, (∀ l ∈ (u.ch d).ctl.queue, l ∈ (t.ch d).ctl.queue ∧ ¬leaves d l) ∧
              ∀ l ∈ (t.ch d).ctl.queue, (∀ w ∈ (t.ch d).ctl.queue, w.id = l.id → w = l) → ¬leaves d l →
                l ∈ (u.ch d).ctl.queue) ∧
            (∀ p ∈ x.copies, (∀ d, ∀ l ∈ (t.ch d).ctl.queue, l.owner = .internal p.1 → leaves d l) →
              u.internal p.1 = none) ∧
            (∀ n, (∀ p ∈ x.copies, p.1 ≠ n) ∨ (∃ d, ∃ l ∈ (u.ch d).ctl.queue, l.owner = .internal n) →
              u.internal n = t.internal n) ∧
            ∀ o e, t.tagsOk = true → t.host o = some e →
              (∀ l ∈ (t.ch c).ctl.queue, l.owner = .host o → leaves c l →
                ∃ e', u.host o = some e' ∧ ∃ d ∈ e'.done, d.id = l.id ∧ d.state = .done) ∧
              ((∃ l ∈ (t.ch c).ctl.queue, l.owner = .host o ∧ leaves c l) →
                (∀ d, ∀ l ∈ (t.ch d).ctl.queue, l.owner = .host o → leaves d l) →
                (u.host o).map (·.state) = some .answered)))

/-- A STAT (R182), in the usual case and while a RESTART drains (R19, R39): OK with the snapshot of the part at
that moment; nothing else is changed. That the replay count stands after the acknowledgement of the STAT's own
frame is the model's reading (log 14, DEDUCED). -/
def Obligations.StatReportsSnapshot : Prop :=
  ∀ (s : State) (h : ReqHdr) (g : Tag),
    let t := s.settled
    let r := s.handed h.frame
    (s.takes h (statMessage h) g .stat = true ∨
      (s.hears h.frame = true ∧ (statMessage h).req = some (g, .stat) ∧ t.host g = none ∧
        t.table.restarting = true)) →
    let chan (c : Chan) : ChannelStat :=
      { power := (t.ch c).pwr.state, health := t.mir.health c,
        queueLength := (t.ch c).ctl.queue.length,
        openBanks := (allBanks.filter fun b => (t.bank c b).openRow.isSome).length,
        debt := (t.ch c).refr.debt,
        trimOwed := (t.ch c).refr.trimOwed || (t.ch c).refr.trimming != .none,
        uncorrectable := t.mir.unc c }
    exec (.stat h) s =
      .next
        (r.answeredNew g .stat .ok
          (.snapshot
            { mode := t.mir.mode, zone := t.therm.zone, sensor := t.therm.sensor,
              temperature := t.therm.lastTemp, hostEntries := t.table.hostsInUse + 1,
              internalEntries := t.table.internalsInUse, holdLength := t.table.holdQueue.length,
              barrier := t.table.barrier.isSome, replayCount := r.link.replayCount,
              rebuild := t.mir.rebuild.map fun x => (x.target, x.next, x.frontier),
              chanA := chan .a, chanB := chan .b })).conclude

/-- The admission of an RST (R38, R128, R183, R205): the restarting flag is set, the answer queue, the hold
queue, the barrier, the waiters and the pending POWER requests are cleared, a rebuild is aborted, no
WAITING or BLOCKED leg of a host entry or of a copy in flight is left in a queue, every other leg stays, and the
RST's entry is ACTIVE. A host entry is kept exactly when it is an ACTIVE RD or WR with a leg left in a queue, and
the internal entry of a copy in flight when a leg of it is (R150, R151). That a kept entry's DONE legs stay is the
model's choice (log 25). Line records, notices, settings and the ready flag stay. -/
def Obligations.RestartBegins : Prop :=
  ∀ (s : State) (h : ReqHdr) (g : Tag),
    let t := s.settled
    s.takes h (rstMessage h) g .rst = true →
    ∃ u, exec (.rst h) s = .next u ∧
      u.table.restarting = true ∧ u.table.answers = [] ∧ u.table.holdQueue = [] ∧
      u.table.barrier = none ∧ u.table.ready = t.table.ready ∧
      u.table.arrivals = t.table.arrivals + 1 ∧
      u.host g = some (newEntry t .rst .active none) ∧
      (∀ o e, o ≠ g → u.host o = some e → t.host o = some e ∧ e.state = .active ∧
        isMemoryReq e.req = true) ∧
      u.mir =
        (match t.mir.rebuild with
         | none => t.mir
         | some x => { t.mir.setHealth x.target .degraded with rebuild := none }) ∧
      u.mem = t.mem ∧ u.notices = t.notices ∧ u.conf = t.conf ∧ u.therm = t.therm ∧
      u.link = (s.handed h.frame).link ∧
      (let copies (l : Leg) : Prop :=
         ∃ x, t.mir.rebuild = some x ∧ ∃ p ∈ x.copies, l.owner = .internal p.1
       let leaves (l : Leg) : Prop :=
         (l.state = .waiting ∨ l.state = .blocked) ∧ (copies l ∨ ∃ o, l.owner = .host o)
       (∀ d, (∀ l ∈ (u.ch d).ctl.queue, l ∈ (t.ch d).ctl.queue ∧ ¬leaves l) ∧
         ∀ l ∈ (t.ch d).ctl.queue, (∀ w ∈ (t.ch d).ctl.queue, w.id = l.id → w = l) → ¬leaves l →
           l ∈ (u.ch d).ctl.queue) ∧
       (∀ o e, o ≠ g → t.host o = some e → e.state = .active → isMemoryReq e.req = true →
         (∃ d, ∃ l ∈ (u.ch d).ctl.queue, l.owner = .host o) → u.host o = some e) ∧
       (∀ o, o ≠ g → (∀ d, ∀ l ∈ (u.ch d).ctl.queue, l.owner ≠ .host o) → u.host o = none) ∧
       (∀ x p, t.mir.rebuild = some x → p ∈ x.copies →
         (∀ d, ∀ l ∈ (u.ch d).ctl.queue, l.owner ≠ .internal p.1) → u.internal p.1 = none) ∧
       ∀ n, (∀ x, t.mir.rebuild = some x → ∀ p ∈ x.copies, p.1 ≠ n) ∨
           (∃ d, ∃ l ∈ (u.ch d).ctl.queue, l.owner = .internal n) →
         u.internal n = t.internal n) ∧
      ∀ c,
        (u.ch c).refr.owedWaiters = [] ∧ (u.ch c).refr.runningWaiters = [] ∧
        (u.ch c).pwr.pendingPower = none ∧ (u.ch c).refr.debt = (t.ch c).refr.debt ∧
        (u.ch c).refr.trimOwed = (t.ch c).refr.trimOwed ∧
        (∀ l ∈ (u.ch c).ctl.queue, ∀ o, l.owner = .host o → l.state = .issued ∨ l.state = .done) ∧
        (u.ch c).pwr.state =
          (if (t.ch c).pwr.state = .nap ∧ ∃ b, (t.bank c b).state = .opened then .napExit
           else (t.ch c).pwr.state)

/-! ### The link's timers and the outbound arbiter -/

/-- The expiries of the ack-delay timer (R162), of the replay timer, which after the fourth without
progress takes the link DOWN (R156, R165), and of a frame's transmission (R167). -/
def Obligations.LinkTimersExpire : Prop :=
  ∀ (s : State) (m : Nat),
    let r := s.atMoment m
    let l := r.link
    (s.expires (fun x => x.link.ackTimer) m = true →
      exec .ackDelayExpiry s =
        .next
          ({ r with link := { l with
            ackTimer := none, pendingAck := if l.ackOwed = true then true else l.pendingAck } }).conclude) ∧
    (s.expires (fun x => x.link.replayTimer) m = true → l.replayCount < 3 →
      exec .replayTimerExpiry s =
        .next
          ({ r with link := { l with
            replayCount := l.replayCount + 1
            resendPoint := if l.replay = [] then none else some 0
            replayTimer := some (r.clock + 10000 * r.conf.replayTimeout) } }).conclude) ∧
    (s.expires (fun x => x.link.replayTimer) m = true → 3 ≤ l.replayCount →
      exec .replayTimerExpiry s =
        .next
          ({ r with link := { l with
            up := false, replayCount := 4, replayTimer := none, ackTimer := none, resendPoint := none,
            pendingSynr := none, pendingRsnd := false, pendingAck := false, resendOutstanding := false,
            ackOwed := false } }).conclude) ∧
    (s.expires (fun x => x.link.tx.map (·.ends)) m = true →
      exec .transmissionEnd s = .next ({ r with link := { l with tx := none } }).conclude)

/-- The frames that the arbiter sends. Control frames (R168, R170): SYNR with the ready flag it carries, then
RSND with the expected sequence, then ACK, each with sequence 0 and the acknowledgement of R153. A buffered
frame again (R166), with its class, sequence and message; the resend point moves on, or becomes absent after
the last. A new frame (R169, R170): the head of the answer queue or of the notice table is taken, numbered,
buffered and begun; a taken answer frees its tag (R31), a reject frees nothing (R24); the count of answers
since the last notice moves. Each makes the path busy for 0.8 ns a byte (R167) and leaves no acknowledgement
owed (R162); that an ACK carries the acknowledgement as it stands at its own begin is the model's reading (log
26). And the bytes themselves: the frame ahead of its check (R153, R191), and the payload of each kind of answer,
of the STAT snapshot, of a reject and of each kind of notice, with every code (R7, R190, R193, R194). -/
def Obligations.ArbiterSendsFrames : Prop :=
  (∀ s : State, s.sends .control = true →
      let t := s.settled
      let l := t.link
      let sent (x : Link) (payload : List Byte) : Host.Outcome State Fault Refusal :=
        let bytes := frameBytes 4 0 (l.expected - 1) payload
        .next
          ({ t with link := { x with
            tx := some { bytes := bytes, ends := t.clock + 8 * bytes.length }, ackOwed := false } }).conclude
      (∀ ready, l.pendingSynr = some ready →
        exec .transmitControl s = sent { l with pendingSynr := none } [2, if ready = true then 1 else 0]) ∧
      (l.pendingSynr = none → l.pendingRsnd = true →
        exec .transmitControl s = sent { l with pendingRsnd := false } [4, l.expected]) ∧
      (l.pendingSynr = none → l.pendingRsnd = false →
        exec .transmitControl s = sent { l with pendingAck := false } [3])) ∧
  (∀ (s : State) (p : Nat) (b : Buffered), s.sends .retransmit = true →
      let t := s.settled
      let l := t.link
      l.resendPoint = some p → l.replay[p]? = some b →
      let bytes := frameBytes b.msg.cls b.seq (l.expected - 1) b.msg.payload
      exec .retransmit s =
        .next
          ({ t with link := { l with
            resendPoint := if p + 1 < l.replay.length then some (p + 1) else none
            tx := some { bytes := bytes, ends := t.clock + 8 * bytes.length }
            ackOwed := false } }).conclude) ∧
  (∀ s : State,
      let t := s.settled
      let l := t.link
      let sent (msg : FrameMsg) (count : Nat) : Link :=
        let bytes := frameBytes msg.cls l.nextSeq (l.expected - 1) msg.payload
        { l with
          nextSeq := l.nextSeq + 1
          replay := l.replay ++ [{ seq := l.nextSeq, msg := msg }]
          replayTimer :=
            if l.replay = [] then some (t.clock + 10000 * t.conf.replayTimeout) else l.replayTimer
          tx := some { bytes := bytes, ends := t.clock + 8 * bytes.length }
          ackOwed := false
          answersSinceNotice := count }
      (∀ q rest, s.sends .answer = true → t.table.answers = q :: rest →
        exec .transmitAnswer s =
          .next
            ({ t with
              table := { t.table with
                answers := rest
                hosts :=
                  match q with
                  | .answer x => t.table.hosts.set x.tag none
                  | .reject _ => t.table.hosts }
              link := sent (.item q)
                (if t.notices = [] then l.answersSinceNotice else min (l.answersSinceNotice + 1) 8) }).conclude) ∧
      ∀ n rest, s.sends .notice = true → t.notices = n :: rest →
        exec .transmitNotice s = .next ({ t with notices := rest, link := sent (.notice n) 0 }).conclude) ∧
  (∀ (cls sequence ack : Byte) (payload : List Byte), ∃ check : List Byte, check.length = 4 ∧
      frameBytes cls sequence ack payload =
        [0xB6, cls, sequence, ack, BitVec.ofNat 8 payload.length] ++ payload ++ check) ∧
  -- the payloads; `le k n` is `n` in `k` bytes, the low byte first
  (let le (k n : Nat) : List Byte := (List.range k).map fun i => BitVec.ofNat 8 (n / 256 ^ i)
   let signed (k : Nat) (z : Int) : List Byte := le k (z % 256 ^ k).toNat
   let flag (x : Bool) : Byte := if x = true then 1 else 0
   let channel (x : Option Chan) : Byte :=
     match x with
     | none => 0xFF
     | some .a => 0
     | some .b => 1
   let status (x : Status) : Byte :=
     match x with
     | .ok => 0 | .corrected => 1 | .recovered => 2 | .uncorrectable => 3 | .poison => 4 | .unset => 5
     | .poisonedMerge => 6 | .cancelled => 7 | .tooLate => 8 | .noSuchTag => 9 | .range => 10 | .align => 11
     | .thermal => 12 | .busy => 13 | .mode => 14 | .lastCopy => 15 | .notReady => 16 | .aborted => 17
     | .badParam => 18 | .readOnly => 19
   let zone (x : Zone) : Byte := match x with | .normal => 0 | .warm => 1 | .hot => 2 | .critical => 3
   let temperature (x : Option Int) : List Byte := flag x.isSome :: signed 2 (x.getD 0)
   let notice (x : NoticeKind) : Byte :=
     match x with
     | .ready => 1 | .zone => 2 | .sensorLost => 3 | .sensorBack => 4 | .linkRecovered => 5 | .corrected => 6
     | .uncorrectable => 7 | .degraded => 8 | .rebuildDone => 9 | .rebuildAborted => 10
   let fields (x : NoticeFields) : List Byte :=
     match x with
     | .nothing => []
     | .zone old new z => [zone old, zone new] ++ temperature z
     | .address a => le 4 a.toNat
     | .reason .limit => [0]
     | .reason .request => [1]
   let block (x : ChannelStat) : List Byte :=
     [(match x.power with
       | .starting => 0 | .active => 1 | .nap => 2 | .napExit => 3 | .retainEntry => 4 | .retain => 5
       | .retainExit => 6),
      (match x.health with | .inService => 0 | .degraded => 1 | .rebuilding => 2)] ++
     le 2 x.queueLength ++ [BitVec.ofNat 8 x.openBanks] ++ signed 1 x.debt ++ [flag x.trimOwed] ++
     le 2 x.uncorrectable
   let extra (x : Extra) : List Byte :=
     match x with
     | .nothing => []
     | .read served none => [channel served]
     | .read served (some (.whole d)) => channel served :: d.toList
     | .read served (some (.half d)) => channel served :: d.toList
     | .param id => [id]
     | .value id v => id :: le 4 v.toNat
     | .snapshot y =>
       [(match y.mode with | .split => 0 | .mirror => 1), zone y.zone,
        (match y.sensor with | .awaiting => 0 | .ok => 1 | .lost => 2)] ++ temperature y.temperature ++
       [BitVec.ofNat 8 y.hostEntries, BitVec.ofNat 8 y.internalEntries, BitVec.ofNat 8 y.holdLength,
        flag y.barrier, BitVec.ofNat 8 y.replayCount] ++
       (match y.rebuild with
        | none => [0, 0xFF] ++ le 4 0 ++ le 4 0
        | some (target, next, frontier) =>
          [1, channel (some target)] ++ le 4 (64 * next) ++ le 4 (64 * frontier)) ++
       block y.chanA ++ block y.chanB
   (∀ a : Answer, (FrameMsg.item (.answer a)).cls = 2 ∧
     (FrameMsg.item (.answer a)).payload =
       [a.kind, BitVec.ofNat 8 a.tag.val, status a.status] ++ extra a.extra) ∧
   (∀ y : Snapshot, (extra (.snapshot y)).length = 39) ∧
   (∀ x : Reject, (FrameMsg.item (.reject x)).cls = 2 ∧
     (FrameMsg.item (.reject x)).payload =
       [0xE0, x.tag.getD 0xFF,
        (match x.reason with | .malformed => 0 | .duplicate => 1 | .restarting => 2), x.kind.getD 0xFF]) ∧
   ∀ n : Notice, (FrameMsg.notice n).cls = 3 ∧
     (FrameMsg.notice n).payload =
       [notice n.kind, channel n.chan, BitVec.ofNat 8 n.count] ++ fields n.first ++ fields n.latest)

/-- What the arbiter takes when the path is free (R156, R168, R169): a control frame; in UP, the frame at
the resend point; else, with fewer than 32 frames buffered, the head answer, or the head notice when no
answer waits or eight answers went since a notice. -/
def Obligations.ArbiterChooses : Prop :=
  ∀ t : State,
    let l := t.link
    let control := l.pendingSynr ≠ none ∨ l.pendingRsnd = true ∨ l.pendingAck = true
    (t.arbiterChoice = some .control ↔ l.tx = none ∧ control) ∧
    (t.arbiterChoice = some .retransmit ↔
      l.tx = none ∧ ¬control ∧ l.up = true ∧ l.resendPoint ≠ none) ∧
    (t.arbiterChoice = some .answer ↔
      l.tx = none ∧ ¬control ∧ l.up = true ∧ l.resendPoint = none ∧ l.replay.length < 32 ∧
        t.table.answers ≠ [] ∧ ¬(t.notices ≠ [] ∧ 8 ≤ l.answersSinceNotice)) ∧
    (t.arbiterChoice = some .notice ↔
      l.tx = none ∧ ¬control ∧ l.up = true ∧ l.resendPoint = none ∧ l.replay.length < 32 ∧
        t.notices ≠ [] ∧ (t.table.answers = [] ∨ 8 ≤ l.answersSinceNotice))

/-! ### The channel controller's intervals -/

/-- The expiries of the bank intervals (R46, R47, R48, R49, R62): what each makes of its bank record or of
the channel, with a decision called. No other bank, no queue, no entry and no line record changes. And what the
page policy makes of a bank that is judged (R61 to R63): one that is OPEN with no access, no leg for its open row
and its idle close STOPPED becomes DUE at once under CLOSE; under OPEN it stays STOPPED with IDLE_CLOSE 0 and
else runs for IDLE_CLOSE; any other bank keeps its idle close. -/
def Obligations.BankIntervalsExpire : Prop :=
  (∀ (f : Settings) (now : Nat) (q : List Leg) (b : BankNo) (x : Bank),
    let idle := x.state = .opened ∧ x.access = none ∧
      ∃ r, x.openRow = some r ∧ ∀ l ∈ q, ¬(l.loc.bank = b ∧ l.loc.row = r)
    (idle → x.idleClose = .stopped →
      (f.pagePolicy = .closeIdle → judgedIdleClose f now q b x = .due) ∧
      (f.pagePolicy = .keepOpen → f.idleClose = 0 → judgedIdleClose f now q b x = .stopped) ∧
      (f.pagePolicy = .keepOpen → f.idleClose ≠ 0 →
        judgedIdleClose f now q b x = .running (now + 10 * f.idleClose))) ∧
    (¬(idle ∧ x.idleClose = .stopped) → judgedIdleClose f now q b x = x.idleClose)) ∧
  ∀ (s : State) (c : Chan) (b : BankNo) (m : Nat),
    let r := s.atMoment m
    let k := (r.ch c).ctl
    let x := r.bank c b
    let withCtl (k : Control) : Host.Outcome State Fault Refusal :=
      .next (r.setCh c { r.ch c with ctl := { k with due := true } }).conclude
    let withBank (y : Bank) : Host.Outcome State Fault Refusal := withCtl { k with banks := k.banks.set b y }
    (s.expires (fun y => (y.bank c b).openSettle) m = true →
      exec (.openSettleExpiry c b) s =
        (let y : Bank := { x with state := .opened, openSettle := none }
         withBank { y with idleClose := judgedIdleClose r.conf r.clock k.queue b y })) ∧
    (s.expires (fun y => (y.bank c b).minimumOpen) m = true →
      exec (.minimumOpenExpiry c b) s =
        withBank { x with minimumOpen := none,
                          closable := if x.writeRecovery = none then true else x.closable }) ∧
    (s.expires (fun y => (y.bank c b).writeRecovery) m = true →
      exec (.writeRecoveryExpiry c b) s =
        withBank { x with writeRecovery := none,
                          closable := if x.minimumOpen = none then true else x.closable }) ∧
    (s.expires (fun y => (y.bank c b).rowCycle) m = true →
      exec (.rowCycleExpiry c b) s = withBank { x with rowCycle := none, reopenable := true }) ∧
    (s.expires (fun y => (y.bank c b).closeTimer) m = true →
      exec (.closeExpiry c b) s =
        withBank { x with state := .closed, openRow := none, closeTimer := none }) ∧
    (s.expires (fun y => (y.bank c b).idleClose.timer) m = true →
      exec (.idleCloseExpiry c b) s = withBank { x with idleClose := .due }) ∧
    (s.expires (fun y => (y.ch c).ctl.openSpacing) m = true →
      exec (.openSpacingExpiry c) s = withCtl { k with openSpacing := none }) ∧
    ∀ o rest, k.openings = o :: rest →
      s.expires (fun y => (y.ch c).ctl.openings.head?.map (· + 400)) m = true →
      exec (.openingWindowExpiry c) s = withCtl { k with openings := rest }

/-! ### Accesses -/

/-- A READ or FETCH of a host entry completes in SPLIT mode (R9, R10, R11, R12, R15, R52): no line record
changes, the data path is freed, the leg leaves the queue, and the entry takes what the condition found
gives. A READ of a FLAWED line with WRITEBACK ON adds a WRITEBACK leg; without one the entry whose last
leg it was is answered. A FETCH gives the BLOCKED WRITE legs what they will store. While a RESTART drains, in
either mode, the leg becomes DONE with its notice and count and nothing else is recorded or added, and an entry
without a leg left is discarded without answer (R39). A copy's FETCH gives the COPY WRITE on the target a line
or a POISONED marking (R148), and its entry keeps no status (the model's choice, log 23); with its WRITE removed by
an abort it frees the internal entry (R151). While a RESTART drains it gives no WRITE anything (R39, R151). The
data of a read is the whole line for a LINE, and the half that the address selects for a HALF (R5, R10). -/
def Obligations.ReadAccessCompletes : Prop :=
  (∀ (s : State) (c : Chan) (b : BankNo) (m : Nat) (l : Leg) (g : Tag) (e : Entry),
    let r := s.atMoment m
    let q := (r.ch c).ctl.queue
    let x := r.mem.read c l.loc.line
    let post (k : NoticeKind) : List Notice :=
      if masked r.conf.noticeMask k = true then r.notices
      else noticesPost k (some c) (.address (lineAddress .split c l.loc.line)) r.notices
    s.expires (fun y => (y.bank c b).readAccess) m = true → r.accessLeg c b = some l →
    l.owner = .host g → r.host g = some e → l.recovery = false → r.table.restarting = false →
    r.mir.mode = .split → r.mir.ok → r.tagsOk = true →
    ∃ u e', exec (.readAccessComplete c b) s = .next u ∧ u.host g = some e' ∧
      u.mem = r.mem ∧ (u.ch c).ctl.pathBusy = false ∧ (u.bank c b).access = none ∧
      (u.ch c).ctl.due = true ∧
      u.notices =
        (match x with
         | .flawed _ => post .corrected
         | .broken => post .uncorrectable
         | _ => r.notices) ∧
      u.mir =
        (match x with
         | .broken => r.mir.setUnc c (min (r.mir.unc c + 1) 65535)
         | _ => r.mir) ∧
      e'.req = e.req ∧ e'.done = e.done ++ [{ l with state := .done }] ∧
      (∀ z a, l.kind = .read → e.req = .rd z a →
        let st : Status :=
          match x with
          | .unset => .unset
          | .intact _ => .ok
          | .flawed _ => .corrected
          | .broken => .uncorrectable
          | .poisoned => .poison
        let data : Option ReadData :=
          match x with
          | .intact d | .flawed d =>
            some (readData z ((e.decoded.map (·.second)).getD false) d)
          | _ => none
        e'.status = some st ∧ e'.data = data ∧ e'.served = some c ∧
        (u.ch c).ctl.queue =
          (match x with
           | .flawed d =>
             if r.conf.writeback = true then
               insertLeg
                 { owner := .host g, no := e.legsMade, age := e.age, kind := .write .writeback, size := .line,
                   loc := l.loc, state := .waiting, store := .line d, recovery := false }
                 (eraseLeg l.id q)
             else eraseLeg l.id q
           | _ => eraseLeg l.id q) ∧
        (¬((∃ d, x = .flawed d) ∧ r.conf.writeback = true) →
          (∀ w ∈ q, w.owner = .host g → w.id = l.id) →
          (∀ w ∈ (r.ch c.other).ctl.queue, w.owner ≠ .host g) →
          e'.state = .answered ∧
          u.table.answers =
            r.table.answers ++
              [.answer { kind := 1, tag := g, status := st, extra := .read (some c) data }])) ∧
      ∀ z fm a data, l.kind = .fetch → e.req = .wr z fm a data →
        (∃ d, ∃ w ∈ (r.ch d).ctl.queue, w.isBlockedWrite (.host g) .host = true ∧ w.id ≠ l.id) →
        e'.state = .active ∧ u.table.answers = r.table.answers ∧
        e'.status =
          some
            (match x with
             | .broken => .poisonedMerge
             | .poisoned => .poison
             | _ => .ok) ∧
        ∀ d, (u.ch d).ctl.queue =
          ((if d = c then eraseLeg l.id q else (r.ch d).ctl.queue).map fun w =>
            if w.isBlockedWrite (.host g) .host then
              { w with
                state := .waiting
                store := mergeStore z ((e.decoded.map (·.second)).getD false) fm data x }
            else w)) ∧
  (∀ (second : Bool) (d : Bytes 64),
    readData .line second d = .whole d ∧
    ∃ h : Bytes 32, readData .half second d = .half h ∧
      ∀ k : Nat, k < 32 → h[k]? = d[if second = true then 32 + k else k]?) ∧
  ∀ (s : State) (c : Chan) (b : BankNo) (m : Nat) (l : Leg),
    let r := s.atMoment m
    let q (d : Chan) := if d = c then eraseLeg l.id (r.ch d).ctl.queue else (r.ch d).ctl.queue
    let x := r.mem.read c l.loc.line
    let post (k : NoticeKind) : List Notice :=
      if masked r.conf.noticeMask k = true then r.notices
      else noticesPost k (some c) (.address (lineAddress r.mir.mode c l.loc.line)) r.notices
    let counted : Mirror :=
      match x with
      | .broken => r.mir.setUnc c (min (r.mir.unc c + 1) 65535)
      | _ => r.mir
    let noticed : List Notice :=
      match x with
      | .flawed _ => post .corrected
      | .broken => post .uncorrectable
      | _ => r.notices
    s.expires (fun y => (y.bank c b).readAccess) m = true → r.accessLeg c b = some l →
    l.kind = .read ∨ l.kind = .fetch →
    (r.table.restarting = true → ∀ g e, l.owner = .host g → r.host g = some e →
      ∃ u, exec (.readAccessComplete c b) s = .next u ∧ u.mem = r.mem ∧ u.mir = counted ∧
        u.notices = noticed ∧ u.table.answers = r.table.answers ∧ (∀ d, (u.ch d).ctl.queue = q d) ∧
        ((∀ d, ∀ w ∈ q d, w.owner ≠ .host g) → u.host g = none) ∧
        ((∃ d, ∃ w ∈ q d, w.owner = .host g) →
          u.host g = some { e with done := e.done ++ [{ l with state := .done }] })) ∧
    (r.table.restarting = true → ∀ n e, l.owner = .internal n → r.internal n = some e →
      ∃ u, exec (.readAccessComplete c b) s = .next u ∧ u.mem = r.mem ∧
        u.table.answers = r.table.answers ∧ (∀ d, (u.ch d).ctl.queue = q d) ∧
        ((∃ d, ∃ w ∈ q d, w.owner = .internal n) → u.mir = counted ∧ u.notices = noticed ∧
          u.internal n = some { e with done := e.done ++ [{ l with state := .done }] }) ∧
        ((∀ d, ∀ w ∈ q d, w.owner ≠ .internal n) → u.internal n = none ∧
          ((∀ y, r.mir.rebuild = some y → ∀ p ∈ y.copies, p.1 ≠ n) →
            u.mir = counted ∧ u.notices = noticed))) ∧
    (r.table.restarting = false → r.mir.health c.other ≠ .inService → r.mir.mode = .mirror →
      ∀ n e, l.owner = .internal n → l.kind = .fetch → r.internal n = some e →
      let store : Store :=
        match x with
        | .unset => .line (zeroBytes 64)
        | .intact d | .flawed d => .line d
        | .broken | .poisoned => .poison
      ∃ u, exec (.readAccessComplete c b) s = .next u ∧ u.mem = r.mem ∧
        u.table.answers = r.table.answers ∧
        (∀ d, (u.ch d).ctl.queue =
          (q d).map fun w =>
            if w.isBlockedWrite (.internal n) .copy then { w with state := .waiting, store := store }
            else w) ∧
        ((∃ d, ∃ w ∈ q d, w.owner = .internal n) → u.mir = counted ∧ u.notices = noticed ∧
          u.internal n = some { e with done := e.done ++ [{ l with state := .done }] }) ∧
        ((∀ d, ∀ w ∈ q d, w.owner ≠ .internal n) → u.internal n = none ∧
          ((∀ y, r.mir.rebuild = some y → ∀ p ∈ y.copies, p.1 ≠ n) →
            u.mir = counted ∧ u.notices = noticed)))

/-- A mirrored READ that finds BROKEN with the other channel IN_SERVICE, and no degrade due (R137, R138): a
recovery READ is placed on the other channel and a BLOCKED REPAIR on the failed one, and the entry waits.
When the recovery READ completes, the entry takes its outcome, and the REPAIR gets the line, or is taken out
when there is none to store. Where the count reaches DEGRADE_LIMIT (R141), the channel is degraded with reason
LIMIT first, and the recovery READ is placed without a REPAIR. A mirrored READ that finds another condition
records it as in SPLIT mode, with a WRITEBACK only on a channel IN_SERVICE (R136). A FETCH of a partial write
that finds BROKEN places a recovery FETCH on the other channel ahead of the entry's BLOCKED WRITE there (R135,
R139), with a degrade due as without (R141); any other outcome, and that of the recovery FETCH, gives the WRITE
legs what they store, and the status with it (R139). A READ that finds BROKEN on a channel that is no longer in
service is recovered without a REPAIR (R144), and with the other channel out of service it is UNCORRECTABLE
(R137). Every row of R138: a REPAIR gets the line or a POISONED marking and becomes WAITING, or is DONE without
access; a recovery READ that finds FLAWED posts CORRECTED and adds a WRITEBACK (R136); one that finds BROKEN
degrades its own channel where that is due. -/
def Obligations.MirroredReadRecovers : Prop :=
  (∀ (s : State) (c : Chan) (b : BankNo) (m : Nat) (l : Leg) (g : Tag) (e : Entry) (z : Size) (a : Word32),
    let r := s.atMoment m
    let q (d : Chan) := if d = c then eraseLeg l.id (r.ch d).ctl.queue else (r.ch d).ctl.queue
    let x := r.mem.read c l.loc.line
    s.expires (fun y => (y.bank c b).readAccess) m = true → r.accessLeg c b = some l →
    l.owner = .host g → l.kind = .read → r.host g = some e → e.req = .rd z a →
    r.table.restarting = false → r.mir.mode = .mirror → r.mir.ok → r.tagsOk = true →
    r.mir.health c = .inService → r.mir.health c.other = .inService →
    (r.conf.degradeLimit = 0 ∨ min (r.mir.unc c + 1) 65535 < r.conf.degradeLimit) →
    (l.recovery = false → x = .broken →
      let leg (no : Nat) (k : LegKind) (st : LegState) (rec : Bool) : Leg :=
        { owner := .host g, no := no, age := e.age, kind := k, size := .line, loc := l.loc, state := st,
          store := .absent, recovery := rec }
      ∃ u e', exec (.readAccessComplete c b) s = .next u ∧ u.host g = some e' ∧
        e'.status = e.status ∧ e'.legsMade = e.legsMade + 2 ∧ e'.state = .active ∧ u.mem = r.mem ∧
        u.mir = r.mir.setUnc c (min (r.mir.unc c + 1) 65535) ∧
        (u.ch c.other).ctl.queue = insertLeg (leg e.legsMade .read .waiting true) (q c.other) ∧
        (u.ch c).ctl.queue = insertLeg (leg (e.legsMade + 1) (.write .repair) .blocked false) (q c)) ∧
    (l.recovery = true →
      ∃ u e', exec (.readAccessComplete c b) s = .next u ∧ u.host g = some e' ∧ u.mem = r.mem ∧
        e'.served = some c ∧
        e'.status =
          some
            (match x with
             | .unset => .unset
             | .intact _ => .recovered
             | .flawed _ => .recovered
             | .broken => .uncorrectable
             | .poisoned => .poison) ∧
        e'.data =
          (match x with
           | .intact d | .flawed d => some (readData z ((e.decoded.map (·.second)).getD false) d)
           | _ => none) ∧
        (∀ d, x = .intact d →
          ∀ o, (u.ch o).ctl.queue =
            (q o).map fun w =>
              if w.isBlockedWrite (.host g) .repair then { w with state := .waiting, store := .line d }
              else w) ∧
        (x = .broken ∨ x = .unset →
          ∀ w ∈ (u.ch c.other).ctl.queue, w.owner = .host g → w.kind = .write .repair → w.unissued = false))) ∧
  ∀ (s : State) (c : Chan) (b : BankNo) (m : Nat) (l : Leg) (g : Tag) (e : Entry),
    let r := s.atMoment m
    let q (d : Chan) := if d = c then eraseLeg l.id (r.ch d).ctl.queue else (r.ch d).ctl.queue
    let x := r.mem.read c l.loc.line
    let count := min (r.mir.unc c + 1) 65535
    let second := (e.decoded.map (·.second)).getD false
    let post (k : NoticeKind) (f : NoticeFields) (n : List Notice) : List Notice :=
      if masked r.conf.noticeMask k = true then n else noticesPost k (some c) f n
    let place := NoticeFields.address (lineAddress .mirror c l.loc.line)
    let leg (k : LegKind) (st : LegState) (store : Store) (rec : Bool) : Leg :=
      { owner := .host g, no := e.legsMade, age := e.age, kind := k, size := .line, loc := l.loc, state := st,
        store := store, recovery := rec }
    let degrades : Prop := x = .broken ∧ r.mir.health c = .inService ∧ r.mir.health c.other = .inService ∧
      r.conf.degradeLimit ≠ 0 ∧ r.conf.degradeLimit ≤ count
    s.expires (fun y => (y.bank c b).readAccess) m = true → r.accessLeg c b = some l →
    l.owner = .host g → r.host g = some e → r.table.restarting = false → r.mir.mode = .mirror →
    r.tagsOk = true →
    -- the automatic degrade
    (∀ z a, l.kind = .read → e.req = .rd z a → l.recovery = false → x = .broken →
      r.mir.health c = .inService → r.mir.health c.other = .inService → r.conf.degradeLimit ≠ 0 →
      r.conf.degradeLimit ≤ count →
      ∃ u e', exec (.readAccessComplete c b) s = .next u ∧ u.host g = some e' ∧ e'.state = .active ∧
        u.mem = r.mem ∧ u.mir = (r.mir.setUnc c count).setHealth c .degraded ∧
        u.notices = post .degraded (.reason .limit) (post .uncorrectable place r.notices) ∧
        (∀ w ∈ (u.ch c).ctl.queue, w.state = .issued ∨ w.state = .done) ∧
        leg .read .waiting .absent true ∈ (u.ch c.other).ctl.queue ∧ e'.legsMade = e.legsMade + 1) ∧
    -- a READ that finds something other than BROKEN
    (∀ z a, l.kind = .read → e.req = .rd z a → l.recovery = false → x ≠ .broken →
      let st : Status :=
        match x with
        | .unset => .unset
        | .flawed _ => .corrected
        | .poisoned => .poison
        | .intact _ | .broken => .ok
      let data : Option ReadData :=
        match x with
        | .intact d | .flawed d => some (readData z second d)
        | _ => none
      let back : Option (Bytes 64) :=
        match x with
        | .flawed d => if r.conf.writeback = true ∧ r.mir.health c = .inService then some d else none
        | _ => none
      ∃ u e', exec (.readAccessComplete c b) s = .next u ∧ u.host g = some e' ∧ u.mem = r.mem ∧
        u.mir = r.mir ∧
        u.notices = (match x with | .flawed _ => post .corrected place r.notices | _ => r.notices) ∧
        e'.status = some st ∧ e'.data = data ∧ e'.served = some c ∧
        (u.ch c.other).ctl.queue = q c.other ∧
        (u.ch c).ctl.queue =
          (match back with
           | some d => insertLeg (leg (.write .writeback) .waiting (.line d) false) (q c)
           | none => q c) ∧
        (back = none → (∀ d, ∀ w ∈ q d, w.owner ≠ .host g) →
          e'.state = .answered ∧
          u.table.answers =
            r.table.answers ++
              [.answer { kind := 1, tag := g, status := st, extra := .read (some c) data }])) ∧
    -- a READ that finds BROKEN where no repair, or no recovery, can be made
    (∀ z a, l.kind = .read → e.req = .rd z a → l.recovery = false → x = .broken →
      (r.mir.health c ≠ .inService → r.mir.health c.other = .inService →
        ∃ u e', exec (.readAccessComplete c b) s = .next u ∧ u.host g = some e' ∧ e'.state = .active ∧
          e'.status = e.status ∧ e'.legsMade = e.legsMade + 1 ∧ u.mem = r.mem ∧
          u.mir = r.mir.setUnc c count ∧ u.notices = post .uncorrectable place r.notices ∧
          (u.ch c).ctl.queue = q c ∧
          (u.ch c.other).ctl.queue = insertLeg (leg .read .waiting .absent true) (q c.other)) ∧
      (r.mir.health c.other ≠ .inService →
        ∃ u e', exec (.readAccessComplete c b) s = .next u ∧ u.host g = some e' ∧ u.mem = r.mem ∧
          e'.status = some .uncorrectable ∧ e'.data = none ∧ e'.served = some c ∧
          u.mir = r.mir.setUnc c count ∧ u.notices = post .uncorrectable place r.notices ∧
          (∀ d, (u.ch d).ctl.queue = q d) ∧
          ((∀ d, ∀ w ∈ q d, w.owner ≠ .host g) →
            e'.state = .answered ∧
            u.table.answers =
              r.table.answers ++
                [.answer { kind := 1, tag := g, status := .uncorrectable,
                           extra := .read (some c) none }]))) ∧
    -- the rows of a recovery READ
    (∀ z a, l.kind = .read → e.req = .rd z a → l.recovery = true →
      let repairs (w : Leg) : Prop := w.owner = .host g ∧ w.kind = .write .repair ∧
        (w.state = .waiting ∨ w.state = .blocked)
      let settled (st : Store) (o : Chan) : List Leg :=
        (q o).map fun w =>
          if w.isBlockedWrite (.host g) .repair then { w with state := .waiting, store := st } else w
      let dropped (u : State) (e' : Entry) : Prop :=
        (∀ w ∈ (u.ch c.other).ctl.queue, ¬repairs w) ∧
          ∀ w ∈ q c.other, repairs w → ∃ d ∈ e'.done, d.id = w.id ∧ d.state = .done
      ∃ u e', exec (.readAccessComplete c b) s = .next u ∧ u.host g = some e' ∧ u.mem = r.mem ∧
        e'.served = some c ∧
        (∀ d, x = .intact d →
          e'.status = some .recovered ∧ e'.data = some (readData z second d) ∧ u.mir = r.mir ∧
          u.notices = r.notices ∧ ∀ o, (u.ch o).ctl.queue = settled (.line d) o) ∧
        (∀ d, x = .flawed d →
          e'.status = some .recovered ∧ e'.data = some (readData z second d) ∧ u.mir = r.mir ∧
          u.notices = post .corrected place r.notices ∧
          (u.ch c.other).ctl.queue = settled (.line d) c.other ∧
          (u.ch c).ctl.queue =
            (if r.conf.writeback = true ∧ r.mir.health c = .inService then
              insertLeg (leg (.write .writeback) .waiting (.line d) false) (settled (.line d) c)
            else settled (.line d) c)) ∧
        (x = .poisoned →
          e'.status = some .poison ∧ e'.data = none ∧ u.mir = r.mir ∧ u.notices = r.notices ∧
          ∀ o, (u.ch o).ctl.queue = settled .poison o) ∧
        (x = .unset →
          e'.status = some .unset ∧ e'.data = none ∧ u.mir = r.mir ∧ u.notices = r.notices ∧
          (u.ch c).ctl.queue = q c ∧ dropped u e') ∧
        (x = .broken →
          e'.status = some .uncorrectable ∧ e'.data = none ∧ dropped u e' ∧
          (¬degrades → u.mir = r.mir.setUnc c count ∧ u.notices = post .uncorrectable place r.notices ∧
            (u.ch c).ctl.queue = q c) ∧
          (degrades → u.mir = (r.mir.setUnc c count).setHealth c .degraded ∧
            u.notices = post .degraded (.reason .limit) (post .uncorrectable place r.notices) ∧
            ∀ w ∈ (u.ch c).ctl.queue, w.state = .issued ∨ w.state = .done))) ∧
    -- the FETCH of a partial write
    ∀ z fm a data, l.kind = .fetch → e.req = .wr z fm a data →
      (l.recovery = false → degrades →
        let fetch := leg .fetch .waiting .absent true
        ∃ u e', exec (.readAccessComplete c b) s = .next u ∧ u.host g = some e' ∧ e'.state = .active ∧
          u.mem = r.mem ∧ u.mir = (r.mir.setUnc c count).setHealth c .degraded ∧
          u.notices = post .degraded (.reason .limit) (post .uncorrectable place r.notices) ∧
          e'.legsMade = e.legsMade + 1 ∧
          (∀ w ∈ (u.ch c).ctl.queue, w.state = .issued ∨ w.state = .done) ∧
          (∀ w ∈ q c, w.owner = .host g → (∃ k, w.kind = .write k) → w.state = .waiting ∨ w.state = .blocked →
            (∀ v ∈ q c, v.id = w.id → v = w) → ∃ d ∈ e'.done, d.id = w.id ∧ d.state = .done) ∧
          ((∀ d, ∀ w ∈ q d, w.owner = .host g → w.no ≠ e.legsMade) →
            fetch ∈ (u.ch c.other).ctl.queue ∧
            ∀ w ∈ (u.ch c.other).ctl.queue, w.owner = .host g → w.state = .blocked → w.age = e.age →
              ∃ front back, (u.ch c.other).ctl.queue = front ++ fetch :: back ∧ w ∈ back)) ∧
      (l.recovery = true → degrades →
        ∃ u e', exec (.readAccessComplete c b) s = .next u ∧ u.host g = some e' ∧ u.mem = r.mem ∧
          e'.status = some .poisonedMerge ∧ u.mir = (r.mir.setUnc c count).setHealth c .degraded ∧
          u.notices = post .degraded (.reason .limit) (post .uncorrectable place r.notices) ∧
          (∀ w ∈ (u.ch c).ctl.queue, w.state = .issued ∨ w.state = .done) ∧
          (∀ w ∈ (u.ch c.other).ctl.queue, w.isBlockedWrite (.host g) .host = false) ∧
          ((∀ w ∈ q c, w.owner = .host g → w.kind ≠ .fetch) →
            ∀ w ∈ q c.other, w.isBlockedWrite (.host g) .host = true →
              { w with state := .waiting, store := .poison } ∈ (u.ch c.other).ctl.queue)) ∧
      (¬degrades →
        (l.recovery = false → x = .broken → r.mir.health c.other = .inService →
          let fetch := leg .fetch .waiting .absent true
          let blocked := (q c.other).filter fun w => w.owner == .host g && w.state == .blocked
          ∃ u e', exec (.readAccessComplete c b) s = .next u ∧ u.host g = some e' ∧ e'.state = .active ∧
            e'.status = e.status ∧ u.mem = r.mem ∧ u.mir = r.mir.setUnc c count ∧
            u.notices = post .uncorrectable place r.notices ∧
            (u.ch c).ctl.queue = q c ∧
            (blocked = [] → (u.ch c.other).ctl.queue = insertLeg fetch (q c.other)) ∧
            ∀ w, blocked = [w] →
              (u.ch c.other).ctl.queue = insertLeg w (eraseLeg w.id (insertLeg fetch (q c.other)))) ∧
        (l.recovery = true ∨ x ≠ .broken ∨ r.mir.health c.other ≠ .inService →
          (∃ d, ∃ w ∈ q d, w.isBlockedWrite (.host g) .host = true) →
          ∃ u e', exec (.readAccessComplete c b) s = .next u ∧ u.host g = some e' ∧ e'.state = .active ∧
            u.mem = r.mem ∧ u.table.answers = r.table.answers ∧
            e'.status =
              some
                (match x with
                 | .broken => .poisonedMerge
                 | .poisoned => .poison
                 | _ => if l.recovery = true then .recovered else .ok) ∧
            ∀ d, (u.ch d).ctl.queue =
              (q d).map fun w =>
                if w.isBlockedWrite (.host g) .host then
                  { w with state := .waiting, store := mergeStore z second fm data x }
                else w))

/-- A WRITE completes (R13, R47, R52): the line record takes what the leg stores and no other record
changes, the data path is freed, write recovery holds the bank open, the leg leaves, and a host entry
whose last leg it was is answered; while a RESTART drains it is discarded without answer (R39). A COPY WRITE
frees its internal entry, leaves the copies in flight and moves the frontier (R37, R149); the one that brings
the frontier to the end puts the target IN_SERVICE with its count at 0, ends the rebuild and posts
REBUILD_DONE; one left over from an aborted rebuild only frees its entry (R151). -/
def Obligations.WriteAccessCompletes : Prop :=
  (∀ (s : State) (c : Chan) (b : BankNo) (m : Nat) (l : Leg),
    let r := s.atMoment m
    let q := (r.ch c).ctl.queue
    s.expires (fun y => (y.bank c b).writeAccess) m = true → r.accessLeg c b = some l → r.mem.wf = true →
    ∃ u, exec (.writeAccessComplete c b) s = .next u ∧
      u.mem.read c l.loc.line =
        (match l.store with
         | .absent => r.mem.read c l.loc.line
         | .line d => .intact d
         | .poison => .poisoned) ∧
      (∀ d n, ¬(d = c ∧ n = l.loc.line) → u.mem.read d n = r.mem.read d n) ∧
      (u.ch c).ctl.pathBusy = false ∧ (u.ch c).ctl.due = true ∧
      (u.bank c b).access = none ∧ (u.bank c b).closable = false ∧
      (u.bank c b).writeRecovery = some (r.clock + 150) ∧ (u.bank c b).writeAccess = none ∧
      (u.bank c b).state = (r.bank c b).state ∧ (u.bank c b).openRow = (r.bank c b).openRow ∧
      (u.ch c).ctl.queue = eraseLeg l.id q ∧ (u.ch c.other).ctl.queue = (r.ch c.other).ctl.queue ∧
      ∀ g e, l.owner = .host g → r.host g = some e → r.table.restarting = false → r.tagsOk = true →
        u.mir = r.mir ∧ u.notices = r.notices ∧
        ((∀ w ∈ q, w.owner = .host g → w.id = l.id) →
          (∀ w ∈ (r.ch c.other).ctl.queue, w.owner ≠ .host g) →
          u.table.answers =
            r.table.answers ++
              [.answer { kind := reqCode e.req, tag := g, status := e.status.getD .ok,
                         extra := e.extra (e.status.getD .ok) }]) ∧
        (((∃ w ∈ q, w.owner = .host g ∧ w.id ≠ l.id) ∨
            ∃ w ∈ (r.ch c.other).ctl.queue, w.owner = .host g) →
          u.table.answers = r.table.answers)) ∧
  ∀ (s : State) (c : Chan) (b : BankNo) (m : Nat) (l : Leg),
    let r := s.atMoment m
    let q (d : Chan) := if d = c then eraseLeg l.id (r.ch d).ctl.queue else (r.ch d).ctl.queue
    s.expires (fun y => (y.bank c b).writeAccess) m = true → r.accessLeg c b = some l →
    (∃ p, l.kind = .write p) →
    (r.table.restarting = true → ∀ g e, l.owner = .host g → r.host g = some e →
      ∃ u, exec (.writeAccessComplete c b) s = .next u ∧ u.mir = r.mir ∧ u.notices = r.notices ∧
        u.table.answers = r.table.answers ∧
        ((∀ d, ∀ w ∈ q d, w.owner ≠ .host g) → u.host g = none) ∧
        ((∃ d, ∃ w ∈ q d, w.owner = .host g) →
          u.host g = some { e with done := e.done ++ [{ l with state := .done }] })) ∧
    ∀ n e, l.owner = .internal n → r.internal n = some e →
      ∃ u, exec (.writeAccessComplete c b) s = .next u ∧ u.table.answers = r.table.answers ∧
        ((∃ d, ∃ w ∈ q d, w.owner = .internal n) → u.mir = r.mir ∧ u.notices = r.notices ∧
          u.internal n = some { e with done := e.done ++ [{ l with state := .done }] }) ∧
        ((∀ d, ∀ w ∈ q d, w.owner ≠ .internal n) → u.internal n = none ∧
          ((∀ x, r.mir.rebuild = some x → ∀ p ∈ x.copies, p.1 ≠ n) →
            u.mir = r.mir ∧ u.notices = r.notices) ∧
          ∀ x, r.mir.rebuild = some x → (∃ p ∈ x.copies, p.1 = n) →
            let copies := x.copies.filter fun p => p.1 ≠ n
            let frontier := copies.foldl (fun f p => min f p.2) x.next
            (frontier ≠ 2 ^ 24 → u.notices = r.notices ∧
              u.mir = { r.mir with rebuild := some { x with copies := copies, frontier := frontier } }) ∧
            (frontier = 2 ^ 24 →
              u.mir =
                { (r.mir.setHealth x.target .inService).setUnc x.target 0 with rebuild := none } ∧
              u.notices =
                (if masked r.conf.noticeMask .rebuildDone = true then r.notices
                 else noticesPost .rebuildDone (some x.target) .nothing r.notices)))

/-! ### Maintenance and the decision -/

/-- The ends of a sweep, a short trim and a long trim (R70, R74, R87, R89, R95, R112, R202): every bank
CLOSED and reopenable, the debt one less after a sweep, the waiters of a trim answered OK once no channel
still has them waiting (several in a free order, log 6), and after the long trim the channel ACTIVE with
its refresh timer armed and READY posted when the other channel has left STARTING too. -/
def Obligations.MaintenanceEnds : Prop :=
  ∀ (s : State) (c : Chan) (m : Nat),
    let r := s.atMoment m
    let x := r.ch c
    let banks : Vector Bank 16 :=
      x.ctl.banks.map fun y =>
        { y with state := .closed, openRow := none, reopenable := true, closable := false, access := none,
                 idleClose := .stopped }
    let due : List QueueItem :=
      (x.refr.runningWaiters.filter fun g =>
        decide (g ∉ (r.ch c.other).refr.owedWaiters ++ (r.ch c.other).refr.runningWaiters)).map
          fun g => .answer { kind := 8, tag := g, status := .ok, extra := .nothing }
    (s.expires (fun y => (y.ch c).ctl.sweepTimer) m = true →
      exec (.sweepEnd c) s =
        .next
          (((r.setCh c { x with
              ctl := { x.ctl with banks := banks, sweepTimer := none }
              refr := { x.refr with debt := x.refr.debt - 1, sweeping := false } }).recompute
            c).callDecision c).conclude) ∧
    (s.expires (fun y => (y.ch c).ctl.shortTrimTimer) m = true → r.tagsOk = true →
      ∃ u answers, exec (.shortTrimEnd c) s = .next u ∧ u.table.answers = r.table.answers ++ answers ∧
        answers.Perm due ∧ u.mem = r.mem ∧ (u.ch c).ctl.banks = banks ∧
        (u.ch c).ctl.shortTrimTimer = none ∧ (u.ch c).ctl.due = true ∧ (u.ch c).refr.trimming = .none ∧
        (u.ch c).refr.runningWaiters = [] ∧ (u.ch c).refr.owedWaiters = x.refr.owedWaiters ∧
        (u.ch c).refr.trimOwed = x.refr.trimOwed ∧ (u.ch c).refr.debt = x.refr.debt ∧
        (u.ch c.other).refr = (r.ch c.other).refr) ∧
    (s.expires (fun y => (y.ch c).ctl.longTrimTimer) m = true →
      ∃ u, exec (.longTrimEnd c) s = .next u ∧ u.mem = r.mem ∧ (u.ch c).ctl.banks = banks ∧
        (u.ch c).ctl.longTrimTimer = none ∧ (u.ch c).ctl.due = true ∧ (u.ch c).refr.trimming = .none ∧
        (u.ch c).pwr.state = .active ∧
        (u.ch c).refr.timer = some (r.clock + refreshInterval r.therm.zone) ∧
        ((r.ch c.other).pwr.state ≠ .starting → r.table.ready = false →
          u.table.ready = true ∧
          u.notices =
            (if masked r.conf.noticeMask .ready = true then r.notices
             else noticesPost .ready none .nothing r.notices)) ∧
        ((r.ch c.other).pwr.state = .starting ∨ r.table.ready = true →
          u.table.ready = r.table.ready ∧ u.notices = r.notices))

/-- What a scheduling decision starts is allowed by the state: decisions are made in ACTIVE and
RETAIN_ENTRY with no maintenance in progress (R54); an issue needs an eligible leg, its row open and the
path free (R51, R55); an open, a bank that is CLOSED and reopenable and room in the opening record (R46,
R49); a close, a bank that is OPEN, closable and without access (R48); a sweep or trim, every bank CLOSED and
the path free (R69); and under the maintenance gate nothing is issued or opened (R67). And what a decision
must start, the first step of R56 that can: under the gate a close of any bank that can close, then with every
bank CLOSED and the path free an urgent sweep before a trim before any other sweep (R86); under the starvation
restriction only what serves the oldest leg (R57); else the issue of the first eligible row hit (R58), the open
for the first eligible leg whose bank is CLOSED and reopenable (R59), the close for the first eligible leg whose
bank is open on another row and not wanted for its own, a close of a bank whose idle close is DUE (R60); and
nothing when no step can start anything. -/
def Obligations.DecisionStartsWhatIsAllowed : Prop :=
  (∀ (x : Channel) (restarting : Bool) (limit : Nat) (op : Operation), x.nextOp restarting limit = some op →
    let gate := x.refr.demand ≠ .none ∨ x.refr.trimOwed = true ∨ x.pwr.state = .retainEntry ∨
      restarting = true
    (x.pwr.state = .active ∨ x.pwr.state = .retainEntry) ∧ x.refr.sweeping = false ∧
    x.refr.trimming = .none ∧
    match op with
    | .issue i =>
      ¬gate ∧ x.ctl.pathBusy = false ∧
        ∃ l ∈ x.ctl.queue, l.id = i ∧ l.state = .waiting ∧
          (x.ctl.bank l.loc.bank).access = none ∧ (x.ctl.bank l.loc.bank).state = .opened ∧
          (x.ctl.bank l.loc.bank).openRow = some l.loc.row ∧
          ∀ w ∈ x.ctl.queue.takeWhile (fun w => w.id ≠ i), w.loc ≠ l.loc
    | .openBank b row =>
      ¬gate ∧ (x.ctl.bank b).state = .closed ∧ (x.ctl.bank b).reopenable = true ∧
        x.ctl.openings.length < 6 ∧ x.ctl.openSpacing = none ∧
        ∃ l ∈ x.ctl.queue, l.loc.bank = b ∧ l.loc.row = row
    | .closeBank b =>
      (x.ctl.bank b).state = .opened ∧ (x.ctl.bank b).closable = true ∧ (x.ctl.bank b).access = none
    | .sweep => gate ∧ x.refr.demand ≠ .none ∧ x.ctl.pathBusy = false ∧ ∀ b, (x.ctl.bank b).state = .closed
    | .shortTrim =>
      gate ∧ x.refr.trimOwed = true ∧ x.refr.demand ≠ .urgent ∧ x.ctl.pathBusy = false ∧
        ∀ b, (x.ctl.bank b).state = .closed) ∧
  ∀ (x : Channel) (restarting : Bool) (limit : Nat),
    let k := x.ctl
    let next := x.nextOp restarting limit
    let decides := (x.pwr.state = .active ∨ x.pwr.state = .retainEntry) ∧ x.refr.sweeping = false ∧
      x.refr.trimming = .none
    let gate := x.refr.demand ≠ .none ∨ x.refr.trimOwed = true ∨ x.pwr.state = .retainEntry ∨
      restarting = true
    let eligible (l : Leg) : Prop := l.state = .waiting ∧ (k.bank l.loc.bank).access = none ∧
      ∀ w ∈ k.queue.takeWhile (fun w => w.id ≠ l.id), w.loc ≠ l.loc
    let hit (l : Leg) : Prop := (k.bank l.loc.bank).state = .opened ∧
      (k.bank l.loc.bank).openRow = some l.loc.row
    let miss (l : Leg) : Prop := (k.bank l.loc.bank).state = .opened ∧
      (k.bank l.loc.bank).openRow ≠ some l.loc.row
    let reopens (b : BankNo) : Prop := (k.bank b).state = .closed ∧ (k.bank b).reopenable = true
    let closes (b : BankNo) : Prop := (k.bank b).state = .opened ∧ (k.bank b).closable = true ∧
      (k.bank b).access = none
    let room := k.openings.length < 6 ∧ k.openSpacing = none
    let wanted (b : BankNo) : Prop :=
      ∃ w ∈ k.queue, w.loc.bank = b ∧ eligible w ∧ (k.bank b).openRow = some w.loc.row
    let first (p : Leg → Prop) (l : Leg) : Prop :=
      p l ∧ ∃ front rest, k.queue = front ++ l :: rest ∧ ∀ w ∈ front, ¬p w
    let issues (l : Leg) : Prop := eligible l ∧ hit l
    let opens (l : Leg) : Prop := eligible l ∧ reopens l.loc.bank
    let makesWay (l : Leg) : Prop := eligible l ∧ miss l ∧ closes l.loc.bank ∧ ¬wanted l.loc.bank
    let byPolicy (b : BankNo) : Prop := closes b ∧ (k.bank b).idleClose = .due
    (¬decides → next = none) ∧
    (decides → gate →
      ((∃ b, closes b) → ∃ b, next = some (.closeBank b) ∧ closes b) ∧
      ((∀ b, ¬closes b) → ((∃ b, (k.bank b).state ≠ .closed) ∨ k.pathBusy = true) → next = none) ∧
      ((∀ b, (k.bank b).state = .closed) → k.pathBusy = false →
        (x.refr.demand = .urgent → next = some .sweep) ∧
        (x.refr.demand ≠ .urgent → x.refr.trimOwed = true → next = some .shortTrim) ∧
        (x.refr.demand ≠ .urgent → x.refr.trimOwed = false → x.refr.demand ≠ .none → next = some .sweep) ∧
        (x.refr.demand = .none → x.refr.trimOwed = false → next = none))) ∧
    (decides → ¬gate → limit ≤ k.passed → ∀ l, k.oldest = some l.id → findLeg l.id k.queue = some l →
      let serves := issues l ∧ k.pathBusy = false
      let opensIt := reopens l.loc.bank ∧ room
      (serves → next = some (.issue l.id)) ∧
      (¬serves → opensIt → next = some (.openBank l.loc.bank l.loc.row)) ∧
      (¬serves → ¬opensIt → miss l ∧ closes l.loc.bank → next = some (.closeBank l.loc.bank)) ∧
      (¬serves → ¬opensIt → ¬(miss l ∧ closes l.loc.bank) → next = none)) ∧
    (decides → ¬gate → (k.passed < limit ∨ k.oldest = none) →
      (∀ l, first issues l → k.pathBusy = false → next = some (.issue l.id)) ∧
      ((k.pathBusy = true ∨ ∀ l ∈ k.queue, ¬issues l) →
        (∀ l, first opens l → room → next = some (.openBank l.loc.bank l.loc.row)) ∧
        ((¬room ∨ ∀ l ∈ k.queue, ¬opens l) →
          (∀ l, first makesWay l → next = some (.closeBank l.loc.bank)) ∧
          ((∀ l ∈ k.queue, ¬makesWay l) →
            ((∃ b, byPolicy b) → ∃ b, next = some (.closeBank b) ∧ byPolicy b) ∧
            ((∀ b, ¬byPolicy b) → next = none)))))

/-- The operations of a decision as they begin (R46, R48, R51, R57, R69, R87, R89), each by its own row when
the decision of the present event starts it next. Nothing outside the channel's blocks changes. -/
def Obligations.OperationsBegin : Prop :=
  ∀ (s : State) (c : Chan),
    let x := s.ch c
    let k := x.ctl
    let now := s.clock
    let becomes (y : Channel) : Host.Outcome State Fault Refusal := .next (s.setCh c y).conclude
    let maintaining : Vector Bank 16 :=
      k.banks.map fun y =>
        { y with state := .maintaining, idleClose := .stopped, minimumOpen := none, rowCycle := none,
                 writeRecovery := none }
    (∀ i l, s.starts c (.issue i) = true → findLeg i k.queue = some l →
      let queue := k.queue.map fun w => if w.id = i then { w with state := .issued } else w
      let passed := if k.oldest = some i then k.passed else k.passed + 1
      let same : Bool := decide (oldestOf queue = k.oldest)
      let y := k.bank l.loc.bank
      exec (.issueAccess c) s =
        becomes
          { x with ctl := { k with
            queue := queue
            pathBusy := true
            oldest := oldestOf queue
            passed := if same = true then passed else 0
            banks := k.banks.set l.loc.bank
              { y with
                access := some i
                readAccess :=
                  match l.kind with
                  | .read => some (now + (match l.size with | .line => 180 | .half => 160))
                  | .fetch => some (now + 180)
                  | .write _ => y.readAccess
                writeAccess :=
                  match l.kind with
                  | .write _ => some (now + (match l.size with | .line => 100 | .half => 80))
                  | .read | .fetch => y.writeAccess } } }) ∧
    (∀ b row, s.starts c (.openBank b row) = true →
      exec (.openBegin c) s =
        becomes
          { x with ctl := { k with
            openings := k.openings ++ [now]
            openSpacing := some (now + 50)
            banks := k.banks.set b
              { k.bank b with
                state := .opening, openRow := some row, closable := false, reopenable := false,
                idleClose := .stopped, openSettle := some (now + 140), minimumOpen := some (now + 340),
                rowCycle := some (now + 480) } } }) ∧
    (∀ b, s.starts c (.closeBank b) = true →
      exec (.closeBegin c) s =
        becomes
          { x with ctl := { k with
            banks := k.banks.set b
              { k.bank b with
                state := .closing, idleClose := .stopped, closeTimer := some (now + 140) } } }) ∧
    (s.starts c .sweep = true →
      exec (.sweepBegin c) s =
        becomes
          { x with
            ctl := { k with banks := maintaining, sweepTimer := some (now + 3000) }
            refr := { x.refr with sweeping := true, demand := .none } }) ∧
    (s.starts c .shortTrim = true →
      exec (.shortTrimBegin c) s =
        becomes
          { x with
            ctl := { k with banks := maintaining, shortTrimTimer := some (now + 960) }
            refr := { x.refr with
              trimOwed := false, trimming := .short,
              runningWaiters := x.refr.runningWaiters ++ x.refr.owedWaiters, owedWaiters := [] } })

/-- The expiries of the refresh timer and of power control's timers (R79, R92, R113, R114, R116, R117, R122):
the debt and the wake, NAP, the way toward retention, and the exits to ACTIVE or RETAIN_ENTRY. A pending POWER
ACTIVE is reached at an exit's end, and a pending POWER RETAIN where the entry completes at once: the record
is cleared, and the request is answered OK unless the other channel still has it pending (R116, R122, R124,
R127). The refresh interval of each zone, in tenths of a nanosecond, is that of R78. -/
def Obligations.RefreshAndPowerTimersExpire : Prop :=
  (refreshInterval .normal = 64000 ∧ refreshInterval .warm = 32000 ∧ refreshInterval .hot = 16000 ∧
    refreshInterval .critical = 16000) ∧
  ∀ (s : State) (c : Chan) (m : Nat),
    let r := s.atMoment m
    let x := r.ch c
    let reached (p : PendingPower) (u : State) : Prop :=
      (u.ch c).pwr.pendingPower = none ∧
        (((r.ch c.other).pwr.pendingPower.map (·.tag)) = some p.tag → u.table.answers = r.table.answers) ∧
        (((r.ch c.other).pwr.pendingPower.map (·.tag)) ≠ some p.tag →
          u.table.answers =
            r.table.answers ++ [.answer { kind := 7, tag := p.tag, status := .ok, extra := .nothing }])
    (s.expires (fun y => (y.ch c).refr.timer) m = true → x.refr.debt ≤ 7 →
      ∃ u, exec (.refreshTimerExpiry c) s = .next u ∧ u.mem = r.mem ∧ u.table = r.table ∧
        (u.ch c).refr.debt = min (x.refr.debt + 1) 7 ∧
        (u.ch c).refr.timer = some (r.clock + refreshInterval r.therm.zone) ∧
        (u.ch c).pwr.state =
          (if x.pwr.state = .nap ∧ 4 ≤ min (x.refr.debt + 1) 7 then .napExit else x.pwr.state) ∧
        (u.ch c).ctl.queue = x.ctl.queue ∧ (u.ch c.other).refr = (r.ch c.other).refr) ∧
    (s.expires (fun y => (y.ch c).pwr.napIdle) m = true →
      ∃ u, exec (.napIdleExpiry c) s = .next u ∧ u.mem = r.mem ∧ u.table = r.table ∧
        (u.ch c).pwr.state = .nap ∧ (u.ch c).pwr.napIdle = none ∧
        (u.ch c).pwr.retainIdle =
          (if r.conf.retainIdle = 0 then none else some (r.clock + 10000 * r.conf.retainIdle)) ∧
        (u.ch c).ctl.queue = x.ctl.queue ∧
        ∀ b, (u.bank c b).state = (r.bank c b).state ∧ (u.bank c b).idleClose =
          (match (r.bank c b).idleClose with
           | .running _ => .stopped
           | y => y)) ∧
    (s.expires (fun y => (y.ch c).pwr.retainIdle) m = true →
      let barred := r.therm.zone = .hot ∨ r.therm.zone = .critical ∨ r.mir.rebuild ≠ none ∨
        r.table.restarting = true
      ∃ u, exec (.retainIdleExpiry c) s = .next u ∧ u.mem = r.mem ∧ u.table = r.table ∧
        (u.ch c).pwr.retainIdle = none ∧
        (barred → (u.ch c).pwr.state = x.pwr.state) ∧
        (¬barred → (u.ch c).pwr.state = .napExit ∧ (u.ch c).pwr.onward = true ∧
          (u.ch c).pwr.exit = .nap (r.clock + 240))) ∧
    (s.expires (fun y => (y.ch c).pwr.exit.napTimer) m = true →
      ∃ u, exec (.napExitExpiry c) s = .next u ∧ u.mem = r.mem ∧ (u.ch c).pwr.exit = .stopped ∧
        (u.ch c).ctl.queue = x.ctl.queue ∧ (u.ch c).ctl.due = true ∧
        (x.pwr.onward = false → (u.ch c).pwr.state = .active ∧
          (∀ b, (u.bank c b) =
            { r.bank c b with
              idleClose := judgedIdleClose r.conf r.clock x.ctl.queue b (r.bank c b) }) ∧
          ∀ p, r.tagsOk = true → x.pwr.pendingPower = some p → p.toRetain = false → reached p u) ∧
        (x.pwr.onward = true → (u.ch c).pwr.onward = false ∧
          ((u.ch c).pwr.state = .retainEntry ∨
            ((u.ch c).pwr.state = .retain ∧ (u.ch c).ctl.queue = [] ∧
              ∀ b, (u.bank c b).state = .closed)) ∧
          ∀ p, r.tagsOk = true → x.pwr.pendingPower = some p → p.toRetain = true →
            ((u.ch c).pwr.state = .retain → reached p u) ∧
            ((u.ch c).pwr.state = .retainEntry →
              (u.ch c).pwr.pendingPower = some p ∧ u.table.answers = r.table.answers))) ∧
    (s.expires (fun y => (y.ch c).pwr.exit.retainTimer) m = true →
      ∃ u, exec (.retainExitExpiry c) s = .next u ∧ u.mem = r.mem ∧ (u.ch c).pwr.exit = .stopped ∧
        (u.ch c).pwr.state = .active ∧
        (u.ch c).refr.timer = some (r.clock + refreshInterval r.therm.zone) ∧
        (u.ch c).ctl.queue = x.ctl.queue ∧ (u.ch c).ctl.due = true ∧
        ∀ p, r.tagsOk = true → x.pwr.pendingPower = some p → p.toRetain = false → reached p u)

/-- The work that the part ends by rows of its own (log 3): RETAIN_ENTRY completes (R119, R93, R127), the active
barrier is answered and held entries are released (R32, R33), a copy starts in the lowest FREE internal entry
(R37, R147; that it is the lowest is the model's choice, log 10), a RESTART ends (R208). Release takes entries
from the head, in order, until a released BAR stands or the queue is empty, and leaves the rest HELD. For one
held entry of each kind, its checks run as at admission, with its own arrival number: RD and WR make their legs
(R173, R174), a SET writes (R178), a PWR acts (R124 to R126), a TRIM owes (R90), an SVC OUT degrades (R142), an SVC
IN starts a rebuild (R145, R147), a BAR is answered or stands (R32). That the copies of that rebuild start before
anything else is done, and that the SVC IN's OK stands ahead of what they lead to, is the model's choice (log 17,
DEDUCED; R145 names the copies before the OK and gives no order). When RETAIN_ENTRY is complete (R119), when
copies start (R147) and when the barrier is answered (R32) is spelled out. -/
def Obligations.WorkOfTheEventEnds : Prop :=
  (∀ x : Channel, x.retainReady = true ↔
    x.pwr.state = .retainEntry ∧ x.ctl.queue = [] ∧ (∀ b, (x.ctl.bank b).state = .closed) ∧
      x.ctl.pathBusy = false ∧ x.refr.demand = .none ∧ x.refr.sweeping = false ∧
      x.refr.trimOwed = false ∧ x.refr.trimming = .none) ∧
  (∀ s : State, s.canStartCopy = true ↔
    ∃ x, s.mir.rebuild = some x ∧ x.copies.length < s.conf.rebuildDepth ∧ (∃ n, s.internal n = none) ∧
      s.therm.zone ≠ .critical ∧ x.next < 2 ^ 24 ∧ s.table.restarting = false) ∧
  (∀ s : State, s.barrierReady = true ↔
    ∃ g e, s.table.barrier = some g ∧ s.host g = some e ∧
      ∀ o x, s.host o = some x → x.age < e.age → x.state = .answered) ∧
  (∀ s : State, s.decisionsTurn = true ↔ s.barrierReady = false ∧ s.canStartCopy = false) ∧
  ∀ s : State, s.live = true →
    (∀ c, s.decisionsTurn = true → s.decisionOp c = none → (s.ch c).retainReady = true →
      ∃ u, exec (.retainEntryComplete c) s = .next u ∧ u.mem = s.mem ∧
        (u.ch c).pwr.state = .retain ∧ (u.ch c).refr.timer = none ∧ (u.ch c).refr.debt = (s.ch c).refr.debt ∧
        (u.ch c.other).pwr.state = (s.ch c.other).pwr.state ∧
        ∀ g, s.tagsOk = true →
          (s.ch c).pwr.pendingPower = some { tag := g, toRetain := true, both := false } →
          ((s.ch c.other).pwr.pendingPower.map (·.tag)) ≠ some g →
          (u.ch c).pwr.pendingPower = none ∧
          u.table.answers =
            s.table.answers ++ [.answer { kind := 7, tag := g, status := .ok, extra := .nothing }]) ∧
    (∀ c p, s.decisionsTurn = true → s.decisionOp c = none → (s.ch c).retainReady = true → s.tagsOk = true →
      (s.ch c).pwr.pendingPower = some p → p.toRetain = true →
      ∃ u, exec (.retainEntryComplete c) s = .next u ∧ (u.ch c).pwr.pendingPower = none ∧
        (u.ch c.other).pwr.pendingPower = (s.ch c.other).pwr.pendingPower ∧
        (((s.ch c.other).pwr.pendingPower.map (·.tag)) = some p.tag →
          u.table.answers = s.table.answers) ∧
        (((s.ch c.other).pwr.pendingPower.map (·.tag)) ≠ some p.tag →
          u.table.answers =
            s.table.answers ++ [.answer { kind := 7, tag := p.tag, status := .ok, extra := .nothing }])) ∧
    (∀ g, s.barrierReady = true → s.table.barrier = some g → s.tagsOk = true →
      ∃ u others, exec .barrierAnswered s = .next u ∧ u.mem = s.mem ∧
        u.table.answers =
          s.table.answers ++ .answer { kind := 3, tag := g, status := .ok, extra := .nothing } :: others ∧
        (s.table.holdQueue = [] → others = [] ∧ u.table.barrier = none ∧ u.table.holdQueue = []) ∧
        (u.table.barrier = none → u.table.holdQueue = []) ∧
        ∃ k, k ≤ s.table.holdQueue.length ∧ u.table.holdQueue = s.table.holdQueue.drop k ∧
          (∀ n, u.table.barrier = some n → 1 ≤ k ∧ s.table.holdQueue[k - 1]? = some n) ∧
          (∀ o ∈ s.table.holdQueue.drop k, u.host o = s.host o) ∧
          ∀ o ∈ s.table.holdQueue.take k, ∃ e e', s.host o = some e ∧ u.host o = some e' ∧ e'.age = e.age ∧
            e'.req = e.req ∧ (e'.state = .active ∨ e'.state = .answered)) ∧
    (∀ g o e, s.barrierReady = true → s.table.barrier = some g → s.tagsOk = true → s.mir.ok →
      s.canStartCopy = false → s.table.holdQueue = [o] → s.host o = some e →
      let first := s.table.answers ++ [.answer { kind := 3, tag := g, status := .ok, extra := .nothing }]
      let answered (st : Status) : List QueueItem :=
        first ++ [.answer { kind := reqCode e.req, tag := o, status := st, extra := e.extra st }]
      let leg (no : Nat) (k : LegKind) (z : Size) (loc : Loc) (st : LegState) (store : Store) : Leg :=
        { owner := .host o, no := e.legsMade + no, age := e.age, kind := k, size := z, loc := loc, state := st,
          store := store, recovery := false }
      ∃ u, exec .barrierAnswered s = .next u ∧ u.mem = s.mem ∧ u.canStartCopy = false ∧
        (∀ z a, e.req = .rd z a →
          (∀ st, s.memoryRefusal z a = some st → u.table.answers = answered st) ∧
          (s.memoryRefusal z a = none →
            let d := decodeAddr s.mir.mode a
            let home := d.chan.getD s.chooseChannel.1
            (u.host o).map (·.state) = some .active ∧
            (u.ch home).ctl.queue = insertLeg (leg 0 .read z d.loc .waiting .absent) (s.ch home).ctl.queue ∧
            (u.ch home.other).ctl.queue = (s.ch home.other).ctl.queue)) ∧
        (∀ z fm a data, e.req = .wr z fm a data →
          (∀ st, s.memoryRefusal z a = some st → u.table.answers = answered st) ∧
          (s.memoryRefusal z a = none →
            let d := decodeAddr s.mir.mode a
            let home := d.chan.getD s.chooseChannel.1
            let stores (c : Chan) : Bool :=
              match s.mir.mode with
              | .split => decide (d.chan = some c)
              | .mirror => s.mir.health c == .inService || s.mir.health c == .rebuilding
            let write (no : Nat) : Leg := leg no (.write .host) z d.loc .blocked .absent
            (u.host o).map (·.state) = some .active ∧
            (fullWrite z fm = true → ∀ c,
              (u.ch c).ctl.queue =
                if stores c = true then
                  insertLeg
                    (leg (if c = .b ∧ stores .a = true then 1 else 0) (.write .host) .line d.loc .waiting
                      (.line data))
                    (s.ch c).ctl.queue
                else (s.ch c).ctl.queue) ∧
            (fullWrite z fm = false →
              (u.ch home).ctl.queue =
                insertLeg (write 1) (insertLeg (leg 0 .fetch .line d.loc .waiting .absent)
                  (s.ch home).ctl.queue) ∧
              (u.ch home.other).ctl.queue =
                if stores home.other = true then insertLeg (write 2) (s.ch home.other).ctl.queue
                else (s.ch home.other).ctl.queue))) ∧
        (∀ id v, e.req = .setParam id v → 2 ≤ id.toNat → paramInRange id v = true →
          u.conf = s.conf.write id v ∧ (id ≠ 14 → u.table.answers = answered .ok)) ∧
        (∀ c target, e.req = .pwr (.one c) target →
          (∀ st, s.powerRefusal c target = some st →
            u.table.answers = answered st ∧ (u.ch c).pwr.state = (s.ch c).pwr.state) ∧
          (s.powerRefusal c target = none →
            (target = .nap → u.table.answers = answered .ok ∧ (u.ch c).pwr.state = .nap) ∧
            (target = .active → (u.ch c).pwr.state =
              (match (s.ch c).pwr.state with
               | .nap => .napExit
               | .retainEntry => .active
               | .retain => .retainExit
               | y => y)) ∧
            (target = .retain → (s.ch c).pwr.state = .active →
              (u.ch c).pwr.state = .retainEntry ∧ u.table.answers = first ∨
              (u.ch c).pwr.state = .retain ∧ u.table.answers = answered .ok))) ∧
        (∀ sel, e.req = .trim sel →
          ((∃ c, sel.names c = true ∧ (s.ch c).pwr.state = .starting) → u.table.answers = answered .busy) ∧
          ((∀ c, sel.names c = true → (s.ch c).pwr.state ≠ .starting) →
            u.table.answers = first ∧ ∀ c, sel.names c = true →
              (u.ch c).refr.trimOwed = true ∧ (u.ch c).refr.owedWaiters = (s.ch c).refr.owedWaiters ++ [o])) ∧
        (∀ c act, e.req = .svc c act → s.mir.mode = .split → u.table.answers = answered .mode) ∧
        (∀ c, e.req = .svc c .takeOut → s.mir.mode = .mirror → (s.ch c).pwr.state ≠ .starting →
          s.mir.health c = .inService → s.mir.health c.other = .inService →
          u.mir = s.mir.setHealth c .degraded ∧ ∃ others, u.table.answers =
            first ++ others ++ [.answer { kind := 9, tag := o, status := .ok, extra := .nothing }]) ∧
        (∀ c, e.req = .svc c .takeIn → s.mir.mode = .mirror → s.chA.pwr.state ≠ .starting →
          s.chB.pwr.state ≠ .starting → s.mir.health c = .degraded →
          u.mir.health c = .rebuilding ∧ (∃ others, u.table.answers = answered .ok ++ others) ∧
          ∃ x, u.mir.rebuild = some x ∧ x.target = c ∧ x.next = x.copies.length) ∧
        (e.req = .bar →
          let clear := ∀ v y, v ≠ o → v ≠ g → s.host v = some y → y.age < e.age → y.state = .answered
          (clear → u.table.barrier = none ∧ u.table.answers = answered .ok) ∧
          (¬clear → u.table.barrier = some o ∧ u.table.answers = first))) ∧
    (∀ x n, s.barrierReady = false → s.canStartCopy = true → s.mir.rebuild = some x →
      s.freeInternal = some n →
      let loc := locOfLine x.next
      let leg (no : Nat) (k : LegKind) (st : LegState) : Leg :=
        { owner := .internal n, no := no, age := s.table.arrivals, kind := k, size := .line, loc := loc,
          state := st, store := .absent, recovery := false }
      ∃ u, exec .copyStart s = .next u ∧ u.mem = s.mem ∧ u.table.arrivals = s.table.arrivals + 1 ∧
        s.internal n = none ∧ (u.internal n).map (·.line) = some x.next ∧
        u.mir.rebuild =
          some { x with next := x.next + 1, copies := x.copies ++ [(n, x.next)],
                        frontier := frontierOf (x.next + 1) (x.copies ++ [(n, x.next)]) } ∧
        (u.ch x.target.other).ctl.queue =
          insertLeg (leg 0 .fetch .waiting) (s.ch x.target.other).ctl.queue ∧
        (u.ch x.target).ctl.queue =
          insertLeg (leg 1 (.write .copy) .blocked) (s.ch x.target).ctl.queue) ∧
    (s.nextWork = some .restartEnd →
      ∃ u, exec .restartEnd s = .next u ∧ u.mem = s.mem ∧ u.conf = Settings.powerOn ∧
        u.mir = { s.mir with uncA := 0, uncB := 0, toggle := .a } ∧ u.notices = [] ∧
        u.table.restarting = false ∧ u.table.ready = s.table.ready ∧ u.therm = s.therm ∧
        u.link.answersSinceNotice = 0 ∧
        (∀ g, s.restartTag = some g →
          u.table.answers =
            s.table.answers ++ [.answer { kind := 11, tag := g, status := .ok, extra := .nothing }]) ∧
        ∀ c, (u.ch c).ctl.due = true ∧ (u.ch c).ctl.queue = (s.ch c).ctl.queue ∧
          (u.ch c).pwr.state = (s.ch c).pwr.state ∧ (u.ch c).refr.debt = (s.ch c).refr.debt)

end Statements
end

