-- ==== Sys2Proof/Laws/State.lean ====
section
/-! SUPPORT. One lemma per field per update of `State` and of the blocks of a channel, so that no proof
unfolds a record update; reading a channel, a bank or an entry after each update. -/

namespace Sys2Proof.Machine
open Sys2Proof

@[simp] theorem Chan.other_other (c : Chan) : c.other.other = c := by cases c <;> rfl
@[simp] theorem Chan.other_ne (c : Chan) : c.other ≠ c := by cases c <;> decide
@[simp] theorem Chan.ne_other (c : Chan) : c ≠ c.other := by cases c <;> decide

theorem Chan.eq_or_other (c d : Chan) : d = c ∨ d = c.other := by cases c <;> cases d <;> decide

/-! ### The channels -/

@[simp] theorem State.ch_a (s : State) : s.ch .a = s.chA := rfl
@[simp] theorem State.ch_b (s : State) : s.ch .b = s.chB := rfl

@[simp] theorem State.ch_setCh_self (s : State) (c : Chan) (x : Channel) : (s.setCh c x).ch c = x := by
  cases c <;> rfl

@[simp] theorem State.ch_setCh_other (s : State) (c : Chan) (x : Channel) :
    (s.setCh c x).ch c.other = s.ch c.other := by
  cases c <;> rfl

theorem State.ch_setCh_ne {c d : Chan} (h : d ≠ c) (s : State) (x : Channel) :
    (s.setCh c x).ch d = s.ch d := by
  cases c <;> cases d <;> first | rfl | exact absurd rfl h

theorem State.ch_setCh (s : State) (c d : Chan) (x : Channel) :
    (s.setCh c x).ch d = if d = c then x else s.ch d := by
  cases c <;> cases d <;> rfl

@[simp] theorem State.clock_setCh (s : State) (c : Chan) (x : Channel) : (s.setCh c x).clock = s.clock := by cases c <;> rfl
@[simp] theorem State.powered_setCh (s : State) (c : Chan) (x : Channel) : (s.setCh c x).powered = s.powered := by cases c <;> rfl
@[simp] theorem State.pinHeld_setCh (s : State) (c : Chan) (x : Channel) : (s.setCh c x).pinHeld = s.pinHeld := by cases c <;> rfl
@[simp] theorem State.mem_setCh (s : State) (c : Chan) (x : Channel) : (s.setCh c x).mem = s.mem := by cases c <;> rfl
@[simp] theorem State.table_setCh (s : State) (c : Chan) (x : Channel) : (s.setCh c x).table = s.table := by cases c <;> rfl
@[simp] theorem State.therm_setCh (s : State) (c : Chan) (x : Channel) : (s.setCh c x).therm = s.therm := by cases c <;> rfl
@[simp] theorem State.mir_setCh (s : State) (c : Chan) (x : Channel) : (s.setCh c x).mir = s.mir := by cases c <;> rfl
@[simp] theorem State.notices_setCh (s : State) (c : Chan) (x : Channel) : (s.setCh c x).notices = s.notices := by cases c <;> rfl
@[simp] theorem State.conf_setCh (s : State) (c : Chan) (x : Channel) : (s.setCh c x).conf = s.conf := by cases c <;> rfl
@[simp] theorem State.link_setCh (s : State) (c : Chan) (x : Channel) : (s.setCh c x).link = s.link := by cases c <;> rfl
@[simp] theorem State.draws_setCh (s : State) (c : Chan) (x : Channel) : (s.setCh c x).draws = s.draws := by cases c <;> rfl
@[simp] theorem State.judgements_setCh (s : State) (c : Chan) (x : Channel) : (s.setCh c x).judgements = s.judgements := by cases c <;> rfl
@[simp] theorem State.pending_setCh (s : State) (c : Chan) (x : Channel) : (s.setCh c x).pending = s.pending := by cases c <;> rfl

@[simp] theorem State.clock_modCtl (s : State) (c : Chan) (f : Control → Control) : (s.modCtl c f).clock = s.clock := by cases c <;> rfl
@[simp] theorem State.powered_modCtl (s : State) (c : Chan) (f : Control → Control) : (s.modCtl c f).powered = s.powered := by cases c <;> rfl
@[simp] theorem State.pinHeld_modCtl (s : State) (c : Chan) (f : Control → Control) : (s.modCtl c f).pinHeld = s.pinHeld := by cases c <;> rfl
@[simp] theorem State.mem_modCtl (s : State) (c : Chan) (f : Control → Control) : (s.modCtl c f).mem = s.mem := by cases c <;> rfl
@[simp] theorem State.table_modCtl (s : State) (c : Chan) (f : Control → Control) : (s.modCtl c f).table = s.table := by cases c <;> rfl
@[simp] theorem State.therm_modCtl (s : State) (c : Chan) (f : Control → Control) : (s.modCtl c f).therm = s.therm := by cases c <;> rfl
@[simp] theorem State.mir_modCtl (s : State) (c : Chan) (f : Control → Control) : (s.modCtl c f).mir = s.mir := by cases c <;> rfl
@[simp] theorem State.notices_modCtl (s : State) (c : Chan) (f : Control → Control) : (s.modCtl c f).notices = s.notices := by cases c <;> rfl
@[simp] theorem State.conf_modCtl (s : State) (c : Chan) (f : Control → Control) : (s.modCtl c f).conf = s.conf := by cases c <;> rfl
@[simp] theorem State.link_modCtl (s : State) (c : Chan) (f : Control → Control) : (s.modCtl c f).link = s.link := by cases c <;> rfl
@[simp] theorem State.draws_modCtl (s : State) (c : Chan) (f : Control → Control) : (s.modCtl c f).draws = s.draws := by cases c <;> rfl
@[simp] theorem State.judgements_modCtl (s : State) (c : Chan) (f : Control → Control) : (s.modCtl c f).judgements = s.judgements := by cases c <;> rfl
@[simp] theorem State.pending_modCtl (s : State) (c : Chan) (f : Control → Control) : (s.modCtl c f).pending = s.pending := by cases c <;> rfl

theorem State.ch_modCtl (s : State) (c d : Chan) (f : Control → Control) :
    (s.modCtl c f).ch d = if d = c then { s.ch c with ctl := f (s.ch c).ctl } else s.ch d := by
  cases c <;> cases d <;> rfl

@[simp] theorem State.ctl_modCtl_self (s : State) (c : Chan) (f : Control → Control) :
    ((s.modCtl c f).ch c).ctl = f (s.ch c).ctl := by
  cases c <;> rfl

@[simp] theorem State.ch_modCtl_other (s : State) (c : Chan) (f : Control → Control) :
    (s.modCtl c f).ch c.other = s.ch c.other := by
  cases c <;> rfl

@[simp] theorem State.refr_modCtl (s : State) (c d : Chan) (f : Control → Control) : ((s.modCtl c f).ch d).refr = (s.ch d).refr := by cases c <;> cases d <;> rfl
@[simp] theorem State.pwr_modCtl (s : State) (c d : Chan) (f : Control → Control) : ((s.modCtl c f).ch d).pwr = (s.ch d).pwr := by cases c <;> cases d <;> rfl

@[simp] theorem State.clock_modRefr (s : State) (c : Chan) (f : Refresh → Refresh) : (s.modRefr c f).clock = s.clock := by cases c <;> rfl
@[simp] theorem State.powered_modRefr (s : State) (c : Chan) (f : Refresh → Refresh) : (s.modRefr c f).powered = s.powered := by cases c <;> rfl
@[simp] theorem State.pinHeld_modRefr (s : State) (c : Chan) (f : Refresh → Refresh) : (s.modRefr c f).pinHeld = s.pinHeld := by cases c <;> rfl
@[simp] theorem State.mem_modRefr (s : State) (c : Chan) (f : Refresh → Refresh) : (s.modRefr c f).mem = s.mem := by cases c <;> rfl
@[simp] theorem State.table_modRefr (s : State) (c : Chan) (f : Refresh → Refresh) : (s.modRefr c f).table = s.table := by cases c <;> rfl
@[simp] theorem State.therm_modRefr (s : State) (c : Chan) (f : Refresh → Refresh) : (s.modRefr c f).therm = s.therm := by cases c <;> rfl
@[simp] theorem State.mir_modRefr (s : State) (c : Chan) (f : Refresh → Refresh) : (s.modRefr c f).mir = s.mir := by cases c <;> rfl
@[simp] theorem State.notices_modRefr (s : State) (c : Chan) (f : Refresh → Refresh) : (s.modRefr c f).notices = s.notices := by cases c <;> rfl
@[simp] theorem State.conf_modRefr (s : State) (c : Chan) (f : Refresh → Refresh) : (s.modRefr c f).conf = s.conf := by cases c <;> rfl
@[simp] theorem State.link_modRefr (s : State) (c : Chan) (f : Refresh → Refresh) : (s.modRefr c f).link = s.link := by cases c <;> rfl
@[simp] theorem State.draws_modRefr (s : State) (c : Chan) (f : Refresh → Refresh) : (s.modRefr c f).draws = s.draws := by cases c <;> rfl
@[simp] theorem State.judgements_modRefr (s : State) (c : Chan) (f : Refresh → Refresh) : (s.modRefr c f).judgements = s.judgements := by cases c <;> rfl
@[simp] theorem State.pending_modRefr (s : State) (c : Chan) (f : Refresh → Refresh) : (s.modRefr c f).pending = s.pending := by cases c <;> rfl

theorem State.ch_modRefr (s : State) (c d : Chan) (f : Refresh → Refresh) :
    (s.modRefr c f).ch d = if d = c then { s.ch c with refr := f (s.ch c).refr } else s.ch d := by
  cases c <;> cases d <;> rfl

@[simp] theorem State.refr_modRefr_self (s : State) (c : Chan) (f : Refresh → Refresh) :
    ((s.modRefr c f).ch c).refr = f (s.ch c).refr := by
  cases c <;> rfl

@[simp] theorem State.ch_modRefr_other (s : State) (c : Chan) (f : Refresh → Refresh) :
    (s.modRefr c f).ch c.other = s.ch c.other := by
  cases c <;> rfl

@[simp] theorem State.ctl_modRefr (s : State) (c d : Chan) (f : Refresh → Refresh) : ((s.modRefr c f).ch d).ctl = (s.ch d).ctl := by cases c <;> cases d <;> rfl
@[simp] theorem State.pwr_modRefr (s : State) (c d : Chan) (f : Refresh → Refresh) : ((s.modRefr c f).ch d).pwr = (s.ch d).pwr := by cases c <;> cases d <;> rfl

@[simp] theorem State.clock_modPwr (s : State) (c : Chan) (f : Power → Power) : (s.modPwr c f).clock = s.clock := by cases c <;> rfl
@[simp] theorem State.powered_modPwr (s : State) (c : Chan) (f : Power → Power) : (s.modPwr c f).powered = s.powered := by cases c <;> rfl
@[simp] theorem State.pinHeld_modPwr (s : State) (c : Chan) (f : Power → Power) : (s.modPwr c f).pinHeld = s.pinHeld := by cases c <;> rfl
@[simp] theorem State.mem_modPwr (s : State) (c : Chan) (f : Power → Power) : (s.modPwr c f).mem = s.mem := by cases c <;> rfl
@[simp] theorem State.table_modPwr (s : State) (c : Chan) (f : Power → Power) : (s.modPwr c f).table = s.table := by cases c <;> rfl
@[simp] theorem State.therm_modPwr (s : State) (c : Chan) (f : Power → Power) : (s.modPwr c f).therm = s.therm := by cases c <;> rfl
@[simp] theorem State.mir_modPwr (s : State) (c : Chan) (f : Power → Power) : (s.modPwr c f).mir = s.mir := by cases c <;> rfl
@[simp] theorem State.notices_modPwr (s : State) (c : Chan) (f : Power → Power) : (s.modPwr c f).notices = s.notices := by cases c <;> rfl
@[simp] theorem State.conf_modPwr (s : State) (c : Chan) (f : Power → Power) : (s.modPwr c f).conf = s.conf := by cases c <;> rfl
@[simp] theorem State.link_modPwr (s : State) (c : Chan) (f : Power → Power) : (s.modPwr c f).link = s.link := by cases c <;> rfl
@[simp] theorem State.draws_modPwr (s : State) (c : Chan) (f : Power → Power) : (s.modPwr c f).draws = s.draws := by cases c <;> rfl
@[simp] theorem State.judgements_modPwr (s : State) (c : Chan) (f : Power → Power) : (s.modPwr c f).judgements = s.judgements := by cases c <;> rfl
@[simp] theorem State.pending_modPwr (s : State) (c : Chan) (f : Power → Power) : (s.modPwr c f).pending = s.pending := by cases c <;> rfl

theorem State.ch_modPwr (s : State) (c d : Chan) (f : Power → Power) :
    (s.modPwr c f).ch d = if d = c then { s.ch c with pwr := f (s.ch c).pwr } else s.ch d := by
  cases c <;> cases d <;> rfl

@[simp] theorem State.pwr_modPwr_self (s : State) (c : Chan) (f : Power → Power) :
    ((s.modPwr c f).ch c).pwr = f (s.ch c).pwr := by
  cases c <;> rfl

@[simp] theorem State.ch_modPwr_other (s : State) (c : Chan) (f : Power → Power) :
    (s.modPwr c f).ch c.other = s.ch c.other := by
  cases c <;> rfl

@[simp] theorem State.ctl_modPwr (s : State) (c d : Chan) (f : Power → Power) : ((s.modPwr c f).ch d).ctl = (s.ch d).ctl := by cases c <;> cases d <;> rfl
@[simp] theorem State.refr_modPwr (s : State) (c d : Chan) (f : Power → Power) : ((s.modPwr c f).ch d).refr = (s.ch d).refr := by cases c <;> cases d <;> rfl

@[simp] theorem State.clock_modBank (s : State) (c : Chan) (b : BankNo) (f : Bank → Bank) : (s.modBank c b f).clock = s.clock := by cases c <;> rfl
@[simp] theorem State.powered_modBank (s : State) (c : Chan) (b : BankNo) (f : Bank → Bank) : (s.modBank c b f).powered = s.powered := by cases c <;> rfl
@[simp] theorem State.pinHeld_modBank (s : State) (c : Chan) (b : BankNo) (f : Bank → Bank) : (s.modBank c b f).pinHeld = s.pinHeld := by cases c <;> rfl
@[simp] theorem State.mem_modBank (s : State) (c : Chan) (b : BankNo) (f : Bank → Bank) : (s.modBank c b f).mem = s.mem := by cases c <;> rfl
@[simp] theorem State.table_modBank (s : State) (c : Chan) (b : BankNo) (f : Bank → Bank) : (s.modBank c b f).table = s.table := by cases c <;> rfl
@[simp] theorem State.therm_modBank (s : State) (c : Chan) (b : BankNo) (f : Bank → Bank) : (s.modBank c b f).therm = s.therm := by cases c <;> rfl
@[simp] theorem State.mir_modBank (s : State) (c : Chan) (b : BankNo) (f : Bank → Bank) : (s.modBank c b f).mir = s.mir := by cases c <;> rfl
@[simp] theorem State.notices_modBank (s : State) (c : Chan) (b : BankNo) (f : Bank → Bank) : (s.modBank c b f).notices = s.notices := by cases c <;> rfl
@[simp] theorem State.conf_modBank (s : State) (c : Chan) (b : BankNo) (f : Bank → Bank) : (s.modBank c b f).conf = s.conf := by cases c <;> rfl
@[simp] theorem State.link_modBank (s : State) (c : Chan) (b : BankNo) (f : Bank → Bank) : (s.modBank c b f).link = s.link := by cases c <;> rfl
@[simp] theorem State.draws_modBank (s : State) (c : Chan) (b : BankNo) (f : Bank → Bank) : (s.modBank c b f).draws = s.draws := by cases c <;> rfl
@[simp] theorem State.judgements_modBank (s : State) (c : Chan) (b : BankNo) (f : Bank → Bank) : (s.modBank c b f).judgements = s.judgements := by cases c <;> rfl
@[simp] theorem State.pending_modBank (s : State) (c : Chan) (b : BankNo) (f : Bank → Bank) : (s.modBank c b f).pending = s.pending := by cases c <;> rfl

@[simp] theorem State.clock_callDecision (s : State) (c : Chan) : (s.callDecision c).clock = s.clock := by cases c <;> rfl
@[simp] theorem State.powered_callDecision (s : State) (c : Chan) : (s.callDecision c).powered = s.powered := by cases c <;> rfl
@[simp] theorem State.pinHeld_callDecision (s : State) (c : Chan) : (s.callDecision c).pinHeld = s.pinHeld := by cases c <;> rfl
@[simp] theorem State.mem_callDecision (s : State) (c : Chan) : (s.callDecision c).mem = s.mem := by cases c <;> rfl
@[simp] theorem State.table_callDecision (s : State) (c : Chan) : (s.callDecision c).table = s.table := by cases c <;> rfl
@[simp] theorem State.therm_callDecision (s : State) (c : Chan) : (s.callDecision c).therm = s.therm := by cases c <;> rfl
@[simp] theorem State.mir_callDecision (s : State) (c : Chan) : (s.callDecision c).mir = s.mir := by cases c <;> rfl
@[simp] theorem State.notices_callDecision (s : State) (c : Chan) : (s.callDecision c).notices = s.notices := by cases c <;> rfl
@[simp] theorem State.conf_callDecision (s : State) (c : Chan) : (s.callDecision c).conf = s.conf := by cases c <;> rfl
@[simp] theorem State.link_callDecision (s : State) (c : Chan) : (s.callDecision c).link = s.link := by cases c <;> rfl
@[simp] theorem State.draws_callDecision (s : State) (c : Chan) : (s.callDecision c).draws = s.draws := by cases c <;> rfl
@[simp] theorem State.judgements_callDecision (s : State) (c : Chan) : (s.callDecision c).judgements = s.judgements := by cases c <;> rfl
@[simp] theorem State.pending_callDecision (s : State) (c : Chan) : (s.callDecision c).pending = s.pending := by cases c <;> rfl

/-! ### Entries, answer queue, link -/

@[simp] theorem State.clock_setHost (s : State) (t : Tag) (e : Option Entry) : (s.setHost t e).clock = s.clock := rfl
@[simp] theorem State.powered_setHost (s : State) (t : Tag) (e : Option Entry) : (s.setHost t e).powered = s.powered := rfl
@[simp] theorem State.pinHeld_setHost (s : State) (t : Tag) (e : Option Entry) : (s.setHost t e).pinHeld = s.pinHeld := rfl
@[simp] theorem State.mem_setHost (s : State) (t : Tag) (e : Option Entry) : (s.setHost t e).mem = s.mem := rfl
@[simp] theorem State.chA_setHost (s : State) (t : Tag) (e : Option Entry) : (s.setHost t e).chA = s.chA := rfl
@[simp] theorem State.chB_setHost (s : State) (t : Tag) (e : Option Entry) : (s.setHost t e).chB = s.chB := rfl
@[simp] theorem State.therm_setHost (s : State) (t : Tag) (e : Option Entry) : (s.setHost t e).therm = s.therm := rfl
@[simp] theorem State.mir_setHost (s : State) (t : Tag) (e : Option Entry) : (s.setHost t e).mir = s.mir := rfl
@[simp] theorem State.notices_setHost (s : State) (t : Tag) (e : Option Entry) : (s.setHost t e).notices = s.notices := rfl
@[simp] theorem State.conf_setHost (s : State) (t : Tag) (e : Option Entry) : (s.setHost t e).conf = s.conf := rfl
@[simp] theorem State.link_setHost (s : State) (t : Tag) (e : Option Entry) : (s.setHost t e).link = s.link := rfl
@[simp] theorem State.draws_setHost (s : State) (t : Tag) (e : Option Entry) : (s.setHost t e).draws = s.draws := rfl
@[simp] theorem State.judgements_setHost (s : State) (t : Tag) (e : Option Entry) : (s.setHost t e).judgements = s.judgements := rfl
@[simp] theorem State.pending_setHost (s : State) (t : Tag) (e : Option Entry) : (s.setHost t e).pending = s.pending := rfl
@[simp] theorem State.ch_setHost (s : State) (t : Tag) (e : Option Entry) (c : Chan) : (s.setHost t e).ch c = s.ch c := by cases c <;> rfl

@[simp] theorem State.clock_modHost (s : State) (t : Tag) (f : Entry → Entry) : (s.modHost t f).clock = s.clock := rfl
@[simp] theorem State.powered_modHost (s : State) (t : Tag) (f : Entry → Entry) : (s.modHost t f).powered = s.powered := rfl
@[simp] theorem State.pinHeld_modHost (s : State) (t : Tag) (f : Entry → Entry) : (s.modHost t f).pinHeld = s.pinHeld := rfl
@[simp] theorem State.mem_modHost (s : State) (t : Tag) (f : Entry → Entry) : (s.modHost t f).mem = s.mem := rfl
@[simp] theorem State.chA_modHost (s : State) (t : Tag) (f : Entry → Entry) : (s.modHost t f).chA = s.chA := rfl
@[simp] theorem State.chB_modHost (s : State) (t : Tag) (f : Entry → Entry) : (s.modHost t f).chB = s.chB := rfl
@[simp] theorem State.therm_modHost (s : State) (t : Tag) (f : Entry → Entry) : (s.modHost t f).therm = s.therm := rfl
@[simp] theorem State.mir_modHost (s : State) (t : Tag) (f : Entry → Entry) : (s.modHost t f).mir = s.mir := rfl
@[simp] theorem State.notices_modHost (s : State) (t : Tag) (f : Entry → Entry) : (s.modHost t f).notices = s.notices := rfl
@[simp] theorem State.conf_modHost (s : State) (t : Tag) (f : Entry → Entry) : (s.modHost t f).conf = s.conf := rfl
@[simp] theorem State.link_modHost (s : State) (t : Tag) (f : Entry → Entry) : (s.modHost t f).link = s.link := rfl
@[simp] theorem State.draws_modHost (s : State) (t : Tag) (f : Entry → Entry) : (s.modHost t f).draws = s.draws := rfl
@[simp] theorem State.judgements_modHost (s : State) (t : Tag) (f : Entry → Entry) : (s.modHost t f).judgements = s.judgements := rfl
@[simp] theorem State.pending_modHost (s : State) (t : Tag) (f : Entry → Entry) : (s.modHost t f).pending = s.pending := rfl
@[simp] theorem State.ch_modHost (s : State) (t : Tag) (f : Entry → Entry) (c : Chan) : (s.modHost t f).ch c = s.ch c := by cases c <;> rfl

@[simp] theorem State.clock_setInternal (s : State) (n : InternalNo) (e : Option CopyEntry) : (s.setInternal n e).clock = s.clock := rfl
@[simp] theorem State.powered_setInternal (s : State) (n : InternalNo) (e : Option CopyEntry) : (s.setInternal n e).powered = s.powered := rfl
@[simp] theorem State.pinHeld_setInternal (s : State) (n : InternalNo) (e : Option CopyEntry) : (s.setInternal n e).pinHeld = s.pinHeld := rfl
@[simp] theorem State.mem_setInternal (s : State) (n : InternalNo) (e : Option CopyEntry) : (s.setInternal n e).mem = s.mem := rfl
@[simp] theorem State.chA_setInternal (s : State) (n : InternalNo) (e : Option CopyEntry) : (s.setInternal n e).chA = s.chA := rfl
@[simp] theorem State.chB_setInternal (s : State) (n : InternalNo) (e : Option CopyEntry) : (s.setInternal n e).chB = s.chB := rfl
@[simp] theorem State.therm_setInternal (s : State) (n : InternalNo) (e : Option CopyEntry) : (s.setInternal n e).therm = s.therm := rfl
@[simp] theorem State.mir_setInternal (s : State) (n : InternalNo) (e : Option CopyEntry) : (s.setInternal n e).mir = s.mir := rfl
@[simp] theorem State.notices_setInternal (s : State) (n : InternalNo) (e : Option CopyEntry) : (s.setInternal n e).notices = s.notices := rfl
@[simp] theorem State.conf_setInternal (s : State) (n : InternalNo) (e : Option CopyEntry) : (s.setInternal n e).conf = s.conf := rfl
@[simp] theorem State.link_setInternal (s : State) (n : InternalNo) (e : Option CopyEntry) : (s.setInternal n e).link = s.link := rfl
@[simp] theorem State.draws_setInternal (s : State) (n : InternalNo) (e : Option CopyEntry) : (s.setInternal n e).draws = s.draws := rfl
@[simp] theorem State.judgements_setInternal (s : State) (n : InternalNo) (e : Option CopyEntry) : (s.setInternal n e).judgements = s.judgements := rfl
@[simp] theorem State.pending_setInternal (s : State) (n : InternalNo) (e : Option CopyEntry) : (s.setInternal n e).pending = s.pending := rfl
@[simp] theorem State.ch_setInternal (s : State) (n : InternalNo) (e : Option CopyEntry) (c : Chan) : (s.setInternal n e).ch c = s.ch c := by cases c <;> rfl

@[simp] theorem State.clock_modInternal (s : State) (n : InternalNo) (f : CopyEntry → CopyEntry) : (s.modInternal n f).clock = s.clock := rfl
@[simp] theorem State.powered_modInternal (s : State) (n : InternalNo) (f : CopyEntry → CopyEntry) : (s.modInternal n f).powered = s.powered := rfl
@[simp] theorem State.pinHeld_modInternal (s : State) (n : InternalNo) (f : CopyEntry → CopyEntry) : (s.modInternal n f).pinHeld = s.pinHeld := rfl
@[simp] theorem State.mem_modInternal (s : State) (n : InternalNo) (f : CopyEntry → CopyEntry) : (s.modInternal n f).mem = s.mem := rfl
@[simp] theorem State.chA_modInternal (s : State) (n : InternalNo) (f : CopyEntry → CopyEntry) : (s.modInternal n f).chA = s.chA := rfl
@[simp] theorem State.chB_modInternal (s : State) (n : InternalNo) (f : CopyEntry → CopyEntry) : (s.modInternal n f).chB = s.chB := rfl
@[simp] theorem State.therm_modInternal (s : State) (n : InternalNo) (f : CopyEntry → CopyEntry) : (s.modInternal n f).therm = s.therm := rfl
@[simp] theorem State.mir_modInternal (s : State) (n : InternalNo) (f : CopyEntry → CopyEntry) : (s.modInternal n f).mir = s.mir := rfl
@[simp] theorem State.notices_modInternal (s : State) (n : InternalNo) (f : CopyEntry → CopyEntry) : (s.modInternal n f).notices = s.notices := rfl
@[simp] theorem State.conf_modInternal (s : State) (n : InternalNo) (f : CopyEntry → CopyEntry) : (s.modInternal n f).conf = s.conf := rfl
@[simp] theorem State.link_modInternal (s : State) (n : InternalNo) (f : CopyEntry → CopyEntry) : (s.modInternal n f).link = s.link := rfl
@[simp] theorem State.draws_modInternal (s : State) (n : InternalNo) (f : CopyEntry → CopyEntry) : (s.modInternal n f).draws = s.draws := rfl
@[simp] theorem State.judgements_modInternal (s : State) (n : InternalNo) (f : CopyEntry → CopyEntry) : (s.modInternal n f).judgements = s.judgements := rfl
@[simp] theorem State.pending_modInternal (s : State) (n : InternalNo) (f : CopyEntry → CopyEntry) : (s.modInternal n f).pending = s.pending := rfl
@[simp] theorem State.ch_modInternal (s : State) (n : InternalNo) (f : CopyEntry → CopyEntry) (c : Chan) : (s.modInternal n f).ch c = s.ch c := by cases c <;> rfl

@[simp] theorem State.clock_pushItem (s : State) (q : QueueItem) : (s.pushItem q).clock = s.clock := rfl
@[simp] theorem State.powered_pushItem (s : State) (q : QueueItem) : (s.pushItem q).powered = s.powered := rfl
@[simp] theorem State.pinHeld_pushItem (s : State) (q : QueueItem) : (s.pushItem q).pinHeld = s.pinHeld := rfl
@[simp] theorem State.mem_pushItem (s : State) (q : QueueItem) : (s.pushItem q).mem = s.mem := rfl
@[simp] theorem State.chA_pushItem (s : State) (q : QueueItem) : (s.pushItem q).chA = s.chA := rfl
@[simp] theorem State.chB_pushItem (s : State) (q : QueueItem) : (s.pushItem q).chB = s.chB := rfl
@[simp] theorem State.therm_pushItem (s : State) (q : QueueItem) : (s.pushItem q).therm = s.therm := rfl
@[simp] theorem State.mir_pushItem (s : State) (q : QueueItem) : (s.pushItem q).mir = s.mir := rfl
@[simp] theorem State.notices_pushItem (s : State) (q : QueueItem) : (s.pushItem q).notices = s.notices := rfl
@[simp] theorem State.conf_pushItem (s : State) (q : QueueItem) : (s.pushItem q).conf = s.conf := rfl
@[simp] theorem State.link_pushItem (s : State) (q : QueueItem) : (s.pushItem q).link = s.link := rfl
@[simp] theorem State.draws_pushItem (s : State) (q : QueueItem) : (s.pushItem q).draws = s.draws := rfl
@[simp] theorem State.judgements_pushItem (s : State) (q : QueueItem) : (s.pushItem q).judgements = s.judgements := rfl
@[simp] theorem State.pending_pushItem (s : State) (q : QueueItem) : (s.pushItem q).pending = s.pending := rfl
@[simp] theorem State.ch_pushItem (s : State) (q : QueueItem) (c : Chan) : (s.pushItem q).ch c = s.ch c := by cases c <;> rfl

@[simp] theorem State.clock_modLink (s : State) (f : Link → Link) : (s.modLink f).clock = s.clock := rfl
@[simp] theorem State.powered_modLink (s : State) (f : Link → Link) : (s.modLink f).powered = s.powered := rfl
@[simp] theorem State.pinHeld_modLink (s : State) (f : Link → Link) : (s.modLink f).pinHeld = s.pinHeld := rfl
@[simp] theorem State.mem_modLink (s : State) (f : Link → Link) : (s.modLink f).mem = s.mem := rfl
@[simp] theorem State.table_modLink (s : State) (f : Link → Link) : (s.modLink f).table = s.table := rfl
@[simp] theorem State.chA_modLink (s : State) (f : Link → Link) : (s.modLink f).chA = s.chA := rfl
@[simp] theorem State.chB_modLink (s : State) (f : Link → Link) : (s.modLink f).chB = s.chB := rfl
@[simp] theorem State.therm_modLink (s : State) (f : Link → Link) : (s.modLink f).therm = s.therm := rfl
@[simp] theorem State.mir_modLink (s : State) (f : Link → Link) : (s.modLink f).mir = s.mir := rfl
@[simp] theorem State.notices_modLink (s : State) (f : Link → Link) : (s.modLink f).notices = s.notices := rfl
@[simp] theorem State.conf_modLink (s : State) (f : Link → Link) : (s.modLink f).conf = s.conf := rfl
@[simp] theorem State.draws_modLink (s : State) (f : Link → Link) : (s.modLink f).draws = s.draws := rfl
@[simp] theorem State.judgements_modLink (s : State) (f : Link → Link) : (s.modLink f).judgements = s.judgements := rfl
@[simp] theorem State.pending_modLink (s : State) (f : Link → Link) : (s.modLink f).pending = s.pending := rfl
@[simp] theorem State.link_modLink (s : State) (f : Link → Link) : (s.modLink f).link = f s.link := rfl
@[simp] theorem State.ch_modLink (s : State) (f : Link → Link) (c : Chan) : (s.modLink f).ch c = s.ch c := by cases c <;> rfl

@[simp] theorem State.host_setHost_self (s : State) (t : Tag) (e : Option Entry) :
    (s.setHost t e).host t = e := by
  simp [State.host, State.setHost]

theorem State.host_setHost_ne {t g : Tag} (h : g ≠ t) (s : State) (e : Option Entry) :
    (s.setHost t e).host g = s.host g := by
  simp only [State.host, State.setHost, Fin.getElem_fin]
  exact Vector.getElem_set_ne _ _ (fun hh => h (Fin.ext hh.symm))

@[simp] theorem State.host_pushItem (s : State) (q : QueueItem) (t : Tag) :
    (s.pushItem q).host t = s.host t := rfl

@[simp] theorem State.host_modLink (s : State) (f : Link → Link) (t : Tag) :
    (s.modLink f).host t = s.host t := rfl

@[simp] theorem State.host_setCh (s : State) (c : Chan) (x : Channel) (t : Tag) :
    (s.setCh c x).host t = s.host t := by cases c <;> rfl

@[simp] theorem State.host_modCtl (s : State) (c : Chan) (f : Control → Control) (t : Tag) :
    (s.modCtl c f).host t = s.host t := by cases c <;> rfl

@[simp] theorem State.host_modRefr (s : State) (c : Chan) (f : Refresh → Refresh) (t : Tag) :
    (s.modRefr c f).host t = s.host t := by cases c <;> rfl

@[simp] theorem State.host_modPwr (s : State) (c : Chan) (f : Power → Power) (t : Tag) :
    (s.modPwr c f).host t = s.host t := by cases c <;> rfl

@[simp] theorem State.answers_setHost (s : State) (t : Tag) (e : Option Entry) :
    (s.setHost t e).table.answers = s.table.answers := rfl

@[simp] theorem State.answers_setInternal (s : State) (n : InternalNo) (e : Option CopyEntry) :
    (s.setInternal n e).table.answers = s.table.answers := rfl

@[simp] theorem State.answers_pushItem (s : State) (q : QueueItem) :
    (s.pushItem q).table.answers = s.table.answers ++ [q] := rfl

/-! ### Bank records -/

@[simp] theorem Control.bank_modBank_self (k : Control) (b : BankNo) (f : Bank → Bank) :
    (k.modBank b f).bank b = f (k.bank b) := by
  simp [Control.bank, Control.modBank]

theorem Control.bank_modBank_ne {b d : BankNo} (h : d ≠ b) (k : Control) (f : Bank → Bank) :
    (k.modBank b f).bank d = k.bank d := by
  simp only [Control.bank, Control.modBank, Fin.getElem_fin]
  exact Vector.getElem_set_ne _ _ (fun hh => h (Fin.ext hh.symm))

@[simp] theorem Control.bank_mapBanks (k : Control) (f : Bank → Bank) (b : BankNo) :
    (k.mapBanks f).bank b = f (k.bank b) := by
  simp [Control.bank, Control.mapBanks]

@[simp] theorem Control.queue_modBank (k : Control) (b : BankNo) (f : Bank → Bank) : (k.modBank b f).queue = k.queue := rfl
@[simp] theorem Control.queue_mapBanks (k : Control) (f : Bank → Bank) : (k.mapBanks f).queue = k.queue := rfl
@[simp] theorem Control.openings_modBank (k : Control) (b : BankNo) (f : Bank → Bank) : (k.modBank b f).openings = k.openings := rfl
@[simp] theorem Control.openings_mapBanks (k : Control) (f : Bank → Bank) : (k.mapBanks f).openings = k.openings := rfl
@[simp] theorem Control.openSpacing_modBank (k : Control) (b : BankNo) (f : Bank → Bank) : (k.modBank b f).openSpacing = k.openSpacing := rfl
@[simp] theorem Control.openSpacing_mapBanks (k : Control) (f : Bank → Bank) : (k.mapBanks f).openSpacing = k.openSpacing := rfl
@[simp] theorem Control.pathBusy_modBank (k : Control) (b : BankNo) (f : Bank → Bank) : (k.modBank b f).pathBusy = k.pathBusy := rfl
@[simp] theorem Control.pathBusy_mapBanks (k : Control) (f : Bank → Bank) : (k.mapBanks f).pathBusy = k.pathBusy := rfl
@[simp] theorem Control.sweepTimer_modBank (k : Control) (b : BankNo) (f : Bank → Bank) : (k.modBank b f).sweepTimer = k.sweepTimer := rfl
@[simp] theorem Control.sweepTimer_mapBanks (k : Control) (f : Bank → Bank) : (k.mapBanks f).sweepTimer = k.sweepTimer := rfl
@[simp] theorem Control.shortTrimTimer_modBank (k : Control) (b : BankNo) (f : Bank → Bank) : (k.modBank b f).shortTrimTimer = k.shortTrimTimer := rfl
@[simp] theorem Control.shortTrimTimer_mapBanks (k : Control) (f : Bank → Bank) : (k.mapBanks f).shortTrimTimer = k.shortTrimTimer := rfl
@[simp] theorem Control.longTrimTimer_modBank (k : Control) (b : BankNo) (f : Bank → Bank) : (k.modBank b f).longTrimTimer = k.longTrimTimer := rfl
@[simp] theorem Control.longTrimTimer_mapBanks (k : Control) (f : Bank → Bank) : (k.mapBanks f).longTrimTimer = k.longTrimTimer := rfl
@[simp] theorem Control.oldest_modBank (k : Control) (b : BankNo) (f : Bank → Bank) : (k.modBank b f).oldest = k.oldest := rfl
@[simp] theorem Control.oldest_mapBanks (k : Control) (f : Bank → Bank) : (k.mapBanks f).oldest = k.oldest := rfl
@[simp] theorem Control.passed_modBank (k : Control) (b : BankNo) (f : Bank → Bank) : (k.modBank b f).passed = k.passed := rfl
@[simp] theorem Control.passed_mapBanks (k : Control) (f : Bank → Bank) : (k.mapBanks f).passed = k.passed := rfl
@[simp] theorem Control.due_modBank (k : Control) (b : BankNo) (f : Bank → Bank) : (k.modBank b f).due = k.due := rfl
@[simp] theorem Control.due_mapBanks (k : Control) (f : Bank → Bank) : (k.mapBanks f).due = k.due := rfl

@[simp] theorem Control.queue_track (k : Control) : k.track.queue = k.queue := by unfold Control.track; split <;> rfl
@[simp] theorem Control.banks_track (k : Control) : k.track.banks = k.banks := by unfold Control.track; split <;> rfl
@[simp] theorem Control.openings_track (k : Control) : k.track.openings = k.openings := by unfold Control.track; split <;> rfl
@[simp] theorem Control.openSpacing_track (k : Control) : k.track.openSpacing = k.openSpacing := by unfold Control.track; split <;> rfl
@[simp] theorem Control.pathBusy_track (k : Control) : k.track.pathBusy = k.pathBusy := by unfold Control.track; split <;> rfl
@[simp] theorem Control.sweepTimer_track (k : Control) : k.track.sweepTimer = k.sweepTimer := by unfold Control.track; split <;> rfl
@[simp] theorem Control.shortTrimTimer_track (k : Control) : k.track.shortTrimTimer = k.shortTrimTimer := by unfold Control.track; split <;> rfl
@[simp] theorem Control.longTrimTimer_track (k : Control) : k.track.longTrimTimer = k.longTrimTimer := by unfold Control.track; split <;> rfl
@[simp] theorem Control.due_track (k : Control) : k.track.due = k.due := by unfold Control.track; split <;> rfl

@[simp] theorem Control.banks_withQueue (k : Control) (q : List Leg) : (k.withQueue q).banks = k.banks := by simp [Control.withQueue]
@[simp] theorem Control.openings_withQueue (k : Control) (q : List Leg) : (k.withQueue q).openings = k.openings := by simp [Control.withQueue]
@[simp] theorem Control.openSpacing_withQueue (k : Control) (q : List Leg) : (k.withQueue q).openSpacing = k.openSpacing := by simp [Control.withQueue]
@[simp] theorem Control.pathBusy_withQueue (k : Control) (q : List Leg) : (k.withQueue q).pathBusy = k.pathBusy := by simp [Control.withQueue]
@[simp] theorem Control.sweepTimer_withQueue (k : Control) (q : List Leg) : (k.withQueue q).sweepTimer = k.sweepTimer := by simp [Control.withQueue]
@[simp] theorem Control.shortTrimTimer_withQueue (k : Control) (q : List Leg) : (k.withQueue q).shortTrimTimer = k.shortTrimTimer := by simp [Control.withQueue]
@[simp] theorem Control.longTrimTimer_withQueue (k : Control) (q : List Leg) : (k.withQueue q).longTrimTimer = k.longTrimTimer := by simp [Control.withQueue]
@[simp] theorem Control.queue_withQueue (k : Control) (q : List Leg) : (k.withQueue q).queue = q := by simp [Control.withQueue]
@[simp] theorem Control.due_withQueue (k : Control) (q : List Leg) : (k.withQueue q).due = true := by simp [Control.withQueue]
@[simp] theorem Control.bank_withQueue (k : Control) (q : List Leg) (b : BankNo) : (k.withQueue q).bank b = k.bank b := by simp [Control.bank]

end Sys2Proof.Machine
end

