-- ==== Sys2Proof/Laws/Frames.lean ====
section
/-! SUPPORT. What the shared operations leave alone. `State.outer` is what no request, no leg and no
decision touches; `State.sides` is what the operations on one channel leave as it is. One lemma per
operation, cited instead of unfolding it. -/

namespace Sys2Proof.Machine
open Sys2Proof

/-- The part of the state that only the outside world, an expiry or a WRITE's completion changes. -/
structure Outer where
  clock : Nat
  powered : Bool
  pinHeld : Bool
  mem : Memory
  therm : Thermal
  pending : List Instr

def State.outer (s : State) : Outer where
  clock := s.clock
  powered := s.powered
  pinHeld := s.pinHeld
  mem := s.mem
  therm := s.therm
  pending := s.pending

/-- The records of mirror control, the settings, the link, the notice table and the free orders. -/
structure Sides where
  mir : Mirror
  notices : List Notice
  conf : Settings
  link : Link
  draws : Nat

def State.sides (s : State) : Sides where
  mir := s.mir
  notices := s.notices
  conf := s.conf
  link := s.link
  draws := s.draws

theorem State.outer_fields {s t : State} (h : t.outer = s.outer) :
    t.clock = s.clock ∧ t.powered = s.powered ∧ t.pinHeld = s.pinHeld ∧ t.mem = s.mem ∧
      t.therm = s.therm ∧ t.pending = s.pending := by
  simpa [State.outer] using h

theorem State.sides_fields {s t : State} (h : t.sides = s.sides) :
    t.mir = s.mir ∧ t.notices = s.notices ∧ t.conf = s.conf ∧ t.link = s.link ∧ t.draws = s.draws := by
  simpa [State.sides] using h

@[simp] theorem State.outer_ite (p : Prop) [Decidable p] (s t : State) :
    (if p then s else t).outer = if p then s.outer else t.outer := apply_ite _ _ _ _

@[simp] theorem State.sides_ite (p : Prop) [Decidable p] (s t : State) :
    (if p then s else t).sides = if p then s.sides else t.sides := apply_ite _ _ _ _

/-- A fold keeps what each of its turns keeps. -/
theorem foldl_keeps {α β γ : Type} (p : β → γ) (f : β → α → β) (h : ∀ b x, p (f b x) = p b) (l : List α)
    (b : β) : p (l.foldl f b) = p b := by
  induction l generalizing b with
  | nil => rfl
  | cons x t ih => rw [List.foldl_cons, ih, h]

@[simp] theorem State.setCh_outer (s : State) (c : Chan) (x : Channel) :
    (s.setCh c x).outer = s.outer := by cases c <;> rfl

@[simp] theorem State.setCh_sides (s : State) (c : Chan) (x : Channel) :
    (s.setCh c x).sides = s.sides := by cases c <;> rfl

@[simp] theorem State.modCtl_outer (s : State) (c : Chan) (f : Control → Control) :
    (s.modCtl c f).outer = s.outer := by cases c <;> rfl

@[simp] theorem State.modCtl_sides (s : State) (c : Chan) (f : Control → Control) :
    (s.modCtl c f).sides = s.sides := by cases c <;> rfl

@[simp] theorem State.modRefr_outer (s : State) (c : Chan) (f : Refresh → Refresh) :
    (s.modRefr c f).outer = s.outer := by cases c <;> rfl

@[simp] theorem State.modRefr_sides (s : State) (c : Chan) (f : Refresh → Refresh) :
    (s.modRefr c f).sides = s.sides := by cases c <;> rfl

@[simp] theorem State.modPwr_outer (s : State) (c : Chan) (f : Power → Power) :
    (s.modPwr c f).outer = s.outer := by cases c <;> rfl

@[simp] theorem State.modPwr_sides (s : State) (c : Chan) (f : Power → Power) :
    (s.modPwr c f).sides = s.sides := by cases c <;> rfl

@[simp] theorem State.modBank_outer (s : State) (c : Chan) (b : BankNo) (f : Bank → Bank) :
    (s.modBank c b f).outer = s.outer := by cases c <;> rfl

@[simp] theorem State.modBank_sides (s : State) (c : Chan) (b : BankNo) (f : Bank → Bank) :
    (s.modBank c b f).sides = s.sides := by cases c <;> rfl

@[simp] theorem State.callDecision_outer (s : State) (c : Chan) :
    (s.callDecision c).outer = s.outer := by cases c <;> rfl

@[simp] theorem State.callDecision_sides (s : State) (c : Chan) :
    (s.callDecision c).sides = s.sides := by cases c <;> rfl

@[simp] theorem State.setHost_outer (s : State) (t : Tag) (e : Option Entry) :
    (s.setHost t e).outer = s.outer := rfl

@[simp] theorem State.setHost_sides (s : State) (t : Tag) (e : Option Entry) :
    (s.setHost t e).sides = s.sides := rfl

@[simp] theorem State.setInternal_outer (s : State) (n : InternalNo) (e : Option CopyEntry) :
    (s.setInternal n e).outer = s.outer := rfl

@[simp] theorem State.setInternal_sides (s : State) (n : InternalNo) (e : Option CopyEntry) :
    (s.setInternal n e).sides = s.sides := rfl

@[simp] theorem State.modHost_outer (s : State) (t : Tag) (f : Entry → Entry) :
    (s.modHost t f).outer = s.outer := rfl

@[simp] theorem State.modHost_sides (s : State) (t : Tag) (f : Entry → Entry) :
    (s.modHost t f).sides = s.sides := rfl

@[simp] theorem State.modInternal_outer (s : State) (n : InternalNo) (f : CopyEntry → CopyEntry) :
    (s.modInternal n f).outer = s.outer := rfl

@[simp] theorem State.modInternal_sides (s : State) (n : InternalNo) (f : CopyEntry → CopyEntry) :
    (s.modInternal n f).sides = s.sides := rfl

@[simp] theorem State.pushItem_outer (s : State) (q : QueueItem) :
    (s.pushItem q).outer = s.outer := rfl

@[simp] theorem State.pushItem_sides (s : State) (q : QueueItem) :
    (s.pushItem q).sides = s.sides := rfl

@[simp] theorem State.modLink_outer (s : State) (f : Link → Link) :
    (s.modLink f).outer = s.outer := rfl

@[simp] theorem State.postNotice_outer (s : State) (k : NoticeKind) (c : Option Chan) (f : NoticeFields) :
    (s.postNotice k c f).outer = s.outer := by unfold State.postNotice; split <;> rfl

@[simp] theorem State.answerWith_outer (s : State) (t : Tag) (st : Status) (x : Entry → Extra) :
    (s.answerWith t st x).outer = s.outer := by unfold State.answerWith; (repeat' split) <;> simp

@[simp] theorem State.answerWith_sides (s : State) (t : Tag) (st : Status) (x : Entry → Extra) :
    (s.answerWith t st x).sides = s.sides := by unfold State.answerWith; (repeat' split) <;> simp

@[simp] theorem State.answer_outer (s : State) (t : Tag) (st : Status) :
    (s.answer t st).outer = s.outer := by unfold State.answer; (repeat' split) <;> simp

@[simp] theorem State.answer_sides (s : State) (t : Tag) (st : Status) :
    (s.answer t st).sides = s.sides := by unfold State.answer; (repeat' split) <;> simp

@[simp] theorem State.reject_outer (s : State) (m : RawMsg) (r : Reason) :
    (s.reject m r).outer = s.outer := by unfold State.reject; (repeat' split) <;> simp

@[simp] theorem State.reject_sides (s : State) (m : RawMsg) (r : Reason) :
    (s.reject m r).sides = s.sides := by unfold State.reject; (repeat' split) <;> simp

@[simp] theorem State.countUncorrectable_outer (s : State) (c : Chan) :
    (s.countUncorrectable c).outer = s.outer := rfl

@[simp] theorem State.recompute_outer (s : State) (c : Chan) :
    (s.recompute c).outer = s.outer := by unfold State.recompute; (repeat' split) <;> simp

@[simp] theorem State.recompute_sides (s : State) (c : Chan) :
    (s.recompute c).sides = s.sides := by unfold State.recompute; (repeat' split) <;> simp

@[simp] theorem State.judgeIdle_outer (s : State) (c : Chan) :
    (s.judgeIdle c).outer = s.outer := by unfold State.judgeIdle; (repeat' split) <;> simp

@[simp] theorem State.judgeIdle_sides (s : State) (c : Chan) :
    (s.judgeIdle c).sides = s.sides := by unfold State.judgeIdle; (repeat' split) <;> simp

@[simp] theorem State.report_outer (s : State) (c : Chan) :
    (s.report c).outer = s.outer := by unfold State.report; (repeat' split) <;> simp

@[simp] theorem State.report_sides (s : State) (c : Chan) :
    (s.report c).sides = s.sides := by unfold State.report; (repeat' split) <;> simp

@[simp] theorem State.conclude_outer (s : State) :
    (s.conclude).outer = s.outer := by unfold State.conclude; (repeat' split) <;> simp

@[simp] theorem State.conclude_sides (s : State) :
    (s.conclude).sides = s.sides := by unfold State.conclude; (repeat' split) <;> simp

@[simp] theorem State.judgeBank_outer (s : State) (c : Chan) (b : BankNo) :
    (s.judgeBank c b).outer = s.outer := by unfold State.judgeBank; (repeat' split) <;> simp

@[simp] theorem State.judgeBank_sides (s : State) (c : Chan) (b : BankNo) :
    (s.judgeBank c b).sides = s.sides := by unfold State.judgeBank; (repeat' split) <;> simp

@[simp] theorem State.judgeBanks_outer (s : State) (c : Chan) :
    (s.judgeBanks c).outer = s.outer := by unfold State.judgeBanks; (repeat' split) <;> simp

@[simp] theorem State.judgeBanks_sides (s : State) (c : Chan) :
    (s.judgeBanks c).sides = s.sides := by unfold State.judgeBanks; (repeat' split) <;> simp

@[simp] theorem State.judge_outer (s : State) (j : Judgement) :
    (s.judge j).outer = s.outer := by unfold State.judge; (repeat' split) <;> simp

@[simp] theorem State.judge_sides (s : State) (j : Judgement) :
    (s.judge j).sides = s.sides := by unfold State.judge; (repeat' split) <;> simp

@[simp] theorem State.later_outer (s : State) (j : Judgement) :
    (s.later j).outer = s.outer := by unfold State.later; split <;> first | exact State.judge_outer _ _ | rfl

@[simp] theorem State.later_sides (s : State) (j : Judgement) :
    (s.later j).sides = s.sides := by unfold State.later; split <;> first | exact State.judge_sides _ _ | rfl

@[simp] theorem State.judgeDue_outer (s : State) :
    (s.judgeDue).outer = s.outer := by
  unfold State.judgeDue
  split
  · rw [foldl_keeps _ _ (fun u x => State.judge_outer u x)]; rfl
  · rfl

@[simp] theorem State.judgeDue_sides (s : State) :
    (s.judgeDue).sides = s.sides := by
  unfold State.judgeDue
  split
  · rw [foldl_keeps _ _ (fun u x => State.judge_sides u x)]; rfl
  · rfl

@[simp] theorem State.powerReached_outer (s : State) (c : Chan) :
    (s.powerReached c).outer = s.outer := by unfold State.powerReached; (repeat' split) <;> simp

@[simp] theorem State.powerReached_sides (s : State) (c : Chan) :
    (s.powerReached c).sides = s.sides := by unfold State.powerReached; (repeat' split) <;> simp

@[simp] theorem State.powerAborted_outer (s : State) (c : Chan) :
    (s.powerAborted c).outer = s.outer := by unfold State.powerAborted; (repeat' split) <;> simp

@[simp] theorem State.powerAborted_sides (s : State) (c : Chan) :
    (s.powerAborted c).sides = s.sides := by unfold State.powerAborted; (repeat' split) <;> simp

@[simp] theorem State.enterNap_outer (s : State) (c : Chan) :
    (s.enterNap c).outer = s.outer := by unfold State.enterNap; (repeat' split) <;> simp

@[simp] theorem State.enterNap_sides (s : State) (c : Chan) :
    (s.enterNap c).sides = s.sides := by unfold State.enterNap; (repeat' split) <;> simp

@[simp] theorem State.beginNapExit_outer (s : State) (c : Chan) (o : Bool) :
    (s.beginNapExit c o).outer = s.outer := by unfold State.beginNapExit; (repeat' split) <;> simp

@[simp] theorem State.beginNapExit_sides (s : State) (c : Chan) (o : Bool) :
    (s.beginNapExit c o).sides = s.sides := by unfold State.beginNapExit; (repeat' split) <;> simp

@[simp] theorem State.beginRetainExit_outer (s : State) (c : Chan) :
    (s.beginRetainExit c).outer = s.outer := by unfold State.beginRetainExit; (repeat' split) <;> simp

@[simp] theorem State.beginRetainExit_sides (s : State) (c : Chan) :
    (s.beginRetainExit c).sides = s.sides := by unfold State.beginRetainExit; (repeat' split) <;> simp

@[simp] theorem State.completeRetain_outer (s : State) (c : Chan) :
    (s.completeRetain c).outer = s.outer := by unfold State.completeRetain; (repeat' split) <;> simp

@[simp] theorem State.completeRetain_sides (s : State) (c : Chan) :
    (s.completeRetain c).sides = s.sides := by unfold State.completeRetain; (repeat' split) <;> simp

@[simp] theorem State.beginRetainEntry_outer (s : State) (c : Chan) :
    (s.beginRetainEntry c).outer = s.outer := by unfold State.beginRetainEntry; (repeat' split) <;> simp

@[simp] theorem State.beginRetainEntry_sides (s : State) (c : Chan) :
    (s.beginRetainEntry c).sides = s.sides := by unfold State.beginRetainEntry; (repeat' split) <;> simp

@[simp] theorem State.abortRetain_outer (s : State) (c : Chan) :
    (s.abortRetain c).outer = s.outer := by unfold State.abortRetain; (repeat' split) <;> simp

@[simp] theorem State.abortRetain_sides (s : State) (c : Chan) :
    (s.abortRetain c).sides = s.sides := by unfold State.abortRetain; (repeat' split) <;> simp

@[simp] theorem State.clearOnward_outer (s : State) (c : Chan) :
    (s.clearOnward c).outer = s.outer := by unfold State.clearOnward; (repeat' split) <;> simp

@[simp] theorem State.clearOnward_sides (s : State) (c : Chan) :
    (s.clearOnward c).sides = s.sides := by unfold State.clearOnward; (repeat' split) <;> simp

@[simp] theorem State.wakeFor_outer (s : State) (c : Chan) :
    (s.wakeFor c).outer = s.outer := by unfold State.wakeFor; (repeat' split) <;> simp

@[simp] theorem State.wakeFor_sides (s : State) (c : Chan) :
    (s.wakeFor c).sides = s.sides := by unfold State.wakeFor; (repeat' split) <;> simp

@[simp] theorem State.wakeForRefresh_outer (s : State) (c : Chan) :
    (s.wakeForRefresh c).outer = s.outer := by unfold State.wakeForRefresh; (repeat' split) <;> simp

@[simp] theorem State.wakeForRefresh_sides (s : State) (c : Chan) :
    (s.wakeForRefresh c).sides = s.sides := by unfold State.wakeForRefresh; (repeat' split) <;> simp

@[simp] theorem State.oweTrim_outer (s : State) (c : Chan) :
    (s.oweTrim c).outer = s.outer := by unfold State.oweTrim; (repeat' split) <;> simp

@[simp] theorem State.oweTrim_sides (s : State) (c : Chan) :
    (s.oweTrim c).sides = s.sides := by unfold State.oweTrim; (repeat' split) <;> simp

@[simp] theorem State.placeLeg_outer (s : State) (c : Chan) (l : Leg) :
    (s.placeLeg c l).outer = s.outer := by unfold State.placeLeg; (repeat' split) <;> simp

@[simp] theorem State.placeLeg_sides (s : State) (c : Chan) (l : Leg) :
    (s.placeLeg c l).sides = s.sides := by unfold State.placeLeg; (repeat' split) <;> simp

@[simp] theorem State.placeFetch_outer (s : State) (c : Chan) (l : Leg) :
    (s.placeFetch c l).outer = s.outer := by unfold State.placeFetch; (repeat' split) <;> simp

@[simp] theorem State.placeFetch_sides (s : State) (c : Chan) (l : Leg) :
    (s.placeFetch c l).sides = s.sides := by unfold State.placeFetch; (repeat' split) <;> simp

@[simp] theorem State.takeLeg_outer (s : State) (c : Chan) (i : LegId) :
    (s.takeLeg c i).outer = s.outer := by unfold State.takeLeg; (repeat' split) <;> simp

@[simp] theorem State.takeLeg_sides (s : State) (c : Chan) (i : LegId) :
    (s.takeLeg c i).sides = s.sides := by unfold State.takeLeg; (repeat' split) <;> simp

@[simp] theorem State.withdrawLeg_outer (s : State) (c : Chan) (l : Leg) :
    (s.withdrawLeg c l).outer = s.outer := by unfold State.withdrawLeg; (repeat' split) <;> simp

@[simp] theorem State.withdrawLeg_sides (s : State) (c : Chan) (l : Leg) :
    (s.withdrawLeg c l).sides = s.sides := by unfold State.withdrawLeg; (repeat' split) <;> simp

@[simp] theorem State.recordDone_outer (s : State) (l : Leg) :
    (s.recordDone l).outer = s.outer := by unfold State.recordDone; (repeat' split) <;> simp

@[simp] theorem State.recordDone_sides (s : State) (l : Leg) :
    (s.recordDone l).sides = s.sides := by unfold State.recordDone; (repeat' split) <;> simp

@[simp] theorem State.dropLeg_outer (s : State) (c : Chan) (l : Leg) :
    (s.dropLeg c l).outer = s.outer := by unfold State.dropLeg; (repeat' split) <;> simp

@[simp] theorem State.dropLeg_sides (s : State) (c : Chan) (l : Leg) :
    (s.dropLeg c l).sides = s.sides := by unfold State.dropLeg; (repeat' split) <;> simp

@[simp] theorem State.addLeg_outer (s : State) (t : Tag) (c : Chan) (k : LegKind) (z : Size) (p : Loc) (st : LegState) (x : Store) (r : Bool) :
    (s.addLeg t c k z p st x r).outer = s.outer := by unfold State.addLeg; (repeat' split) <;> simp

@[simp] theorem State.addLeg_sides (s : State) (t : Tag) (c : Chan) (k : LegKind) (z : Size) (p : Loc) (st : LegState) (x : Store) (r : Bool) :
    (s.addLeg t c k z p st x r).sides = s.sides := by unfold State.addLeg; (repeat' split) <;> simp

@[simp] theorem State.addCopyLeg_outer (s : State) (n : InternalNo) (c : Chan) (k : LegKind) (p : Loc) (st : LegState) :
    (s.addCopyLeg n c k p st).outer = s.outer := by unfold State.addCopyLeg; (repeat' split) <;> simp

@[simp] theorem State.addCopyLeg_sides (s : State) (n : InternalNo) (c : Chan) (k : LegKind) (p : Loc) (st : LegState) :
    (s.addCopyLeg n c k p st).sides = s.sides := by unfold State.addCopyLeg; (repeat' split) <;> simp

@[simp] theorem State.addWriteback_outer (s : State) (t : Tag) (c : Chan) (p : Loc) (r : LineRec) :
    (s.addWriteback t c p r).outer = s.outer := by unfold State.addWriteback; (repeat' split) <;> simp

@[simp] theorem State.addWriteback_sides (s : State) (t : Tag) (c : Chan) (p : Loc) (r : LineRec) :
    (s.addWriteback t c p r).sides = s.sides := by unfold State.addWriteback; (repeat' split) <;> simp

@[simp] theorem State.unblock_outer (s : State) (o : Owner) (p : Purpose) (st : Store) :
    (s.unblock o p st).outer = s.outer := by unfold State.unblock; (repeat' split) <;> simp

@[simp] theorem State.unblock_sides (s : State) (o : Owner) (p : Purpose) (st : Store) :
    (s.unblock o p st).sides = s.sides := by unfold State.unblock; (repeat' split) <;> simp

@[simp] theorem State.dropWhere_outer (s : State) (c : Chan) (w : Leg → Bool) :
    (s.dropWhere c w).outer = s.outer := by unfold State.dropWhere; exact foldl_keeps _ _ (fun u x => State.dropLeg_outer u c x) _ _

@[simp] theorem State.dropWhere_sides (s : State) (c : Chan) (w : Leg → Bool) :
    (s.dropWhere c w).sides = s.sides := by unfold State.dropWhere; exact foldl_keeps _ _ (fun u x => State.dropLeg_sides u c x) _ _

@[simp] theorem State.removeWhere_outer (s : State) (c : Chan) (w : Leg → Bool) :
    (s.removeWhere c w).outer = s.outer := by unfold State.removeWhere; exact foldl_keeps _ _ (fun u x => State.withdrawLeg_outer u c x) _ _

@[simp] theorem State.removeWhere_sides (s : State) (c : Chan) (w : Leg → Bool) :
    (s.removeWhere c w).sides = s.sides := by unfold State.removeWhere; exact foldl_keeps _ _ (fun u x => State.withdrawLeg_sides u c x) _ _

@[simp] theorem State.dropRepair_outer (s : State) (c : Chan) (o : Owner) :
    (s.dropRepair c o).outer = s.outer := by unfold State.dropRepair; (repeat' split) <;> simp

@[simp] theorem State.dropRepair_sides (s : State) (c : Chan) (o : Owner) :
    (s.dropRepair c o).sides = s.sides := by unfold State.dropRepair; (repeat' split) <;> simp

@[simp] theorem State.judgeEntry_outer (s : State) (t : Tag) :
    (s.judgeEntry t).outer = s.outer := by unfold State.judgeEntry; (repeat' split) <;> simp

@[simp] theorem State.judgeEntry_sides (s : State) (t : Tag) :
    (s.judgeEntry t).sides = s.sides := by unfold State.judgeEntry; (repeat' split) <;> simp

@[simp] theorem State.judgeEntries_outer (s : State) (k : Option Owner) :
    (s.judgeEntries k).outer = s.outer := by unfold State.judgeEntries; exact foldl_keeps _ _ (fun u x => State.judgeEntry_outer u x) _ _

@[simp] theorem State.judgeEntries_sides (s : State) (k : Option Owner) :
    (s.judgeEntries k).sides = s.sides := by unfold State.judgeEntries; exact foldl_keeps _ _ (fun u x => State.judgeEntry_sides u x) _ _

@[simp] theorem State.degradeLeg_outer (s : State) (c : Chan) (i : LegId) :
    (s.degradeLeg c i).outer = s.outer := by unfold State.degradeLeg; (repeat' split) <;> simp

@[simp] theorem State.degradeLeg_sides (s : State) (c : Chan) (i : LegId) :
    (s.degradeLeg c i).sides = s.sides := by unfold State.degradeLeg; (repeat' split) <;> simp

@[simp] theorem State.degrade_outer (s : State) (c : Chan) (r : DegradeReason) (k : Option Owner) :
    (s.degrade c r k).outer = s.outer := by
  simp only [State.degrade, State.judgeEntries_outer]
  rw [foldl_keeps State.outer _ (fun u x => State.degradeLeg_outer u c x), State.postNotice_outer]
  rfl

@[simp] theorem State.autoDegrade_outer (s : State) (c : Chan) (k : Option Owner) :
    (s.autoDegrade c k).outer = s.outer := by unfold State.autoDegrade; (repeat' split) <;> simp

@[simp] theorem State.copyComplete_outer (s : State) (n : InternalNo) :
    (s.copyComplete n).outer = s.outer := by
  unfold State.copyComplete
  split
  · rfl
  · split
    · dsimp only
      split
      · rw [State.postNotice_outer]; rfl
      · rfl
    · rfl

@[simp] theorem State.judgeInternal_outer (s : State) (n : InternalNo) :
    (s.judgeInternal n).outer = s.outer := by unfold State.judgeInternal; (repeat' split) <;> simp

@[simp] theorem State.startCopy_outer (s : State) :
    (s.startCopy).outer = s.outer := by
  unfold State.startCopy
  split
  · simp only [State.addCopyLeg_outer]; rfl
  · rfl

@[simp] theorem State.startCopies_outer (n : Nat) (s : State) :
    (s.startCopies n).outer = s.outer := by
  induction n generalizing s with
  | zero => rfl
  | succ n ih =>
    unfold State.startCopies
    split <;> simp [ih]

@[simp] theorem State.abortRebuild_outer (s : State) (b : Bool) :
    (s.abortRebuild b).outer = s.outer := by
  unfold State.abortRebuild
  split
  · rfl
  · rename_i r _
    have hf (l : List (InternalNo × Nat)) (u : State) :
        (l.foldl (fun s p => if s.queued (.internal p.1) = [] then s.setInternal p.1 none else s)
          u).outer = u.outer :=
      foldl_keeps State.outer _ (fun u x => by split <;> rfl) l u
    have hm (u : State) (m : Mirror) : ({ u with mir := m } : State).outer = u.outer := rfl
    cases b <;> simp [hm, hf]

@[simp] theorem State.noteCondition_outer (s : State) (c : Chan) (p : Loc) (r : LineRec) :
    (s.noteCondition c p r).outer = s.outer := by unfold State.noteCondition; (repeat' split) <;> simp

@[simp] theorem State.recordRead_outer (s : State) (t : Tag) (c : Chan) (st : Status) (r : LineRec) :
    (s.recordRead t c st r).outer = s.outer := by unfold State.recordRead; (repeat' split) <;> simp

@[simp] theorem State.recordRead_sides (s : State) (t : Tag) (c : Chan) (st : Status) (r : LineRec) :
    (s.recordRead t c st r).sides = s.sides := by unfold State.recordRead; (repeat' split) <;> simp

@[simp] theorem State.brokenRead_outer (s : State) (t : Tag) (c : Chan) (p : Loc) :
    (s.brokenRead t c p).outer = s.outer := by unfold State.brokenRead; (repeat' split) <;> simp

@[simp] theorem State.settleRecovery_outer (s : State) (t : Tag) (c : Chan) (p : Loc) (r : LineRec) :
    (s.settleRecovery t c p r).outer = s.outer := by unfold State.settleRecovery; cases r <;> simp

@[simp] theorem State.finishRead_outer (s : State) (t : Tag) (c : Chan) (l : Leg) (r : LineRec) :
    (s.finishRead t c l r).outer = s.outer := by unfold State.finishRead; (repeat' split) <;> simp

@[simp] theorem State.settleFetch_outer (s : State) (t : Tag) (st : Status) (r : LineRec) :
    (s.settleFetch t st r).outer = s.outer := by unfold State.settleFetch; (repeat' split) <;> simp

@[simp] theorem State.settleFetch_sides (s : State) (t : Tag) (st : Status) (r : LineRec) :
    (s.settleFetch t st r).sides = s.sides := by unfold State.settleFetch; (repeat' split) <;> simp

@[simp] theorem State.finishFetch_outer (s : State) (t : Tag) (c : Chan) (l : Leg) (r : LineRec) :
    (s.finishFetch t c l r).outer = s.outer := by unfold State.finishFetch; (repeat' split) <;> simp

@[simp] theorem State.finishCopyFetch_outer (s : State) (n : InternalNo) (c : Chan) (r : LineRec) :
    (s.finishCopyFetch n c r).outer = s.outer := by unfold State.finishCopyFetch; cases r <;> simp

@[simp] theorem State.finishReading_outer (s : State) (c : Chan) (l : Leg) (r : LineRec) :
    (s.finishReading c l r).outer = s.outer := by unfold State.finishReading; (repeat' split) <;> simp

@[simp] theorem State.finishWriting_outer (s : State) (l : Leg) :
    (s.finishWriting l).outer = s.outer := by unfold State.finishWriting; (repeat' split) <;> simp

@[simp] theorem State.finishWriting_sides (s : State) (l : Leg) :
    (s.finishWriting l).sides = s.sides := by unfold State.finishWriting; (repeat' split) <;> simp

@[simp] theorem State.judgeOwner_outer (s : State) (o : Owner) :
    (s.judgeOwner o).outer = s.outer := by unfold State.judgeOwner; (repeat' split) <;> simp

@[simp] theorem State.completeRead_outer (s : State) (c : Chan) (b : BankNo) :
    (s.completeRead c b).outer = s.outer := by unfold State.completeRead; (repeat' split) <;> simp

@[simp] theorem State.moveToggle_outer (s : State) (m : Bool) :
    (s.moveToggle m).outer = s.outer := by cases m <;> rfl

@[simp] theorem State.decodeFor_outer (s : State) (t : Tag) (d : Decoded) :
    (s.decodeFor t d).outer = s.outer := by unfold State.decodeFor; (repeat' split) <;> simp

@[simp] theorem State.decodeFor_sides (s : State) (t : Tag) (d : Decoded) :
    (s.decodeFor t d).sides = s.sides := by unfold State.decodeFor; (repeat' split) <;> simp

@[simp] theorem State.readLegs_outer (s : State) (t : Tag) (z : Size) (d : Decoded) :
    (s.readLegs t z d).outer = s.outer := by unfold State.readLegs; (repeat' split) <;> simp

@[simp] theorem State.hostWrite_outer (s : State) (t : Tag) (c : Chan) (z : Size) (p : Loc) (st : LegState) (x : Store) :
    (s.hostWrite t c z p st x).outer = s.outer := by unfold State.hostWrite; (repeat' split) <;> simp

@[simp] theorem State.hostWrite_sides (s : State) (t : Tag) (c : Chan) (z : Size) (p : Loc) (st : LegState) (x : Store) :
    (s.hostWrite t c z p st x).sides = s.sides := by unfold State.hostWrite; (repeat' split) <;> simp

@[simp] theorem State.fullWriteLegs_outer (s : State) (t : Tag) (x : Bytes 64) (d : Decoded) :
    (s.fullWriteLegs t x d).outer = s.outer := by unfold State.fullWriteLegs; (repeat' split) <;> simp

@[simp] theorem State.fullWriteLegs_sides (s : State) (t : Tag) (x : Bytes 64) (d : Decoded) :
    (s.fullWriteLegs t x d).sides = s.sides := by unfold State.fullWriteLegs; (repeat' split) <;> simp

@[simp] theorem State.partWriteLegs_outer (s : State) (t : Tag) (z : Size) (d : Decoded) :
    (s.partWriteLegs t z d).outer = s.outer := by unfold State.partWriteLegs; (repeat' split) <;> simp

@[simp] theorem State.checkRd_outer (s : State) (t : Tag) (z : Size) (a : Word32) :
    (s.checkRd t z a).outer = s.outer := by unfold State.checkRd; (repeat' split) <;> simp

@[simp] theorem State.checkWr_outer (s : State) (t : Tag) (z : Size) (m : Option (BitVec 64)) (a : Word32) (x : Bytes 64) :
    (s.checkWr t z m a x).outer = s.outer := by unfold State.checkWr; (repeat' split) <;> simp

@[simp] theorem State.checkMode_outer (s : State) (t : Tag) (v : Word32) :
    (s.checkMode t v).outer = s.outer := by unfold State.checkMode; dsimp only; (repeat' split) <;> simp <;> rfl

@[simp] theorem State.paramWritten_outer (s : State) (i : Byte) (v : Word32) :
    (s.paramWritten i v).outer = s.outer := by unfold State.paramWritten; (repeat' split) <;> simp

@[simp] theorem State.paramWritten_sides (s : State) (i : Byte) (v : Word32) :
    (s.paramWritten i v).sides = s.sides := by unfold State.paramWritten; (repeat' split) <;> simp

@[simp] theorem State.checkSet_outer (s : State) (t : Tag) (i : Byte) (v : Word32) :
    (s.checkSet t i v).outer = s.outer := by unfold State.checkSet; (repeat' split) <;> simp <;> rfl

@[simp] theorem State.overridePower_outer (s : State) (c : Chan) (g : Target) :
    (s.overridePower c g).outer = s.outer := by unfold State.overridePower; (repeat' split) <;> simp

@[simp] theorem State.overridePower_sides (s : State) (c : Chan) (g : Target) :
    (s.overridePower c g).sides = s.sides := by unfold State.overridePower; (repeat' split) <;> simp

@[simp] theorem State.recordPower_outer (s : State) (c : Chan) (p : PendingPower) :
    (s.recordPower c p).outer = s.outer := by unfold State.recordPower; (repeat' split) <;> simp

@[simp] theorem State.recordPower_sides (s : State) (c : Chan) (p : PendingPower) :
    (s.recordPower c p).sides = s.sides := by unfold State.recordPower; (repeat' split) <;> simp

@[simp] theorem State.actPower_outer (s : State) (c : Chan) (g : Target) :
    (s.actPower c g).outer = s.outer := by unfold State.actPower; (repeat' split) <;> simp

@[simp] theorem State.actPower_sides (s : State) (c : Chan) (g : Target) :
    (s.actPower c g).sides = s.sides := by unfold State.actPower; (repeat' split) <;> simp

/-- A POWER is accepted exactly when no channel that it names refuses it (R127, R203). -/
theorem State.pwrRefusal_eq_none (s : State) (sel : ChanSel) (g : Target) :
    s.pwrRefusal sel g = none ↔ ∀ c, sel.names c = true → s.powerRefusal c g = none := by
  have busy : ∀ c, s.powerRefusal c g = none → (s.ch c).pwr.state ≠ .starting := by
    intro c h hs
    simp [State.powerRefusal, hs] at h
  unfold State.pwrRefusal
  constructor
  · intro h c hc
    split at h
    · cases h
    · exact (List.findSome?_eq_none_iff.mp h) c (by cases sel <;> cases c <;> simp_all [chansOf, ChanSel.names])
  · intro h
    have named : ∀ c ∈ chansOf sel, s.powerRefusal c g = none := fun c hc =>
      h c (by cases sel <;> cases c <;> simp_all [chansOf, ChanSel.names])
    rw [if_neg]
    · exact List.findSome?_eq_none_iff.mpr named
    · simpa using fun c hc => busy c (named c hc)

@[simp] theorem State.checkPwr_outer (s : State) (t : Tag) (x : ChanSel) (g : Target) :
    (s.checkPwr t x g).outer = s.outer := by
  unfold State.checkPwr
  split
  · simp
  · dsimp only
    rw [foldl_keeps _ _ (fun u x => State.actPower_outer u x g),
      foldl_keeps _ _ (fun u x => State.recordPower_outer u x _),
      foldl_keeps _ _ (fun u x => State.overridePower_outer u x g)]

@[simp] theorem State.checkPwr_sides (s : State) (t : Tag) (x : ChanSel) (g : Target) :
    (s.checkPwr t x g).sides = s.sides := by
  unfold State.checkPwr
  split
  · simp
  · dsimp only
    rw [foldl_keeps _ _ (fun u x => State.actPower_sides u x g),
      foldl_keeps _ _ (fun u x => State.recordPower_sides u x _),
      foldl_keeps _ _ (fun u x => State.overridePower_sides u x g)]

@[simp] theorem State.trimFor_outer (s : State) (t : Tag) (c : Chan) :
    (s.trimFor t c).outer = s.outer := by unfold State.trimFor; (repeat' split) <;> simp

@[simp] theorem State.trimFor_sides (s : State) (t : Tag) (c : Chan) :
    (s.trimFor t c).sides = s.sides := by unfold State.trimFor; (repeat' split) <;> simp

@[simp] theorem State.checkTrim_outer (s : State) (t : Tag) (x : ChanSel) :
    (s.checkTrim t x).outer = s.outer := by
  unfold State.checkTrim
  split
  · simp
  · exact foldl_keeps _ _ (fun u x => State.trimFor_outer u t x) _ _

@[simp] theorem State.checkTrim_sides (s : State) (t : Tag) (x : ChanSel) :
    (s.checkTrim t x).sides = s.sides := by
  unfold State.checkTrim
  split
  · simp
  · exact foldl_keeps _ _ (fun u x => State.trimFor_sides u t x) _ _

@[simp] theorem State.trimEnded_outer (s : State) (c : Chan) (t : Tag) :
    (s.trimEnded c t).outer = s.outer := by unfold State.trimEnded; (repeat' split) <;> simp

@[simp] theorem State.trimEnded_sides (s : State) (c : Chan) (t : Tag) :
    (s.trimEnded c t).sides = s.sides := by unfold State.trimEnded; (repeat' split) <;> simp

@[simp] theorem State.checkSvcOut_outer (s : State) (t : Tag) (c : Chan) :
    (s.checkSvcOut t c).outer = s.outer := by unfold State.checkSvcOut; (repeat' split) <;> simp

@[simp] theorem State.startRebuild_outer (s : State) (c : Chan) :
    (s.startRebuild c).outer = s.outer := rfl

@[simp] theorem State.checkSvcIn_outer (s : State) (t : Tag) (c : Chan) :
    (s.checkSvcIn t c).outer = s.outer := by unfold State.checkSvcIn; (repeat' split) <;> simp

@[simp] theorem State.checkGet_outer (s : State) (t : Tag) (i : Byte) :
    (s.checkGet t i).outer = s.outer := by unfold State.checkGet; (repeat' split) <;> simp

@[simp] theorem State.checkGet_sides (s : State) (t : Tag) (i : Byte) :
    (s.checkGet t i).sides = s.sides := by unfold State.checkGet; (repeat' split) <;> simp

@[simp] theorem State.checkStat_outer (s : State) (t : Tag) :
    (s.checkStat t).outer = s.outer := by unfold State.checkStat; (repeat' split) <;> simp

@[simp] theorem State.checkStat_sides (s : State) (t : Tag) :
    (s.checkStat t).sides = s.sides := by unfold State.checkStat; (repeat' split) <;> simp

@[simp] theorem State.checkHeld_outer (s : State) (t : Tag) (q : Req) :
    (s.checkHeld t q).outer = s.outer := by
  unfold State.checkHeld
  split <;> first | rfl | simp

@[simp] theorem State.answerBarrier_outer (s : State) :
    (s.answerBarrier).outer = s.outer := by
  unfold State.answerBarrier
  split
  · rfl
  · simp; rfl

@[simp] theorem State.answerBarrier_sides (s : State) :
    (s.answerBarrier).sides = s.sides := by
  unfold State.answerBarrier
  split
  · rfl
  · simp; rfl

@[simp] theorem State.releaseHead_outer (s : State) :
    (s.releaseHead).outer = s.outer := by
  unfold State.releaseHead
  split
  · rfl
  · dsimp only
    split
    · rfl
    · simp; rfl

@[simp] theorem State.releaseLoop_outer (n : Nat) (s : State) :
    (s.releaseLoop n).outer = s.outer := by
  induction n generalizing s with
  | zero => rfl
  | succ n ih =>
    unfold State.releaseLoop
    (repeat' split) <;> simp [ih]

@[simp] theorem State.release_outer (s : State) :
    (s.release).outer = s.outer := by unfold State.release; (repeat' split) <;> simp

@[simp] theorem State.cancel_outer (s : State) (v : Tag) :
    (s.cancel v).outer = s.outer := by
  unfold State.cancel
  simp only [State.release_outer, State.answer_outer]
  show ((s.removeWhere .a _).removeWhere .b _).outer = _
  simp

@[simp] theorem State.checkCan_outer (s : State) (t v : Tag) :
    (s.checkCan t v).outer = s.outer := by unfold State.checkCan; (repeat' split) <;> simp

@[simp] theorem State.drainChannel_outer (s : State) (c : Chan) :
    (s.drainChannel c).outer = s.outer := by unfold State.drainChannel; dsimp only; split <;> simp

@[simp] theorem State.drainChannel_sides (s : State) (c : Chan) :
    (s.drainChannel c).sides = s.sides := by unfold State.drainChannel; dsimp only; split <;> simp

@[simp] theorem State.beginRestart_outer (s : State) (t : Tag) :
    (s.beginRestart t).outer = s.outer := by
  have h1 (u : State) (x : Table) : ({ u with table := x } : State).outer = u.outer := rfl
  simp [State.beginRestart, h1]

@[simp] theorem State.restoreSettings_outer (s : State) :
    (s.restoreSettings).outer = s.outer := by unfold State.restoreSettings; dsimp only; split <;> rfl

@[simp] theorem State.endRestart_outer (s : State) :
    (s.endRestart).outer = s.outer := by
  unfold State.endRestart
  simp only [State.callDecision_outer, State.recompute_outer]
  split
  · rw [State.answer_outer]; exact State.restoreSettings_outer s
  · exact State.restoreSettings_outer s

@[simp] theorem State.runChecks_outer (s : State) (t : Tag) (q : Req) :
    (s.runChecks t q).outer = s.outer := by unfold State.runChecks; (repeat' split) <;> simp

@[simp] theorem State.createEntry_outer (s : State) (t : Tag) (q : Req) (st : EntryState) :
    (s.createEntry t q st).outer = s.outer := rfl

@[simp] theorem State.createEntry_sides (s : State) (t : Tag) (q : Req) (st : EntryState) :
    (s.createEntry t q st).sides = s.sides := rfl

@[simp] theorem State.enterRequest_outer (s : State) (t : Tag) (q : Req) :
    (s.enterRequest t q).outer = s.outer := by unfold State.enterRequest; split <;> simp <;> rfl

@[simp] theorem State.takeMessage_outer (s : State) (m : RawMsg) :
    (s.takeMessage m).outer = s.outer := by unfold State.takeMessage; (repeat' split) <;> simp

@[simp] theorem State.applyAck_outer (s : State) (a : Byte) :
    (s.applyAck a).outer = s.outer := by unfold State.applyAck; (repeat' split) <;> simp

@[simp] theorem State.takeSync_outer (s : State) :
    (s.takeSync).outer = s.outer := by unfold State.takeSync; (repeat' split) <;> simp

@[simp] theorem State.takeRequestFrame_outer (s : State) (h : FrameHdr) (m : RawMsg) :
    (s.takeRequestFrame h m).outer = s.outer := by unfold State.takeRequestFrame; (repeat' split) <;> simp

@[simp] theorem State.takeBadFrame_outer (s : State) :
    (s.takeBadFrame).outer = s.outer := by unfold State.takeBadFrame; (repeat' split) <;> simp

@[simp] theorem State.takeAhead_outer (s : State) (d : Fin 127) (a : Byte) :
    (s.takeAhead d a).outer = s.outer := by unfold State.takeAhead; (repeat' split) <;> simp

@[simp] theorem State.takeBehind_outer (s : State) (d : Fin 128) (a : Byte) :
    (s.takeBehind d a).outer = s.outer := by unfold State.takeBehind; (repeat' split) <;> simp

@[simp] theorem State.takeAck_outer (s : State) (a : Byte) :
    (s.takeAck a).outer = s.outer := by unfold State.takeAck; (repeat' split) <;> simp

@[simp] theorem State.takeRsnd_outer (s : State) (n : Byte) :
    (s.takeRsnd n).outer = s.outer := by unfold State.takeRsnd; (repeat' split) <;> simp

@[simp] theorem State.sendControl_outer (s : State) :
    (s.sendControl).outer = s.outer := by unfold State.sendControl; (repeat' split) <;> simp

@[simp] theorem State.resend_outer (s : State) :
    (s.resend).outer = s.outer := by unfold State.resend; (repeat' split) <;> simp

@[simp] theorem State.releaseTaken_outer (s : State) (q : QueueItem) :
    (s.releaseTaken q).outer = s.outer := by unfold State.releaseTaken; (repeat' split) <;> simp

@[simp] theorem State.releaseTaken_sides (s : State) (q : QueueItem) :
    (s.releaseTaken q).sides = s.sides := by unfold State.releaseTaken; (repeat' split) <;> simp

@[simp] theorem State.sendAnswer_outer (s : State) :
    (s.sendAnswer).outer = s.outer := by unfold State.sendAnswer; split <;> first | rfl | (simp; rfl)

@[simp] theorem State.sendNotice_outer (s : State) :
    (s.sendNotice).outer = s.outer := by unfold State.sendNotice; split <;> first | rfl | (simp; rfl)

@[simp] theorem State.beginSweep_outer (s : State) (c : Chan) :
    (s.beginSweep c).outer = s.outer := by unfold State.beginSweep; (repeat' split) <;> simp

@[simp] theorem State.beginSweep_sides (s : State) (c : Chan) :
    (s.beginSweep c).sides = s.sides := by unfold State.beginSweep; (repeat' split) <;> simp

@[simp] theorem State.beginShortTrim_outer (s : State) (c : Chan) :
    (s.beginShortTrim c).outer = s.outer := by unfold State.beginShortTrim; (repeat' split) <;> simp

@[simp] theorem State.beginShortTrim_sides (s : State) (c : Chan) :
    (s.beginShortTrim c).sides = s.sides := by unfold State.beginShortTrim; (repeat' split) <;> simp

@[simp] theorem State.beginOp_outer (s : State) (c : Chan) (o : Operation) :
    (s.beginOp c o).outer = s.outer := by unfold State.beginOp; (repeat' split) <;> simp

@[simp] theorem State.beginOp_sides (s : State) (c : Chan) (o : Operation) :
    (s.beginOp c o).sides = s.sides := by unfold State.beginOp; (repeat' split) <;> simp

@[simp] theorem State.openSettled_outer (s : State) (c : Chan) (b : BankNo) :
    (s.openSettled c b).outer = s.outer := by unfold State.openSettled; (repeat' split) <;> simp

@[simp] theorem State.openSettled_sides (s : State) (c : Chan) (b : BankNo) :
    (s.openSettled c b).sides = s.sides := by unfold State.openSettled; (repeat' split) <;> simp

@[simp] theorem State.minimumOpenExpired_outer (s : State) (c : Chan) (b : BankNo) :
    (s.minimumOpenExpired c b).outer = s.outer := by unfold State.minimumOpenExpired; (repeat' split) <;> simp

@[simp] theorem State.minimumOpenExpired_sides (s : State) (c : Chan) (b : BankNo) :
    (s.minimumOpenExpired c b).sides = s.sides := by unfold State.minimumOpenExpired; (repeat' split) <;> simp

@[simp] theorem State.rowCycleExpired_outer (s : State) (c : Chan) (b : BankNo) :
    (s.rowCycleExpired c b).outer = s.outer := by unfold State.rowCycleExpired; (repeat' split) <;> simp

@[simp] theorem State.rowCycleExpired_sides (s : State) (c : Chan) (b : BankNo) :
    (s.rowCycleExpired c b).sides = s.sides := by unfold State.rowCycleExpired; (repeat' split) <;> simp

@[simp] theorem State.closeExpired_outer (s : State) (c : Chan) (b : BankNo) :
    (s.closeExpired c b).outer = s.outer := by unfold State.closeExpired; (repeat' split) <;> simp

@[simp] theorem State.closeExpired_sides (s : State) (c : Chan) (b : BankNo) :
    (s.closeExpired c b).sides = s.sides := by unfold State.closeExpired; (repeat' split) <;> simp

@[simp] theorem State.writeRecoveryExpired_outer (s : State) (c : Chan) (b : BankNo) :
    (s.writeRecoveryExpired c b).outer = s.outer := by unfold State.writeRecoveryExpired; (repeat' split) <;> simp

@[simp] theorem State.writeRecoveryExpired_sides (s : State) (c : Chan) (b : BankNo) :
    (s.writeRecoveryExpired c b).sides = s.sides := by unfold State.writeRecoveryExpired; (repeat' split) <;> simp

@[simp] theorem State.idleCloseExpired_outer (s : State) (c : Chan) (b : BankNo) :
    (s.idleCloseExpired c b).outer = s.outer := by unfold State.idleCloseExpired; (repeat' split) <;> simp

@[simp] theorem State.idleCloseExpired_sides (s : State) (c : Chan) (b : BankNo) :
    (s.idleCloseExpired c b).sides = s.sides := by unfold State.idleCloseExpired; (repeat' split) <;> simp

@[simp] theorem State.openSpacingExpired_outer (s : State) (c : Chan) :
    (s.openSpacingExpired c).outer = s.outer := by unfold State.openSpacingExpired; (repeat' split) <;> simp

@[simp] theorem State.openSpacingExpired_sides (s : State) (c : Chan) :
    (s.openSpacingExpired c).sides = s.sides := by unfold State.openSpacingExpired; (repeat' split) <;> simp

@[simp] theorem State.openingWindowExpired_outer (s : State) (c : Chan) :
    (s.openingWindowExpired c).outer = s.outer := by unfold State.openingWindowExpired; (repeat' split) <;> simp

@[simp] theorem State.openingWindowExpired_sides (s : State) (c : Chan) :
    (s.openingWindowExpired c).sides = s.sides := by unfold State.openingWindowExpired; (repeat' split) <;> simp

@[simp] theorem State.sweepEnded_outer (s : State) (c : Chan) :
    (s.sweepEnded c).outer = s.outer := by unfold State.sweepEnded; (repeat' split) <;> simp

@[simp] theorem State.sweepEnded_sides (s : State) (c : Chan) :
    (s.sweepEnded c).sides = s.sides := by unfold State.sweepEnded; (repeat' split) <;> simp

@[simp] theorem State.reportWaiters_outer (s : State) (c : Chan) :
    (s.reportWaiters c).outer = s.outer := by
  unfold State.reportWaiters
  dsimp only
  split
  · rw [foldl_keeps State.outer _ (fun u x => State.trimEnded_outer u c x)]; simp
  · rw [foldl_keeps State.outer _ (fun u x => State.trimEnded_outer u c x)]
    exact State.modRefr_outer s c _

@[simp] theorem State.shortTrimEnded_outer (s : State) (c : Chan) :
    (s.shortTrimEnded c).outer = s.outer := by unfold State.shortTrimEnded; (repeat' split) <;> simp

@[simp] theorem State.judgeReady_outer (s : State) :
    (s.judgeReady).outer = s.outer := by unfold State.judgeReady; split <;> simp <;> rfl

@[simp] theorem State.longTrimEnded_outer (s : State) (c : Chan) :
    (s.longTrimEnded c).outer = s.outer := by unfold State.longTrimEnded; (repeat' split) <;> simp

@[simp] theorem State.refreshExpired_outer (s : State) (c : Chan) :
    (s.refreshExpired c).outer = s.outer := by unfold State.refreshExpired; dsimp only; split <;> simp

@[simp] theorem State.refreshExpired_sides (s : State) (c : Chan) :
    (s.refreshExpired c).sides = s.sides := by unfold State.refreshExpired; dsimp only; split <;> simp

@[simp] theorem State.napIdleExpired_outer (s : State) (c : Chan) :
    (s.napIdleExpired c).outer = s.outer := by unfold State.napIdleExpired; (repeat' split) <;> simp

@[simp] theorem State.napIdleExpired_sides (s : State) (c : Chan) :
    (s.napIdleExpired c).sides = s.sides := by unfold State.napIdleExpired; (repeat' split) <;> simp

@[simp] theorem State.retainIdleExpired_outer (s : State) (c : Chan) :
    (s.retainIdleExpired c).outer = s.outer := by unfold State.retainIdleExpired; dsimp only; split <;> simp

@[simp] theorem State.retainIdleExpired_sides (s : State) (c : Chan) :
    (s.retainIdleExpired c).sides = s.sides := by unfold State.retainIdleExpired; dsimp only; split <;> simp

@[simp] theorem State.activeReached_outer (s : State) (c : Chan) :
    (s.activeReached c).outer = s.outer := by unfold State.activeReached; (repeat' split) <;> simp

@[simp] theorem State.activeReached_sides (s : State) (c : Chan) :
    (s.activeReached c).sides = s.sides := by unfold State.activeReached; (repeat' split) <;> simp

@[simp] theorem State.napExitExpired_outer (s : State) (c : Chan) :
    (s.napExitExpired c).outer = s.outer := by unfold State.napExitExpired; (repeat' split) <;> simp

@[simp] theorem State.napExitExpired_sides (s : State) (c : Chan) :
    (s.napExitExpired c).sides = s.sides := by unfold State.napExitExpired; (repeat' split) <;> simp

@[simp] theorem State.retainExitExpired_outer (s : State) (c : Chan) :
    (s.retainExitExpired c).outer = s.outer := by unfold State.retainExitExpired; (repeat' split) <;> simp

@[simp] theorem State.retainExitExpired_sides (s : State) (c : Chan) :
    (s.retainExitExpired c).sides = s.sides := by unfold State.retainExitExpired; (repeat' split) <;> simp

@[simp] theorem State.doWork_outer (s : State) (w : Work) :
    (s.doWork w).outer = s.outer := by unfold State.doWork; (repeat' split) <;> simp

@[simp] theorem State.endDecisions_outer (s : State) :
    (s.endDecisions).outer = s.outer := by unfold State.endDecisions; (repeat' split) <;> simp

@[simp] theorem State.endDecisions_sides (s : State) :
    (s.endDecisions).sides = s.sides := by unfold State.endDecisions; (repeat' split) <;> simp

@[simp] theorem State.settleLoop_outer (n : Nat) (s : State) :
    (State.settleLoop n s).outer = s.outer := by
  induction n generalizing s with
  | zero => simp [State.settleLoop]
  | succ n ih =>
    unfold State.settleLoop
    split
    · simp
    · rw [ih]; simp

@[simp] theorem State.settled_outer (s : State) :
    (s.settled).outer = s.outer := by unfold State.settled; (repeat' split) <;> simp

end Sys2Proof.Machine
end

