-- ==== Sys2Proof/Laws/Memory.lean ====
section
/-! SUPPORT. The storage array: reading after a write, and the canonical form that every write keeps. -/

namespace Sys2Proof.Machine
open Sys2Proof

theorem recordIndex_inj {c d : Chan} {m n : Nat} (h : recordIndex c m = recordIndex d n) :
    c = d ∧ m = n := by
  cases c <;> cases d <;> simp [recordIndex, Chan.num] at h ⊢ <;> omega

theorem recordIndex_lt {c : Chan} {m : Nat} (h : m < Config.channelLines) :
    recordIndex c m < 2 * Config.channelLines := by
  cases c <;> simp only [recordIndex, Chan.num] <;> omega

theorem Loc.line_lt (l : Loc) : l.line < Config.channelLines := by
  have h1 := l.row.isLt
  have h2 := l.col.isLt
  have h3 := l.bank.isLt
  simp only [Loc.line, Config.channelLines]
  omega

theorem LineRec.isUnset_iff (r : LineRec) : r.isUnset = true ↔ r = .unset := by
  cases r <;> simp [LineRec.isUnset]

theorem cellsRead_of_lt {k lo : Nat} (hk : k < lo) (l : List (Nat × LineRec)) (h : cellsWf lo l = true) :
    cellsRead k l = .unset := by
  induction l generalizing lo with
  | nil => rfl
  | cons p t ih =>
    obtain ⟨a, r⟩ := p
    simp only [cellsWf, Bool.and_eq_true, decide_eq_true_eq] at h
    simp only [cellsRead]
    rw [if_neg (by omega)]
    exact ih (lo := a + 1) (by omega) h.2

theorem cellsRead_cellsWrite_ne {j k : Nat} (h : j ≠ k) (r : LineRec) (l : List (Nat × LineRec)) :
    cellsRead j (cellsWrite k r l) = cellsRead j l := by
  induction l with
  | nil =>
    cases hr : r.isUnset <;> simp [cellsWrite, cellsRead, hr, Ne.symm h]
  | cons p t ih =>
    obtain ⟨a, x⟩ := p
    simp only [cellsWrite]
    split
    · cases hr : r.isUnset <;> simp [cellsRead, Ne.symm h]
    · split
      · rename_i hka
        subst hka
        cases hr : r.isUnset <;> simp [cellsRead, Ne.symm h]
      · simp only [cellsRead, ih]

theorem cellsRead_cellsWrite_self {k lo : Nat} (r : LineRec) (l : List (Nat × LineRec))
    (h : cellsWf lo l = true) : cellsRead k (cellsWrite k r l) = r := by
  induction l generalizing lo with
  | nil =>
    cases hr : r.isUnset
    · simp [cellsWrite, cellsRead, hr]
    · rw [r.isUnset_iff.mp hr]
      rfl
  | cons p t ih =>
    obtain ⟨a, x⟩ := p
    have h' := h
    simp only [cellsWf, Bool.and_eq_true, decide_eq_true_eq] at h
    simp only [cellsWrite]
    split
    · rename_i hka
      cases hr : r.isUnset
      · simp [cellsRead]
      · rw [if_pos rfl, r.isUnset_iff.mp hr]
        refine cellsRead_of_lt (lo := a) (by omega) _ ?_
        simp only [cellsWf, Bool.and_eq_true, decide_eq_true_eq]
        exact ⟨⟨⟨Nat.le_refl a, h.1.1.2⟩, h.1.2⟩, h.2⟩
    · split
      · rename_i hka
        subst hka
        cases hr : r.isUnset
        · simp [cellsRead]
        · rw [if_pos rfl, r.isUnset_iff.mp hr]
          exact cellsRead_of_lt (lo := k + 1) (by omega) _ h.2
      · rename_i hne
        simp only [cellsRead]
        rw [if_neg (Ne.symm hne)]
        exact ih h.2

theorem cellsWrite_wf {k lo : Nat} (hk : k < 2 * Config.channelLines) (hlo : lo ≤ k) (r : LineRec)
    (l : List (Nat × LineRec)) (h : cellsWf lo l = true) : cellsWf lo (cellsWrite k r l) = true := by
  induction l generalizing lo with
  | nil =>
    cases hr : r.isUnset <;> simp [cellsWrite, cellsWf, hr, hlo, hk]
  | cons p t ih =>
    obtain ⟨a, x⟩ := p
    have h' := h
    simp only [cellsWf, Bool.and_eq_true, decide_eq_true_eq, Bool.not_eq_eq_eq_not, Bool.not_true] at h
    obtain ⟨⟨⟨h1, h2⟩, h3⟩, h4⟩ := h
    simp only [cellsWrite]
    split
    · rename_i hka
      cases hr : r.isUnset
      · simp only [Bool.false_eq_true, if_false, cellsWf, Bool.and_eq_true, decide_eq_true_eq,
          Bool.not_eq_eq_eq_not, Bool.not_true]
        exact ⟨⟨⟨hlo, hk⟩, hr⟩, ⟨⟨⟨by omega, h2⟩, h3⟩, h4⟩⟩
      · simpa using h'
    · split
      · rename_i hka
        subst hka
        cases hr : r.isUnset
        · simp only [Bool.false_eq_true, if_false, cellsWf, Bool.and_eq_true, decide_eq_true_eq,
            Bool.not_eq_eq_eq_not, Bool.not_true]
          exact ⟨⟨⟨hlo, hk⟩, hr⟩, h4⟩
        · simp only [if_true]
          clear ih h'
          cases t with
          | nil => rfl
          | cons q t =>
            simp only [cellsWf, Bool.and_eq_true, decide_eq_true_eq] at h4 ⊢
            exact ⟨⟨⟨by omega, h4.1.1.2⟩, h4.1.2⟩, h4.2⟩
      · simp only [cellsWf, Bool.and_eq_true, decide_eq_true_eq, Bool.not_eq_eq_eq_not, Bool.not_true]
        exact ⟨⟨⟨h1, h2⟩, h3⟩, ih (by omega) h4⟩

/-- Reading a record after it was written. -/
theorem Memory.read_write_self (mem : Memory) (h : mem.wf = true) (c : Chan) (m : Nat) (r : LineRec) :
    (mem.write c m r).read c m = r :=
  cellsRead_cellsWrite_self r _ h

/-- Reading another record after a write; it holds of every list, canonical or not. -/
theorem Memory.read_write_ne (mem : Memory) {c d : Chan} {m n : Nat} (h : ¬(d = c ∧ n = m)) (r : LineRec) :
    (mem.write c m r).read d n = mem.read d n :=
  cellsRead_cellsWrite_ne (fun e => h (recordIndex_inj e)) r _

/-- A write of a line of the array keeps the canonical form. -/
theorem Memory.wf_write (mem : Memory) (h : mem.wf = true) (c : Chan) {m : Nat}
    (hm : m < Config.channelLines) (r : LineRec) : (mem.write c m r).wf = true :=
  cellsWrite_wf (recordIndex_lt hm) (Nat.zero_le _) r _ h

theorem Memory.wf_powerOn (now draws : Nat) (p : List Instr) : (State.powerOn now draws p).mem.wf = true := rfl

end Sys2Proof.Machine
end

