-- ==== Sys2Proof/Laws/Step.lean ====
section
/-! SUPPORT. How a command is taken, said once: what each of the five ways answers, what the work left by
past events can change, and for every property the conditions under which a command keeps it. -/

namespace Sys2Proof.Machine
open Sys2Proof

/-! ### The work left by past events -/

@[simp] theorem State.live_settled (s : State) : s.settled.live = s.live := by
  have h := State.outer_fields (State.settled_outer s)
  simp [State.live, h.2.1, h.2.2.1]

@[simp] theorem State.mem_settled (s : State) : s.settled.mem = s.mem :=
  (State.outer_fields (State.settled_outer s)).2.2.2.1

@[simp] theorem State.clock_settled (s : State) : s.settled.clock = s.clock :=
  (State.outer_fields (State.settled_outer s)).1

@[simp] theorem State.therm_settled (s : State) : s.settled.therm = s.therm :=
  (State.outer_fields (State.settled_outer s)).2.2.2.2.1

@[simp] theorem State.pending_settled (s : State) : s.settled.pending = s.pending :=
  (State.outer_fields (State.settled_outer s)).2.2.2.2.2

@[simp] theorem State.mem_conclude (s : State) : s.conclude.mem = s.mem :=
  (State.outer_fields (State.conclude_outer s)).2.2.2.1

@[simp] theorem State.mir_conclude (s : State) : s.conclude.mir = s.mir :=
  (State.sides_fields (State.conclude_sides s)).1

@[simp] theorem State.notices_conclude (s : State) : s.conclude.notices = s.notices :=
  (State.sides_fields (State.conclude_sides s)).2.1

@[simp] theorem State.conf_conclude (s : State) : s.conclude.conf = s.conf :=
  (State.sides_fields (State.conclude_sides s)).2.2.1

@[simp] theorem State.link_conclude (s : State) : s.conclude.link = s.link :=
  (State.sides_fields (State.conclude_sides s)).2.2.2.1

@[simp] theorem State.table_judgeIdle (s : State) (c : Chan) : (s.judgeIdle c).table = s.table := by
  simp [State.judgeIdle]

@[simp] theorem State.table_conclude (s : State) : s.conclude.table = s.table := by
  simp [State.conclude]

@[simp] theorem State.host_conclude (s : State) (g : Tag) : s.conclude.host g = s.host g := by
  simp [State.host]

@[simp] theorem State.ctl_judgeIdle (s : State) (c d : Chan) : ((s.judgeIdle c).ch d).ctl = (s.ch d).ctl := by
  simp [State.judgeIdle]

@[simp] theorem State.refr_judgeIdle (s : State) (c d : Chan) :
    ((s.judgeIdle c).ch d).refr = (s.ch d).refr := by
  simp [State.judgeIdle]

@[simp] theorem State.ctl_conclude (s : State) (d : Chan) : (s.conclude.ch d).ctl = (s.ch d).ctl := by
  simp [State.conclude]

@[simp] theorem State.refr_conclude (s : State) (d : Chan) : (s.conclude.ch d).refr = (s.ch d).refr := by
  simp [State.conclude]

/-- The judgement of idleness leaves the power state, the other timers and the pending request. -/
theorem State.pwr_judgeIdle (s : State) (c d : Chan) :
    ((s.judgeIdle c).ch d).pwr.state = (s.ch d).pwr.state ∧
      ((s.judgeIdle c).ch d).pwr.retainIdle = (s.ch d).pwr.retainIdle ∧
      ((s.judgeIdle c).ch d).pwr.exit = (s.ch d).pwr.exit ∧
      ((s.judgeIdle c).ch d).pwr.onward = (s.ch d).pwr.onward ∧
      ((s.judgeIdle c).ch d).pwr.pendingPower = (s.ch d).pwr.pendingPower := by
  cases c <;> cases d <;> exact ⟨rfl, rfl, rfl, rfl, rfl⟩

theorem State.pwr_conclude (s : State) (d : Chan) :
    (s.conclude.ch d).pwr.state = (s.ch d).pwr.state ∧
      (s.conclude.ch d).pwr.retainIdle = (s.ch d).pwr.retainIdle ∧
      (s.conclude.ch d).pwr.exit = (s.ch d).pwr.exit ∧
      (s.conclude.ch d).pwr.onward = (s.ch d).pwr.onward ∧
      (s.conclude.ch d).pwr.pendingPower = (s.ch d).pwr.pendingPower := by
  cases d <;> exact ⟨rfl, rfl, rfl, rfl, rfl⟩

/-! ### Reports and judgements: no entry, no leg and no power state is changed by them -/

@[simp] theorem State.table_report (s : State) (c : Chan) : (s.report c).table = s.table := by
  unfold State.report State.recompute
  simp only [State.table_judgeIdle]
  (repeat' split) <;> simp [State.callDecision]

@[simp] theorem State.queue_report (s : State) (c d : Chan) :
    ((s.report c).ch d).ctl.queue = (s.ch d).ctl.queue := by
  unfold State.report State.recompute
  simp only [State.ctl_judgeIdle]
  (repeat' split) <;> first | rfl | (cases c <;> cases d <;> rfl)

theorem Control.queue_judgeBank (k : Control) (f : Settings) (now : Nat) (b : BankNo) :
    (k.judgeBank f now b).queue = k.queue := by
  unfold Control.judgeBank; split <;> rfl

@[simp] theorem State.table_judge (s : State) (j : Judgement) : (s.judge j).table = s.table := by
  cases j <;> simp [State.judge, State.judgeBank]

@[simp] theorem State.queue_judge (s : State) (j : Judgement) (d : Chan) :
    ((s.judge j).ch d).ctl.queue = (s.ch d).ctl.queue := by
  cases j with
  | channel c => simp [State.judge]
  | bank c b =>
    cases c <;> cases d <;> first | rfl | exact Control.queue_judgeBank _ _ _ _

theorem State.state_judge (s : State) (j : Judgement) (d : Chan) :
    ((s.judge j).ch d).pwr.state = (s.ch d).pwr.state := by
  cases j with
  | channel c => cases c <;> cases d <;> rfl
  | bank c b => cases c <;> cases d <;> rfl

@[simp] theorem State.table_later (s : State) (j : Judgement) : (s.later j).table = s.table := by
  unfold State.later; split <;> simp

@[simp] theorem State.queue_later (s : State) (j : Judgement) (d : Chan) :
    ((s.later j).ch d).ctl.queue = (s.ch d).ctl.queue := by
  unfold State.later; split
  · simp
  · cases d <;> rfl

theorem State.state_later (s : State) (j : Judgement) (d : Chan) :
    ((s.later j).ch d).pwr.state = (s.ch d).pwr.state := by
  unfold State.later; split
  · exact State.state_judge s j d
  · cases d <;> rfl

@[simp] theorem State.table_judgeDue (s : State) : s.judgeDue.table = s.table := by
  unfold State.judgeDue; split
  · exact foldl_keeps (fun u : State => u.table) _ (fun u x => State.table_judge u x) _ _
  · rfl

@[simp] theorem State.queue_judgeDue (s : State) (d : Chan) :
    (s.judgeDue.ch d).ctl.queue = (s.ch d).ctl.queue := by
  unfold State.judgeDue; split
  · refine (foldl_keeps (fun u : State => (u.ch d).ctl.queue) _ (fun u x => State.queue_judge u x d) _ _).trans ?_
    cases d <;> rfl
  · rfl

/-! ### What each way of taking a command answers -/

theorem State.event_live {s : State} (h : s.live = true) (f : State → State) :
    s.event f = .next (f s.settled).conclude := by simp [State.event, h]

theorem State.event_dead {s : State} (h : s.live = false) (f : State → State) : s.event f = .next s := by
  simp [State.event, h]

theorem State.expiry_expires {s : State} {timer : State → Timer} {m : Nat} (h : s.expires timer m = true)
    (f : State → State) : s.expiry timer f = .next (f (s.atMoment m)).conclude := by
  simp only [State.expires, Bool.and_eq_true, beq_iff_eq] at h
  simp [State.expiry, h.1.1, h.1.2, h.2, State.atMoment]

theorem State.expiry_dead {s : State} (h : s.live = false) (timer : State → Timer) (f : State → State) :
    s.expiry timer f = .next s := by simp [State.expiry, h]

theorem State.expiry_not_due {s : State} (h : s.live = true) {timer : State → Timer} {f : State → State}
    (hm : ∀ m, timer s.settled = some m → s.settled.mayTake m = false) :
    s.expiry timer f = .next s.settled := by
  simp only [State.expiry, h, if_true]
  split
  · rfl
  · rename_i m hm'
    simp [hm m hm']

theorem State.own_due {s : State} (h : s.live = true) (f : State → State) :
    s.own true f = .next (f s).conclude := by simp [State.own, h]

theorem State.own_not_due (s : State) (f : State → State) : s.own false f = .next s := by
  simp [State.own]

theorem State.operation_starts {s : State} {c : Chan} {op : Operation} (h : s.starts c op = true)
    {want : Operation → Bool} (hw : want op = true) :
    s.operation c want = .next (s.beginOp c op).conclude := by
  simp only [State.starts, Bool.and_eq_true, beq_iff_eq] at h
  simp [State.operation, h.2, State.own, h.1.1, h.1.2, hw]

theorem State.arbiter_sends {s : State} {want : Choice} (h : s.sends want = true) (f : State → State) :
    s.arbiter want f = .next (f s.settled).conclude := by
  simp only [State.sends, Bool.and_eq_true, beq_iff_eq] at h
  simp [State.arbiter, h.1, h.2]

/-! ### What every command keeps -/

/-- A property that every piece of work keeps, and the reports that close it, holds of the settled state. -/
theorem State.settled_keeps {P : State → Prop}
    (hw : ∀ s w, s.nextWork = some w → P s → P (s.doWork w))
    (hc : ∀ s, P s → P s.conclude) (he : ∀ s, P s → P s.endDecisions) {s : State} (h : P s) :
    P s.settled := by
  have hl (n : Nat) : ∀ s, P s → P (State.settleLoop n s) := by
    induction n with
    | zero => exact fun s hs => he s hs
    | succ n ih =>
      intro s hs
      unfold State.settleLoop
      split
      · exact he s hs
      · rename_i w hn
        exact ih _ (hc _ (hw s w hn hs))
  exact hl _ s h

theorem State.event_keeps {P : State → Prop} {s t : State} {f : State → State}
    (hset : P s → P s.settled) (hc : ∀ s, P s → P s.conclude) (hf : P s.settled → P (f s.settled))
    (he : s.event f = .next t) (h : P s) : P t := by
  cases hl : s.live
  · rw [State.event_dead hl] at he
    cases he
    exact h
  · rw [State.event_live hl] at he
    cases he
    exact hc _ (hf (hset h))

theorem State.expiry_keeps {P : State → Prop} {s t : State} {timer : State → Timer} {f : State → State}
    (hset : P s → P s.settled) (hc : ∀ s, P s → P s.conclude)
    (hf : ∀ m, timer s.settled = some m → s.settled.mayTake m = true → P s.settled →
      P (f { s.settled with clock := max s.settled.clock m }))
    (he : s.expiry timer f = .next t) (h : P s) : P t := by
  unfold State.expiry at he
  split at he
  · dsimp only at he
    split at he
    · cases he
      exact hset h
    · rename_i m hm
      split at he
      · cases he
        exact hc _ (hf m hm (by assumption) (hset h))
      · cases he
        exact hset h
  · cases he
    exact h

theorem State.own_keeps {P : State → Prop} {s t : State} {due : Bool} {f : State → State}
    (hc : ∀ s, P s → P s.conclude) (hf : due = true → P s → P (f s)) (he : s.own due f = .next t)
    (h : P s) : P t := by
  unfold State.own at he
  split at he
  · rename_i hd
    cases he
    exact hc _ (hf (by simpa using (Bool.and_eq_true _ _ ▸ hd).2) h)
  · cases he
    exact h

theorem State.operation_keeps {P : State → Prop} {s t : State} {c : Chan} {want : Operation → Bool}
    (hc : ∀ s, P s → P s.conclude)
    (hf : ∀ op, s.decisionOp c = some op → want op = true → P s → P (s.beginOp c op))
    (he : s.operation c want = .next t) (h : P s) : P t := by
  unfold State.operation at he
  split at he
  · cases he
    exact h
  · rename_i op hop
    exact State.own_keeps hc (fun hd => hf op hop (by simpa using (Bool.and_eq_true _ _ ▸ hd).2)) he h

theorem State.arbiter_keeps {P : State → Prop} {s t : State} {want : Choice} {f : State → State}
    (hset : P s → P s.settled) (hc : ∀ s, P s → P s.conclude)
    (hf : s.settled.arbiterChoice = some want → P s.settled → P (f s.settled))
    (he : s.arbiter want f = .next t) (h : P s) : P t := by
  unfold State.arbiter at he
  split at he
  · dsimp only at he
    split at he
    · cases he
      exact hc _ (hf (by assumption) (hset h))
    · cases he
      exact hset h
  · cases he
    exact h

/-! ### Request rows -/

theorem State.settled_link_up_of_hears {s : State} {h : FrameHdr} (hh : s.hears h = true) :
    s.live = true ∧ s.settled.link.up = true ∧ h.seq = s.settled.link.expected := by
  simpa [State.hears, and_assoc] using hh

@[simp] theorem Link.expected_applyAck (l : Link) (now timeout : Nat) (x : Byte) :
    (l.applyAck now timeout x).expected = l.expected := by
  unfold Link.applyAck
  split <;> rfl

@[simp] theorem Link.up_applyAck (l : Link) (now timeout : Nat) (x : Byte) :
    (l.applyAck now timeout x).up = l.up := by
  unfold Link.applyAck
  split <;> rfl

/-- A request frame in order hands its message on (R158). -/
theorem State.request_hears {s : State} {h : FrameHdr} (hh : s.hears h = true) (m : RawMsg) :
    s.request h m = .next ((s.handed h).takeMessage m).conclude := by
  obtain ⟨h1, h2, h3⟩ := State.settled_link_up_of_hears hh
  rw [State.request, State.event_live h1]
  simp [State.takeRequestFrame, h2, State.applyAck, h3, State.handed]

@[simp] theorem State.table_handed (s : State) (h : FrameHdr) : (s.handed h).table = s.settled.table := rfl
@[simp] theorem State.host_handed (s : State) (h : FrameHdr) (g : Tag) :
    (s.handed h).host g = s.settled.host g := rfl
@[simp] theorem State.ch_handed (s : State) (h : FrameHdr) (c : Chan) : (s.handed h).ch c = s.settled.ch c := by
  cases c <;> rfl
@[simp] theorem State.outer_handed (s : State) (h : FrameHdr) : (s.handed h).outer = s.outer := by
  rw [← State.settled_outer s]
  rfl

theorem State.createEntry_eq_entered (s : State) (g : Tag) (q : Req) :
    s.createEntry g q .active = s.entered g q := rfl

/-- A message that is taken now: its entry is created and its kind-specific checks run (R19 to R23). -/
theorem State.request_takes {s : State} {h : ReqHdr} {m : RawMsg} {g : Tag} {q : Req}
    (ht : s.takes h m g q = true) :
    s.request h.frame m = .next (((s.handed h.frame).entered g q).runChecks g q).conclude := by
  simp only [State.takes, Bool.and_eq_true, beq_iff_eq, Bool.not_eq_true'] at ht
  obtain ⟨⟨⟨⟨h1, h2⟩, h3⟩, h4⟩, h5⟩ := ht
  rw [State.request_hears h1]
  have h6 : (s.handed h.frame).mustHold q = false := h5
  have h7 : ((s.handed h.frame).host g).isSome = false := by
    rw [State.host_handed, Option.isNone_iff_eq_none.mp h4]
    rfl
  rw [State.host_handed] at h7
  simp [State.takeMessage, h3, h2, State.enterRequest, h6, State.createEntry_eq_entered, h7]

/-- A new entry answered by its checks: what `State.answeredNew` says. -/
theorem State.entered_answerWith (r : State) (g : Tag) (q : Req) (st : Status) (x : Entry → Extra) :
    (r.entered g q).answerWith g st x = r.answeredNew g q st (x (newEntry r q .active none)) := by
  simp [State.answerWith, State.entered, State.answeredNew, State.host, State.setHost, State.pushItem,
    newEntry, Vector.set_set]

/-! ### No step stops -/

/-- The outcome is a next state. -/
def Goes (r : Result) : Prop := ∃ t, r = .next t

theorem goes_event (s : State) (f : State → State) : Goes (s.event f) := by
  unfold State.event
  split <;> exact ⟨_, rfl⟩

theorem goes_expiry (s : State) (timer : State → Timer) (f : State → State) : Goes (s.expiry timer f) := by
  unfold State.expiry
  split
  · dsimp only
    split
    · exact ⟨_, rfl⟩
    · split <;> exact ⟨_, rfl⟩
  · exact ⟨_, rfl⟩

theorem goes_own (s : State) (due : Bool) (f : State → State) : Goes (s.own due f) := by
  unfold State.own
  split <;> exact ⟨_, rfl⟩

theorem goes_operation (s : State) (c : Chan) (want : Operation → Bool) : Goes (s.operation c want) := by
  unfold State.operation
  split
  · exact ⟨_, rfl⟩
  · exact goes_own _ _ _

theorem goes_arbiter (s : State) (want : Choice) (f : State → State) : Goes (s.arbiter want f) := by
  unfold State.arbiter
  split
  · dsimp only
    split <;> exact ⟨_, rfl⟩
  · exact ⟨_, rfl⟩

theorem goes_powerOn (s : State) (cause : PowerOnCause) : Goes (execPowerOn cause s) := by
  cases cause <;> exact ⟨_, rfl⟩

theorem goes_sensorSample (s : State) (x : Sample) : Goes (execSensorSample x s) := by
  unfold execSensorSample
  split
  · dsimp only
    split <;> exact ⟨_, rfl⟩
  · exact ⟨_, rfl⟩

theorem exec_next (i : Instr) (s : State) : ∃ t, exec i s = .next t := by
  show Goes (exec i s)
  cases i <;> dsimp only [exec] <;>
    first
    | exact goes_powerOn _ _
    | exact goes_sensorSample _ _
    | exact goes_event _ _
    | exact goes_expiry _ _ _
    | exact goes_own _ _ _
    | exact goes_operation _ _ _
    | exact goes_arbiter _ _ _
    | exact ⟨_, rfl⟩

theorem step_next (s : State) : ∃ t, step s = .next t := by
  unfold step
  split
  · exact ⟨_, rfl⟩
  · exact exec_next _ _

theorem run_succ {M : Host.Core} {s t : M.State} (k : Nat) (h : M.step s = .next t) :
    M.run (k + 1) s = M.run k t := by
  rw [Host.Core.run, h]

/-- Every run is safe. -/
theorem safe (s : State) (k : Nat) : SafeFrom s k := by
  induction k generalizing s with
  | zero => exact ⟨s, rfl⟩
  | succ k ih =>
    obtain ⟨t, ht⟩ := step_next s
    obtain ⟨u, hu⟩ := ih t
    exact ⟨u, (run_succ (M := Sys2Proof.core) k ht).trans hu⟩

end Sys2Proof.Machine
end

