-- ==== Sys2Proof/Tests/Slice0.lean ====
section
/-! SUPPORT. Tests: ill-formed commands that the check refuses, host frames written out byte by byte,
single steps on small states, and for every statement with hypotheses states and operands that meet
them. -/

namespace Sys2Proof.Tests
open Sys2Proof Sys2Proof.Machine

-- One test after another: many at once would each hold a thread.
set_option Elab.async false

/-! ### Small states -/

/-- A request header with sequence 0. -/
def hd (tag : Byte) (len : Nat) : ReqHdr := { seq := 0, ack := 0xFF, len := len, tag := tag }

def closedBank : Bank := { Bank.powerOn with state := .closed, reopenable := true }
def openBank (row : RowNo) : Bank :=
  { Bank.powerOn with state := .opened, openRow := some row, closable := true, reopenable := true }

/-- A channel at rest in ACTIVE with every bank CLOSED. -/
def chan0 : Channel :=
  { ctl := { (Channel.powerOn 0).ctl with banks := Vector.replicate 16 closedBank, longTrimTimer := none }
    refr := { (Channel.powerOn 0).refr with debt := -2, trimming := .none }
    pwr := { (Channel.powerOn 0).pwr with state := .active } }

/-- The part ready, the link UP, both channels at rest. -/
def base : State :=
  { State.reset with
    chA := chan0, chB := chan0, link := { Link.powerOn with up := true }
    table := { Table.powerOn with ready := true } }

def withA (f : Channel → Channel) (s : State := base) : State := { s with chA := f s.chA }
def power (p : PowerState) (x : Channel) : Channel := { x with pwr := { x.pwr with state := p } }
/-- Channel A in power state `p`. -/
def aIn (p : PowerState) : State := withA (power p)
/-- `s` in MIRROR mode with the two healths. -/
def mirrored (a b : Health) (s : State := base) : State :=
  { s with mir := { s.mir with mode := .mirror, healthA := a, healthB := b } }
/-- `s` in MIRROR mode with B a rebuild's target that has reached line `n`. -/
def rebuilding (n : Nat) (s : State := base) : State :=
  let t := mirrored .inService .rebuilding s
  { t with mir := { t.mir with rebuild := some { target := .b, next := n, copies := [], frontier := n } } }
/-- An entry for request `q` in state `st`. -/
def entry (q : Req) (st : EntryState) (age : Nat := 0) : Entry := { newEntry State.reset q st none with age := age }
/-- `s` with an entry at tag `g`. -/
def withHost (g : Tag) (e : Entry) (s : State := base) : State :=
  { s with table := { s.table with hosts := s.table.hosts.set g (some e) } }
def zoned (z : Zone) (s : State := base) : State := { s with therm := { s.therm with zone := z, sensor := .ok } }
def unready : State := { base with table := Table.powerOn }
/-- A RESTART that waits for bank 0 of channel A. -/
def restarting : State :=
  { withA (fun x => { x with ctl := { x.ctl with banks := x.ctl.banks.set 0 (openBank 0) } }) with
    table := { base.table with restarting := true } }

/-! ### Well-formedness refuses -/

theorem test_wf_refuses :
    Instr.wf (.sensorSample (.reading 151)) = false ∧ Instr.wf (.sensorSample (.reading (-41))) = false ∧
    Instr.wf (.rd (hd 3 7) 0 0 0) = false ∧ Instr.wf (.rd (hd 64 8) 0 0 0) = false ∧
    Instr.wf (.rd (hd 3 8) 2 0 0) = false ∧ Instr.wf (.rd (hd 3 8) 0 1 0) = false ∧
    Instr.wf (.wr (hd 3 72) 0 1 0 0 (zeroBytes 64)) = false ∧
    Instr.wf (.wr (hd 3 72) 0 0 0 1 (zeroBytes 64)) = false ∧
    Instr.wf (.wr (hd 3 40) 1 0 0 0 (Vector.replicate 64 1)) = false ∧
    Instr.wf (.can (hd 3 3) 64) = false ∧ Instr.wf (.pwrNap (hd 3 4) 3) = false ∧
    Instr.wf (.trim (hd 3 3) 3) = false ∧ Instr.wf (.svcOut (hd 3 4) 2) = false ∧
    Instr.wf (.setParameter (hd 3 7) 13 0) = false ∧ Instr.wf (.stat (hd 3 3)) = false ∧
    Instr.wf (.malformedMessage ⟨0, 0⟩ [3, 1]) = false ∧
    Instr.wf (.malformedMessage ⟨0, 0⟩ (List.replicate 97 0)) = false ∧
    Instr.wf (.frameDiscarded (.unknownClass 4)) = false := by decide +kernel

theorem test_wf_takes :
    Instr.wf (.sensorSample (.reading 150)) = true ∧ Instr.wf (.rd (hd 63 8) 1 0 0xFFFFFFFF) = true ∧
    Instr.wf (.wr (hd 3 80) 0 1 0 1 (zeroBytes 64)) = true ∧ Instr.wf (.can (hd 3 3) 63) = true ∧
    Instr.wf (.setParameter (hd 3 7) 255 0) = true ∧ Instr.wf (.malformedMessage ⟨0, 0⟩ []) = true ∧
    Instr.wf (.frameDiscarded (.unknownClass 5)) = true := by decide +kernel

/-! ### Frames written out -/

theorem test_frame_sync : commandOfFrame [0xB6, 4, 0, 0, 1, 1, 0x0A, 0x50, 0xBE, 0x5D] = .sync := by
  decide +kernel

theorem test_frame_rd :
    commandOfFrame [0xB6, 1, 0, 0xFF, 8, 1, 3, 0, 0, 0x40, 0x23, 0x01, 0x00, 0xCA, 0x74, 0xA9, 0xFF] =
      .rd { seq := 0, ack := 0xFF, len := 8, tag := 3 } 0 0 0x00012340 := by decide +kernel

/-- A length above 96, a frame whose check does not agree, and bytes ahead of a start marker (R154). -/
theorem test_frame_bad :
    commandOfFrame [0xB6, 1, 0, 0, 97] = .badFrame .length ∧
    commandOfFrame [0xB6, 4, 0, 0, 1, 1, 0x0A, 0x50, 0xBE, 0x5C] = .badFrame .check ∧
    receive ([0x00, 0x12] ++ [0xB6, 4, 0, 0, 1, 1, 0x0A, 0x50, 0xBE, 0x5D]) = [.sync] := by decide +kernel

/-- The frame check of the nine digits, the polynomial's usual check value. -/
theorem test_frame_check : frameCheck [0x31, 0x32, 0x33, 0x34, 0x35, 0x36, 0x37, 0x38, 0x39] = 0xCBF43926 := by
  decide +kernel

/-! ### States that meet the hypotheses of the statements: the block -/

theorem test_witness_EmptyQueueStepPassesTime :
    base.pending = [] ∧ base.live = true ∧ ({ base with powered := false } : State).live = false := by
  decide +kernel

theorem test_witness_SuppliesAndResetPin :
    base.pinHeld = false ∧ ({ base with pinHeld := true } : State).powered = true ∧
    ({ base with pinHeld := true, powered := false } : State).pinHeld = true := by decide +kernel

theorem test_witness_NoEventWithoutSuppliesOrUnderReset :
    ({ base with powered := false } : State).powered = false ∧
    ({ base with pinHeld := true } : State).pinHeld = true ∧ Instr.ofSupplies .sync = false := by decide +kernel

/-- A record in each of the four conditions that are listed; line 4 is UNSET. -/
def damaged : Memory :=
  { cells := [(0, .intact (zeroBytes 64)), (2, .flawed (zeroBytes 64)), (4, .broken), (6, .poisoned)] }

theorem test_witness_DisturbanceDamagesOneRecord :
    let s : State := { base with mem := damaged }
    s.mem.wf = true ∧ s.live = true ∧ s.mem.read .a 0 = .intact (zeroBytes 64) ∧
    s.mem.read .a 1 = .flawed (zeroBytes 64) ∧ s.mem.read .a 2 = .broken ∧ s.mem.read .a 3 = .poisoned ∧
    s.mem.read .a 16777215 = .unset := by decide +kernel

/-! ### The thermal monitor -/

theorem test_witness_ZoneRises :
    [84, 85, 104, 105, 124, 125].map risingZone = [.normal, .warm, .warm, .hot, .hot, .critical] ∧
    Zone.normal.rank < (risingZone 85).rank ∧ Zone.hot.rank < (risingZone 125).rank ∧
    (risingZone 84).rank ≤ Zone.normal.rank ∧ (risingZone 105).rank ≤ Zone.hot.rank := by decide +kernel

theorem test_witness_ZoneFalls :
    (risingZone 81).rank ≤ Zone.critical.rank ∧ hysteresisZone .critical 81 = .normal ∧
    hysteresisZone .critical 82 = .warm ∧ hysteresisZone .critical 121 = .hot ∧
    hysteresisZone .critical 122 = .critical ∧ hysteresisZone .hot 101 = .warm ∧
    hysteresisZone .hot 102 = .hot := by decide +kernel

/-- The first sample at the present moment, and a later one at its own. -/
theorem test_witness_SampleUpdatesMonitor :
    (base.live = true ∧ base.settled.mayTake base.settled.clock = true ∧ base.settled.therm.sampled = false) ∧
    (let s : State := { base with therm := { base.therm with sampled := true, sampleAt := 7, missed := 2 } }
     s.live = true ∧ s.settled.mayTake 7 = true ∧ s.settled.therm.sensor = .awaiting) ∧
    (zoned .hot).settled.therm.sensor = .ok ∧
    (let s : State := { base with therm := { base.therm with sensor := .lost } }
     s.settled.mayTake s.settled.clock = true) := by decide +kernel

theorem test_witness_ZoneChangeActsOnBothChannels :
    (let s := zoned .normal
     s.settled.mayTake s.settled.clock = true ∧ s.settled.therm.sensor = .ok ∧
       hysteresisZone s.settled.therm.zone 150 ≠ s.settled.therm.zone) ∧
    (let s := zoned .hot
     s.settled.mayTake s.settled.clock = true ∧
       hysteresisZone s.settled.therm.zone (-40) ≠ s.settled.therm.zone) ∧
    (let s := zoned .warm (aIn .retainEntry)
     s.settled.mayTake s.settled.clock = true ∧ hysteresisZone s.settled.therm.zone 105 = .hot ∧
       (s.settled.ch .a).pwr.state = .retain) := by decide +kernel

/-! ### Invariants: a state that has them all, and its step -/

theorem test_witness_MemoryForm : base.mem.wf = true ∧ ({ base with mem := damaged } : State).mem.wf = true ∧
    ∃ t, step base = .next t := ⟨by decide +kernel, by decide +kernel, _, rfl⟩

theorem test_witness_DebtInRange : base.debtOk ∧ ∃ t, step base = .next t :=
  ⟨⟨by decide +kernel, fun c => by cases c <;> exact ⟨by decide +kernel, by decide +kernel,
    fun h => absurd rfl h, fun h => absurd rfl h⟩⟩, _, rfl⟩

/-- A link with frames 0, 1 and 2 buffered. -/
def item (tag : Tag) : FrameMsg := .item (.answer { kind := 3, tag := tag, status := .ok, extra := .nothing })
def buffered : Link :=
  { Link.powerOn with
    up := true, nextSeq := 3, replay := [⟨0, item 0⟩, ⟨1, item 1⟩, ⟨2, item 2⟩], replayTimer := some 200000,
    resendPoint := some 2 }
def linked (l : Link) : State := { base with link := l }

theorem buffered_ok : buffered.ok := by
  refine ⟨by decide, ?_, fun p h => by cases h; decide, by decide, by decide, fun h => by cases h⟩
  intro i b h
  match i, h with
  | 0, h => cases h; decide
  | 1, h => cases h; decide
  | 2, h => cases h; decide

theorem test_witness_ReplayBuffer : (linked buffered).link.ok ∧ ∃ t, step (linked buffered) = .next t :=
  ⟨buffered_ok, _, rfl⟩

/-- A notice record at its highest count. -/
def noticed : List Notice := [{ kind := .ready, chan := none, count := 255, first := .nothing, latest := .nothing }]

theorem test_witness_NoticeTable : noticesOk noticed ∧ noticesOk [] ∧ ∃ t, step { base with notices := noticed } = .next t :=
  ⟨⟨by decide, by decide⟩, ⟨by decide, by decide⟩, _, rfl⟩

theorem test_witness_QueueBounds : base.openingsOk ∧ rejectsIn base.table.answers ≤ 32 ∧
    ∃ t, step base = .next t :=
  ⟨fun c => by cases c <;> decide, by decide, _, rfl⟩

theorem test_witness_MirrorRecord :
    base.mir.ok ∧ (rebuilding 16777216).mir.ok ∧ ∃ t, step base = .next t := by
  refine ⟨⟨fun _ => by decide, by decide, fun c h => ?_, fun r h => (by cases h), by decide, by decide⟩,
    ⟨fun h => (by cases h), by decide, fun c h => ?_, fun r h => ?_, by decide, by decide⟩, _, rfl⟩
  · cases c <;> cases h
  · cases c
    · cases h
    · exact ⟨_, rfl, rfl⟩
  · cases h
    decide

/-- A state with a HELD entry, an active barrier, a pending POWER, a waiter and an answer. -/
def tagged : State :=
  withHost 1 (entry .bar .active 1) <| withHost 2 (entry (.get 0) .answered) <|
    withHost 3 (entry (.trim .both) .active) <| withHost 4 (entry (.pwr (.one .a) .active) .active) <|
      withHost 5 (entry (.rd .line 0) .held 2)
        { base with
          table := { base.table with
            barrier := some 1, holdQueue := [5]
            answers := [.answer { kind := 5, tag := 2, status := .ok, extra := .value 0 0 }] }
          chA := { chan0 with
            pwr := { chan0.pwr with
              state := .napExit, exit := .nap 9, pendingPower := some { tag := 4, toRetain := false, both := false } }
            refr := { chan0.refr with owedWaiters := [3], trimOwed := true } } }

theorem test_witness_TagsInUse : tagged.tagsOk = true ∧ ∃ t, step tagged = .next t := ⟨by decide +kernel, step_next tagged⟩

theorem test_witness_IntervalsAhead : base.intervalsAhead ∧ ∃ t, step base = .next t :=
  ⟨fun _ => ⟨by decide +kernel, fun c => by cases c <;> exact ⟨.nil, fun m h => by cases h⟩⟩, _, rfl⟩

/-! ### Frames, addresses and the frame link -/

theorem test_witness_FramesReadBack :
    Instr.wf .sync = true ∧ encodeCommand .sync = some [0xB6, 4, 0, 0, 1, 1, 0x0A, 0x50, 0xBE, 0x5D] ∧
    Instr.wf (.rd (hd 63 8) 1 0 0xFFFFFFFF) = true ∧ (encodeCommand (.rd (hd 63 8) 1 0 0xFFFFFFFF)).isSome = true ∧
    Instr.wf (.malformedMessage ⟨0, 0⟩ (List.replicate 96 0)) = true ∧
    (encodeCommand (.malformedMessage ⟨0, 0⟩ (List.replicate 96 0))).isSome = true := by decide +kernel

theorem test_frames_read_back :
    (encodeCommand (.wr (hd 9 44) 1 1 0x20 0xF (Vector.ofFn fun i => if i.val < 32 then 7 else 0))).map commandOfFrame =
      some (.wr (hd 9 44) 1 1 0x20 0xF (Vector.ofFn fun i => if i.val < 32 then 7 else 0)) := by decide +kernel

theorem test_witness_AddressDecode :
    (0x7FFFFFFF#32).toNat ≤ 0x7FFFFFFF ∧ (0x3FFFFFFF#32).toNat ≤ 0x3FFFFFFF ∧ 16777215 < 2 ^ 24 ∧
    (decodeAddr .split 0x7FFFFFFF).chan = some .b ∧ (decodeAddr .split 0x7FFFFFFF).loc.line = 16777215 ∧
    (decodeAddr .split 0).chan = some .a ∧ (decodeAddr .mirror 0x3FFFFFFF).loc.line = 16777215 ∧
    (0x7FFFFFFF#32).toNat ≤ 2 ^ 31 - 1 ∧ ¬ (0x80000000#32).toNat ≤ 2 ^ 31 - 1 := by decide +kernel

theorem test_witness_FramesNotAccepted :
    let down := linked Link.powerOn
    (down.live = true ∧ down.settled.link.up = false ∧ Instr.frameHdr (.stat (hd 1 2)) = some ⟨0, 0xFF⟩) ∧
    (base.live = true ∧ base.settled.link.up = true ∧
      [(0 - 255#8).toNat, (0 - 128#8).toNat, (1#8 - 0).toNat, (127#8 - 0).toNat] = [1, 128, 1, 127]) := by
  decide +kernel

theorem test_witness_FrameInOrderAccepted :
    base.hears ⟨0, 0xFF⟩ = true ∧ Instr.frameHdr (.stat (hd 1 2)) = some ⟨0, 0xFF⟩ ∧
    Instr.message (.stat (hd 1 2)) = some (statMessage (hd 1 2)) := by decide +kernel

theorem test_witness_AckAndRsnd :
    ((linked buffered).live = true ∧ (linked buffered).settled.link.up = true ∧
      (linked buffered).settled.link = buffered ∧ ∀ b ∈ buffered.replay, b.seq ≠ 3) ∧ buffered.ok ∧
    buffered.replay = [] ++ ⟨0, item 0⟩ :: [⟨1, item 1⟩, ⟨2, item 2⟩] ∧
    (buffered.replay = [⟨0, item 0⟩, ⟨1, item 1⟩] ++ ⟨2, item 2⟩ :: [] ∧
      ∀ f ∈ [(⟨0, item 0⟩ : Buffered), ⟨1, item 1⟩], f.seq ≠ 2) :=
  ⟨by decide +kernel, buffered_ok, rfl, rfl, by decide⟩

theorem test_witness_SyncRestartsSequences :
    base.live = true ∧ base.settled.link.up = true ∧ (linked Link.powerOn).live = true ∧
    (linked Link.powerOn).settled.link.up = false := by decide +kernel

theorem test_witness_MessagesRejectedOrHeld :
    let full : State :=
      { base with table := { base.table with
        answers := List.replicate 32 (.reject { tag := none, reason := .malformed, kind := none }) } }
    let held := tagged
    (restarting.hears ⟨0, 0xFF⟩ = true ∧ (restarting.handed ⟨0, 0xFF⟩).table.restarting = true ∧
      (rdMessage (hd 3 8) 0 0 0).kind ≠ some 10) ∧
    (base.hears ⟨0, 0xFF⟩ = true ∧ (rdMessage (hd 64 8) 0 0 0).req = none) ∧
    (full.hears ⟨0, 0xFF⟩ = true ∧ 32 ≤ ((full.handed ⟨0, 0xFF⟩).table.answers.filter QueueItem.isReject).length) ∧
    (held.hears ⟨0, 0xFF⟩ = true ∧ (statMessage (hd 2 2)).req = some (2, .stat) ∧
      (held.handed ⟨0, 0xFF⟩).host 2 ≠ none) ∧
    ((barMessage (hd 9 2)).req = some (9, .bar) ∧ (held.handed ⟨0, 0xFF⟩).host 9 = none ∧
      (held.handed ⟨0, 0xFF⟩).table.restarting = false ∧ (held.handed ⟨0, 0xFF⟩).table.barrier ≠ none) := by
  decide +kernel

/-! ### RD and WR -/

theorem test_witness_MemoryRequestsRefused :
    let ok (s : State) (z : Size) (x : Word32) : Bool :=
      s.takes (hd 3 8) (rdMessage (hd 3 8) (match z with | .line => 0 | .half => 1) 0 x) 3 (.rd z x)
    ok unready .line 0 = true ∧ ok (zoned .critical) .line 0 = true ∧ ok base .line 63 = true ∧
    ok base .half 16 = true ∧ ok base .line 0x80000000 = true ∧
    ok (mirrored .inService .degraded) .half 0x40000000 = true ∧
    base.takes (hd 3 72) (wrMessage (hd 3 72) 0 0 0x80000000 0 (zeroBytes 64)) 3
      (.wr .line none 0x80000000 (zeroBytes 64)) = true := by decide +kernel

theorem test_witness_RdInSplitMode :
    let ok (s : State) (x : Word32) : Bool :=
      s.takes (hd 3 8) (rdMessage (hd 3 8) 0 0 x) 3 (.rd .line x) && s.settled.memoryRefusal .line x == none &&
        s.settled.mir.mode == .split && s.settled.tagsOk
    ok base 0 = true ∧ ok base 0x7FFFFFC0 = true ∧ ok (aIn .nap) 0 = true ∧ ok (aIn .napExit) 0 = true ∧
    ok (aIn .retain) 0 = true := by decide +kernel

theorem mirror_ok {a b : Health} (h : a = .inService ∧ b = .inService ∨ a = .inService ∧ b = .degraded ∨
    a = .degraded ∧ b = .inService) (s : State) (hs : s.mir = Mirror.powerOn) : (mirrored a b s).mir.ok := by
  have hm : (mirrored a b s).mir = { Mirror.powerOn with mode := .mirror, healthA := a, healthB := b } := by
    simp only [mirrored, hs]
  rw [hm]
  rcases h with ⟨rfl, rfl⟩ | ⟨rfl, rfl⟩ | ⟨rfl, rfl⟩ <;>
    exact ⟨fun h => (by cases h), by decide, fun c h => (by cases c <;> cases h), fun r h => (by cases h),
      by decide, by decide⟩

/-- The one channel in service, the only ACTIVE one, and both with each choice of READ_CHOICE. -/
theorem test_witness_RdInMirrorMode :
    let ok (s : State) : Bool :=
      s.takes (hd 3 8) (rdMessage (hd 3 8) 0 0 0x3FFFFFC0) 3 (.rd .line 0x3FFFFFC0) &&
        s.settled.memoryRefusal .line 0x3FFFFFC0 == none && s.settled.mir.mode == .mirror
    let both : State := mirrored .inService .inService
    (ok (mirrored .inService .degraded) = true ∧ ok (mirrored .degraded .inService) = true ∧ ok both = true ∧
      ok (mirrored .inService .inService (aIn .nap)) = true ∧
      ok { both with conf := { both.conf with readChoice := .preferB } } = true) ∧
    (mirrored .inService .degraded).settled.mir.ok ∧ both.settled.mir.ok :=
  ⟨by decide +kernel, mirror_ok (by decide) base rfl, mirror_ok (by decide) base rfl⟩

theorem test_witness_WriteRequestsMakeLegs :
    let full (s : State) (x : Word32) : Bool :=
      s.takes (hd 3 72) (wrMessage (hd 3 72) 0 0 x 0 (zeroBytes 64)) 3 (.wr .line none x (zeroBytes 64)) &&
        s.settled.memoryRefusal .line x == none
    let part (s : State) (x : Word32) : Bool :=
      s.takes (hd 3 40) (wrMessage (hd 3 40) 1 0 x 0 (zeroBytes 64)) 3 (.wr .half none x (zeroBytes 64)) &&
        s.settled.memoryRefusal .half x == none
    (fullWrite .line none = true ∧ fullWrite .line (some (BitVec.allOnes 64)) = true ∧
      fullWrite .half none = false ∧ fullWrite .line (some 1) = false) ∧
    (full base 0 = true ∧ full base 0x7FFFFFC0 = true ∧ full (rebuilding 5) 0x3FFFFFC0 = true ∧
      part base 32 = true ∧ part base 0x7FFFFFE0 = true ∧ part (mirrored .inService .inService) 32 = true) ∧
    (mirrored .inService .inService).settled.mir.ok :=
  ⟨by decide +kernel, by decide +kernel, mirror_ok (by decide) base rfl⟩

/-! ### BAR, CAN, GET, SET -/

theorem test_witness_BarrierTestedAtAdmission :
    let waits := withHost 7 (entry (.rd .line 0) .active)
      { base with table := { base.table with arrivals := 1 } }
    (base.takes (hd 3 2) (barMessage (hd 3 2)) 3 .bar = true ∧ ∀ v, base.settled.host v = none) ∧
    (waits.takes (hd 3 2) (barMessage (hd 3 2)) 3 .bar = true ∧
      waits.settled.host 7 = some (entry (.rd .line 0) .active) ∧ 0 < waits.settled.table.arrivals) := by
  decide +kernel

/-- An RD of tag 7 with one leg in state `st` on channel A. -/
def rdLeg (st : LegState) : Leg :=
  { owner := .host 7, no := 0, age := 0, kind := .read, size := .line, loc := locOfLine 0, state := st,
    store := .absent, recovery := false }
def reading (st : LegState) : State :=
  withHost 7 { entry (.rd .line 0) .active with decoded := some (decodeAddr .split 0), legsMade := 1 }
    { withA (fun x => { x with ctl := { x.ctl with queue := [rdLeg st], oldest := some (rdLeg st).id } }) with
      table := { base.table with arrivals := 1 } }

/-- A free victim, an answered one, an RST, the CAN itself; one too late; one ACTIVE, and one HELD behind
a barrier that an older entry holds back. -/
theorem test_witness_CancelOutcomes :
    let can (s : State) (w : Tag) : Bool :=
      s.takes (hd 3 3) (canMessage (hd 3 3) (BitVec.ofNat 8 w.val)) 3 (.can w)
    let held := withHost 5 (entry .bar .held 2) <|
      withHost 1 (entry .bar .active 1)
        { reading .issued with table := { (reading .issued).table with barrier := some 1, holdQueue := [5] } }
    (can base 63 = true ∧ can base 3 = true ∧ can (withHost 2 (entry .stat .answered)) 2 = true ∧
      can (withHost 2 (entry .rst .active)) 2 = true) ∧
    (can (reading .issued) 7 = true ∧ (reading .issued).settled.host 7 ≠ none ∧
      ∀ c, c = Chan.a → ((reading .issued).settled.ch c).ctl.queue = [rdLeg .issued]) ∧
    (can (reading .waiting) 7 = true ∧ ((reading .waiting).host 7).map (·.done) = some [] ∧
      (reading .waiting).settled.table.holdQueue = []) ∧
    (can held 5 = true ∧ (held.settled.host 5).map (·.state) = some .held ∧
      held.settled.table.barrier = some 1 ∧ (held.settled.host 7).map (·.state) = some .active ∧
      (held.settled.host 7).map (·.age) = some 0 ∧ (held.settled.host 1).map (·.age) = some 1) := by
  refine ⟨by decide +kernel, ⟨by decide +kernel, by decide +kernel, ?_⟩, by decide +kernel, by decide +kernel⟩
  rintro c rfl
  decide +kernel

theorem test_witness_GetReadsParameter :
    let get (id : Byte) : Bool := base.takes (hd 3 3) (getMessage (hd 3 3) id) 3 (.get id)
    [0, 1, 14, 15, 32, 35, 36, 255].all get = true ∧
    paramValue .split base.conf 14 = some 2 ∧ paramValue .split base.conf 15 = none ∧
    paramValue .split base.conf 35 = some 16 ∧ paramValue .split base.conf 36 = none := by decide +kernel

theorem test_witness_ParameterTable :
    [(1, 1), (3, 10000), (4, 1), (4, 32), (10, 1023), (11, 1), (12, 50), (12, 5000), (14, 4)].all
        (fun p => paramInRange (BitVec.ofNat 8 p.1) (BitVec.ofNat 32 p.2)) = true ∧
    [(1, 2), (3, 10001), (4, 0), (4, 33), (10, 1024), (11, 0), (12, 49), (12, 5001), (14, 5), (15, 0), (0, 0)].all
        (fun p => !paramInRange (BitVec.ofNat 8 p.1) (BitVec.ofNat 32 p.2)) = true := by decide +kernel

theorem test_witness_RequestsRefusedAtOnce :
    let set (id : Byte) (v : Word32) : Bool :=
      base.takes (hd 3 7) (setMessage (hd 3 7) id v) 3 (.setParam id v) &&
        Instr.message (setCommand (hd 3 7) id v) == some (setMessage (hd 3 7) id v) &&
        Instr.frameHdr (setCommand (hd 3 7) id v) == some (hd 3 7).frame
    let pwr (s : State) (t : Target) : Bool :=
      s.takes (hd 3 4) (pwrMessage (hd 3 4) 0 t) 3 (.pwr (.one .a) t) && s.settled.powerRefusal .a t != none
    let svc (s : State) (c : Chan) (x : SvcAction) : Bool :=
      s.takes (hd 3 4) (svcMessage (hd 3 4) (BitVec.ofNat 8 c.num) x) 3 (.svc c x)
    (set 32 0 = true ∧ set 35 7 = true ∧ set 1 2 = true ∧ set 5 1000001 = true ∧ set 6 1000001 = true ∧
      set 13 3 = true ∧ set 14 5 = true ∧ set 0 0 = true ∧ set 36 0 = true) ∧
    (pwr (aIn .starting) .active = true ∧ pwr (aIn .retainEntry) .nap = true ∧ pwr (zoned .hot) .retain = true ∧
      pwr (aIn .retainExit) .retain = true ∧ pwr tagged .active = false) ∧
    (let s : State := { zoned .hot with chB := power .starting base.chB }
     s.takes (hd 3 4) (pwrMessage (hd 3 4) 2 .retain) 3 (.pwr .both .retain) = true ∧
       s.settled.chB.pwr.state = .starting ∧ s.settled.powerRefusal .a .retain = some .thermal) ∧
    (svc base .a .takeOut = true ∧ svc base .b .takeIn = true ∧
      svc (mirrored .inService .inService (aIn .starting)) .a .takeOut = true ∧
      svc (mirrored .inService .degraded) .b .takeOut = true ∧
      svc (mirrored .inService .degraded) .a .takeOut = true ∧
      svc (mirrored .inService .degraded (aIn .starting)) .b .takeIn = true ∧
      svc (rebuilding 0) .b .takeIn = true) := by decide +kernel

theorem test_witness_SetWritesParameter :
    let set (id : Byte) (v : Word32) : Bool :=
      base.takes (hd 3 7) (setMessage (hd 3 7) id v) 3 (.setParam id v) && paramInRange id v
    set 2 1 = true ∧ set 4 32 = true ∧ set 12 5000 = true ∧ set 14 1 = true ∧ set 5 0 = true ∧
    set 5 1000000 = true ∧ set 6 0 = true ∧ set 6 1 = true ∧ set 13 0 = true ∧ set 13 2 = true := by decide +kernel

/-- A demand of each kind, one that stays, and a sweep in progress. -/
theorem test_witness_SweepDemandRecomputed :
    let owing (p : PowerState) (d : Int) : Channel := { power p chan0 with refr := { chan0.refr with debt := d } }
    (owing .nap 5).demandNow 2 = .urgent ∧ (owing .active (-1)).demandNow 2 = .opportunistic ∧
    (owing .retainEntry 1).demandNow 2 = .retention ∧ (owing .active (-2)).demandNow 2 = .none ∧
    ({ chan0 with refr := { chan0.refr with sweeping := true } } : Channel).refr.sweeping = true ∧
    (base.ch .a).refr.sweeping = false := by decide +kernel

theorem test_witness_SetChangesMode :
    let set (s : State) (v : Word32) : Bool := s.takes (hd 3 7) (setMessage (hd 3 7) 1 v) 3 (.setParam 1 v)
    let work := withHost 7 (entry (.rd .line 0) .active)
    (set base 0 = true ∧ base.settled.mir.mode = .split) ∧
    (set work 1 = true ∧ (work.settled.host 7).map (·.state) = some .active) ∧
    (set base 1 = true ∧ base.settled.table.holdQueue = [] ∧ base.settled.mir.rebuild = none ∧
      (∀ g, base.settled.host g = none) ∧ ∀ n, base.settled.internal n = none) ∧
    (let s : State := mirrored .inService .degraded
     set s 0 = true ∧ s.settled.mir.mode = .mirror ∧ s.settled.mir.rebuild = none) := by decide +kernel

/-! ### PWR, TRIM, SVC, STAT, RST -/

/-- Channel A in `p` takes a PWR of channel A, and of BOTH when B takes it too. -/
def takesPwr (p : PowerState) (t : Target) (sel : ChanSel) (code : Byte) : Bool :=
  let s := { aIn p with chB := if sel = ChanSel.both then power p base.chB else base.chB }
  s.takes (hd 3 4) (pwrMessage (hd 3 4) code t) 3 (.pwr sel t) && s.settled.tagsOk &&
    [Chan.a, Chan.b].all fun c => !sel.names c || s.settled.powerRefusal c t == none

theorem test_witness_PowerNapEntersNap :
    takesPwr .active .nap (.one .a) 0 = true ∧ takesPwr .nap .nap .both 2 = true := by decide +kernel

theorem test_witness_PowerActiveWakes :
    [PowerState.active, .nap, .napExit, .retainEntry, .retain, .retainExit].all
      (fun p => takesPwr p .active (.one .a) 0 && takesPwr p .active .both 2) = true := by decide +kernel

theorem test_witness_PowerRetainBeginsEntry :
    [PowerState.active, .nap, .napExit, .retainEntry, .retain].all
      (fun p => takesPwr p .retain (.one .a) 0 && takesPwr p .retain .both 2) = true := by decide +kernel

theorem test_witness_TrimOwesShortTrim :
    let trim (s : State) (code : Byte) (sel : ChanSel) : Bool :=
      s.takes (hd 3 3) (trimMessage (hd 3 3) code) 3 (.trim sel)
    trim (aIn .starting) 2 .both = true ∧ trim base 2 .both = true ∧ trim (aIn .nap) 0 (.one .a) = true ∧
    trim (aIn .retain) 0 (.one .a) = true ∧ trim base 1 (.one .b) = true := by decide +kernel

theorem rebuilding_ok (n : Nat) (hn : n ≤ 16777216) : (rebuilding n).mir.ok := by
  refine ⟨fun h => (by cases h), .inl rfl, fun c h => ?_, fun r h => ?_, Nat.zero_le _, Nat.zero_le _⟩
  · cases c
    · cases h
    · exact ⟨_, rfl, rfl⟩
  · cases h
    exact ⟨rfl, rfl, rfl, hn⟩

theorem test_witness_ServiceChangesHealth :
    let svc (s : State) (c : Chan) (x : SvcAction) : Bool :=
      s.takes (hd 3 4) (svcMessage (hd 3 4) (BitVec.ofNat 8 c.num) x) 3 (.svc c x) &&
        s.settled.mir.mode == .mirror && s.settled.chA.pwr.state != .starting &&
        s.settled.chB.pwr.state != .starting
    let late := zoned .critical (rebuilding 9)
    (svc (mirrored .inService .inService) .a .takeOut = true ∧ svc (mirrored .inService .inService) .b .takeOut = true) ∧
    (svc (mirrored .inService .degraded) .b .takeIn = true ∧
      (mirrored .inService .degraded).settled.mir.health .b = .degraded) ∧
    (svc late .b .takeOut = true ∧ late.settled.mir.health .b = .rebuilding ∧ late.settled.mir = (rebuilding 9).mir) ∧
    (rebuilding 9).mir.ok :=
  ⟨by decide +kernel, by decide +kernel, by decide +kernel, rebuilding_ok 9 (by decide)⟩

theorem test_witness_StatReportsSnapshot :
    base.takes (hd 3 2) (statMessage (hd 3 2)) 3 .stat = true ∧
    (rebuilding 9).takes (hd 63 2) (statMessage (hd 63 2)) 63 .stat = true := by decide +kernel

theorem test_witness_RestartBegins :
    base.takes (hd 3 2) (rstMessage (hd 3 2)) 3 .rst = true ∧
    (let s := withA (fun x => power .nap { x with ctl := { x.ctl with banks := x.ctl.banks.set 15 (openBank 0) } })
     s.takes (hd 3 2) (rstMessage (hd 3 2)) 3 .rst = true ∧ (s.settled.bank .a 15).state = .opened) ∧
    (rebuilding 9).takes (hd 3 2) (rstMessage (hd 3 2)) 3 .rst = true := by decide +kernel

/-! ### Intervals and the arbiter -/

/-- The interval that `timer` reads expires at moment 7 of `s`. -/
def due (s : State) (timer : State → Timer) : Bool := s.expires timer 7

theorem test_witness_LinkTimersExpire :
    due (linked { base.link with ackTimer := some 7, ackOwed := true }) (·.link.ackTimer) = true ∧
    due (linked { base.link with replayTimer := some 7, replayCount := 2 }) (·.link.replayTimer) = true ∧
    due (linked { base.link with replayTimer := some 7, replayCount := 3 }) (·.link.replayTimer) = true ∧
    due (linked { base.link with tx := some { bytes := [0xB6], ends := 7 } }) (fun x => x.link.tx.map (·.ends)) =
      true := by decide +kernel

/-- Each control message, a buffered frame with and without one behind it, the last answer that still
leaves a place in the buffer, and a notice after eight answers. -/
theorem test_witness_ArbiterSendsFrames :
    let full : Link := { buffered with resendPoint := none, replay := List.replicate 31 ⟨0, item 0⟩ }
    let two : State := { linked { full with answersSinceNotice := 7 } with
      notices := noticed, table := { tagged.table with barrier := none, holdQueue := [] } }
    ((linked { base.link with pendingSynr := some true }).sends .control = true ∧
      (linked { base.link with pendingRsnd := true }).sends .control = true ∧
      (linked { Link.powerOn with pendingAck := true }).sends .control = true) ∧
    ((linked buffered).sends .retransmit = true ∧ (linked buffered).settled.link.resendPoint = some 2 ∧
      buffered.replay[2]? = some ⟨2, item 2⟩ ∧
      (linked { buffered with resendPoint := some 0 }).sends .retransmit = true) ∧
    (two.sends .answer = true ∧ two.settled.table.answers ≠ []) ∧
    (let s : State := { two with link := { two.link with answersSinceNotice := 8 } }
     s.sends .notice = true ∧ s.settled.notices = noticed) ∧
    ({ base with notices := noticed } : State).sends .notice = true := by decide +kernel

/-- Channel A with bank 15 as `f` makes it. -/
def bankA (f : Bank → Bank) : State :=
  withA fun x => { x with ctl := { x.ctl with banks := x.ctl.banks.set 15 (f (openBank 0)) } }

theorem test_witness_BankIntervalsExpire :
    let one (f : Bank → Bank) (timer : Bank → Timer) : Bool := due (bankA f) fun y => timer (y.bank .a 15)
    (one (fun x => { x with state := .opening, openSettle := some 7 }) (·.openSettle) = true ∧
      one (fun x => { x with minimumOpen := some 7 }) (·.minimumOpen) = true ∧
      one (fun x => { x with writeRecovery := some 7, minimumOpen := some 8 }) (·.writeRecovery) = true ∧
      one (fun x => { x with rowCycle := some 7 }) (·.rowCycle) = true ∧
      one (fun x => { x with state := .closing, closeTimer := some 7 }) (·.closeTimer) = true ∧
      one (fun x => { x with idleClose := .running 7 }) (·.idleClose.timer) = true) ∧
    due (withA fun x => { x with ctl := { x.ctl with openSpacing := some 7 } }) (fun y => (y.ch .a).ctl.openSpacing) =
      true ∧
    (let s : State :=
      { withA (fun x => { x with ctl := { x.ctl with openings := [0, 30, 60, 90, 120, 150] } }) with clock := 400 }
     s.expires (fun y => (y.ch .a).ctl.openings.head?.map (· + 400)) 400 = true) := by decide +kernel

/-! ### Accesses -/

/-- `s` with leg `l` of tag 7 in progress on channel A until 7, the line holding `r`. -/
def accessing (s : State) (l : Leg) (r : LineRec) : State :=
  let u := withA (s := s) fun x =>
    { x with ctl := { x.ctl with
      queue := l :: (x.ctl.queue.filter fun w => w.id != l.id), pathBusy := true
      banks := x.ctl.banks.set 0
        { openBank 0 with
          access := some l.id
          readAccess := match l.kind with | .write _ => none | _ => some 7
          writeAccess := match l.kind with | .write _ => some 7 | _ => none } } }
  { u with mem := (u.mem.write .a 0 r) }

theorem test_witness_ReadAccessCompletes :
    let reads (r : LineRec) : Bool :=
      let s := accessing (reading .issued) (rdLeg .issued) r
      due s (fun y => (y.bank .a 0).readAccess) && (s.atMoment 7).accessLeg .a 0 == some (rdLeg .issued) &&
        (s.atMoment 7).tagsOk && ((s.atMoment 7).host 7).isSome && (s.atMoment 7).mem.read .a 0 == r
    let fetch : Leg := { rdLeg .issued with kind := .fetch }
    let store : Leg := { rdLeg .blocked with kind := .write .host, no := 1, size := .half }
    let merging : State :=
      accessing
        (withHost 7 { entry (.wr .half none 0 (zeroBytes 64)) .active with decoded := some (decodeAddr .split 0), legsMade := 2 }
          (withA (s := reading .issued) fun x => { x with ctl := { x.ctl with queue := [store] } }))
        fetch .broken
    (reads .unset = true ∧ reads (.intact (zeroBytes 64)) = true ∧ reads (.flawed (zeroBytes 64)) = true ∧
      reads .broken = true ∧ reads .poisoned = true) ∧
    (due merging (fun y => (y.bank .a 0).readAccess) = true ∧
      (merging.atMoment 7).accessLeg .a 0 = some fetch ∧ (merging.atMoment 7).tagsOk = true ∧
      ((merging.atMoment 7).ch .a).ctl.queue = [fetch, store] ∧ store.isBlockedWrite (.host 7) .host = true) ∧
    base.mir.ok :=
  ⟨by decide +kernel, by decide +kernel, test_witness_MirrorRecord.1⟩

theorem test_witness_MirroredReadRecovers :
    let both (l : Leg) (r : LineRec) : Bool :=
      let s := accessing (mirrored .inService .inService (reading .issued)) l r
      due s (fun y => (y.bank .a 0).readAccess) && (s.atMoment 7).accessLeg .a 0 == some l &&
        (s.atMoment 7).tagsOk && ((s.atMoment 7).host 7).isSome && !(s.atMoment 7).table.restarting &&
        decide (min ((s.atMoment 7).mir.unc .a + 1) 65535 < (s.atMoment 7).conf.degradeLimit)
    let recovery : Leg := { rdLeg .issued with recovery := true }
    (both (rdLeg .issued) .broken = true ∧ both recovery .unset = true ∧ both recovery (.intact (zeroBytes 64)) = true ∧
      both recovery (.flawed (zeroBytes 64)) = true ∧ both recovery .broken = true ∧ both recovery .poisoned = true) ∧
    (mirrored .inService .inService).mir.ok :=
  ⟨by decide +kernel, mirror_ok (by decide) base rfl⟩

theorem test_witness_WriteAccessCompletes :
    let write (st : Store) : Leg := { rdLeg .issued with kind := .write .host, store := st }
    let writes (st : Store) (r : LineRec) : Bool :=
      let s := accessing (withHost 7 (entry (.wr .line none 0 (zeroBytes 64)) .active) (reading .issued)) (write st) r
      due s (fun y => (y.bank .a 0).writeAccess) && (s.atMoment 7).accessLeg .a 0 == some (write st) &&
        (s.atMoment 7).mem.wf && (s.atMoment 7).tagsOk && ((s.atMoment 7).host 7).isSome
    writes (.line (zeroBytes 64)) .unset = true ∧ writes .poison .broken = true ∧ writes .absent .broken = true := by
  decide +kernel

/-! ### Maintenance, decisions and the work of an event -/

theorem test_witness_MaintenanceEnds :
    (due (withA fun x => { x with ctl := { x.ctl with sweepTimer := some 7 } }) fun y => (y.ch .a).ctl.sweepTimer) =
      true ∧
    (let s := withA (s := withHost 3 (entry (.trim .both) .active) base) fun x =>
        { x with ctl := { x.ctl with shortTrimTimer := some 7 }
                 refr := { x.refr with trimming := .short, runningWaiters := [3] } }
     due s (fun y => (y.ch .a).ctl.shortTrimTimer) = true ∧ (s.atMoment 7).tagsOk = true) ∧
    (let long (b : PowerState) : State :=
      { unready with
        chA := { Channel.powerOn 0 with ctl := { (Channel.powerOn 0).ctl with longTrimTimer := some 7 } }
        chB := power b unready.chB }
     due (long .active) (fun y => (y.ch .a).ctl.longTrimTimer) = true ∧
       ((long .active).atMoment 7).table.ready = false ∧
       due (long .starting) (fun y => (y.ch .a).ctl.longTrimTimer) = true) := by decide +kernel

/-- Channel A with a decision to make and `f` applied. -/
def deciding (f : Channel → Channel) (s : State := base) : State :=
  withA (s := s) fun x => let y := f x; { y with ctl := { y.ctl with due := true } }

theorem test_witness_DecisionStartsWhatIsAllowed :
    let waits (x : Channel) : Channel := { x with ctl := { x.ctl with queue := [rdLeg .waiting] } }
    let opened (x : Channel) : Channel := { x with ctl := { x.ctl with banks := x.ctl.banks.set 0 (openBank 0) } }
    let demand (d : Demand) (x : Channel) : Channel := { x with refr := { x.refr with demand := d } }
    (waits (opened chan0)).nextOp false 8 = some (.issue (rdLeg .waiting).id) ∧
    (waits chan0).nextOp false 8 = some (.openBank 0 0) ∧
    (demand .opportunistic (opened chan0)).nextOp false 8 = some (.closeBank 0) ∧
    (demand .urgent chan0).nextOp false 8 = some .sweep ∧
    ({ chan0 with refr := { chan0.refr with trimOwed := true } } : Channel).nextOp false 8 = some .shortTrim := by
  decide +kernel

theorem test_witness_OperationsBegin :
    let s0 := reading .waiting
    let opened (x : Channel) : Channel := { x with ctl := { x.ctl with banks := x.ctl.banks.set 0 (openBank 0) } }
    ((deciding opened s0).starts .a (.issue (rdLeg .waiting).id) = true ∧
      findLeg (rdLeg .waiting).id ((deciding opened s0).ch .a).ctl.queue = some (rdLeg .waiting)) ∧
    (deciding id s0).starts .a (.openBank 0 0) = true ∧
    (deciding fun x => { opened x with refr := { x.refr with trimOwed := true } }).starts .a (.closeBank 0) = true ∧
    (deciding fun x => { x with refr := { x.refr with demand := .urgent } }).starts .a .sweep = true ∧
    (deciding fun x => { x with refr := { x.refr with trimOwed := true } }).starts .a .shortTrim = true := by
  decide +kernel

theorem test_witness_RefreshAndPowerTimersExpire :
    let p (f : Power → Power) : State := withA fun x => { x with pwr := f x.pwr }
    ((let s := withA fun x => { power .nap x with refr := { x.refr with timer := some 7, debt := 7 } }
      due s (fun y => (y.ch .a).refr.timer) = true) ∧
      (let s := withA fun x => { power .nap x with refr := { x.refr with timer := some 7, debt := 3 } }
       due s (fun y => (y.ch .a).refr.timer) = true)) ∧
    due (p fun x => { x with napIdle := some 7 }) (fun y => (y.ch .a).pwr.napIdle) = true ∧
    (due (p fun x => { x with state := .nap, retainIdle := some 7 }) (fun y => (y.ch .a).pwr.retainIdle) = true ∧
      due (zoned .hot (p fun x => { x with state := .nap, retainIdle := some 7 })) (fun y => (y.ch .a).pwr.retainIdle) =
        true) ∧
    (due (p fun x => { x with state := .napExit, exit := .nap 7 }) (fun y => (y.ch .a).pwr.exit.napTimer) = true ∧
      due (p fun x => { x with state := .napExit, exit := .nap 7, onward := true })
        (fun y => (y.ch .a).pwr.exit.napTimer) = true) ∧
    due (p fun x => { x with state := .retainExit, exit := .retain 7 }) (fun y => (y.ch .a).pwr.exit.retainTimer) =
      true := by decide +kernel

theorem test_witness_WorkOfTheEventEnds :
    (let s := withHost 4 (entry (.pwr (.one .a) .retain) .active)
        (withA fun x => { x with pwr := { x.pwr with
          state := .retainEntry, pendingPower := some { tag := 4, toRetain := true, both := false } } })
     s.live = true ∧ s.decisionsTurn = true ∧ s.decisionOp .a = none ∧ (s.ch .a).retainReady = true ∧
       s.tagsOk = true ∧ (s.ch .b).pwr.pendingPower = none) ∧
    (let s := withHost 1 (entry .bar .active) { base with table := { base.table with barrier := some 1 } }
     s.barrierReady = true ∧ s.tagsOk = true ∧ s.table.holdQueue = []) ∧
    (let s := rebuilding 16777215
     s.barrierReady = false ∧ s.canStartCopy = true ∧ s.freeInternal = some 0 ∧
       s.mir.rebuild = some { target := .b, next := 16777215, copies := [], frontier := 16777215 }) ∧
    (let s := withHost 2 (entry .rst .active) { base with table := { base.table with restarting := true } }
     s.nextWork = some .restartEnd ∧ s.restartTag = some 2) := by decide +kernel

/-! ### States that meet the hypotheses of the further clauses -/

/-- `s` with an active BAR of tag 1 that nothing holds back, and one HELD entry for each of `qs` behind it,
tags 10, 11, .... -/
def barred (qs : List Req) (s : State := base) : State :=
  let t := withHost 1 (entry .bar .active 1) s
  let u := qs.zipIdx.foldl (fun u p => withHost (Fin.ofNat 64 (10 + p.2)) (entry p.1 .held (2 + p.2)) u) t
  { u with table := { u.table with
      barrier := some 1, holdQueue := (List.range qs.length).map fun n => Fin.ofNat 64 (10 + n)
      arrivals := 2 + qs.length } }
/-- The state after the commands `l`, one after another. -/
def after (l : List Instr) (s : State) : Option State :=
  l.foldl (fun r i => r.bind fun s => match exec i s with | .next t => some t | _ => none) (some s)
/-- Bank 0 OPEN. -/
def opened (x : Channel) : Channel := { x with ctl := { x.ctl with banks := x.ctl.banks.set 0 (openBank 0) } }

theorem test_witness_EveryEventJudgesIdleness : base.live = true ∧ Instr.ofSupplies (.stat (hd 3 2)) = false := by
  decide +kernel

/-- Channel A in `p` with a POWER RETAIN of tag 4 pending. -/
def retaining (p : PowerState) (both : Bool := false) : State :=
  withHost 4 (entry (.pwr (if both then .both else .one .a) .retain) .active) <| withA fun x =>
    { x with pwr := { x.pwr with
        state := p, onward := p == .napExit, exit := if p == .napExit then .nap 9 else .stopped
        pendingPower := some { tag := 4, toRetain := true, both := both } } }

/-- The third sample in a row without a reading; the return from LOST; the first reading; a rise to HOT that
meets a POWER RETAIN. -/
theorem test_witness_ZoneChangeFromEachSensorState :
    (let s : State := { zoned .normal with therm := { (zoned .normal).therm with missed := 2 } }
     s.live = true ∧ s.settled.mayTake s.settled.clock = true ∧ s.settled.therm.sensor = .ok ∧
       3 ≤ s.settled.therm.missed + 1 ∧ s.settled.therm.zone.rank < 2) ∧
    (let s : State := { zoned .hot with therm := { (zoned .hot).therm with sensor := .lost } }
     s.settled.mayTake s.settled.clock = true ∧ s.settled.therm.sensor = .lost ∧ risingZone 50 ≠ s.settled.therm.zone) ∧
    (base.settled.mayTake base.settled.clock = true ∧ base.settled.therm.sensor = .awaiting ∧
      risingZone 90 ≠ base.settled.therm.zone) ∧
    (let entering := { zoned .warm (retaining .retainEntry) with
        chA := opened (retaining .retainEntry).chA }
     entering.settled.mayTake entering.settled.clock = true ∧ entering.settled.tagsOk = true ∧
       entering.settled.therm.zone = .warm ∧ hysteresisZone .warm 110 = .hot ∧
       (entering.settled.ch .a).pwr.state = .retainEntry ∧
       (entering.settled.ch .a).pwr.pendingPower = some { tag := 4, toRetain := true, both := false }) ∧
    (let s := zoned .warm (retaining .napExit)
     s.settled.mayTake s.settled.clock = true ∧ s.settled.tagsOk = true ∧
       (s.settled.ch .a).pwr.state = .napExit ∧ (s.settled.ch .a).pwr.onward = true ∧
       (s.settled.ch .a).pwr.pendingPower.isSome = true) := by decide +kernel

/-- The barrier itself; an ACTIVE RD that an older entry keeps company before the barrier; the ACTIVE RD that
alone holds the barrier back, with and without HELD entries; a HELD entry, the barrier held back. -/
theorem test_witness_CancelUnderBarrier :
    let can (s : State) (w : Tag) : Bool :=
      s.takes (hd 3 3) (canMessage (hd 3 3) (BitVec.ofNat 8 w.val)) 3 (.can w) && s.settled.tagsOk &&
        s.settled.table.barrier == some 1
    let back (s : State) (w : Tag) : Bool := allTags.any fun o => o != w &&
      (s.settled.host o).any fun y => y.age == 0 && y.state != .answered
    let qs : List Req := [.rd .line 0, .bar, .setParam 2 1]
    let waits := barred qs (reading .waiting)
    let two := barred qs (withHost 6 (entry (.trim .both) .active) (reading .waiting))
    (can waits 7 = true ∧ back waits 7 = false ∧ (waits.settled.host 7).map (·.state) = some .active ∧
      (waits.settled.host 7).map (·.done) = some [] ∧ waits.settled.table.holdQueue = [10, 11, 12]) ∧
    (can (barred [] (reading .waiting)) 7 = true ∧ back (barred [] (reading .waiting)) 7 = false) ∧
    (can two 7 = true ∧ back two 7 = true ∧ can two 11 = true ∧ back two 11 = true ∧
      (two.settled.host 11).map (·.state) = some .held) ∧
    (can waits 1 = true ∧ (waits.settled.host 1).map (·.state) = some .active ∧
      (waits.settled.host 1).map (·.req) = some .bar ∧ (waits.settled.host 1).map (·.done) = some []) := by
  decide +kernel

/-- A POWER ACTIVE for one channel that overrides a pending RETAIN, in RETAIN_ENTRY and in NAP_EXIT, and one
that named BOTH. -/
theorem test_witness_PowerActiveOverrides :
    let active (s : State) : Bool :=
      s.takes (hd 3 4) (pwrMessage (hd 3 4) 0 .active) 3 (.pwr (.one .a) .active) && s.settled.tagsOk &&
        s.settled.powerRefusal .a .active == none &&
        (s.settled.ch .a).pwr.pendingPower.map (·.tag) == some 4
    let entering (both : Bool) : State := { retaining .retainEntry both with chA := opened (retaining .retainEntry both).chA }
    active (entering false) = true ∧ active (retaining .napExit) = true ∧
    (let s : State := { entering true with chB := (retaining .napExit true).chA }
     active s = true ∧ (s.settled.ch .b).pwr.pendingPower.map (·.tag) = some 4) := by decide +kernel

/-- An ISSUED, a WAITING READ, a WAITING FETCH and a WAITING WRITE on the channel that leaves service. -/
theorem test_witness_ServiceOutMovesLegs :
    let out (k : LegKind) (st : LegState) : Bool :=
      let l : Leg := { rdLeg st with kind := k }
      let s := mirrored .inService .inService
        (withA (s := reading st) fun x => { x with ctl := { x.ctl with queue := [l] } })
      let t := s.settled
      s.takes (hd 3 4) (svcMessage (hd 3 4) 0 .takeOut) 3 (.svc .a .takeOut) && t.mir.mode == .mirror &&
        (t.ch .a).pwr.state != .starting && (t.ch .a).ctl.queue == [l] && (t.ch .b).ctl.queue == [] && t.tagsOk
    out .read .issued = true ∧ out .read .waiting = true ∧ out .fetch .waiting = true ∧
    out (.write .host) .waiting = true ∧ out (.write .host) .blocked = true := by decide +kernel

/-- `s` with a RESTART that drains. -/
def draining (s : State) : State := { s with table := { s.table with restarting := true } }
/-- Leg `n` of internal entry 0, which copies line 0. -/
def copyLeg (n : Nat) (k : LegKind) (st : LegState) (store : Store) : Leg :=
  { owner := .internal 0, no := n, age := 0, kind := k, size := .line, loc := locOfLine 0, state := st,
    store := store, recovery := false }
/-- A copy of line 0 from A to B, with `onB` in the queue of B; lines below `n` have been begun. -/
def copying (n : Nat) (onB : List Leg) : State :=
  let t := rebuilding n
  { t with
    table := { t.table with internals := t.table.internals.set 0 (some { age := 0, line := 0, legsMade := 2, done := [] }) }
    mir := { t.mir with rebuild := some { target := .b, next := n, copies := [(0, 0)], frontier := 0 } }
    chB := { t.chB with ctl := { t.chB.ctl with queue := onB } } }
/-- The rebuild of B, ended by an abort, with its copy of line 0 left over. -/
def leftOver (onB : List Leg) : State :=
  let t := copying 1 onB
  { t with mir := { t.mir with healthB := .degraded, rebuild := none } }

theorem test_witness_ReadDrainsOrCopies :
    let reads (s : State) (l : Leg) : Bool :=
      due s (fun y => (y.bank .a 0).readAccess) && (s.atMoment 7).accessLeg .a 0 == some l &&
        (s.atMoment 7).mir.mode == .mirror && (s.atMoment 7).mir.health .b != .inService &&
        !(s.atMoment 7).table.restarting && ((s.atMoment 7).internal 0).isSome
    let fetch := copyLeg 0 .fetch .issued .absent
    let write := copyLeg 1 (.write .copy) .blocked .absent
    let drains (l : Leg) : Bool :=
      let s := draining (accessing (reading .issued) l .broken)
      due s (fun y => (y.bank .a 0).readAccess) && (s.atMoment 7).accessLeg .a 0 == some l &&
        (s.atMoment 7).table.restarting && ((s.atMoment 7).host 7).isSome
    (drains (rdLeg .issued) = true ∧ drains { rdLeg .issued with kind := .fetch } = true) ∧
    (reads (accessing (copying 1 [write]) fetch .unset) fetch = true ∧
      reads (accessing (copying 1 [write]) fetch .poisoned) fetch = true ∧ write.isBlockedWrite (.internal 0) .copy = true) ∧
    reads (accessing (leftOver []) fetch .broken) fetch = true := by decide +kernel

/-- The COPY WRITE is on B, so the healths are the other way round: A is the target here. -/
theorem test_witness_WriteDrainsOrCopies :
    let write := copyLeg 1 (.write .copy) .issued (.line (zeroBytes 64))
    let target (s : State) : State := { s with mir := { s.mir with
      healthA := s.mir.healthB, healthB := .inService
      rebuild := s.mir.rebuild.map fun r => { r with target := .a } } }
    let writes (s : State) : Bool :=
      due s (fun y => (y.bank .a 0).writeAccess) && (s.atMoment 7).accessLeg .a 0 == some write &&
        ((s.atMoment 7).internal 0).isSome
    let host : Leg := { rdLeg .issued with kind := .write .host, store := .line (zeroBytes 64) }
    let more (n : Nat) : State := target (accessing (copying n []) write .broken)
    (writes (more 7) = true ∧ ((more 7).atMoment 7).mir.rebuild.map (·.copies) = some [(0, 0), (1, 7)]) ∧
    (writes (more 16777216) = true ∧ ((more 16777216).atMoment 7).mir.rebuild.map (·.next) = some 16777216) ∧
    (writes (target (accessing (leftOver []) write .broken)) = true) ∧
    writes (target (accessing (copying 7 [copyLeg 0 .fetch .waiting .absent]) write .broken)) = true ∧
    (let s := draining (accessing (withHost 7 (entry (.wr .line none 0 (zeroBytes 64)) .active) (reading .issued)) host .unset)
     due s (fun y => (y.bank .a 0).writeAccess) = true ∧ (s.atMoment 7).accessLeg .a 0 = some host ∧
       (s.atMoment 7).table.restarting = true ∧ ((s.atMoment 7).host 7).isSome = true) := by decide +kernel

theorem test_witness_MirroredReadOtherwise :
    let reads (s : State) (l : Leg) : Bool :=
      due s (fun y => (y.bank .a 0).readAccess) && (s.atMoment 7).accessLeg .a 0 == some l &&
        (s.atMoment 7).tagsOk && ((s.atMoment 7).host 7).isSome && !(s.atMoment 7).table.restarting &&
        (s.atMoment 7).mir.mode == .mirror
    let both := mirrored .inService .inService (reading .issued)
    let limit (n : Nat) (s : State) : State := { s with conf := { s.conf with degradeLimit := n } }
    let fetch (again : Bool) : Leg := { rdLeg .issued with kind := .fetch, recovery := again }
    let store (n : Nat) : Leg := { rdLeg .blocked with kind := .write .host, no := n, size := .half }
    let merging (s : State) : State :=
      withHost 7 { entry (.wr .half none 0 (zeroBytes 64)) .active with decoded := some (decodeAddr .mirror 0), legsMade := 3 }
        { s with
          chA := { s.chA with ctl := { s.chA.ctl with queue := [store 1] } }
          chB := { s.chB with ctl := { s.chB.ctl with queue := [store 2] } } }
    (reads (limit 1 (accessing both (rdLeg .issued) .broken)) (rdLeg .issued) = true ∧ both.settled.mir.unc .a = 0) ∧
    ([LineRec.unset, .intact (zeroBytes 64), .flawed (zeroBytes 64), .poisoned].all
      fun r => reads (accessing both (rdLeg .issued) r) (rdLeg .issued)) = true ∧
    (reads (accessing (mirrored .inService .degraded (reading .issued)) (rdLeg .issued) (.flawed (zeroBytes 64)))
      (rdLeg .issued) = true) ∧
    (reads (accessing (merging both) (fetch false) .broken) (fetch false) = true ∧
      reads (accessing (merging both) (fetch true) .broken) (fetch true) = true ∧
      reads (accessing (merging both) (fetch false) .poisoned) (fetch false) = true ∧
      (store 1).isBlockedWrite (.host 7) .host = true ∧
      reads (accessing (merging (mirrored .inService .degraded (reading .issued))) (fetch false) .broken) (fetch false) =
        true) := by decide +kernel

/-- Each step of the decision, the starvation restriction, and states in which nothing can start. -/
theorem test_witness_DecisionMustStart :
    let legs (l : List Leg) (x : Channel) : Channel := { x with ctl := { x.ctl with queue := l } }
    let bank (b : BankNo) (f : Bank → Bank) (x : Channel) : Channel :=
      { x with ctl := { x.ctl with banks := x.ctl.banks.set b (f (x.ctl.bank b)) } }
    let starved (l : Leg) (x : Channel) : Channel := { x with ctl := { x.ctl with oldest := some l.id, passed := 8 } }
    let w := rdLeg .waiting
    let row1 : Leg := { w with loc := { w.loc with row := 1 } }
    let busy (x : Channel) : Channel := { x with ctl := { x.ctl with pathBusy := true } }
    (power .nap chan0).nextOp false 8 = none ∧
    ({ busy chan0 with refr := { chan0.refr with trimOwed := true } } : Channel).nextOp false 8 = none ∧
    (power .retainEntry chan0).nextOp false 8 = none ∧
    (starved w (legs [w] (opened chan0))).nextOp false 8 = some (.issue w.id) ∧
    (starved w (legs [w] chan0)).nextOp false 8 = some (.openBank 0 0) ∧
    (starved row1 (legs [row1, w] (opened chan0))).nextOp false 8 = some (.closeBank 0) ∧
    (starved w (legs [w] (busy (opened chan0)))).nextOp false 8 = none ∧
    (legs [row1] (opened chan0)).nextOp false 8 = some (.closeBank 0) ∧
    (legs [row1, w] (busy (opened chan0))).nextOp false 8 = none ∧
    (bank 0 (fun b => { b with idleClose := .due }) (opened chan0)).nextOp false 8 = some (.closeBank 0) ∧
    chan0.nextOp false 8 = none := by decide +kernel

theorem test_witness_ExitReachesPendingPower :
    let exits (e : ExitTimer) (p : PowerState) (onward retain both : Bool) : State :=
      withHost 4 (entry (.pwr (if both then .both else .one .a) (if retain then .retain else .active)) .active) <|
        withA fun x => { x with pwr := { x.pwr with
          state := p, exit := e, onward := onward, pendingPower := some { tag := 4, toRetain := retain, both := both } } }
    let nap (s : State) : Bool := due s (fun y => (y.ch .a).pwr.exit.napTimer) && (s.atMoment 7).tagsOk
    nap (exits (.nap 7) .napExit false false false) = true ∧
    nap (exits (.nap 7) .napExit true true false) = true ∧
    nap { exits (.nap 7) .napExit false false true with chB := (exits (.nap 9) .napExit false false true).chA } = true ∧
    (let s := exits (.retain 7) .retainExit false false false
     due s (fun y => (y.ch .a).pwr.exit.retainTimer) = true ∧ (s.atMoment 7).tagsOk = true) := by decide +kernel

/-- One held entry of each kind behind a barrier that is ready, in each mode. -/
theorem test_witness_BarrierReleases :
    let ready (s : State) : Bool := s.live && s.barrierReady && s.table.barrier == some 1 && s.tagsOk &&
      !s.canStartCopy && s.table.holdQueue == [10]
    let one (q : Req) (s : State := base) : Bool := ready (barred [q] s)
    let both := mirrored .inService .inService
    ([Req.rd .line 0, .rd .line 0x80000000, .wr .line none 0 (zeroBytes 64), .wr .half none 0 (zeroBytes 64),
      .bar, .setParam 2 1, .setParam 14 1, .pwr (.one .a) .nap, .pwr (.one .a) .active, .pwr (.one .a) .retain,
      .trim .both, .svc .a .takeOut].all fun q => one q) = true ∧
    ([Req.rd .line 0, .wr .line none 0 (zeroBytes 64), .wr .half none 0 (zeroBytes 64), .svc .a .takeOut].all
      fun q => one q both) = true ∧
    one (.svc .b .takeIn) (mirrored .inService .degraded) = true ∧
    (one (.trim .both) (aIn .starting) = true ∧ one (.pwr (.one .a) .retain) (zoned .hot) = true) ∧
    (let s := barred [.bar] (withHost 6 { entry (.trim .both) .active with age := 1 } base)
     ready s = true ∧ (s.host 6).map (·.age) = some 1 ∧ (s.host 10).map (·.age) = some 2) := by decide +kernel

/-- A RETAIN_ENTRY that completes for a POWER RETAIN of BOTH, the other channel in RETAIN and not. -/
theorem test_witness_RetainCompletesForBoth :
    let s (b : PowerState) : State :=
      { retaining .retainEntry true with chB := if b = .retain then power .retain base.chB else (retaining b true).chA }
    let ready (b : PowerState) : Bool := (s b).live && (s b).decisionsTurn && (s b).decisionOp .a == none &&
      ((s b).ch .a).retainReady && (s b).tagsOk && ((s b).ch .a).pwr.pendingPower.isSome
    ready .retain = true ∧ ready .napExit = true := by decide +kernel

/-- A STAT while a RESTART drains. -/
theorem test_witness_StatDuringRestart :
    restarting.hears (hd 3 2).frame = true ∧ (statMessage (hd 3 2)).req = some (3, .stat) ∧
    restarting.settled.host 3 = none ∧ restarting.settled.table.restarting = true := by decide +kernel

/-- A POWER ACTIVE of BOTH over two pending RETAIN requests, and over one that named BOTH. -/
theorem test_witness_PowerActiveOfBothOverrides :
    let active (s : State) : Bool :=
      s.takes (hd 3 4) (pwrMessage (hd 3 4) 2 .active) 3 (.pwr .both .active) && s.settled.tagsOk &&
        [Chan.a, Chan.b].all fun c => s.settled.powerRefusal c .active == none
    let pending (s : State) : List (Option Tag) := [Chan.a, Chan.b].map fun c => (s.settled.ch c).pwr.pendingPower.map (·.tag)
    let two : State :=
      withHost 5 (entry (.pwr (.one .b) .retain) .active)
        { retaining .napExit with chB := { (retaining .napExit).chA with pwr := { (retaining .napExit).chA.pwr with
            pendingPower := some { tag := 5, toRetain := true, both := false } } } }
    let one : State := { retaining .napExit true with chB := opened (retaining .retainEntry true).chA }
    (active two = true ∧ pending two = [some 4, some 5]) ∧ (active one = true ∧ pending one = [some 4, some 4]) := by
  decide +kernel

/-- A rebuild of B with an ISSUED and a WAITING copy FETCH, each with its WRITE on B, and a host WRITE that waits
on B: the SVC OUT of B, and an RST. -/
theorem test_witness_RebuildAborts :
    let fetch (n : InternalNo) (st : LegState) : Leg := { copyLeg 0 .fetch st .absent with owner := .internal n }
    let write (n : InternalNo) : Leg := { copyLeg 1 (.write .copy) .blocked .absent with owner := .internal n }
    let host : Leg := { rdLeg .waiting with kind := .write .host, store := .line (zeroBytes 64) }
    let t := withHost 7 (entry (.wr .line none 0 (zeroBytes 64)) .active) (copying 2 [write 0, write 1, host])
    let s : State := { t with
      table := { t.table with internals := t.table.internals.set 1 (some { age := 0, line := 1, legsMade := 2, done := [] }) }
      mir := { t.mir with rebuild := some { target := .b, next := 2, copies := [(0, 0), (1, 1)], frontier := 0 } }
      chA := { t.chA with ctl := { t.chA.ctl with queue := [fetch 0 .issued, fetch 1 .waiting] } } }
    (s.takes (hd 3 4) (svcMessage (hd 3 4) 1 .takeOut) 3 (.svc .b .takeOut) = true ∧ s.settled.tagsOk = true ∧
      s.settled.mir.mode = .mirror ∧ (s.settled.ch .b).pwr.state = .active ∧
      s.settled.mir.health .b = .rebuilding ∧ (s.settled.ch .a).ctl.queue = [fetch 0 .issued, fetch 1 .waiting] ∧
      (s.settled.ch .b).ctl.queue = [write 0, write 1, host] ∧
      s.settled.mir.rebuild.map (·.copies) = some [(0, 0), (1, 1)]) ∧
    s.takes (hd 3 2) (rstMessage (hd 3 2)) 3 .rst = true := by decide +kernel

/-- A copy's FETCH that completes while a RESTART drains. -/
theorem test_witness_CopyFetchDrains :
    let fetch := copyLeg 0 .fetch .issued .absent
    let s := draining (accessing (leftOver []) fetch .broken)
    due s (fun y => (y.bank .a 0).readAccess) = true ∧ (s.atMoment 7).accessLeg .a 0 = some fetch ∧
    (s.atMoment 7).table.restarting = true ∧ ((s.atMoment 7).internal 0).isSome = true := by decide +kernel

/-- A READ that finds BROKEN on a channel that is out of service, or whose other channel is; each row of a recovery
READ with a REPAIR; a FETCH that finds BROKEN at the limit, a first one and a recovery. -/
theorem test_witness_MirroredReadEveryRow :
    let reads (s : State) (l : Leg) : Bool :=
      due s (fun y => (y.bank .a 0).readAccess) && (s.atMoment 7).accessLeg .a 0 == some l &&
        (s.atMoment 7).tagsOk && ((s.atMoment 7).host 7).isSome && !(s.atMoment 7).table.restarting &&
        (s.atMoment 7).mir.mode == .mirror
    let both := mirrored .inService .inService (reading .issued)
    let limit (s : State) : State := { s with conf := { s.conf with degradeLimit := 1 } }
    let recovery : Leg := { rdLeg .issued with recovery := true }
    let repair : Leg := { rdLeg .blocked with kind := .write .repair, no := 1 }
    let repairing : State := { both with chB := { both.chB with ctl := { both.chB.ctl with queue := [repair] } } }
    let fetch (again : Bool) : Leg := { rdLeg .issued with kind := .fetch, recovery := again }
    let store (n : Nat) : Leg := { rdLeg .blocked with kind := .write .host, no := n, size := .half }
    let merging : State :=
      withHost 7 { entry (.wr .half none 0 (zeroBytes 64)) .active with decoded := some (decodeAddr .mirror 0), legsMade := 3 }
        { both with
          chA := { both.chA with ctl := { both.chA.ctl with queue := [store 1] } }
          chB := { both.chB with ctl := { both.chB.ctl with queue := [store 2] } } }
    (reads (accessing (mirrored .degraded .inService (reading .issued)) (rdLeg .issued) .broken) (rdLeg .issued) = true ∧
      reads (accessing (mirrored .inService .degraded (reading .issued)) (rdLeg .issued) .broken) (rdLeg .issued) = true) ∧
    ([LineRec.unset, .intact (zeroBytes 64), .flawed (zeroBytes 64), .poisoned, .broken].all
      fun r => reads (accessing repairing recovery r) recovery) = true ∧
    reads (limit (accessing repairing recovery .broken)) recovery = true ∧
    (reads (limit (accessing merging (fetch false) .broken)) (fetch false) = true ∧
      reads (limit (accessing merging (fetch true) .broken)) (fetch true) = true ∧ both.mir.unc .a = 0 ∧
      [store 1, store 2].all (fun w => w.no != 3 && w.isBlockedWrite (.host 7) .host) = true) := by decide +kernel

/-- The payload of one answer of each form, of a reject and of a notice, written out from R193 and R194. -/
theorem test_payloads :
    (FrameMsg.item (.answer { kind := 1, tag := 9, status := .uncorrectable, extra := .read (some .b) none })).payload =
      [1, 9, 3, 1] ∧
    (FrameMsg.item (.answer { kind := 5, tag := 9, status := .ok, extra := .value 0x20 0x5A16 })).payload =
      [5, 9, 0, 0x20, 0x16, 0x5A, 0, 0] ∧
    (FrameMsg.item (.reject { tag := none, reason := .restarting, kind := some 7 })).payload = [0xE0, 0xFF, 2, 7] ∧
    (FrameMsg.notice
      { kind := .zone, chan := none, count := 2
        first := .zone .normal .warm (some (-2)), latest := .zone .warm .hot none }).payload =
      [2, 0xFF, 2, 0, 1, 1, 0xFE, 0xFF, 1, 2, 0, 0, 0] ∧
    (FrameMsg.item (.answer { kind := 10, tag := 9, status := .ok, extra := .snapshot (rebuilding 3).snapshot })).payload =
      [10, 9, 0, 1, 0, 0, 0, 0, 0, 0, 0, 0, 0, 0, 1, 1, 0xC0, 0, 0, 0, 0xC0, 0, 0, 0] ++
        [1, 0, 0, 0, 0, 0xFE, 0, 0, 0] ++ [1, 2, 0, 0, 0, 0xFE, 0, 0, 0] := by decide +kernel

/-- States that keep R121's law: both channels ACTIVE, and channel A in RETAIN, in RETAIN_ENTRY with a bank OPEN, and
in NAP_EXIT on its way to RETAIN. -/
theorem test_witness_RetainKept :
    base.retainOk ∧ (zoned .warm (aIn .retain)).retainOk ∧
    ({ retaining .retainEntry with chA := opened (retaining .retainEntry).chA } : State).retainOk ∧
    (retaining .napExit).retainOk ∧ (aIn .retain).chA.pwr.state = .retain ∧
    ∃ t, step (zoned .warm (aIn .retain)) = .next t := by
  refine ⟨fun c => ?_, fun c => ?_, fun c => ?_, fun c => ?_, rfl, step_next _⟩ <;> cases c <;>
    unfold Channel.retainOk <;> and_intros <;> decide +kernel

/-- The power state of channel A after command `i`. -/
def powerAfter (i : Instr) (s : State) : Option PowerState :=
  (after [i] s).map fun u => u.chA.pwr.state

/-- A POWER RETAIN that completes at once, and three that do not: a bank OPEN, a debt, a trim owed (R119). -/
theorem test_retain_at_once :
    powerAfter (.pwrRetain (hd 3 4) 0) base = some .retain ∧
    powerAfter (.pwrRetain (hd 3 4) 0) (withA opened) = some .retainEntry ∧
    powerAfter (.pwrRetain (hd 3 4) 0) (withA fun x => { x with refr := { x.refr with debt := 1 } }) =
      some .retainEntry ∧
    powerAfter (.pwrRetain (hd 3 4) 0)
      (withA fun x => { x with refr := { x.refr with trimming := .short } }) = some .retainEntry := by
  decide +kernel

/-- A joining leg stops the idle close of the bank open on its row, and not of one open on another row (R61). -/
theorem test_joining_stops_idle_close :
    let running : State := withA fun x =>
      { x with ctl := { x.ctl with banks := x.ctl.banks.set 0 { openBank 0 with idleClose := .running 50 } } }
    let idleClose (a : Word32) : Option IdleClose :=
      (after [.rd (hd 3 8) 0 0 a] running).map fun u => (u.bank .a 0).idleClose
    idleClose 0 = some .stopped ∧ idleClose 0x20000 = some (.running 50) := by decide +kernel

/-- A judged bank under each page policy, and one that still has a leg (R61 to R63). -/
theorem test_judged_idle_close :
    let f := Settings.powerOn
    let judged (f : Settings) (q : List Leg) := judgedIdleClose f 1000 q 0 (openBank 0)
    judged { f with pagePolicy := .closeIdle } [] = .due ∧ judged f [] = .running 5000 ∧
    judged { f with idleClose := 0 } [] = .stopped ∧ judged f [rdLeg .waiting] = .stopped := by decide +kernel

/-- A partial write's choice of channel moves the read toggle, unless one channel alone is ACTIVE (R133). -/
theorem test_partial_write_moves_toggle :
    let toggle (s : State) : Option Chan :=
      (after [.wr (hd 3 40) 1 0 0 0 (zeroBytes 64)] s).map fun u => u.mir.toggle
    toggle (mirrored .inService .inService) = some .b ∧
    toggle (mirrored .inService .inService (aIn .nap)) = some .a := by decide +kernel

/-- A posting with a record of its key, at its highest count and ahead of another, and without one (R187). -/
theorem test_notice_posted :
    let zone : Notice := { kind := .zone, chan := none, count := 1, first := .nothing, latest := .nothing }
    noticesPost .ready none (.address 1) (noticed ++ [zone]) =
      [{ kind := .ready, chan := none, count := 255, first := .nothing, latest := .address 1 }, zone] ∧
    noticesPost .corrected (some .b) (.address 1) [zone] =
      [zone, { kind := .corrected, chan := some .b, count := 1, first := .address 1, latest := .address 1 }] := by
  decide +kernel

/-- A leg's place: behind its own arrival number and lower ones, ahead of a higher one (R26). -/
theorem test_leg_placed :
    let l (age no : Nat) : Leg := { rdLeg .waiting with age := age, no := no }
    insertLeg (l 2 9) [l 1 0, l 2 0, l 3 0] = [l 1 0, l 2 0, l 2 9, l 3 0] ∧
    ([l 1 0, l 2 0, l 3 0].Pairwise fun v w => v.age ≤ w.age) := by decide +kernel

/-- An RSND that names the head leaves count and timer; one that names the last frame clears the frames ahead. -/
theorem test_rsnd :
    let s := linked { buffered with replayCount := 2 }
    let link (x : Byte) : Option (List Byte × Nat × Timer × Option Nat) :=
      (after [.rsnd x] s).map fun u =>
        (u.link.replay.map (·.seq), u.link.replayCount, u.link.replayTimer, u.link.resendPoint)
    link 0 = some ([0, 1, 2], 2, some 200000, some 0) ∧
    link 2 = some ([2], 0, some (s.settled.clock + 200000), some 0) := by decide +kernel

/-- When the conditions that O60 spells out hold and when they do not (R32, R119, R147). -/
theorem test_conditions_of_work :
    (power .retainEntry chan0).retainReady = true ∧ (power .retainEntry (opened chan0)).retainReady = false ∧
    (rebuilding 5).canStartCopy = true ∧ (rebuilding 16777216).canStartCopy = false ∧
    (barred []).barrierReady = true ∧ tagged.barrierReady = false ∧ base.decisionsTurn = true := by decide +kernel

/-- The second half of a line, and refresh intervals of two zones (R5, R10, R78). -/
theorem test_half_and_interval :
    readData .half true (Vector.ofFn fun k : Fin 64 => BitVec.ofNat 8 k.val) =
      .half (Vector.ofFn fun k : Fin 32 => BitVec.ofNat 8 (32 + k.val)) ∧
    refreshInterval .normal = 64000 ∧ refreshInterval .critical = 16000 := by decide +kernel

/-! ### Single steps -/

/-- The answers that wait after command `i`. -/
def answersAfter (i : Instr) (s : State) : Option (List QueueItem) :=
  match step { s with pending := [i] } with
  | .next t => some t.table.answers
  | _ => none

theorem test_get : answersAfter (.get (hd 3 3) 0x20) base =
    some [.answer { kind := 5, tag := 3, status := .ok, extra := .value 0x20 0x5A16 }] := by decide +kernel

theorem test_set : answersAfter (.setParameter (hd 3 7) 4 0) base =
    some [.answer { kind := 6, tag := 3, status := .badParam, extra := .param 4 }] := by decide +kernel

theorem test_rd_not_ready : answersAfter (.rd (hd 3 8) 0 0 1) unready =
    some [.answer { kind := 1, tag := 3, status := .notReady, extra := .read none none }] := by decide +kernel

/-- A POWER RETAIN of BOTH in zone HOT: BUSY while B is STARTING, THERMAL after (R127, R179, R203). -/
theorem test_retain_of_both_while_starting :
    let answer (st : Status) : Option (List QueueItem) :=
      some [.answer { kind := 7, tag := 3, status := st, extra := .nothing }]
    answersAfter (.pwrRetain (hd 3 4) 2) { zoned .hot with chB := power .starting base.chB } = answer .busy ∧
    answersAfter (.pwrRetain (hd 3 4) 2) (zoned .hot) = answer .thermal := by decide +kernel

theorem test_rd_waits : answersAfter (.rd (hd 3 8) 0 0 0) base = some [] := by decide +kernel

theorem test_malformed : answersAfter (.malformedMessage ⟨0, 0xFF⟩ [9]) base =
    some [.reject { tag := none, reason := .malformed, kind := some 9 }] := by decide +kernel

theorem test_can_tag_out_of_range : answersAfter (.can (hd 3 3) 64) base =
    some [.reject { tag := some 3, reason := .malformed, kind := some 4 }] := by decide +kernel

theorem test_cancel_waiting : answersAfter (.can (hd 3 3) 7) (reading .waiting) =
    some [.answer { kind := 1, tag := 7, status := .cancelled, extra := .read none none },
      .answer { kind := 4, tag := 3, status := .ok, extra := .nothing }] := by decide +kernel

theorem test_behind_is_not_handed_on : answersAfter (.stat { hd 3 2 with seq := 0xFF }) base = some [] := by
  decide +kernel

theorem test_pin_stops_events : answersAfter (.get (hd 3 3) 0x20) { base with pinHeld := true } = some [] := by
  decide +kernel

/-- A flawed line read in SPLIT mode: CORRECTED and a WRITEBACK leg that keeps the entry waiting. -/
theorem test_read_flawed :
    (match exec (.readAccessComplete .a 0) (accessing (reading .issued) (rdLeg .issued) (.flawed (zeroBytes 64))) with
     | .next t =>
       decide ((t.host 7).bind (·.status) = some .corrected ∧ t.table.answers = [] ∧
         (t.ch .a).ctl.queue.map (·.kind) = [.write .writeback] ∧ t.notices.map (·.kind) = [.corrected])
     | _ => false) = true := by decide +kernel

/-- A RETAIN_ENTRY begun and aborted in one release ends idle, with the nap-idle timer armed anew (R113, R120). -/
theorem test_released_retain_then_active :
    (after [.barrierAnswered] (barred [.pwr (.one .a) .retain, .pwr (.one .a) .active]
        (withA fun x => let y := opened x; { y with pwr := { y.pwr with idle := true, napIdle := some 9 } }))).map
      (fun t => ((t.ch .a).pwr.state, (t.ch .a).pwr.idle, (t.ch .a).pwr.napIdle)) =
    some (.active, true, some (10 * Settings.powerOn.napIdle)) := by decide +kernel
/-- A released SVC IN starts its copies before the SET of REBUILD_DEPTH behind it is released (R145, R147). -/
theorem test_copies_start_before_next_release :
    (after [.barrierAnswered] (barred [.svc .b .takeIn, .setParam 14 1]
        (mirrored .inService .degraded))).map
      (fun t => t.mir.rebuild.map (·.copies)) =
    some (some [(0,0),(1,1)]) := by decide +kernel
/-- And before a PWR NAP, which finds the copies' legs and is BUSY. -/
theorem test_released_nap_finds_copies :
    (after [.barrierAnswered] (barred [.svc .b .takeIn, .pwr (.one .b) .nap]
        (mirrored .inService .degraded))).map
      (fun t => (t.table.answers.map fun | .answer a => a.status | _ => .ok)) =
    some [.ok, .ok, .busy] := by decide +kernel

/-- An RD of tag 7 completes before its bank is judged (R52 step 4): the BAR that it held back is answered and
the held SET of PAGE_POLICY takes effect first, so that the close is DUE at once. -/
theorem test_released_policy_governs_the_completed_access :
    let s := barred [.setParam 2 1] (accessing (reading .issued) (rdLeg .issued) (.intact (zeroBytes 64)))
    (after [.readAccessComplete .a 0, .barrierAnswered] s).map
      (fun t => (t.bank .a 0).idleClose) = some .due ∧
    (after [.readAccessComplete .a 0] (accessing (reading .issued) (rdLeg .issued) (.intact (zeroBytes 64)))).map (fun t => (t.bank .a 0).idleClose) = some (.running 4007) := by decide +kernel

end Sys2Proof.Tests
end

