-- ==== Sys2Proof/Proofs/S01Memory.lean ====
section
/-! SUPPORT. O7, O12, O22, O23, O24: the storage array and the operand forms. -/

namespace Sys2Proof.Machine
open Sys2Proof

/-! ### What each command leaves of the storage array -/

theorem State.mem_of_outer {s t : State} (h : t.outer = s.outer) : t.mem = s.mem :=
  (State.outer_fields h).2.2.2.1

/-- An event keeps the canonical form when its own work does. -/
theorem event_keeps_memWf {s t : State} {f : State → State}
    (hf : ∀ u : State, u.mem.wf = true → (f u).mem.wf = true) (he : s.event f = .next t)
    (h : s.mem.wf = true) : t.mem.wf = true :=
  State.event_keeps (P := fun u => u.mem.wf = true) (by simp) (by simp) (hf _) he h

theorem event_keeps_memWf_of_outer {s t : State} {f : State → State} (hf : ∀ u, (f u).outer = u.outer)
    (he : s.event f = .next t) (h : s.mem.wf = true) : t.mem.wf = true :=
  event_keeps_memWf (fun u hu => by rwa [State.mem_of_outer (hf u)]) he h

/-- An expiry keeps the canonical form when its own work does. -/
theorem expiry_keeps_memWf {s t : State} {timer : State → Timer} {f : State → State}
    (hf : ∀ u : State, u.mem.wf = true → (f u).mem.wf = true) (he : s.expiry timer f = .next t)
    (h : s.mem.wf = true) : t.mem.wf = true :=
  State.expiry_keeps (P := fun u => u.mem.wf = true) (by simp) (by simp) (fun _ _ _ hu => hf _ hu) he h

theorem expiry_keeps_memWf_of_outer {s t : State} {timer : State → Timer} {f : State → State}
    (hf : ∀ u, (f u).outer = u.outer) (he : s.expiry timer f = .next t) (h : s.mem.wf = true) :
    t.mem.wf = true :=
  expiry_keeps_memWf (fun u hu => by rwa [State.mem_of_outer (hf u)]) he h

theorem own_keeps_memWf {s t : State} {due : Bool} {f : State → State} (hf : ∀ u, (f u).outer = u.outer)
    (he : s.own due f = .next t) (h : s.mem.wf = true) : t.mem.wf = true :=
  State.own_keeps (P := fun u => u.mem.wf = true) (by simp)
    (fun _ hu => by rwa [State.mem_of_outer (hf s)]) he h

theorem operation_keeps_memWf {s t : State} {c : Chan} {want : Operation → Bool}
    (he : s.operation c want = .next t) (h : s.mem.wf = true) : t.mem.wf = true :=
  State.operation_keeps (P := fun u => u.mem.wf = true) (by simp)
    (fun op _ _ hu => by rwa [State.mem_of_outer (State.beginOp_outer s c op)]) he h

theorem arbiter_keeps_memWf {s t : State} {want : Choice} {f : State → State}
    (hf : ∀ u, (f u).outer = u.outer) (he : s.arbiter want f = .next t) (h : s.mem.wf = true) :
    t.mem.wf = true :=
  State.arbiter_keeps (P := fun u => u.mem.wf = true) (by simp) (by simp)
    (fun _ hu => by rwa [State.mem_of_outer (hf s.settled)]) he h

/-! ### The thermal monitor leaves the array alone -/

@[simp] theorem State.mem_postNotice (s : State) (k : NoticeKind) (c : Option Chan) (f : NoticeFields) :
    (s.postNotice k c f).mem = s.mem := State.mem_of_outer (State.postNotice_outer s k c f)

@[simp] theorem State.mem_zoneForRefresh (s : State) (z : Zone) (c : Chan) :
    (s.zoneForRefresh z c).mem = s.mem := State.mem_of_outer (by simp [State.zoneForRefresh])

theorem State.heatRise_outer (s : State) (c : Chan) : (s.heatRise c).outer = s.outer := by
  unfold State.heatRise; split <;> simp

@[simp] theorem State.mem_heatRises (s : State) : s.heatRises.mem = s.mem := by
  unfold State.heatRises
  split
  · exact State.mem_of_outer (foldl_keeps State.outer _ State.heatRise_outer _ { s with draws := s.draws + 1 })
  · exact State.mem_of_outer (by simp [State.heatRise_outer])

@[simp] theorem State.mem_moveZone (s : State) (z : Zone) (x : Option Int) :
    (s.moveZone z x).mem = s.mem := by
  simp only [State.moveZone]
  (repeat' split) <;> simp

@[simp] theorem State.mem_takeReading (s : State) (x : Int) : (s.takeReading x).mem = s.mem := by
  simp only [State.takeReading]
  split <;> simp

@[simp] theorem State.mem_loseSensor (s : State) : s.loseSensor.mem = s.mem := by
  simp only [State.loseSensor]
  split <;> simp

@[simp] theorem State.mem_takeSample (s : State) (x : Sample) : (s.takeSample x).mem = s.mem := by
  cases x with
  | reading y => exact State.mem_takeReading s _
  | noReading =>
    simp only [State.takeSample, State.missSample]
    (repeat' split) <;> simp

/-! ### The two commands that write a line record -/

theorem disturbance_keeps_memWf (c : Chan) (m : LineNo) (s t : State)
    (he : execDisturbance c m s = .next t) (h : s.mem.wf = true) : t.mem.wf = true :=
  event_keeps_memWf (fun u hu => Memory.wf_write u.mem hu c m.isLt _) he h

/-- The state in which a WRITE access has ended: data path free, write recovery running (R47, R52). -/
def State.writeEnded (s : State) (c : Chan) (b : BankNo) : State :=
  s.modCtl c fun k =>
    (k.endAccess b).modBank b fun x =>
      { x with closable := false, writeRecovery := some (s.clock + Config.writeRecovery) }

/-- The state with what a WRITE leg stores in its line record (R13). -/
def State.stored (s : State) (c : Chan) (l : Leg) : State :=
  match l.store.record with
  | none => s
  | some r => { s with mem := s.mem.write c l.loc.line r }

/-- The completion of a WRITE, step by step (R52). -/
theorem State.completeWrite_eq {s : State} {c : Chan} {b : BankNo} {l : Leg} (h : s.accessLeg c b = some l) :
    s.completeWrite c b =
      (((((((s.writeEnded c b).stored c l).takeLeg c l.id).recordDone l).finishWriting l).judgeOwner
        l.owner).later (.bank c b)).callDecision c := by
  simp only [State.completeWrite, h]
  rfl

theorem State.completeWrite_none {s : State} {c : Chan} {b : BankNo} (h : s.accessLeg c b = none) :
    s.completeWrite c b = s := by
  simp only [State.completeWrite, h]

@[simp] theorem State.mem_writeEnded (s : State) (c : Chan) (b : BankNo) : (s.writeEnded c b).mem = s.mem :=
  State.mem_modCtl _ _ _

theorem State.mem_stored (s : State) (c : Chan) (l : Leg) :
    (s.stored c l).mem =
      match l.store.record with
      | none => s.mem
      | some r => s.mem.write c l.loc.line r := by
  unfold State.stored
  split <;> rfl

/-- A completing WRITE changes the array by its own line record alone (R13). -/
theorem State.mem_completeWrite {s : State} {c : Chan} {b : BankNo} {l : Leg} (h : s.accessLeg c b = some l) :
    (s.completeWrite c b).mem = ((s.writeEnded c b).stored c l).mem := by
  rw [State.completeWrite_eq h]
  exact State.mem_of_outer (by simp)

theorem State.stored_keeps_memWf (s : State) (c : Chan) (l : Leg) (h : s.mem.wf = true) :
    (s.stored c l).mem.wf = true := by
  unfold State.stored
  split
  · exact h
  · exact Memory.wf_write s.mem h c l.loc.line_lt _

theorem State.completeWrite_keeps_memWf (s : State) (c : Chan) (b : BankNo) (h : s.mem.wf = true) :
    (s.completeWrite c b).mem.wf = true := by
  cases hl : s.accessLeg c b with
  | none => rwa [State.completeWrite_none hl]
  | some l =>
    rw [State.mem_completeWrite hl]
    exact State.stored_keeps_memWf _ c l (by simpa using h)

/-! ### Every command keeps the canonical form -/

theorem sensorSample_keeps_memWf (x : Sample) (s t : State) (he : execSensorSample x s = .next t)
    (h : s.mem.wf = true) : t.mem.wf = true := by
  have kept : t.mem = s.mem := by
    simp only [execSensorSample] at he
    split at he
    · split at he <;> cases he <;> simp [State.sampleAtMoment]
    · cases he; rfl
  rwa [kept]

/-- At power-on every record is UNSET, and the supplies and the pin alone change none. -/
theorem powerOn_keeps_memWf (cause : PowerOnCause) (s t : State) (he : execPowerOn cause s = .next t)
    (h : s.mem.wf = true) : t.mem.wf = true := by
  have restarted : s.restartPart.mem.wf = true := Memory.wf_powerOn _ _ _
  cases cause with
  | suppliesApplied =>
    cases he
    split
    · exact h
    · exact restarted
  | pinReleased =>
    cases he
    split
    · split
      · exact restarted
      · exact h
    · exact h

theorem request_keeps_memWf {s t : State} {h : FrameHdr} {m : RawMsg} (he : s.request h m = .next t)
    (hw : s.mem.wf = true) : t.mem.wf = true :=
  event_keeps_memWf_of_outer (fun u => u.takeRequestFrame_outer h m) he hw

theorem exec_keeps_memWf (i : Instr) (s t : State) (h : s.mem.wf = true) (he : exec i s = .next t) :
    t.mem.wf = true := by
  cases i with
  | powerOn cause => exact powerOn_keeps_memWf cause s t he h
  | resetPinAssert => cases he; exact h
  | powerRemoved => cases he; exact h
  | disturbance c m => exact disturbance_keeps_memWf c m s t he h
  | sensorSample x => exact sensorSample_keeps_memWf x s t he h
  | rd | wr | bar | can | get | setMode | setPullIn | setRebuildDepth | setNapIdle | setRetainIdle
  | setParameter | pwrActive | pwrNap | pwrRetain | trim | svcOut | svcIn | stat | rst
  | malformedMessage => exact request_keeps_memWf he h
  | sync | ack | rsnd | badFrame | requestFrameAhead | requestFrameBehind | frameDiscarded =>
    dsimp only [exec, execSync, execAck, execRsnd, execBadFrame, execRequestFrameAhead,
      execRequestFrameBehind, execFrameDiscarded] at he
    exact event_keeps_memWf_of_outer (fun u => by simp) he h
  | writeAccessComplete c b =>
    dsimp only [exec, execWriteAccessComplete] at he
    exact expiry_keeps_memWf (fun u hu => u.completeWrite_keeps_memWf c b hu) he h
  | openSettleExpiry | minimumOpenExpiry | rowCycleExpiry | closeExpiry | readAccessComplete
  | writeRecoveryExpiry | openSpacingExpiry | openingWindowExpiry | idleCloseExpiry | sweepEnd
  | shortTrimEnd | longTrimEnd | refreshTimerExpiry | napIdleExpiry | retainIdleExpiry | napExitExpiry
  | retainExitExpiry | ackDelayExpiry | replayTimerExpiry | transmissionEnd =>
    dsimp only [exec, execOpenSettleExpiry, execMinimumOpenExpiry, execRowCycleExpiry, execCloseExpiry,
      execReadAccessComplete, execWriteRecoveryExpiry, execOpenSpacingExpiry, execOpeningWindowExpiry,
      execIdleCloseExpiry, execSweepEnd, execShortTrimEnd, execLongTrimEnd, execRefreshTimerExpiry,
      execNapIdleExpiry, execRetainIdleExpiry, execNapExitExpiry, execRetainExitExpiry,
      execAckDelayExpiry, execReplayTimerExpiry, execTransmissionEnd] at he
    exact expiry_keeps_memWf_of_outer (fun u => by simp) he h
  | issueAccess | openBegin | closeBegin | sweepBegin | shortTrimBegin => exact operation_keeps_memWf he h
  | retainEntryComplete | barrierAnswered | copyStart | restartEnd =>
    dsimp only [exec, execRetainEntryComplete, execBarrierAnswered, execCopyStart, execRestartEnd] at he
    exact own_keeps_memWf (fun u => by simp) he h
  | transmitControl | retransmit | transmitAnswer | transmitNotice =>
    exact arbiter_keeps_memWf (fun u => by simp) he h

@[simp] theorem State.mem_idleTick (s : State) : s.idleTick.mem = s.mem := by
  unfold State.idleTick
  dsimp only
  (repeat' split) <;> simp

/-- Settles O12: only a disturbance and a completing WRITE change a line record, and both write one record of
the array in canonical form; a power-on leaves the empty list. -/
theorem everyStepKeepsMemoryForm : Obligations.EveryStepKeepsMemoryForm := by
  intro s t h hs
  cases hp : s.pending with
  | nil =>
    simp only [step, hp] at hs
    cases hs
    simpa using h
  | cons i rest =>
    simp only [step, hp] at hs
    exact exec_keeps_memWf i { s with pending := rest } t h hs

/-! ### A disturbance (R8) -/

/-- Settles O7: the only change is the write of the record's disturbed value. -/
theorem disturbanceDamagesOneRecord : Obligations.DisturbanceDamagesOneRecord := by
  intro c m s hw hl
  refine ⟨s.mem.write c m.val (s.mem.read c m.val).disturbed, ?_, ?_, ?_⟩
  · refine (State.event_live hl
      fun u => { u with mem := u.mem.write c m.val (u.mem.read c m.val).disturbed }).trans ?_
    simp
  · rw [Memory.read_write_self _ hw]
    cases s.mem.read c m.val <;> rfl
  · intro d n hne
    exact Memory.read_write_ne _ hne _

end Sys2Proof.Machine
end

