-- ==== Sys2Proof/Proofs/S01Operands.lean ====
section
/-! SUPPORT. O22, O23, O24: places, addresses and merges. -/

namespace Sys2Proof.Machine
open Sys2Proof

/-! ### Places (R1) -/

@[simp] theorem locOfLine_line (l : Loc) : locOfLine l.line = l := by
  obtain ⟨⟨b, hb⟩, ⟨r, hr⟩, ⟨k, hk⟩⟩ := l
  simp only [locOfLine, Loc.line, Loc.mk.injEq, Fin.mk.injEq]
  omega

theorem line_locOfLine {m : Nat} (h : m < 2 ^ 24) : (locOfLine m).line = m := by
  simp only [locOfLine, Loc.line]
  omega

/-- Settles O22: the line index is the mixed-radix number of row, column and bank. -/
theorem lineIndexAndPlace : Obligations.LineIndexAndPlace := by
  refine ⟨⟨rfl, rfl⟩, fun l => ⟨?_, ?_, ?_, l.line_lt, rfl, locOfLine_line l⟩,
    fun m hm => ⟨rfl, rfl, ?_, line_locOfLine hm⟩⟩
  · exact Nat.le_of_lt_succ l.bank.isLt
  · exact Nat.le_of_lt_succ l.row.isLt
  · exact Nat.le_of_lt_succ l.col.isLt
  · exact Nat.mod_eq_of_lt (by omega)

/-! ### The two decodes (R3, R4, R7) -/

@[simp] theorem secondHalf_eq (a : Word32) : secondHalf a = decide (a.toNat / 32 % 2 = 1) := by
  simp [secondHalf, BitVec.getLsbD, Nat.testBit_eq_decide_div_mod_eq]

@[simp] theorem decodeAddr_second (mode : Mode) (a : Word32) : (decodeAddr mode a).second = secondHalf a := by
  cases mode <;> rfl

theorem decodeAddr_split_line {a : Word32} (h : a.toNat ≤ 0x7FFFFFFF) :
    (decodeAddr .split a).loc.line = a.toNat / 64 / 2 := line_locOfLine (by omega)

theorem decodeAddr_mirror_line {a : Word32} (h : a.toNat ≤ 0x3FFFFFFF) :
    (decodeAddr .mirror a).loc.line = a.toNat / 64 := line_locOfLine (by omega)

theorem Chan.num_le_one (c : Chan) : c.num ≤ 1 := by cases c <;> decide

theorem Chan.eq_ite_num (c : Chan) : (if c.num = 0 then Chan.a else .b) = c := by cases c <;> rfl

theorem lineAddress_split_toNat {c : Chan} {m : Nat} (h : m < 2 ^ 24) :
    (lineAddress .split c m).toNat = 64 * (2 * m + c.num) := by
  have hc := Chan.num_le_one c
  rw [lineAddress, BitVec.toNat_ofNat]
  omega

theorem lineAddress_mirror_toNat {c : Chan} {m : Nat} (h : m < 2 ^ 24) :
    (lineAddress .mirror c m).toNat = 64 * m := by
  rw [lineAddress, BitVec.toNat_ofNat]
  omega

theorem decodeAddr_split_chan_num (a : Word32) :
    ((decodeAddr .split a).chan.map Chan.num) = some (a.toNat / 64 % 2) := by
  have h : a.toNat / 64 % 2 = 0 ∨ a.toNat / 64 % 2 = 1 := by omega
  rcases h with h | h <;> simp [decodeAddr, h, Chan.num]

/-- The SPLIT decode of the line address that the part reports is the line itself. -/
theorem decodeAddr_lineAddress_split (c : Chan) {m : Nat} (h : m < 2 ^ 24) :
    (decodeAddr .split (lineAddress .split c m)).chan = some c ∧
      (decodeAddr .split (lineAddress .split c m)).loc.line = m := by
  have hc := Chan.num_le_one c
  have hn := lineAddress_split_toNat (c := c) h
  have hq : 64 * (2 * m + c.num) / 64 % 2 = c.num := by omega
  constructor
  · simp only [decodeAddr, hn, hq, Chan.eq_ite_num c]
  · rw [decodeAddr_split_line (by omega), hn]
    omega

theorem decodeAddr_lineAddress_mirror (c : Chan) {m : Nat} (h : m < 2 ^ 24) :
    (decodeAddr .mirror (lineAddress .mirror c m)).loc.line = m := by
  have hn := lineAddress_mirror_toNat (c := c) h
  rw [decodeAddr_mirror_line (by omega), hn]
  omega

/-- Every address that the SPLIT decode takes to a line lies in the 64 bytes from its line address. -/
theorem lineAddress_split_of_decode {a : Word32} {c : Chan} {m : Nat} (hm : m < 2 ^ 24)
    (ha : a.toNat ≤ 0x7FFFFFFF) (hc : (decodeAddr .split a).chan = some c)
    (hl : (decodeAddr .split a).loc.line = m) :
    (lineAddress .split c m).toNat = a.toNat / 64 * 64 := by
  have hn := decodeAddr_split_chan_num a
  rw [hc, Option.map_some, Option.some_inj] at hn
  rw [decodeAddr_split_line ha] at hl
  rw [lineAddress_split_toNat hm]
  omega

theorem lineAddress_mirror_of_decode {a : Word32} {c : Chan} {m : Nat} (hm : m < 2 ^ 24)
    (ha : a.toNat ≤ 0x3FFFFFFF) (hl : (decodeAddr .mirror a).loc.line = m) :
    (lineAddress .mirror c m).toNat = a.toNat / 64 * 64 := by
  rw [decodeAddr_mirror_line ha] at hl
  rw [lineAddress_mirror_toNat hm]
  omega

/-- Settles O23. -/
theorem addressDecode : Obligations.AddressDecode := by
  intro a
  refine ⟨fun h => ⟨rfl, decodeAddr_split_line h⟩, fun h => ⟨rfl, decodeAddr_mirror_line h⟩, ?_, ?_, ?_, ?_⟩
  · simp
  · simp [aligned]
  · simp [inRange]
  · intro c m hm
    obtain ⟨hchan, hline⟩ := decodeAddr_lineAddress_split c hm
    exact ⟨hchan, hline, decodeAddr_lineAddress_mirror c hm, lineAddress_split_of_decode hm,
      lineAddress_mirror_of_decode hm⟩

/-! ### Merges (R13, R15) -/

/-- The mask selects byte `j`: absent, or with flag `j` set (R13). -/
theorem mask_selects_iff (mask : Option (BitVec 64)) (j : Nat) :
    (mask.map fun m => m.getLsbD j).getD true = true ↔
      mask = none ∨ ∃ m, mask = some m ∧ m.getLsbD j = true := by
  cases mask <;> simp

theorem fullWrite_line_some_iff (mask : BitVec 64) :
    fullWrite .line (some mask) = true ↔ ∀ k, k < 64 → mask.getLsbD k = true := by
  simp only [fullWrite, beq_iff_eq]
  constructor
  · rintro rfl k hk
    rw [BitVec.getLsbD_allOnes, decide_eq_true hk]
  · intro h
    refine BitVec.eq_of_getLsbD_eq fun k hk => ?_
    rw [h k hk, BitVec.getLsbD_allOnes, decide_eq_true hk]

theorem fullWrite_line_none : fullWrite .line none = true := rfl

theorem fullWrite_half (mask : Option (BitVec 64)) : fullWrite .half mask = false := by
  cases mask <;> rfl

theorem mergeLine_get (sz : Size) (second : Bool) (mask : Option (BitVec 64)) (data base : Bytes 64) {k : Nat}
    (hk : k < 64) :
    (mergeLine sz second mask data base)[k] = (selectedByte sz second mask data ⟨k, hk⟩).getD base[k] := by
  simp [mergeLine]

theorem selectedByte_line (second : Bool) (mask : Option (BitVec 64)) (data : Bytes 64) (k : Fin 64) :
    selectedByte .line second mask data k =
      if mask = none ∨ (∃ m, mask = some m ∧ m.getLsbD k.val = true) then some data[k] else none := by
  simp only [selectedByte, mask_selects_iff]

/-- A byte of the half that a HALF write names. -/
theorem selectedByte_half_inside {second : Bool} {k j : Nat} (hk : k < 64) (hs : second = decide (32 ≤ k))
    (hj : k % 32 = j) (mask : Option (BitVec 64)) (data : Bytes 64) :
    selectedByte .half second mask data ⟨k, hk⟩ =
      if mask = none ∨ (∃ m, mask = some m ∧ m.getLsbD j = true) then some (data[j]'(by omega)) else none := by
  subst hj
  simp only [selectedByte, hs, beq_self_eq_true, if_true, mask_selects_iff]
  rfl

/-- A byte of the other half. -/
theorem selectedByte_half_outside {second : Bool} {k : Nat} (hk : k < 64) (hs : second ≠ decide (32 ≤ k))
    (mask : Option (BitVec 64)) (data : Bytes 64) : selectedByte .half second mask data ⟨k, hk⟩ = none := by
  simp [selectedByte, hs]

theorem ite_some_getD {α : Type} (p : Prop) [Decidable p] (x y : α) :
    (if p then some x else none).getD y = if p then x else y := by
  split <;> rfl

theorem mergeLine_half_inside {second : Bool} {k j : Nat} (hk : k < 64) (hs : second = decide (32 ≤ k))
    (hj : k % 32 = j) (mask : Option (BitVec 64)) (data base : Bytes 64) :
    (mergeLine .half second mask data base)[k] =
      if mask = none ∨ (∃ m, mask = some m ∧ m.getLsbD j = true) then data[j]'(by omega) else base[k] := by
  rw [mergeLine_get, selectedByte_half_inside hk hs hj, ite_some_getD]

theorem mergeLine_half_outside {second : Bool} {k : Nat} (hk : k < 64) (hs : second ≠ decide (32 ≤ k))
    (mask : Option (BitVec 64)) (data base : Bytes 64) :
    (mergeLine .half second mask data base)[k] = base[k] := by
  rw [mergeLine_get, selectedByte_half_outside hk hs, Option.getD_none]

/-- Settles O24. -/
theorem partialWriteMerges : Obligations.PartialWriteMerges := by
  refine ⟨fun mask => ⟨fullWrite_line_none, fullWrite_line_some_iff mask⟩, fullWrite_half, ?_, ?_, ?_⟩
  · intro second mask data base k
    rw [Fin.getElem_fin, mergeLine_get, selectedByte_line, ite_some_getD]
    rfl
  · intro mask data base k
    have hk := k.isLt
    exact ⟨mergeLine_half_inside (by omega) (by simp [hk]) (by omega) mask data base,
      mergeLine_half_outside (by omega) (by simp) mask data base,
      mergeLine_half_inside (by omega) (by simp) (by omega) mask data base,
      mergeLine_half_outside (by omega) (by simp [hk]) mask data base⟩
  · intro sz second mask data r
    cases r <;> rfl

end Sys2Proof.Machine
end

