-- ==== Sys2Proof/Proofs/S01Refusals.lean ====
section
/-! SUPPORT. O30: the refusals of RD and WR (R172). -/

namespace Sys2Proof.Machine
open Sys2Proof

/-! ### Taking an RD or a WR -/

/-- An RD that is taken runs the checks of R173 on its new entry. -/
theorem exec_rd_takes {s : State} {h : ReqHdr} {sz mf : Byte} {x : Word32} {z : Size} {g : Tag}
    (ht : s.takes h (rdMessage h sz mf x) g (.rd z x) = true) :
    exec (.rd h sz mf x) s =
      .next (((s.handed h.frame).entered g (.rd z x)).checkRd g z x).conclude :=
  State.request_takes ht

/-- A WR that is taken runs the checks of R174 on its new entry. -/
theorem exec_wr_takes {s : State} {h : ReqHdr} {sz mf : Byte} {x : Word32} {mask : BitVec 64}
    {data : Bytes 64} {z : Size} {fm : Option (BitVec 64)} {g : Tag}
    (ht : s.takes h (wrMessage h sz mf x mask data) g (.wr z fm x data) = true) :
    exec (.wr h sz mf x mask data) s =
      .next (((s.handed h.frame).entered g (.wr z fm x data)).checkWr g z fm x data).conclude :=
  State.request_takes ht

@[simp] theorem State.memoryRefusal_handed (s : State) (h : FrameHdr) (g : Tag) (q : Req) (z : Size)
    (x : Word32) : ((s.handed h).entered g q).memoryRefusal z x = s.settled.memoryRefusal z x := rfl

theorem aligned_eq_false_iff (z : Size) (x : Word32) :
    aligned z x = false ↔ x.toNat % (match z with | .line => 64 | .half => 32) ≠ 0 := by
  cases z <;> simp [aligned]

theorem inRange_eq_false_iff (mode : Mode) (x : Word32) :
    inRange mode x = false ↔ (match mode with | .split => 0x7FFFFFFF | .mirror => 0x3FFFFFFF) < x.toNat := by
  cases mode <;> simp [inRange]

/-! ### A refused request -/

/-- What a new entry of request `q` is answered with. -/
theorem State.entered_answer (r : State) (g : Tag) (q : Req) (st : Status) :
    (r.entered g q).answer g st = r.answeredNew g q st ((newEntry r q .active none).extra st) :=
  State.entered_answerWith r g q st fun e => e.extra st

theorem State.checkRd_refused {s : State} {g : Tag} {z : Size} {x : Word32} {st : Status}
    (h : s.memoryRefusal z x = some st) : s.checkRd g z x = s.answer g st := by
  simp only [State.checkRd, h]

theorem State.checkWr_refused {s : State} {g : Tag} {z : Size} {m : Option (BitVec 64)} {x : Word32}
    {data : Bytes 64} {st : Status} (h : s.memoryRefusal z x = some st) :
    s.checkWr g z m x data = s.answer g st := by
  simp only [State.checkWr, h]

/-- No data stands in a new RD entry, so its refusal carries none. -/
theorem newEntry_extra_rd (r : State) (z : Size) (x : Word32) (st : Status) :
    (newEntry r (.rd z x) .active none).extra st = .read none none := by
  simp [Entry.extra, newEntry]

/-- Settles O30: the chain of R172 is that of the model, and a refusal answers the new entry. -/
theorem memoryRequestsRefused : Obligations.MemoryRequestsRefused := by
  intro s h g st t r refusal
  have chain (z : Size) (x : Word32) : t.memoryRefusal z x = refusal z x := by
    simp only [State.memoryRefusal, aligned_eq_false_iff, inRange_eq_false_iff]
    rfl
  refine ⟨fun sz mf x z ht hr => ?_, fun sz mf x mask data z fm ht hr => ?_⟩
  · have refused : (r.entered g (.rd z x)).memoryRefusal z x = some st := (chain z x).trans hr
    rw [exec_rd_takes ht, State.checkRd_refused refused, State.entered_answer, newEntry_extra_rd]
  · have refused : (r.entered g (.wr z fm x data)).memoryRefusal z x = some st := (chain z x).trans hr
    rw [exec_wr_takes ht, State.checkWr_refused refused, State.entered_answer]
    rfl

end Sys2Proof.Machine
end

