-- ==== Sys2Proof/Proofs/S01Legs.lean ====
section
/-! SUPPORT. What placing, taking and waking do (R26, R43, R61, R115, R120, R121): the controller changes
by its due mark alone, the table by the answer of an aborted POWER RETAIN alone. -/

namespace Sys2Proof.Machine
open Sys2Proof

/-! ### The controller up to its due mark -/

/-- The controller without the mark of the decision that the present event still owes (log 3). -/
def Control.still (k : Control) : Control := { k with due := false }

/-- Two controllers that differ in the due mark alone agree in every other field. -/
theorem Control.fields_of_still {k j : Control} (h : k.still = j.still) :
    k.queue = j.queue ∧ k.banks = j.banks ∧ k.pathBusy = j.pathBusy ∧ k.oldest = j.oldest ∧
      k.passed = j.passed := by
  simp only [Control.still, Control.mk.injEq] at h
  obtain ⟨hqueue, hbanks, -, -, hpath, -, -, -, holdest, hpassed, -⟩ := h
  exact ⟨hqueue, hbanks, hpath, holdest, hpassed⟩

theorem Control.queue_of_still {k j : Control} (h : k.still = j.still) : k.queue = j.queue :=
  (Control.fields_of_still h).1

theorem Control.bank_of_still {k j : Control} (h : k.still = j.still) (b : BankNo) : k.bank b = j.bank b := by
  rw [Control.bank, Control.bank, (Control.fields_of_still h).2.1]

theorem Control.pathBusy_of_still {k j : Control} (h : k.still = j.still) : k.pathBusy = j.pathBusy :=
  (Control.fields_of_still h).2.2.1

@[simp] theorem State.still_callDecision (s : State) (c d : Chan) :
    ((s.callDecision c).ch d).ctl.still = (s.ch d).ctl.still := by cases c <;> cases d <;> rfl

@[simp] theorem State.ctl_callDecision_other (s : State) (c : Chan) :
    ((s.callDecision c).ch c.other).ctl = (s.ch c.other).ctl := by cases c <;> rfl

@[simp] theorem State.due_callDecision (s : State) (c : Chan) :
    ((s.callDecision c).ch c).ctl.due = true := by cases c <;> rfl

@[simp] theorem State.pwr_callDecision (s : State) (c d : Chan) :
    ((s.callDecision c).ch d).pwr = (s.ch d).pwr := by cases c <;> cases d <;> rfl

@[simp] theorem State.still_recompute (s : State) (c d : Chan) :
    ((s.recompute c).ch d).ctl.still = (s.ch d).ctl.still := by
  unfold State.recompute
  dsimp only
  (repeat' split) <;> simp

@[simp] theorem State.ctl_recompute_other (s : State) (c : Chan) :
    ((s.recompute c).ch c.other).ctl = (s.ch c.other).ctl := by
  unfold State.recompute
  dsimp only
  (repeat' split) <;> simp

/-- A decision that is called stays called. -/
theorem State.due_recompute {s : State} {c d : Chan} (h : (s.ch d).ctl.due = true) :
    ((s.recompute c).ch d).ctl.due = true := by
  unfold State.recompute
  dsimp only
  (repeat' split)
  · exact h
  · exact h
  · rcases Chan.eq_or_other c d with rfl | rfl
    · simp
    · simpa using h

@[simp] theorem State.pwr_recompute (s : State) (c d : Chan) :
    ((s.recompute c).ch d).pwr = (s.ch d).pwr := by
  unfold State.recompute
  dsimp only
  (repeat' split) <;> simp

@[simp] theorem State.still_report (s : State) (c d : Chan) :
    ((s.report c).ch d).ctl.still = (s.ch d).ctl.still := by simp [State.report]

@[simp] theorem State.ctl_report_other (s : State) (c : Chan) :
    ((s.report c).ch c.other).ctl = (s.ch c.other).ctl := by simp [State.report]

theorem State.due_report {s : State} {c d : Chan} (h : (s.ch d).ctl.due = true) :
    ((s.report c).ch d).ctl.due = true := by
  simpa [State.report] using State.due_recompute h

/-- A report leaves power control's state, onward mark and pending POWER. -/
theorem State.pwr_report (s : State) (c d : Chan) :
    ((s.report c).ch d).pwr.state = (s.ch d).pwr.state ∧
      ((s.report c).ch d).pwr.onward = (s.ch d).pwr.onward ∧
      ((s.report c).ch d).pwr.pendingPower = (s.ch d).pwr.pendingPower := by
  obtain ⟨hs, -, -, ho, hp⟩ := State.pwr_judgeIdle (s.recompute c) c d
  rw [State.report, hs, ho, hp, State.pwr_recompute]
  exact ⟨rfl, rfl, rfl⟩

/-! ### Answers -/

@[simp] theorem State.ch_answerWith (s : State) (t : Tag) (st : Status) (x : Entry → Extra) (d : Chan) :
    (s.answerWith t st x).ch d = s.ch d := by
  unfold State.answerWith
  split <;> simp

@[simp] theorem State.ch_answer (s : State) (t : Tag) (st : Status) (d : Chan) :
    (s.answer t st).ch d = s.ch d := State.ch_answerWith _ _ _ _ _

/-- What an answer makes of the table depends on the table alone. -/
theorem State.table_answer_congr {s u : State} (h : s.table = u.table) (t : Tag) (st : Status) :
    (s.answer t st).table = (u.answer t st).table := by
  have hh : s.host t = u.host t := by rw [State.host, State.host, h]
  simp only [State.answer, State.answerWith, hh]
  split
  · exact h
  · simp [State.pushItem, State.setHost, h]

theorem State.host_of_table {s u : State} (h : s.table = u.table) (t : Tag) : s.host t = u.host t := by
  rw [State.host, State.host, h]

/-- The answer of a tag in use (R30). -/
theorem State.answer_of_host {s : State} {t : Tag} {e : Entry} (h : s.host t = some e) (st : Status) :
    s.answer t st =
      (s.setHost t (some { e with state := .answered, status := some st })).pushItem
        (.answer { kind := reqCode e.req, tag := t, status := st, extra := e.extra st }) := by
  simp only [State.answer, State.answerWith, h]

theorem State.host_answer_ne {t g : Tag} (h : g ≠ t) (s : State) (st : Status) :
    (s.answer t st).host g = s.host g := by
  unfold State.answer State.answerWith
  split
  · rfl
  · rw [State.host_pushItem, State.host_setHost_ne h]

/-- An answer keeps everything of every entry but its state and its status (R30). -/
theorem State.host_answer (s : State) (t : Tag) (st : Status) {g : Tag} {e : Entry} (h : s.host g = some e) :
    ∃ x y, (s.answer t st).host g = some { e with state := x, status := y } := by
  by_cases hg : g = t
  · subst hg
    rw [State.answer_of_host h]
    exact ⟨.answered, some st, by simp⟩
  · exact ⟨e.state, e.status, by rw [State.host_answer_ne hg, h]⟩

/-- An answer leaves the table but for its entries and the answer queue. -/
theorem State.table_answer (s : State) (t : Tag) (st : Status) :
    (s.answer t st).table.arrivals = s.table.arrivals ∧
      (s.answer t st).table.internals = s.table.internals ∧
      (s.answer t st).table.restarting = s.table.restarting := by
  unfold State.answer State.answerWith
  split <;> exact ⟨rfl, rfl, rfl⟩

/-! ### A POWER RETAIN aborted (R120, R127) -/

@[simp] theorem State.ctl_powerAborted (s : State) (c d : Chan) :
    ((s.powerAborted c).ch d).ctl = (s.ch d).ctl := by
  unfold State.powerAborted
  dsimp only
  (repeat' split) <;> simp

@[simp] theorem State.state_powerAborted (s : State) (c : Chan) :
    ((s.powerAborted c).ch c).pwr.state = (s.ch c).pwr.state := by
  unfold State.powerAborted
  dsimp only
  (repeat' split) <;> simp [State.ch_modPwr]

@[simp] theorem State.onward_powerAborted (s : State) (c : Chan) :
    ((s.powerAborted c).ch c).pwr.onward = (s.ch c).pwr.onward := by
  unfold State.powerAborted
  dsimp only
  (repeat' split) <;> simp [State.ch_modPwr]

/-- The table after a leg or a POWER ACTIVE has acted on a channel: as it was, or with the channel's
pending POWER answered ABORTED. -/
def State.TableAborts (s t : State) (c : Chan) : Prop :=
  t.table = s.table ∨
    ∃ p, (s.ch c).pwr.pendingPower = some p ∧ t.table = (s.answer p.tag .aborted).table

theorem State.tableAborts_powerAborted (s : State) (c : Chan) : s.TableAborts (s.powerAborted c) c := by
  unfold State.powerAborted
  split
  · exact .inl rfl
  · rename_i p hp
    split
    · exact .inl rfl
    · refine .inr ⟨p, hp, State.table_answer_congr ?_ _ _⟩
      split <;> simp

/-- `TableAborts` looks at the table and at the pending POWER alone. -/
theorem State.TableAborts.congr {s s' t : State} {c : Chan} (h : s'.TableAborts t c)
    (ht : s'.table = s.table) (hp : (s'.ch c).pwr.pendingPower = (s.ch c).pwr.pendingPower) :
    s.TableAborts t c := by
  rcases h with h | ⟨p, h, h'⟩
  · exact .inl (h.trans ht)
  · exact .inr ⟨p, hp ▸ h, h'.trans (State.table_answer_congr ht _ _)⟩

/-- What a wake leaves of the table: entries keep all but state and status, and one whose tag is no
pending POWER's is left as it is. -/
theorem State.TableAborts.host {s t : State} {c : Chan} (h : s.TableAborts t c) {g : Tag} {e : Entry}
    (he : s.host g = some e) : ∃ x y, t.host g = some { e with state := x, status := y } := by
  rcases h with h | ⟨p, -, h⟩
  · exact ⟨e.state, e.status, by rw [State.host_of_table h, he]⟩
  · rw [State.host_of_table h]
    exact State.host_answer s _ _ he

theorem State.TableAborts.host_eq {s t : State} {c : Chan} (h : s.TableAborts t c) {g : Tag}
    (hg : ∀ p, (s.ch c).pwr.pendingPower = some p → p.tag ≠ g) : t.host g = s.host g := by
  rcases h with h | ⟨p, hp, h⟩
  · exact State.host_of_table h g
  · rw [State.host_of_table h]
    exact State.host_answer_ne (hg p hp).symm s _

theorem State.TableAborts.arrivals {s t : State} {c : Chan} (h : s.TableAborts t c) :
    t.table.arrivals = s.table.arrivals := by
  rcases h with h | ⟨p, -, h⟩
  · rw [h]
  · rw [h, (State.table_answer s _ _).1]

/-! ### The wake of a channel (R115, R120, R121) -/

@[simp] theorem State.ctl_judge_channel (s : State) (c d : Chan) :
    ((s.judge (.channel c)).ch d).ctl = (s.ch d).ctl := by simp [State.judge]

@[simp] theorem State.ctl_later_channel (s : State) (c d : Chan) :
    ((s.later (.channel c)).ch d).ctl = (s.ch d).ctl := by
  unfold State.later
  split
  · simp
  · cases d <;> rfl

@[simp] theorem State.still_beginNapExit (s : State) (c d : Chan) (o : Bool) :
    ((s.beginNapExit c o).ch d).ctl.still = (s.ch d).ctl.still := by simp [State.beginNapExit]

@[simp] theorem State.ctl_beginNapExit_other (s : State) (c : Chan) (o : Bool) :
    ((s.beginNapExit c o).ch c.other).ctl = (s.ch c.other).ctl := by simp [State.beginNapExit]

@[simp] theorem State.still_beginRetainExit (s : State) (c d : Chan) :
    ((s.beginRetainExit c).ch d).ctl.still = (s.ch d).ctl.still := by simp [State.beginRetainExit]

@[simp] theorem State.ctl_beginRetainExit_other (s : State) (c : Chan) :
    ((s.beginRetainExit c).ch c.other).ctl = (s.ch c.other).ctl := by simp [State.beginRetainExit]

@[simp] theorem State.still_abortRetain (s : State) (c d : Chan) :
    ((s.abortRetain c).ch d).ctl.still = (s.ch d).ctl.still := by simp [State.abortRetain]

@[simp] theorem State.ctl_abortRetain_other (s : State) (c : Chan) :
    ((s.abortRetain c).ch c.other).ctl = (s.ch c.other).ctl := by simp [State.abortRetain]

@[simp] theorem State.ctl_clearOnward (s : State) (c d : Chan) :
    ((s.clearOnward c).ch d).ctl = (s.ch d).ctl := by
  unfold State.clearOnward
  split <;> simp

@[simp] theorem State.still_wakeFor (s : State) (c d : Chan) :
    ((s.wakeFor c).ch d).ctl.still = (s.ch d).ctl.still := by
  unfold State.wakeFor
  split <;> simp

@[simp] theorem State.ctl_wakeFor_other (s : State) (c : Chan) :
    ((s.wakeFor c).ch c.other).ctl = (s.ch c.other).ctl := by
  unfold State.wakeFor
  split <;> simp

theorem State.due_wakeFor {s : State} {c : Chan} (h : (s.ch c).ctl.due = true) :
    ((s.wakeFor c).ch c).ctl.due = true := by
  unfold State.wakeFor
  split
  · exact State.due_report (by simpa using h)
  · simpa using h
  · simp [State.abortRetain]
  · exact State.due_report (by simpa using h)
  · exact h
  · exact h
  · exact h

theorem State.tableAborts_clearOnward (s : State) (c : Chan) : s.TableAborts (s.clearOnward c) c := by
  unfold State.clearOnward
  split
  · exact (State.tableAborts_powerAborted _ c).congr (by simp) (by simp)
  · exact .inl rfl

theorem State.tableAborts_abortRetain (s : State) (c : Chan) : s.TableAborts (s.abortRetain c) c := by
  have h := State.tableAborts_powerAborted
    (((s.modPwr c fun p => { p with state := .active }).report c).callDecision c) c
  have kept := h.congr (s := s) (by simp) (by simp [(State.pwr_report _ c c).2.2])
  rcases kept with kept | ⟨p, hp, kept⟩
  · exact .inl (by simpa [State.abortRetain] using kept)
  · exact .inr ⟨p, hp, by simpa [State.abortRetain] using kept⟩

theorem State.tableAborts_wakeFor (s : State) (c : Chan) : s.TableAborts (s.wakeFor c) c := by
  unfold State.wakeFor
  split
  · exact .inl (by simp [State.beginNapExit])
  · exact s.tableAborts_clearOnward c
  · exact s.tableAborts_abortRetain c
  · exact .inl (by simp [State.beginRetainExit])
  · exact .inl rfl
  · exact .inl rfl
  · exact .inl rfl

/-- The power state after a wake: NAP and RETAIN are left, RETAIN_ENTRY is given up. -/
theorem State.state_wakeFor (s : State) (c : Chan) :
    ((s.wakeFor c).ch c).pwr.state =
      match (s.ch c).pwr.state with
      | .nap => .napExit
      | .retain => .retainExit
      | .retainEntry => .active
      | y => y := by
  unfold State.wakeFor
  split <;> rename_i h
  · simp [State.beginNapExit, State.pwr_report, h]
  · unfold State.clearOnward
    split <;> simp [h]
  · simp [State.abortRetain, State.state_later, State.pwr_report, h]
  · simp [State.beginRetainExit, State.pwr_report, h]
  · rw [h]
  · rw [h]
  · rw [h]

/-- A leg that joins leaves no onward target behind (R115, R120). -/
theorem State.onward_wakeFor {s : State} {c : Chan}
    (h : (s.ch c).pwr.state = .nap ∨ (s.ch c).pwr.state = .napExit) :
    ((s.wakeFor c).ch c).pwr.onward = false := by
  rcases h with h | h
  · simp [State.wakeFor, h, State.beginNapExit, State.pwr_report]
  · cases ho : (s.ch c).pwr.onward <;> simp [State.wakeFor, h, State.clearOnward, ho]

/-! ### A leg placed (R26, R61) -/

theorem Control.bank_stopIdleClose (k : Control) (l : Loc) (b : BankNo) :
    (k.stopIdleClose l).bank b =
      if b = l.bank ∧ (k.bank b).openRow = some l.row then { k.bank b with idleClose := .stopped }
      else k.bank b := by
  unfold Control.stopIdleClose
  by_cases hb : b = l.bank
  · subst hb
    split <;> simp [*]
  · split <;> simp [hb, Control.bank_modBank_ne hb]

@[simp] theorem Control.queue_stopIdleClose (k : Control) (l : Loc) : (k.stopIdleClose l).queue = k.queue := by
  unfold Control.stopIdleClose
  split <;> rfl

theorem State.still_placeLeg (s : State) (c : Chan) (l : Leg) :
    ((s.placeLeg c l).ch c).ctl.still =
      (((s.ch c).ctl.stopIdleClose l.loc).withQueue (insertLeg l (s.ch c).ctl.queue)).still := by
  simp [State.placeLeg]

@[simp] theorem State.queue_placeLeg (s : State) (c : Chan) (l : Leg) :
    ((s.placeLeg c l).ch c).ctl.queue = insertLeg l (s.ch c).ctl.queue := by
  simp [Control.queue_of_still (s.still_placeLeg c l)]

theorem State.bank_placeLeg (s : State) (c : Chan) (l : Leg) (b : BankNo) :
    ((s.placeLeg c l).ch c).ctl.bank b =
      if b = l.loc.bank ∧ ((s.ch c).ctl.bank b).openRow = some l.loc.row then
        { (s.ch c).ctl.bank b with idleClose := .stopped }
      else (s.ch c).ctl.bank b := by
  rw [Control.bank_of_still (s.still_placeLeg c l), Control.bank_withQueue, Control.bank_stopIdleClose]

@[simp] theorem State.ctl_placeLeg_other (s : State) (c : Chan) (l : Leg) :
    ((s.placeLeg c l).ch c.other).ctl = (s.ch c.other).ctl := by simp [State.placeLeg]

/-- The state in which a leg has joined the queue and its joining is reported. -/
def State.joined (s : State) (c : Chan) (l : Leg) : State :=
  (s.modCtl c fun k => (k.stopIdleClose l.loc).withQueue (insertLeg l k.queue)).report c

theorem State.placeLeg_eq (s : State) (c : Chan) (l : Leg) : s.placeLeg c l = (s.joined c l).wakeFor c := rfl

@[simp] theorem State.table_joined (s : State) (c : Chan) (l : Leg) : (s.joined c l).table = s.table := by
  simp [State.joined]

theorem State.pwr_joined (s : State) (c : Chan) (l : Leg) :
    ((s.joined c l).ch c).pwr.state = (s.ch c).pwr.state ∧
      ((s.joined c l).ch c).pwr.pendingPower = (s.ch c).pwr.pendingPower := by
  simp [State.joined, State.pwr_report]

theorem State.tableAborts_placeLeg (s : State) (c : Chan) (l : Leg) : s.TableAborts (s.placeLeg c l) c :=
  ((s.joined c l).tableAborts_wakeFor c).congr (s.table_joined c l) (s.pwr_joined c l).2

theorem State.state_placeLeg (s : State) (c : Chan) (l : Leg) :
    ((s.placeLeg c l).ch c).pwr.state =
      match (s.ch c).pwr.state with
      | .nap => .napExit
      | .retain => .retainExit
      | .retainEntry => .active
      | y => y := by
  rw [State.placeLeg_eq, State.state_wakeFor, (s.pwr_joined c l).1]

theorem State.onward_placeLeg {s : State} {c : Chan} {l : Leg}
    (h : (s.ch c).pwr.state = .nap ∨ (s.ch c).pwr.state = .napExit) :
    ((s.placeLeg c l).ch c).pwr.onward = false :=
  State.onward_wakeFor (s := s.joined c l) (by rwa [(s.pwr_joined c l).1])

/-! ### A leg made for an entry -/

/-- The leg that an entry makes next. -/
def Entry.nextLeg (e : Entry) (t : Tag) (k : LegKind) (z : Size) (p : Loc) (st : LegState) (x : Store)
    (r : Bool) : Leg where
  owner := .host t
  no := e.legsMade
  age := e.age
  kind := k
  size := z
  loc := p
  state := st
  store := x
  recovery := r

theorem State.host_modHost_self {s : State} {t : Tag} {e : Entry} (h : s.host t = some e) (f : Entry → Entry) :
    (s.modHost t f).host t = some (f e) := by
  simp [State.modHost, h]

theorem State.host_modHost_ne {t g : Tag} (h : g ≠ t) (s : State) (f : Entry → Entry) :
    (s.modHost t f).host g = s.host g := State.host_setHost_ne h s _

/-- The state in which an entry has counted one more leg. -/
def State.countLeg (s : State) (t : Tag) : State := s.modHost t fun e => { e with legsMade := e.legsMade + 1 }

@[simp] theorem State.ch_countLeg (s : State) (t : Tag) (d : Chan) : (s.countLeg t).ch d = s.ch d :=
  State.ch_modHost _ _ _ _

theorem State.host_countLeg {s : State} {t : Tag} {e : Entry} (h : s.host t = some e) :
    (s.countLeg t).host t = some { e with legsMade := e.legsMade + 1 } := State.host_modHost_self h _

theorem State.addLeg_read {s : State} {t : Tag} {e : Entry} (h : s.host t = some e) (c : Chan) (z : Size)
    (p : Loc) (st : LegState) (x : Store) (r : Bool) :
    s.addLeg t c .read z p st x r = (s.countLeg t).placeLeg c (e.nextLeg t .read z p st x r) := by
  simp only [State.addLeg, h]
  rfl

theorem State.addLeg_write {s : State} {t : Tag} {e : Entry} (h : s.host t = some e) (c : Chan) (w : Purpose)
    (z : Size) (p : Loc) (st : LegState) (x : Store) (r : Bool) :
    s.addLeg t c (.write w) z p st x r = (s.countLeg t).placeLeg c (e.nextLeg t (.write w) z p st x r) := by
  simp only [State.addLeg, h]
  rfl

theorem State.addLeg_fetch {s : State} {t : Tag} {e : Entry} (h : s.host t = some e) (c : Chan) (z : Size)
    (p : Loc) (st : LegState) (x : Store) (r : Bool) :
    s.addLeg t c .fetch z p st x r = (s.countLeg t).placeFetch c (e.nextLeg t .fetch z p st x r) := by
  simp only [State.addLeg, h]
  rfl

/-! ### A leg's place (R26) -/

/-- A leg stands behind every leg of a lower or equal arrival number and ahead of the next one. -/
theorem insertLeg_split (l : Leg) (q : List Leg) :
    ∃ front back, q = front ++ back ∧ insertLeg l q = front ++ l :: back ∧ (∀ w ∈ front, w.age ≤ l.age) ∧
      ∀ w, back.head? = some w → l.age < w.age := by
  induction q with
  | nil => exact ⟨[], [], rfl, rfl, by simp, by simp⟩
  | cons m ms ih =>
    by_cases h : m.age ≤ l.age
    · obtain ⟨front, back, rfl, hi, hf, hb⟩ := ih
      refine ⟨m :: front, back, rfl, by simp [insertLeg, h, hi], ?_, hb⟩
      simpa [h] using hf
    · refine ⟨[], m :: ms, rfl, by simp [insertLeg, h], by simp, ?_⟩
      simpa using h

/-- In an ordered queue whose head is younger than `n`, every leg is. -/
theorem lt_age_of_pairwise {n : Nat} {q : List Leg} (hp : q.Pairwise fun v w => v.age ≤ w.age)
    (hh : ∀ w, q.head? = some w → n < w.age) : ∀ w ∈ q, n < w.age := by
  cases q with
  | nil => simp
  | cons m ms =>
    have hm : n < m.age := hh m rfl
    intro w hw
    rcases List.mem_cons.mp hw with rfl | hw
    · exact hm
    · exact Nat.lt_of_lt_of_le hm (List.rel_of_pairwise_cons hp hw)

end Sys2Proof.Machine
end

