-- ==== Sys2Proof/Proofs/S01Requests.lean ====
section
/-! SUPPORT. O31, O33: the legs of RD and WR (R25, R26, R134, R135). -/

namespace Sys2Proof.Machine
open Sys2Proof

/-! ### The tags that a block refers to -/

theorem State.tagUsed_iff (s : State) (g : Tag) (st : EntryState) (kinds : List Byte) :
    s.tagUsed g st kinds = true ↔ ∃ e, s.host g = some e ∧ e.state = st ∧ reqCode e.req ∈ kinds := by
  unfold State.tagUsed
  cases s.host g <;> simp

/-- What the tags of a channel's blocks are in use by (R17, R25, R110). -/
theorem State.tagsOk_channel {s : State} (h : s.tagsOk = true) (c : Chan) :
    (∀ p, (s.ch c).pwr.pendingPower = some p → s.tagUsed p.tag .active [7] = true) ∧
      ∀ l ∈ (s.ch c).ctl.queue, ∀ g, l.owner = .host g → s.tagUsed g .active [1, 2] = true := by
  simp only [State.tagsOk, Bool.and_eq_true, List.all_eq_true] at h
  obtain ⟨⟨⟨⟨⟨hch, -⟩, -⟩, -⟩, -⟩, -⟩ := h
  obtain ⟨⟨⟨hp, -⟩, -⟩, hq⟩ := hch c (by cases c <;> simp)
  refine ⟨fun p hpp => by simpa [hpp] using hp, fun l hl g ho => by simpa [ho] using hq l hl⟩

/-- No pending POWER has the tag of an entry that is no ACTIVE PWR. -/
theorem State.pending_ne {s : State} (h : s.tagsOk = true) {g : Tag}
    (hg : ∀ e, s.host g = some e → e.state = .active → reqCode e.req ≠ 7) (c : Chan) (p : PendingPower)
    (hp : (s.ch c).pwr.pendingPower = some p) : p.tag ≠ g := by
  obtain ⟨e, he, hs, hk⟩ := (s.tagUsed_iff _ _ _).mp ((State.tagsOk_channel h c).1 p hp)
  rintro rfl
  exact hg e he hs (List.mem_singleton.mp hk)

/-! ### A request that passes its tests -/

/-- The state in which the legs of an accepted RD or WR are made: the entry is there with its decoded
fields (R17, R21). -/
def State.decodedNew (r : State) (g : Tag) (q : Req) (d : Decoded) : State :=
  (r.entered g q).decodeFor g d

/-- The entry of a request whose address is decoded. -/
def decodedEntry (r : State) (q : Req) (d : Decoded) : Entry :=
  { newEntry r q .active none with decoded := some d }

theorem State.takes_host {s : State} {h : ReqHdr} {m : RawMsg} {g : Tag} {q : Req}
    (ht : s.takes h m g q = true) : s.settled.host g = none := by
  simp only [State.takes, Bool.and_eq_true, Option.isNone_iff_eq_none] at ht
  exact ht.1.2

section
variable (r : State) (g : Tag) (q : Req) (d : Decoded)

@[simp] theorem State.ch_decodedNew (c : Chan) : (r.decodedNew g q d).ch c = r.ch c := by
  cases c <;> rfl

@[simp] theorem State.arrivals_decodedNew : (r.decodedNew g q d).table.arrivals = r.table.arrivals + 1 := rfl

@[simp] theorem State.chooseChannel_decodedNew : (r.decodedNew g q d).chooseChannel = r.chooseChannel := rfl

/-- Nothing but the table is touched by a new entry. -/
theorem State.frame_decodedNew :
    (r.decodedNew g q d).mir = r.mir ∧ (r.decodedNew g q d).notices = r.notices ∧
      (r.decodedNew g q d).conf = r.conf ∧ (r.decodedNew g q d).link = r.link ∧
      (r.decodedNew g q d).mem = r.mem := ⟨rfl, rfl, rfl, rfl, rfl⟩

theorem State.host_decodedNew : (r.decodedNew g q d).host g = some (decodedEntry r q d) := by
  have hn : (r.entered g q).host g = some (newEntry r q .active none) := by
    simp [State.host, State.entered]
  exact State.host_modHost_self hn _

end

/-- An accepted frame touches nothing but the link. -/
theorem State.frame_handed (s : State) (h : FrameHdr) :
    (s.handed h).mir = s.settled.mir ∧ (s.handed h).notices = s.settled.notices ∧
      (s.handed h).conf = s.settled.conf ∧ (s.handed h).mem = s.settled.mem := ⟨rfl, rfl, rfl, rfl⟩

theorem State.chooseChannel_handed (s : State) (h : FrameHdr) :
    (s.handed h).chooseChannel = s.settled.chooseChannel := rfl

theorem State.checkRd_accepted {s : State} {g : Tag} {z : Size} {x : Word32}
    (h : s.memoryRefusal z x = none) :
    s.checkRd g z x = (s.decodeFor g (decodeAddr s.mir.mode x)).readLegs g z (decodeAddr s.mir.mode x) := by
  simp only [State.checkRd, h]

theorem State.checkWr_full {s : State} {g : Tag} {z : Size} {m : Option (BitVec 64)} {x : Word32}
    {data : Bytes 64} (h : s.memoryRefusal z x = none) (hf : fullWrite z m = true) :
    s.checkWr g z m x data =
      (s.decodeFor g (decodeAddr s.mir.mode x)).fullWriteLegs g data (decodeAddr s.mir.mode x) := by
  simp only [State.checkWr, h, hf, if_true]

theorem State.checkWr_partial {s : State} {g : Tag} {z : Size} {m : Option (BitVec 64)} {x : Word32}
    {data : Bytes 64} (h : s.memoryRefusal z x = none) (hf : fullWrite z m = false) :
    s.checkWr g z m x data =
      (s.decodeFor g (decodeAddr s.mir.mode x)).partWriteLegs g z (decodeAddr s.mir.mode x) := by
  simp only [State.checkWr, h, hf, Bool.false_eq_true, if_false]

theorem exec_rd_accepted {s : State} {h : ReqHdr} {sz mf : Byte} {x : Word32} {z : Size} {g : Tag}
    (ht : s.takes h (rdMessage h sz mf x) g (.rd z x) = true) (hr : s.settled.memoryRefusal z x = none) :
    exec (.rd h sz mf x) s =
      .next (((s.handed h.frame).decodedNew g (.rd z x) (decodeAddr s.settled.mir.mode x)).readLegs g z
        (decodeAddr s.settled.mir.mode x)).conclude := by
  rw [exec_rd_takes ht, State.checkRd_accepted ((s.memoryRefusal_handed _ _ _ _ _).trans hr)]
  rfl

theorem exec_wr_full {s : State} {h : ReqHdr} {sz mf : Byte} {x : Word32} {mask : BitVec 64}
    {data : Bytes 64} {z : Size} {fm : Option (BitVec 64)} {g : Tag}
    (ht : s.takes h (wrMessage h sz mf x mask data) g (.wr z fm x data) = true)
    (hr : s.settled.memoryRefusal z x = none) (hf : fullWrite z fm = true) :
    exec (.wr h sz mf x mask data) s =
      .next (((s.handed h.frame).decodedNew g (.wr z fm x data) (decodeAddr s.settled.mir.mode x)).fullWriteLegs g data
        (decodeAddr s.settled.mir.mode x)).conclude := by
  rw [exec_wr_takes ht, State.checkWr_full ((s.memoryRefusal_handed _ _ _ _ _).trans hr) hf]
  rfl

theorem exec_wr_partial {s : State} {h : ReqHdr} {sz mf : Byte} {x : Word32} {mask : BitVec 64}
    {data : Bytes 64} {z : Size} {fm : Option (BitVec 64)} {g : Tag}
    (ht : s.takes h (wrMessage h sz mf x mask data) g (.wr z fm x data) = true)
    (hr : s.settled.memoryRefusal z x = none) (hf : fullWrite z fm = false) :
    exec (.wr h sz mf x mask data) s =
      .next (((s.handed h.frame).decodedNew g (.wr z fm x data) (decodeAddr s.settled.mir.mode x)).partWriteLegs g z
        (decodeAddr s.settled.mir.mode x)).conclude := by
  rw [exec_wr_takes ht, State.checkWr_partial ((s.memoryRefusal_handed _ _ _ _ _).trans hr) hf]
  rfl

/-! ### An RD in SPLIT mode -/

/-- What the placing of a leg leaves: mirror control, notices, settings and link. -/
theorem State.sides_placeLeg (s : State) (c : Chan) (l : Leg) :
    (s.placeLeg c l).mir = s.mir ∧ (s.placeLeg c l).notices = s.notices ∧ (s.placeLeg c l).conf = s.conf ∧
      (s.placeLeg c l).link = s.link ∧ (s.placeLeg c l).mem = s.mem := by
  obtain ⟨hm, hn, hc, hl, -⟩ := State.sides_fields (s.placeLeg_sides c l)
  exact ⟨hm, hn, hc, hl, State.mem_of_outer (s.placeLeg_outer c l)⟩

/-- Settles O31: the one READ leg is placed in the queue of the decoded channel, and what a placed leg does
to the channel is said once in `State.placeLeg`'s lemmas. -/
theorem rdInSplitMode : Obligations.RdInSplitMode := by
  refine ⟨fun l q => ?_, ?_⟩
  · obtain ⟨front, back, hq, hi, hf, hb⟩ := insertLeg_split l q
    exact ⟨front, back, hq, hi, hf, hb, fun hp =>
      lt_age_of_pairwise (List.pairwise_append.mp (hq ▸ hp)).2.1 hb⟩
  · intro s h sz mf x z g t ht hr hm c loc
    let d : Decoded := { chan := some c, loc := loc, second := decide (x.toNat / 32 % 2 = 1) }
    have hd : decodeAddr s.settled.mir.mode x = d := by
      rw [show s.settled.mir.mode = .split from hm]
      simp only [decodeAddr, secondHalf_eq]
      rfl
    let r := (s.handed h.frame).decodedNew g (.rd z x) d
    let e := decodedEntry (s.handed h.frame) (.rd z x) d
    let l := e.nextLeg g .read z loc .waiting .absent false
    have hhost : r.host g = some e := State.host_decodedNew _ _ _ _
    have hexec : exec (.rd h sz mf x) s = .next ((r.countLeg g).placeLeg c l).conclude := by
      rw [exec_rd_accepted ht hr, hd]
      exact congrArg (fun u => Host.Outcome.next (State.conclude u)) (State.addLeg_read hhost c z loc _ _ _)
    have haborts := (r.countLeg g).tableAborts_placeLeg c l
    obtain ⟨st, y, hu⟩ := haborts.host (State.host_countLeg hhost)
    obtain ⟨hmir, hnotices, hconf, hlink, hmem⟩ := (r.countLeg g).sides_placeLeg c l
    obtain ⟨hmir', hnotices', hconf', hmem'⟩ := s.frame_handed h.frame
    have hch (d : Chan) : (r.countLeg g).ch d = t.ch d := by
      rw [State.ch_countLeg, State.ch_decodedNew, State.ch_handed]
    refine ⟨_, _, hexec, (State.host_conclude _ _).trans hu, rfl, rfl, rfl, rfl, rfl, rfl, rfl,
      fun htags => ?_, ?_, ?_, ?_, ?_, ?_, ?_, ?_, ?_, ?_, ?_, ?_⟩
    · -- no pending POWER has the tag of the new entry, so no answer of a wake is its own
      have fresh : ∀ p, ((r.countLeg g).ch c).pwr.pendingPower = some p → p.tag ≠ g := by
        rw [hch]
        exact State.pending_ne htags (fun _ he => nomatch he.symm.trans (State.takes_host ht)) c
      have hsame := haborts.host_eq fresh
      rw [hu, State.host_countLeg hhost, Option.some_inj] at hsame
      exact ⟨congrArg Entry.state hsame, congrArg Entry.status hsame⟩
    · rw [State.table_conclude, haborts.arrivals]
      rfl
    · rw [State.ctl_conclude, State.queue_placeLeg, hch]
      rfl
    · intro k
      rw [State.bank, State.ctl_conclude, State.bank_placeLeg, hch]
      rfl
    · rw [State.ctl_conclude, State.ctl_placeLeg_other, hch]
    · rw [(State.pwr_conclude _ c).1, State.state_placeLeg, hch] <;> rfl
    · intro hpwr
      rw [(State.pwr_conclude _ c).2.2.2.1]
      exact State.onward_placeLeg (by rwa [hch])
    · exact (State.mem_conclude _).trans (hmem.trans hmem')
    · exact (State.mir_conclude _).trans (hmir.trans hmir')
    · exact (State.conf_conclude _).trans (hconf.trans hconf')
    · exact (State.notices_conclude _).trans (hnotices.trans hnotices')
    · exact (State.link_conclude _).trans hlink

end Sys2Proof.Machine
end

