-- ==== Sys2Proof/Proofs/S01WriteLegs.lean ====
section
/-! SUPPORT. O33: the legs of a WR. -/

namespace Sys2Proof.Machine
open Sys2Proof

/-! ### Legs made one after another -/

/-- An entry that has made `n` more legs; a wake may have given it another state and status. -/
def Entry.MadeLegs (e : Entry) (n : Nat) (x : Option Entry) : Prop :=
  ∃ a b, x = some { e with legsMade := e.legsMade + n, state := a, status := b }

theorem Entry.MadeLegs.add {e : Entry} {m n : Nat} {x : Option Entry} {a : EntryState} {b : Option Status}
    (h : Entry.MadeLegs { e with legsMade := e.legsMade + m, state := a, status := b } n x) :
    e.MadeLegs (m + n) x := by
  obtain ⟨a', b', h⟩ := h
  exact ⟨a', b', by rw [h, Nat.add_assoc]⟩

theorem State.madeLegs_placeLeg {s : State} {g : Tag} {e : Entry} (h : s.host g = some e) (c : Chan) (l : Leg) :
    e.MadeLegs 1 (((s.countLeg g).placeLeg c l).host g) :=
  ((s.countLeg g).tableAborts_placeLeg c l).host (State.host_countLeg h)

/-- A WRITE leg made when `b` holds. -/
def State.addWriteIf (s : State) (b : Bool) (g : Tag) (c : Chan) (z : Size) (p : Loc) (st : LegState)
    (x : Store) : State :=
  if b then s.addLeg g c (.write .host) z p st x false else s

theorem State.hostWrite_eq (s : State) (g : Tag) (c : Chan) (z : Size) (p : Loc) (st : LegState) (x : Store) :
    s.hostWrite g c z p st x = s.addWriteIf (s.mir.takesWrites c) g c z p st x := rfl

section
variable {s : State} {g : Tag} {e : Entry} (h : s.host g = some e) (b : Bool) (c : Chan) (z : Size) (p : Loc)
  (st : LegState) (x : Store)
include h

theorem State.madeLegs_addWriteIf :
    e.MadeLegs (if b = true then 1 else 0) ((s.addWriteIf b g c z p st x).host g) := by
  cases b
  · exact ⟨e.state, e.status, h⟩
  · simp only [State.addWriteIf, State.addLeg_write h, if_true]
    exact State.madeLegs_placeLeg h c _

theorem State.queue_addWriteIf :
    ((s.addWriteIf b g c z p st x).ch c).ctl.queue =
      if b = true then insertLeg (e.nextLeg g (.write .host) z p st x false) (s.ch c).ctl.queue
      else (s.ch c).ctl.queue := by
  cases b
  · rfl
  · simp only [State.addWriteIf, State.addLeg_write h, if_true, State.queue_placeLeg, State.ch_countLeg]

theorem State.ctl_addWriteIf_other :
    ((s.addWriteIf b g c z p st x).ch c.other).ctl = (s.ch c.other).ctl := by
  cases b
  · rfl
  · simp only [State.addWriteIf, State.addLeg_write h, if_true, State.ctl_placeLeg_other, State.ch_countLeg]

end

theorem State.sides_addWriteIf (s : State) (b : Bool) (g : Tag) (c : Chan) (z : Size) (p : Loc)
    (st : LegState) (x : Store) : (s.addWriteIf b g c z p st x).sides = s.sides := by
  cases b <;> simp [State.addWriteIf]

theorem State.mem_addWriteIf (s : State) (b : Bool) (g : Tag) (c : Chan) (z : Size) (p : Loc)
    (st : LegState) (x : Store) : (s.addWriteIf b g c z p st x).mem = s.mem :=
  State.mem_of_outer (by cases b <;> simp [State.addWriteIf])

/-! ### A FETCH ahead of the entry's WRITE (R135) -/

theorem mem_insertLeg {w l : Leg} {q : List Leg} : w ∈ insertLeg l q ↔ w = l ∨ w ∈ q := by
  induction q with
  | nil => simp [insertLeg]
  | cons m ms ih =>
    simp only [insertLeg]
    split
    · rw [List.mem_cons, List.mem_cons, ih]
      exact or_left_comm
    · exact List.mem_cons

/-- Nothing is placed again where the entry has no BLOCKED WRITE in the queue. -/
theorem replaceBlocked_eq_self {o : Owner} {q : List Leg} (h : ∀ w ∈ q, w.owner = o → w.state ≠ .blocked) :
    replaceBlocked o q = q := by
  have hnil : (q.filter fun l => l.owner == o && l.state == .blocked) = [] := by
    simpa [List.filter_eq_nil_iff] using h
  rw [replaceBlocked, hnil, List.foldl_nil]

section
variable {s : State} {g : Tag} {e : Entry} (h : s.host g = some e) (c : Chan) (z : Size) (p : Loc) (x : Store)
  (r : Bool)
include h

theorem State.madeLegs_addFetch : e.MadeLegs 1 ((s.addLeg g c .fetch z p .waiting x r).host g) := by
  rw [State.addLeg_fetch h]
  simp only [State.placeFetch, State.host_modCtl]
  exact State.madeLegs_placeLeg h c _

theorem State.queue_addFetch
    (hq : ∀ w ∈ (s.ch c).ctl.queue, w.owner = .host g → w.state ≠ .blocked) :
    ((s.addLeg g c .fetch z p .waiting x r).ch c).ctl.queue =
      insertLeg (e.nextLeg g .fetch z p .waiting x r) (s.ch c).ctl.queue := by
  rw [State.addLeg_fetch h]
  simp only [State.placeFetch, State.ctl_modCtl_self, Control.queue_withQueue, State.queue_placeLeg,
    State.ch_countLeg]
  refine replaceBlocked_eq_self fun w hw ho => ?_
  rcases mem_insertLeg.mp hw with rfl | hw
  · simp [Entry.nextLeg]
  · exact hq w hw ho

theorem State.ctl_addFetch_other :
    ((s.addLeg g c .fetch z p .waiting x r).ch c.other).ctl = (s.ch c.other).ctl := by
  rw [State.addLeg_fetch h]
  simp only [State.placeFetch, State.ch_modCtl_other, State.ctl_placeLeg_other, State.ch_countLeg]

end

/-! ### A full write (R134) -/

/-- The channels that a full write of the decoded place goes to. -/
def Mirror.writeGoes (m : Mirror) (d : Decoded) (c : Chan) : Bool :=
  match m.mode with
  | .split => decide (d.chan = some c)
  | .mirror => m.health c == .inService || m.health c == .rebuilding

/-- In both modes a full write makes a WRITE on A and then on B, each where it goes. -/
theorem State.fullWriteLegs_eq (s : State) (g : Tag) (data : Bytes 64) (x : Word32) :
    s.fullWriteLegs g data (decodeAddr s.mir.mode x) =
      (s.addWriteIf (s.mir.writeGoes (decodeAddr s.mir.mode x) .a) g .a .line (decodeAddr s.mir.mode x).loc
        .waiting (.line data)).addWriteIf (s.mir.writeGoes (decodeAddr s.mir.mode x) .b) g .b .line
        (decodeAddr s.mir.mode x).loc .waiting (.line data) := by
  cases hm : s.mir.mode with
  | split =>
    by_cases hx : x.toNat / 64 % 2 = 0 <;>
      simp [State.fullWriteLegs, decodeAddr, hx, Mirror.writeGoes, hm, State.addWriteIf]
  | mirror =>
    have hmir := (State.sides_fields (s.sides_addWriteIf (s.mir.takesWrites .a) g .a .line
      (decodeAddr .mirror x).loc .waiting (.line data))).1
    simp only [State.fullWriteLegs, decodeAddr, State.hostWrite_eq, Mirror.writeGoes, hm] at hmir ⊢
    rw [hmir]
    rfl

/-! ### The choice of channel (R133) -/

/-- Both channels can serve a read, exactly one of them without a wake or both alike. -/
@[reducible] def State.bothServe (s : State) : Prop := s.mir.healthA = .inService ∧ s.mir.healthB = .inService

@[reducible] def State.oneActive (s : State) : Prop :=
  (s.chA.pwr.state = .active ∧ s.chB.pwr.state ≠ .active) ∨
    (s.chB.pwr.state = .active ∧ s.chA.pwr.state ≠ .active)

/-- The choice of R133 with one channel at least IN_SERVICE, spelled out. -/
theorem State.chooseChannel_eq (s : State) (h : s.mir.ok) :
    s.chooseChannel.1 =
      (if s.mir.healthB ≠ .inService then .a
       else if s.mir.healthA ≠ .inService then .b
       else if s.oneActive then (if s.chA.pwr.state = .active then .a else .b)
       else
         match s.conf.readChoice with
         | .alternate => s.mir.toggle
         | .preferA => .a
         | .preferB => .b) ∧
      (s.chooseChannel.2 = true ↔ s.bothServe ∧ ¬s.oneActive ∧ s.conf.readChoice = .alternate) := by
  obtain ⟨-, hserve, -⟩ := h
  unfold State.chooseChannel State.bothServe State.oneActive
  cases hA : s.mir.healthA <;> cases hB : s.mir.healthB <;> simp [hA, hB] at hserve ⊢
  cases hc : s.conf.readChoice <;> by_cases ha : s.chA.pwr.state = .active <;>
    by_cases hb : s.chB.pwr.state = .active <;> simp [ha, hb]

/-- The chosen channel is IN_SERVICE. -/
theorem State.chooseChannel_inService (s : State) (h : s.mir.ok) :
    s.mir.health s.chooseChannel.1 = .inService := by
  obtain ⟨-, hserve, -⟩ := h
  by_cases hboth : s.bothServe
  · generalize s.chooseChannel.1 = c
    cases c
    · exact hboth.1
    · exact hboth.2
  · unfold State.bothServe at hboth
    unfold State.chooseChannel
    cases hA : s.mir.healthA <;> cases hB : s.mir.healthB <;> simp_all [Mirror.health]

theorem State.mir_moveToggle (s : State) (m : Bool) :
    (s.moveToggle m).mir =
      { s.mir with toggle := if m = true then s.mir.toggle.other else s.mir.toggle } := by
  cases m <;> rfl

/-- The health of a channel is no matter of the read toggle. -/
@[simp] theorem State.takesWrites_moveToggle (s : State) (m : Bool) (c : Chan) :
    (s.moveToggle m).mir.takesWrites c = s.mir.takesWrites c := by
  cases m <;> cases c <;> rfl

@[simp] theorem State.host_moveToggle (s : State) (m : Bool) (g : Tag) :
    (s.moveToggle m).host g = s.host g := by
  cases m <;> rfl

@[simp] theorem State.ch_moveToggle (s : State) (m : Bool) (c : Chan) : (s.moveToggle m).ch c = s.ch c := by
  cases m <;> cases c <;> rfl

theorem State.frame_moveToggle (s : State) (m : Bool) :
    (s.moveToggle m).notices = s.notices ∧ (s.moveToggle m).conf = s.conf ∧ (s.moveToggle m).mem = s.mem := by
  cases m <;> exact ⟨rfl, rfl, rfl⟩

/-! ### A partial write (R135) -/

theorem decodeAddr_chan_isNone (mode : Mode) (x : Word32) :
    (decodeAddr mode x).chan.isNone = (mode == .mirror) := by
  cases mode <;> rfl

/-- The legs of a partial write: the FETCH on channel `c`, the BLOCKED WRITE behind it, and one on the other
channel when `o` holds; the toggle moves when `m` holds. -/
def State.partLegs (s : State) (m o : Bool) (g : Tag) (c : Chan) (z : Size) (p : Loc) : State :=
  (((s.moveToggle m).addLeg g c .fetch .line p .waiting .absent false).addWriteIf true g c z p .blocked
    .absent).addWriteIf o g c.other z p .blocked .absent

/-- In both modes a partial write makes these legs; in MIRROR mode on the channel of R133. -/
theorem State.partWriteLegs_eq (s : State) (hok : s.mir.ok) (g : Tag) (z : Size) (d : Decoded) :
    s.partWriteLegs g z d =
      s.partLegs (d.chan.isNone && s.chooseChannel.2)
        (d.chan.isNone && s.mir.takesWrites (d.chan.getD s.chooseChannel.1).other) g
        (d.chan.getD s.chooseChannel.1) z d.loc := by
  cases hd : d.chan with
  | some c => simp only [State.partWriteLegs, hd]; rfl
  | none =>
    have chosen : s.mir.takesWrites s.chooseChannel.1 = true := by
      simp [Mirror.takesWrites, s.chooseChannel_inService hok]
    have health (c : Chan) (u : State) (hu : u.sides = (s.moveToggle s.chooseChannel.2).sides) :
        u.mir.takesWrites c = s.mir.takesWrites c := by
      rw [(State.sides_fields hu).1, State.takesWrites_moveToggle]
    simp only [State.partWriteLegs, hd, State.hostWrite_eq, Option.isNone_none, Bool.true_and,
      Option.getD_none]
    rw [health _ _ (State.addLeg_sides _ _ _ _ _ _ _ _ _), chosen,
      health _ _ ((State.sides_addWriteIf _ _ _ _ _ _ _ _).trans (State.addLeg_sides _ _ _ _ _ _ _ _ _))]
    rfl

section
variable {s : State} {g : Tag} {e : Entry} (h : s.host g = some e) (m o : Bool) (c : Chan) (z : Size) (p : Loc)
include h

theorem State.madeLegs_partLegs :
    e.MadeLegs (1 + 1 + if o = true then 1 else 0) ((s.partLegs m o g c z p).host g) := by
  obtain ⟨a, b, hf⟩ := State.madeLegs_addFetch (s := s.moveToggle m) (by rwa [State.host_moveToggle]) c .line p
    .absent false
  obtain ⟨a', b', hw⟩ := State.madeLegs_addWriteIf hf true c z p .blocked .absent
  exact Entry.MadeLegs.add (a := a') (b := b') (State.madeLegs_addWriteIf hw o c.other z p .blocked .absent)

theorem State.queue_partLegs (hq : ∀ w ∈ (s.ch c).ctl.queue, w.owner ≠ .host g) :
    ((s.partLegs m o g c z p).ch c).ctl.queue =
      insertLeg { e.nextLeg g (.write .host) z p .blocked .absent false with no := e.legsMade + 1 }
        (insertLeg (e.nextLeg g .fetch .line p .waiting .absent false) (s.ch c).ctl.queue) := by
  have h' : (s.moveToggle m).host g = some e := by rwa [State.host_moveToggle]
  obtain ⟨a, b, hf⟩ := State.madeLegs_addFetch h' c .line p .absent false
  obtain ⟨a', b', hw⟩ := State.madeLegs_addWriteIf hf true c z p .blocked .absent
  have hother := State.ctl_addWriteIf_other hw o c.other z p .blocked .absent
  rw [Chan.other_other] at hother
  rw [State.partLegs, hother, State.queue_addWriteIf hf,
    State.queue_addFetch h' c .line p .absent false (fun w hw ho => absurd ho (hq w (by simpa using hw))),
    State.ch_moveToggle]
  rfl

theorem State.queue_partLegs_other :
    ((s.partLegs m o g c z p).ch c.other).ctl.queue =
      if o = true then
        insertLeg { e.nextLeg g (.write .host) z p .blocked .absent false with no := e.legsMade + 2 }
          (s.ch c.other).ctl.queue
      else (s.ch c.other).ctl.queue := by
  have h' : (s.moveToggle m).host g = some e := by rwa [State.host_moveToggle]
  obtain ⟨a, b, hf⟩ := State.madeLegs_addFetch h' c .line p .absent false
  obtain ⟨a', b', hw⟩ := State.madeLegs_addWriteIf hf true c z p .blocked .absent
  rw [State.partLegs, State.queue_addWriteIf hw, State.ctl_addWriteIf_other hf, State.ctl_addFetch_other h',
    State.ch_moveToggle]
  rfl

end

theorem State.sides_partLegs (s : State) (m o : Bool) (g : Tag) (c : Chan) (z : Size) (p : Loc) :
    (s.partLegs m o g c z p).sides = (s.moveToggle m).sides := by
  simp only [State.partLegs, State.sides_addWriteIf, State.addLeg_sides]

theorem State.mem_partLegs (s : State) (m o : Bool) (g : Tag) (c : Chan) (z : Size) (p : Loc) :
    (s.partLegs m o g c z p).mem = s.mem := by
  rw [State.partLegs, State.mem_addWriteIf, State.mem_addWriteIf, State.mem_of_outer (State.addLeg_outer ..),
    (s.frame_moveToggle m).2.2]

/-! ### The two kinds of WR -/

/-- The host entry, the queues and the frame of a full write (R134). -/
theorem fullWriteMakesLegs (r : State) (g : Tag) (data : Bytes 64) (x : Word32) (e : Entry)
    (he : r.host g = some e) :
    let d := decodeAddr r.mir.mode x
    let goes (c : Chan) : Bool := r.mir.writeGoes d c
    let u := r.fullWriteLegs g data d
    e.MadeLegs ((if goes .a = true then 1 else 0) + if goes .b = true then 1 else 0) (u.host g) ∧
      (∀ c, (u.ch c).ctl.queue =
        if goes c = true then
          insertLeg { e.nextLeg g (.write .host) .line d.loc .waiting (.line data) false with
            no := e.legsMade + if c = .b ∧ goes .a = true then 1 else 0 } (r.ch c).ctl.queue
        else (r.ch c).ctl.queue) ∧
      u.sides = r.sides ∧ u.mem = r.mem := by
  intro d goes u
  obtain ⟨a, b, hA⟩ := State.madeLegs_addWriteIf he (goes .a) .a .line d.loc .waiting (.line data)
  have hu : u = (r.addWriteIf (goes .a) g .a .line d.loc .waiting (.line data)).addWriteIf (goes .b) g .b .line
      d.loc .waiting (.line data) := r.fullWriteLegs_eq g data x
  rw [hu]
  refine ⟨Entry.MadeLegs.add (State.madeLegs_addWriteIf hA _ _ _ _ _ _), fun c => ?_, ?_, ?_⟩
  · cases c with
    | a =>
      have hB := State.ctl_addWriteIf_other hA (goes .b) .b .line d.loc .waiting (.line data)
      refine (congrArg Control.queue hB).trans ?_
      exact State.queue_addWriteIf he (goes .a) .a .line d.loc .waiting (.line data)
    | b =>
      rw [State.queue_addWriteIf hA, show Chan.b = Chan.a.other from rfl, State.ctl_addWriteIf_other he]
      simp [Entry.nextLeg]
  · rw [State.sides_addWriteIf, State.sides_addWriteIf]
  · rw [State.mem_addWriteIf, State.mem_addWriteIf]

/-- Settles O33. -/
theorem writeRequestsMakeLegs : Obligations.WriteRequestsMakeLegs := by
  refine ⟨?_, ?_⟩
  · intro s h sz mf x mask data fm g t ht hr hf d goes leg
    let r := (s.handed h.frame).decodedNew g (.wr .line fm x data) d
    have hhost : r.host g = some (decodedEntry (s.handed h.frame) (.wr .line fm x data) d) :=
      State.host_decodedNew _ _ _ _
    obtain ⟨hmir, hnotices, hconf, hmem⟩ := s.frame_handed h.frame
    have hgoes (c : Chan) : goes c = r.mir.writeGoes d c := by
      rw [show r.mir = t.mir from hmir]
      rfl
    have hch (c : Chan) : r.ch c = t.ch c := by rw [State.ch_decodedNew, State.ch_handed]
    obtain ⟨⟨a, b, hu⟩, hq, hsides, hmem'⟩ := fullWriteMakesLegs r g data x _ hhost
    obtain ⟨hmir', hnotices', hconf', -, -⟩ := State.sides_fields hsides
    refine ⟨_, _, exec_wr_full ht hr hf, (State.host_conclude _ _).trans hu, rfl, rfl, rfl, ?_, fun c => ?_,
      (State.mem_conclude _).trans (hmem'.trans hmem), (State.mir_conclude _).trans (hmir'.trans hmir),
      (State.conf_conclude _).trans (hconf'.trans hconf),
      (State.notices_conclude _).trans (hnotices'.trans hnotices)⟩
    · rw [hgoes, hgoes]
      exact Nat.zero_add _
    · rw [State.ctl_conclude, ← hch c]
      refine (hq c).trans ?_
      simp only [leg, hgoes, Entry.nextLeg, decodedEntry, newEntry, Nat.zero_add]
      rfl
  · intro s h sz mf x mask data z fm g t ht hr hf hok d both oneActive chosen c other leg
    let r := (s.handed h.frame).decodedNew g (.wr z fm x data) d
    have hhost : r.host g = some (decodedEntry (s.handed h.frame) (.wr z fm x data) d) :=
      State.host_decodedNew _ _ _ _
    obtain ⟨hmir, hnotices, hconf, hmem⟩ := s.frame_handed h.frame
    have hch (c : Chan) : r.ch c = t.ch c := by rw [State.ch_decodedNew, State.ch_handed]
    have hmode : d.chan.isNone = (t.mir.mode == .mirror) := decodeAddr_chan_isNone _ _
    obtain ⟨hchosen, htoggle⟩ := t.chooseChannel_eq hok
    have hchoice : r.chooseChannel = t.chooseChannel := s.chooseChannel_handed h.frame
    have hc : d.chan.getD r.chooseChannel.1 = c := by
      rw [hchoice, hchosen] <;> rfl
    have ho : (d.chan.isNone && r.mir.takesWrites c.other) = other := by
      rw [hmode, show r.mir = t.mir from hmir]
      rfl
    have hlegs := r.partWriteLegs_eq (by rwa [show r.mir = t.mir from hmir]) g z d
    rw [hc, ho] at hlegs
    let m := d.chan.isNone && r.chooseChannel.2
    obtain ⟨a, b, hu⟩ := State.madeLegs_partLegs hhost m other c z d.loc
    obtain ⟨hmir', hnotices', hconf', -, -⟩ := State.sides_fields (r.sides_partLegs m other g c z d.loc)
    obtain ⟨hnotices'', hconf'', -⟩ := r.frame_moveToggle m
    refine ⟨_, _, (exec_wr_partial ht hr hf).trans (by rw [hlegs]), (State.host_conclude _ _).trans hu,
      rfl, rfl, rfl, ?_, fun hq => ?_, ?_, ?_, (State.mem_conclude _).trans ((r.mem_partLegs ..).trans hmem),
      (State.conf_conclude _).trans (hconf'.trans (hconf''.trans hconf)),
      (State.notices_conclude _).trans (hnotices'.trans (hnotices''.trans hnotices))⟩
    · cases other <;> rfl
    · rw [← hch c] at hq ⊢
      rw [State.ctl_conclude]
      exact State.queue_partLegs hhost m other c z d.loc hq
    · rw [State.ctl_conclude, ← hch c.other]
      exact State.queue_partLegs_other hhost m other c z d.loc
    · have hm : m = true ↔ t.mir.mode = .mirror ∧ both ∧ ¬oneActive ∧ t.conf.readChoice = .alternate := by
        rw [← htoggle, ← hchoice, Bool.and_eq_true, hmode, beq_iff_eq]
      rw [State.mir_conclude, hmir', State.mir_moveToggle, show r.mir = t.mir from hmir]
      simp only [hm]

end Sys2Proof.Machine
end

