-- ==== Sys2Proof/Proofs/S01Arbiter.lean ====
section
/-! SUPPORT. O50: the frames that the arbiter begins and the bytes of the part's messages. -/

namespace Sys2Proof.Machine
open Sys2Proof

/-! ### Little-endian fields (R191) -/

/-- `n` in `k` bytes, the low byte first. -/
def leBytes (k n : Nat) : List Byte := (List.range k).map fun i => BitVec.ofNat 8 (n / 256 ^ i)

@[simp] theorem length_leBytes (k n : Nat) : (leBytes k n).length = k := by simp [leBytes]

theorem extractLsb'_ofNat_byte {w n i : Nat} (h : 8 * i + 8 ≤ w) :
    (BitVec.ofNat w n).extractLsb' (8 * i) 8 = BitVec.ofNat 8 (n / 256 ^ i) := by
  refine BitVec.eq_of_getLsbD_eq fun j hj => ?_
  have hp : (256 : Nat) ^ i = 2 ^ (8 * i) := by rw [Nat.pow_mul]
  have hw : j + 8 * i < w := by omega
  simp only [BitVec.getLsbD_extractLsb', BitVec.getLsbD_ofNat, hp, Nat.testBit_div_two_pow, hj, hw,
    decide_true, Bool.true_and, Nat.add_comm]

theorem le32Bytes_ofNat (n : Nat) : le32Bytes (BitVec.ofNat 32 n) = leBytes 4 n := by
  simp only [le32Bytes, leBytes, List.range_succ_eq_map, List.range_zero, List.map_cons, List.map_nil]
  rw [← extractLsb'_ofNat_byte (w := 32) (n := n) (i := 0) (by decide),
    ← extractLsb'_ofNat_byte (w := 32) (n := n) (i := 1) (by decide),
    ← extractLsb'_ofNat_byte (w := 32) (n := n) (i := 2) (by decide),
    ← extractLsb'_ofNat_byte (w := 32) (n := n) (i := 3) (by decide)]

theorem le32Bytes_eq (w : Word32) : le32Bytes w = leBytes 4 w.toNat := by
  rw [← le32Bytes_ofNat, BitVec.ofNat_toNat, BitVec.setWidth_eq]

theorem le16Bytes_ofNat (n : Nat) : le16Bytes (BitVec.ofNat 16 n) = leBytes 2 n := by
  simp only [le16Bytes, leBytes, List.range_succ_eq_map, List.range_zero, List.map_cons, List.map_nil]
  rw [← extractLsb'_ofNat_byte (w := 16) (n := n) (i := 0) (by decide),
    ← extractLsb'_ofNat_byte (w := 16) (n := n) (i := 1) (by decide)]

/-- A signed number is held as its residue (R191). -/
theorem ofInt_eq_ofNat (w : Nat) (z : Int) : BitVec.ofInt w z = BitVec.ofNat w (z % 2 ^ w).toNat := by
  refine BitVec.eq_of_toNat_eq ?_
  have hpos : (0 : Int) < 2 ^ w := Int.pow_pos (by decide)
  have hlt : (z % 2 ^ w).toNat < 2 ^ w := by
    have := Int.emod_lt_of_pos z hpos
    rw [Int.toNat_lt (Int.emod_nonneg z (Int.ne_of_gt hpos))]
    push_cast
    exact this
  rw [BitVec.toNat_ofInt, BitVec.toNat_ofNat, Nat.mod_eq_of_lt hlt]
  push_cast
  rfl

theorem le16Bytes_ofInt (z : Int) : le16Bytes (BitVec.ofInt 16 z) = leBytes 2 (z % 256 ^ 2).toNat := by
  rw [ofInt_eq_ofNat, le16Bytes_ofNat]
  rfl

theorem ofInt_byte (z : Int) : [BitVec.ofInt 8 z] = leBytes 1 (z % 256 ^ 1).toNat := by
  rw [ofInt_eq_ofNat]
  simp [leBytes]

/-! ### Payloads (R190, R193, R194) -/

theorem temperatureBytes_eq (x : Option Int) :
    temperatureBytes x = flagByte x.isSome :: leBytes 2 (x.getD 0 % 256 ^ 2).toNat := by
  rw [temperatureBytes, le16Bytes_ofInt]

theorem channelStat_bytes (x : ChannelStat) :
    x.bytes = [x.power.code, x.health.code] ++ leBytes 2 x.queueLength ++ [BitVec.ofNat 8 x.openBanks] ++
      leBytes 1 (x.debt % 256 ^ 1).toNat ++ [flagByte x.trimOwed] ++ leBytes 2 x.uncorrectable := by
  rw [← ofInt_byte]
  simp [ChannelStat.bytes, le16Bytes_ofNat, byteOf]

theorem rebuildBytes_some (target : Chan) (next frontier : Nat) :
    rebuildBytes (some (target, next, frontier)) =
      [1, chanByte (some target)] ++ leBytes 4 (64 * next) ++ leBytes 4 (64 * frontier) := by
  simp only [rebuildBytes, lineAddress, le32Bytes_ofNat]
  rfl

theorem rebuildBytes_none : rebuildBytes none = [0, 0xFF] ++ leBytes 4 0 ++ leBytes 4 0 := by
  simp [rebuildBytes, le32Bytes_eq]

theorem length_channelStat_bytes (x : ChannelStat) : x.bytes.length = 9 := by
  simp [channelStat_bytes]

theorem length_rebuildBytes (x : Option (Chan × Nat × Nat)) : (rebuildBytes x).length = 10 := by
  rcases x with _ | ⟨target, next, frontier⟩
  · simp [rebuildBytes_none]
  · simp [rebuildBytes_some]

/-- The STAT answer holds 39 bytes after its status (R193). -/
theorem length_snapshot_bytes (y : Snapshot) : y.bytes.length = 39 := by
  simp [Snapshot.bytes, length_channelStat_bytes, length_rebuildBytes, temperatureBytes_eq]

/-- A frame is its header, its payload and four check bytes (R153, R191). -/
theorem frameBytes_shape (cls sequence ack : Byte) (payload : List Byte) :
    ∃ check : List Byte, check.length = 4 ∧
      frameBytes cls sequence ack payload =
        [0xB6, cls, sequence, ack, BitVec.ofNat 8 payload.length] ++ payload ++ check :=
  ⟨le32Bytes (frameCheck (cls :: sequence :: ack :: BitVec.ofNat 8 payload.length :: payload)), rfl, by
    simp [frameBytes, startMarker]⟩

/-! ### The rows of the arbiter (R166 to R170) -/

theorem exec_transmitControl {s : State} (h : s.sends .control = true) :
    exec .transmitControl s = .next (s.settled.sendControl).conclude := State.arbiter_sends h _

theorem exec_retransmit {s : State} (h : s.sends .retransmit = true) :
    exec .retransmit s = .next (s.settled.resend).conclude := State.arbiter_sends h _

theorem exec_transmitAnswer {s : State} (h : s.sends .answer = true) :
    exec .transmitAnswer s = .next (s.settled.sendAnswer).conclude := State.arbiter_sends h _

theorem exec_transmitNotice {s : State} (h : s.sends .notice = true) :
    exec .transmitNotice s = .next (s.settled.sendNotice).conclude := State.arbiter_sends h _

/-- A pending SYNR goes first (R168). -/
theorem State.sendControl_synr {s : State} {ready : Bool} (h : s.link.pendingSynr = some ready) :
    s.sendControl =
      s.modLink fun l =>
        { l with pendingSynr := none }.begin s.clock (controlFrame l.ackField (synrPayload ready)) := by
  simp only [State.sendControl, State.modLink, h]

/-- Then a pending RSND (R168). -/
theorem State.sendControl_rsnd {s : State} (h : s.link.pendingSynr = none) (hr : s.link.pendingRsnd = true) :
    s.sendControl =
      s.modLink fun l =>
        { l with pendingRsnd := false }.begin s.clock (controlFrame l.ackField (rsndPayload l.expected)) := by
  simp only [State.sendControl, State.modLink, h, hr, if_true]

/-- Then the ACK (R168). -/
theorem State.sendControl_ack {s : State} (h : s.link.pendingSynr = none) (hr : s.link.pendingRsnd = false) :
    s.sendControl =
      s.modLink fun l => { l with pendingAck := false }.begin s.clock (controlFrame l.ackField ackPayload) := by
  simp only [State.sendControl, State.modLink, h, hr, Bool.false_eq_true, if_false]

theorem State.resend_some {s : State} {p : Nat} {b : Buffered} (h : s.link.resendPoint = some p)
    (hb : s.link.replay[p]? = some b) :
    s.resend =
      s.modLink fun l =>
        { l with resendPoint := if p + 1 < l.replay.length then some (p + 1) else none }.begin s.clock
          (b.frame l.ackField) := by
  simp only [State.resend, State.modLink, h, hb]

/-- The replay timer is armed by the first frame of an empty buffer (R165). -/
theorem armedByFirst (l : List Buffered) (x y : Timer) :
    (if l.isEmpty = true then x else y) = if l = [] then x else y := by
  simp [List.isEmpty_iff]

/-- Settles O50. -/
theorem arbiterSendsFrames : Obligations.ArbiterSendsFrames := by
  refine ⟨?_, ?_, ?_, frameBytes_shape, ?_⟩
  · intro s h t l sent
    refine ⟨fun ready hs => ?_, fun hs hr => ?_, fun hs hr => ?_⟩
    · rw [exec_transmitControl h, State.sendControl_synr hs]
      rfl
    · rw [exec_transmitControl h, State.sendControl_rsnd hs hr]
      rfl
    · rw [exec_transmitControl h, State.sendControl_ack hs hr]
      rfl
  · intro s p b h t l hp hb bytes
    rw [exec_retransmit h, State.resend_some hp hb]
    rfl
  · intro s t l sent
    refine ⟨fun q rest h hq => ?_, fun n rest h hn => ?_⟩
    · rw [exec_transmitAnswer h]
      simp only [State.sendAnswer, show s.settled.table.answers = q :: rest from hq]
      cases q <;> simp only [Link.sendNew, armedByFirst] <;> rfl
    · rw [exec_transmitNotice h]
      simp only [State.sendNotice, show s.settled.notices = n :: rest from hn, Link.sendNew, armedByFirst]
      rfl
  · intro le signed flag channel status zone temperature notice fields block extra
    have flagCode : flagByte = flag := rfl
    have channelCode (x : Option Chan) : chanByte x = channel x := by
      rcases x with _ | c
      · rfl
      · cases c <;> rfl
    have statusCode (x : Status) : x.code = status x := by cases x <;> rfl
    have zoneCode (x : Zone) : x.code = zone x := by cases x <;> rfl
    have temperatureField : temperatureBytes = temperature := funext temperatureBytes_eq
    have noticeCode (x : NoticeKind) : byteOf x.code = notice x := by cases x <;> rfl
    have fieldBytes (x : NoticeFields) : x.bytes = fields x := by
      cases x with
      | nothing => rfl
      | zone old new z => simp only [NoticeFields.bytes, zoneCode, temperatureField, fields]
      | address a => exact le32Bytes_eq a
      | reason r => cases r <;> rfl
    have blockBytes (x : ChannelStat) : x.bytes = block x := by
      rw [channelStat_bytes]
      obtain ⟨power, health, _, _, _, _, _⟩ := x
      cases power <;> cases health <;> rfl
    have snapshotBytes (y : Snapshot) : y.bytes = extra (.snapshot y) := by
      have modeCode : byteOf y.mode.code = match y.mode with | .split => 0 | .mirror => 1 := by
        cases y.mode <;> rfl
      have sensorCode : y.sensor.code = match y.sensor with | .awaiting => 0 | .ok => 1 | .lost => 2 := by
        cases y.sensor <;> rfl
      have rebuildPart : rebuildBytes y.rebuild =
          match y.rebuild with
          | none => [0, 0xFF] ++ le 4 0 ++ le 4 0
          | some (target, next, frontier) =>
            [1, channel (some target)] ++ le 4 (64 * next) ++ le 4 (64 * frontier) := by
        rcases y.rebuild with _ | ⟨target, next, frontier⟩
        · exact rebuildBytes_none
        · rw [rebuildBytes_some, channelCode]
          rfl
      simp only [Snapshot.bytes, modeCode, sensorCode, rebuildPart, zoneCode, temperatureField, blockBytes]
      rfl
    have extraBytes (x : Extra) : x.bytes = extra x := by
      cases x with
      | nothing => rfl
      | read served data =>
        rcases data with _ | d | d <;> simp only [Extra.bytes, channelCode] <;> rfl
      | param id => rfl
      | value id v => exact congrArg (id :: ·) (le32Bytes_eq v)
      | snapshot y => exact snapshotBytes y
    refine ⟨fun a => ⟨rfl, ?_⟩, fun y => ?_, fun x => ⟨rfl, ?_⟩, fun n => ⟨rfl, ?_⟩⟩
    · simp only [FrameMsg.payload, QueueItem.bytes, Answer.bytes, statusCode, extraBytes]
      rfl
    · rw [← snapshotBytes, length_snapshot_bytes]
    · obtain ⟨_, reason, _⟩ := x
      cases reason <;> rfl
    · simp only [FrameMsg.payload, Notice.bytes, noticeCode, channelCode, fieldBytes]
      rfl

end Sys2Proof.Machine
end

