-- ==== Sys2Proof/Proofs/S01Access.lean ====
section
/-! SUPPORT. The end of an access (R52): the path freed, the leg gone, its entry judged. -/

namespace Sys2Proof.Machine
open Sys2Proof

/-! ### The legs of an owner -/

/-- No leg of the owner stands in a queue. -/
def State.NoLegs (s : State) (o : Owner) : Prop := ∀ d, ∀ w ∈ (s.ch d).ctl.queue, w.owner ≠ o

theorem State.queued_isEmpty_iff (s : State) (o : Owner) : (s.queued o).isEmpty = true ↔ s.NoLegs o := by
  simp only [State.queued, List.isEmpty_iff, List.filter_eq_nil_iff, beq_iff_eq, List.mem_append]
  constructor
  · intro h d w hw
    cases d
    · exact h w (.inl hw)
    · exact h w (.inr hw)
  · rintro h w (hw | hw)
    · exact h .a w hw
    · exact h .b w hw

theorem State.queued_isEmpty_eq_false {s : State} {o : Owner} (h : ∃ d, ∃ w ∈ (s.ch d).ctl.queue, w.owner = o) :
    (s.queued o).isEmpty = false := by
  obtain ⟨d, w, hw, ho⟩ := h
  rw [Bool.eq_false_iff, ne_eq, State.queued_isEmpty_iff]
  exact fun hn => hn d w hw ho

theorem mem_eraseLeg {i : LegId} {q : List Leg} {w : Leg} : w ∈ eraseLeg i q ↔ w ∈ q ∧ w.id ≠ i := by
  simp [eraseLeg]

/-- The leg of an access stands in the queue of its channel. -/
theorem State.mem_of_accessLeg {s : State} {c : Chan} {b : BankNo} {l : Leg} (h : s.accessLeg c b = some l) :
    l ∈ (s.ch c).ctl.queue := by
  obtain ⟨i, -, hi⟩ := Option.bind_eq_some_iff.mp h
  exact List.mem_of_find?_eq_some hi

/-- The bank whose access has ended (R52 step 1). -/
theorem Control.bank_endAccess_self (k : Control) (b : BankNo) :
    (k.endAccess b).bank b = { k.bank b with access := none, readAccess := none, writeAccess := none } :=
  Control.bank_modBank_self k b fun x => { x with access := none, readAccess := none, writeAccess := none }

/-! ### A leg that leaves its queue and is recorded (R27, R43) -/

/-- The leg has left its queue and is DONE in its entry's list. -/
def State.legGone (s : State) (c : Chan) (l : Leg) : State := (s.takeLeg c l.id).recordDone l

theorem State.still_takeLeg (s : State) (c d : Chan) (i : LegId) :
    ((s.takeLeg c i).ch d).ctl.still =
      (if d = c then (s.ch c).ctl.withQueue (eraseLeg i (s.ch c).ctl.queue) else (s.ch d).ctl).still := by
  simp only [State.takeLeg, State.still_report, State.ch_modCtl]
  split <;> rfl

@[simp] theorem State.table_takeLeg (s : State) (c : Chan) (i : LegId) : (s.takeLeg c i).table = s.table := by
  simp [State.takeLeg]

theorem State.recordDone_host {l : Leg} {g : Tag} (h : l.owner = .host g) (s : State) :
    s.recordDone l = s.modHost g fun e => { e with done := e.done ++ [{ l with state := .done }] } := by
  simp only [State.recordDone, h]

theorem State.recordDone_internal {l : Leg} {n : InternalNo} (h : l.owner = .internal n) (s : State) :
    s.recordDone l = s.modInternal n fun e => { e with done := e.done ++ [{ l with state := .done }] } := by
  simp only [State.recordDone, h]

@[simp] theorem State.ch_recordDone (s : State) (l : Leg) (d : Chan) : (s.recordDone l).ch d = s.ch d := by
  unfold State.recordDone
  dsimp only
  split <;> simp

section
variable (s : State) (c d : Chan) (l : Leg)

theorem State.queue_legGone :
    ((s.legGone c l).ch d).ctl.queue =
      if d = c then eraseLeg l.id (s.ch d).ctl.queue else (s.ch d).ctl.queue := by
  rw [State.legGone, State.ch_recordDone, Control.queue_of_still (s.still_takeLeg c d l.id)]
  split
  · subst d
    exact Control.queue_withQueue _ _
  · rfl

theorem State.bank_legGone (b : BankNo) : ((s.legGone c l).ch d).ctl.bank b = (s.ch d).ctl.bank b := by
  rw [State.legGone, State.ch_recordDone, Control.bank_of_still (s.still_takeLeg c d l.id)]
  split
  · subst d
    exact Control.bank_withQueue _ _ _
  · rfl

theorem State.pathBusy_legGone : ((s.legGone c l).ch d).ctl.pathBusy = (s.ch d).ctl.pathBusy := by
  rw [State.legGone, State.ch_recordDone, Control.pathBusy_of_still (s.still_takeLeg c d l.id)]
  split
  · subst d
    exact Control.pathBusy_withQueue _ _
  · rfl

theorem State.sides_legGone : (s.legGone c l).sides = s.sides := by simp [State.legGone]

theorem State.outer_legGone : (s.legGone c l).outer = s.outer := by simp [State.legGone]

theorem State.table_legGone :
    (s.legGone c l).table.answers = s.table.answers ∧
      (s.legGone c l).table.restarting = s.table.restarting := by
  rw [← s.table_takeLeg c l.id]
  unfold State.legGone State.recordDone
  dsimp only
  split <;> exact ⟨rfl, rfl⟩

/-- The pending POWER of a channel is no matter of a leaving leg. -/
theorem State.pendingPower_legGone :
    ((s.legGone c l).ch d).pwr.pendingPower = (s.ch d).pwr.pendingPower := by
  rw [State.legGone, State.ch_recordDone, State.takeLeg, (State.pwr_report _ c d).2.2, State.pwr_modCtl]

end

theorem State.host_legGone {s : State} {l : Leg} {g : Tag} {e : Entry} (ho : l.owner = .host g)
    (h : s.host g = some e) (c : Chan) :
    (s.legGone c l).host g = some { e with done := e.done ++ [{ l with state := .done }] } := by
  rw [State.legGone, State.recordDone_host ho]
  exact State.host_modHost_self (by rw [State.host_of_table (s.table_takeLeg c l.id), h]) _

@[simp] theorem State.internal_setInternal_self (s : State) (n : InternalNo) (e : Option CopyEntry) :
    (s.setInternal n e).internal n = e := by
  simp [State.internal, State.setInternal]

theorem State.internal_of_table {s u : State} (h : s.table = u.table) (n : InternalNo) :
    s.internal n = u.internal n := by
  rw [State.internal, State.internal, h]

theorem State.internal_legGone {s : State} {l : Leg} {n : InternalNo} {e : CopyEntry}
    (ho : l.owner = .internal n) (h : s.internal n = some e) (c : Chan) :
    (s.legGone c l).internal n = some { e with done := e.done ++ [{ l with state := .done }] } := by
  rw [State.legGone, State.recordDone_internal ho, State.modInternal, State.internal_setInternal_self,
    State.internal_of_table (s.table_takeLeg c l.id), h, Option.map_some]

/-! ### The entry of a completed leg judged (R28 step 4) -/

theorem State.judgeOwner_draining_gone {s : State} {g : Tag} (hr : s.table.restarting = true)
    (h : s.NoLegs (.host g)) : s.judgeOwner (.host g) = s.setHost g none := by
  simp only [State.judgeOwner, hr, (s.queued_isEmpty_iff _).mpr h, if_true]

theorem State.judgeOwner_draining_more {s : State} {g : Tag} (hr : s.table.restarting = true)
    (h : ∃ d, ∃ w ∈ (s.ch d).ctl.queue, w.owner = .host g) : s.judgeOwner (.host g) = s := by
  simp only [State.judgeOwner, hr, State.queued_isEmpty_eq_false h, if_true, Bool.false_eq_true, if_false]

theorem State.judgeOwner_host {s : State} {g : Tag} (hr : s.table.restarting = false) :
    s.judgeOwner (.host g) = s.judgeEntry g := by
  simp only [State.judgeOwner, hr, Bool.false_eq_true, if_false]

/-- An entry whose last leg is DONE is answered with the status recorded, or OK (R30). -/
theorem State.judgeEntry_complete {s : State} {g : Tag} {e : Entry} (h : s.host g = some e)
    (hm : isMemoryReq e.req = true) (ha : e.state = .active) (hd : e.done ≠ []) (hn : s.NoLegs (.host g)) :
    s.judgeEntry g = s.answer g (e.status.getD .ok) := by
  simp [State.judgeEntry, State.legsDone, h, hm, ha, hd, (s.queued_isEmpty_iff _).mpr hn]

/-- An entry with a leg in a queue waits. -/
theorem State.judgeEntry_waits {s : State} {g : Tag} (h : ∃ d, ∃ w ∈ (s.ch d).ctl.queue, w.owner = .host g) :
    s.judgeEntry g = s := by
  have hn : s.legsDone g = false := by
    unfold State.legsDone
    split
    · rfl
    · simp [State.queued_isEmpty_eq_false h]
  rw [State.judgeEntry, hn]
  rfl

theorem State.judgeOwner_internal_more {s : State} {n : InternalNo}
    (h : ∃ d, ∃ w ∈ (s.ch d).ctl.queue, w.owner = .internal n) : s.judgeOwner (.internal n) = s := by
  simp only [State.judgeOwner, State.judgeInternal, State.queued_isEmpty_eq_false h, Bool.false_eq_true, if_false]

theorem State.judgeOwner_internal_gone {s : State} {n : InternalNo} (h : s.NoLegs (.internal n)) :
    s.judgeOwner (.internal n) = (s.setInternal n none).copyComplete n := by
  simp only [State.judgeOwner, State.judgeInternal, (s.queued_isEmpty_iff _).mpr h, if_true]

@[simp] theorem State.table_postNotice (s : State) (k : NoticeKind) (c : Option Chan) (f : NoticeFields) :
    (s.postNotice k c f).table = s.table := by
  unfold State.postNotice
  split <;> rfl

@[simp] theorem State.ch_postNotice (s : State) (k : NoticeKind) (c : Option Chan) (f : NoticeFields) (d : Chan) :
    (s.postNotice k c f).ch d = s.ch d := by
  unfold State.postNotice
  cases d <;> split <;> rfl

/-- A copy's completion is no matter of the table and of the channels (R149). -/
@[simp] theorem State.table_copyComplete (s : State) (n : InternalNo) : (s.copyComplete n).table = s.table := by
  cases h : s.mir.rebuild with
  | none => simp only [State.copyComplete, h]
  | some r =>
    simp only [State.copyComplete, h]
    split
    · split
      · exact State.table_postNotice _ _ _ _
      · rfl
    · rfl

@[simp] theorem State.ch_copyComplete (s : State) (n : InternalNo) (d : Chan) :
    (s.copyComplete n).ch d = s.ch d := by
  cases h : s.mir.rebuild with
  | none => simp only [State.copyComplete, h]
  | some r =>
    simp only [State.copyComplete, h]
    split
    · split
      · rw [State.ch_postNotice]
        cases d <;> rfl
      · cases d <;> rfl
    · rfl

@[simp] theorem State.ch_judgeOwner (s : State) (o : Owner) (d : Chan) : (s.judgeOwner o).ch d = s.ch d := by
  cases o with
  | internal n =>
    simp only [State.judgeOwner, State.judgeInternal]
    split <;> simp
  | host g =>
    simp only [State.judgeOwner, State.judgeEntry]
    (repeat' split) <;> simp

theorem State.sides_judgeOwner_host (s : State) (g : Tag) : (s.judgeOwner (.host g)).sides = s.sides := by
  simp only [State.judgeOwner]
  (repeat' split) <;> simp

/-- A judged entry keeps everything but its state and its status. -/
theorem State.host_judgeOwner {s : State} {g : Tag} {e : Entry} (hr : s.table.restarting = false)
    (h : s.host g = some e) :
    ∃ x y, (s.judgeOwner (.host g)).host g = some { e with state := x, status := y } := by
  rw [State.judgeOwner_host hr, State.judgeEntry]
  split
  · exact s.host_answer g _ h
  · exact ⟨e.state, e.status, h⟩

/-! ### The reports that close an access (R52 step 4) -/

/-- A bank record but for its idle close. -/
def Bank.sansIdle (x : Bank) : Bank := { x with idleClose := .stopped }

theorem Bank.fields_of_sansIdle {x y : Bank} (h : x.sansIdle = y.sansIdle) :
    x.state = y.state ∧ x.openRow = y.openRow ∧ x.closable = y.closable ∧ x.access = y.access ∧
      x.writeAccess = y.writeAccess ∧ x.writeRecovery = y.writeRecovery := by
  simp only [Bank.sansIdle, Bank.mk.injEq] at h
  obtain ⟨hstate, hrow, hclosable, -, haccess, -, -, -, -, -, -, hwrite, hrecovery⟩ := h
  exact ⟨hstate, hrow, hclosable, haccess, hwrite, hrecovery⟩

theorem Control.sansIdle_judgeBank (k : Control) (f : Settings) (now : Nat) (b d : BankNo) :
    ((k.judgeBank f now b).bank d).sansIdle = (k.bank d).sansIdle := by
  unfold Control.judgeBank
  split
  · by_cases hd : d = b
    · subst hd
      simp [Bank.sansIdle]
    · rw [Control.bank_modBank_ne hd]
  · rfl

@[simp] theorem Control.pathBusy_judgeBank (k : Control) (f : Settings) (now : Nat) (b : BankNo) :
    (k.judgeBank f now b).pathBusy = k.pathBusy := by
  unfold Control.judgeBank
  split <;> rfl

theorem State.later_bank (s : State) (c d : Chan) (b x : BankNo) :
    (((s.later (.bank c b)).ch d).ctl.bank x).sansIdle = ((s.ch d).ctl.bank x).sansIdle ∧
      ((s.later (.bank c b)).ch d).ctl.pathBusy = (s.ch d).ctl.pathBusy := by
  unfold State.later
  split
  · simp only [State.judge, State.judgeBank, State.ch_modCtl]
    split
    · subst d
      exact ⟨Control.sansIdle_judgeBank _ _ _ _ _, Control.pathBusy_judgeBank _ _ _ _⟩
    · exact ⟨rfl, rfl⟩
  · cases d <;> exact ⟨rfl, rfl⟩

/-- The end of an access: the entry judged, the bank judged, a decision called, the event closed. -/
def State.closeAccess (s : State) (o : Owner) (c : Chan) (b : BankNo) : State :=
  (((s.judgeOwner o).later (.bank c b)).callDecision c).conclude

section
variable (s : State) (o : Owner) (c d : Chan) (b : BankNo)

@[simp] theorem State.table_closeAccess : (s.closeAccess o c b).table = (s.judgeOwner o).table := by
  simp [State.closeAccess]

theorem State.host_closeAccess (g : Tag) : (s.closeAccess o c b).host g = (s.judgeOwner o).host g :=
  State.host_of_table (s.table_closeAccess o c b) g

theorem State.internal_closeAccess (n : InternalNo) :
    (s.closeAccess o c b).internal n = (s.judgeOwner o).internal n :=
  State.internal_of_table (s.table_closeAccess o c b) n

@[simp] theorem State.sides_closeAccess : (s.closeAccess o c b).sides = (s.judgeOwner o).sides := by
  simp [State.closeAccess]

@[simp] theorem State.mem_closeAccess : (s.closeAccess o c b).mem = s.mem :=
  State.mem_of_outer (by simp [State.closeAccess])

@[simp] theorem State.queue_closeAccess : ((s.closeAccess o c b).ch d).ctl.queue = (s.ch d).ctl.queue := by
  rw [State.closeAccess, State.ctl_conclude, Control.queue_of_still (State.still_callDecision _ c d),
    State.queue_later, State.ch_judgeOwner]

@[simp] theorem State.due_closeAccess : ((s.closeAccess o c b).ch c).ctl.due = true := by
  rw [State.closeAccess, State.ctl_conclude, State.due_callDecision]

@[simp] theorem State.pathBusy_closeAccess :
    ((s.closeAccess o c b).ch d).ctl.pathBusy = (s.ch d).ctl.pathBusy := by
  rw [State.closeAccess, State.ctl_conclude, Control.pathBusy_of_still (State.still_callDecision _ c d),
    (State.later_bank _ c d b b).2, State.ch_judgeOwner]

theorem State.sansIdle_closeAccess (x : BankNo) :
    (((s.closeAccess o c b).ch d).ctl.bank x).sansIdle = ((s.ch d).ctl.bank x).sansIdle := by
  rw [State.closeAccess, State.ctl_conclude, Control.bank_of_still (State.still_callDecision _ c d),
    (State.later_bank _ c d b x).1, State.ch_judgeOwner]

end

/-- The end of an access of a host entry is no matter of mirror control and of the notice table. -/
theorem State.closeAccess_host_sides (s : State) (g : Tag) (c : Chan) (b : BankNo) :
    (s.closeAccess (.host g) c b).mir = s.mir ∧ (s.closeAccess (.host g) c b).notices = s.notices := by
  have hs : (s.closeAccess (.host g) c b).sides = s.sides := by
    rw [State.sides_closeAccess, State.sides_judgeOwner_host]
  obtain ⟨hmir, hnotices, -⟩ := State.sides_fields hs
  exact ⟨hmir, hnotices⟩

/-- While a RESTART drains, an entry without a leg is discarded without answer (R39). -/
theorem State.closeAccess_draining {s : State} (hr : s.table.restarting = true) (g : Tag) (c : Chan) (b : BankNo) :
    (s.closeAccess (.host g) c b).table.answers = s.table.answers ∧
      (s.NoLegs (.host g) → (s.closeAccess (.host g) c b).host g = none) ∧
      ((∃ d, ∃ w ∈ (s.ch d).ctl.queue, w.owner = .host g) →
        (s.closeAccess (.host g) c b).host g = s.host g) := by
  refine ⟨?_, fun hn => ?_, fun hmore => ?_⟩
  · rw [State.table_closeAccess]
    simp only [State.judgeOwner, hr, if_true]
    split <;> rfl
  · rw [State.host_closeAccess, State.judgeOwner_draining_gone hr hn, State.host_setHost_self]
  · rw [State.host_closeAccess, State.judgeOwner_draining_more hr hmore]

/-! ### A host entry after its leg's access -/

/-- Once the entry's last leg is gone it is answered; this is the whole change of the answer queue. -/
theorem State.answers_judgeOwner_complete {s : State} {g : Tag} {e : Entry} (hr : s.table.restarting = false)
    (h : s.host g = some e) (hm : isMemoryReq e.req = true) (ha : e.state = .active) (hd : e.done ≠ [])
    (hn : s.NoLegs (.host g)) :
    (s.judgeOwner (.host g)).host g =
        some { e with state := .answered, status := some (e.status.getD .ok) } ∧
      (s.judgeOwner (.host g)).table.answers =
        s.table.answers ++
          [.answer { kind := reqCode e.req, tag := g, status := e.status.getD .ok,
                     extra := e.extra (e.status.getD .ok) }] := by
  rw [State.judgeOwner_host hr, State.judgeEntry_complete h hm ha hd hn, State.answer_of_host h]
  exact ⟨by simp, by simp⟩

theorem isMemoryReq_of_code {q : Req} (h : reqCode q ∈ [(1 : Byte), 2]) : isMemoryReq q = true := by
  cases q <;> simp [reqCode, isMemoryReq] at h ⊢

/-- A leg in a queue belongs to an ACTIVE memory request (R17). -/
theorem State.active_of_leg {s : State} (h : s.tagsOk = true) {c : Chan} {l : Leg}
    (hl : l ∈ (s.ch c).ctl.queue) {g : Tag} (ho : l.owner = .host g) {e : Entry} (he : s.host g = some e) :
    e.state = .active ∧ isMemoryReq e.req = true := by
  obtain ⟨e', he', hs, hk⟩ := (s.tagUsed_iff _ _ _).mp ((State.tagsOk_channel h c).2 l hl g ho)
  cases he.symm.trans he'
  exact ⟨hs, isMemoryReq_of_code hk⟩

/-! ### Copies (R149) -/

/-- A completed copy of no rebuild in progress moves nothing (R151). -/
theorem State.copyComplete_other {s : State} {n : InternalNo}
    (h : ∀ y, s.mir.rebuild = some y → ∀ p ∈ y.copies, p.1 ≠ n) : s.copyComplete n = s := by
  unfold State.copyComplete
  split
  · rfl
  · rename_i y hy
    have hn : (y.copies.any fun p => p.1 == n) = false := by simpa using h y hy
    simp only [hn, Bool.false_eq_true, if_false]

/-- A completed copy leaves the copies in flight and moves the frontier; the last one ends the rebuild. -/
theorem State.copyComplete_flight {s : State} {n : InternalNo} {y : Rebuild} (hy : s.mir.rebuild = some y)
    (hn : ∃ p ∈ y.copies, p.1 = n) :
    s.copyComplete n =
      let copies := y.copies.filter fun p => p.1 != n
      if frontierOf y.next copies = Config.channelLines then
        { s with mir := { (s.mir.setHealth y.target .inService).setUnc y.target 0 with rebuild := none } }.postNotice
          .rebuildDone (some y.target) .nothing
      else
        { s with mir := { s.mir with
          rebuild := some { y with copies := copies, frontier := frontierOf y.next copies } } } := by
  have hany : (y.copies.any fun p => p.1 == n) = true := by simpa using hn
  simp only [State.copyComplete, hy, hany, if_true]

/-- No copy's access answers a request (R37). -/
theorem State.answers_closeAccess_internal (s : State) (n : InternalNo) (c : Chan) (b : BankNo) :
    (s.closeAccess (.internal n) c b).table.answers = s.table.answers := by
  rw [State.table_closeAccess]
  simp only [State.judgeOwner, State.judgeInternal]
  split
  · rw [State.table_copyComplete, State.answers_setInternal]
  · rfl

/-- With a leg left, the internal entry stays, and nothing moves. -/
theorem State.closeAccess_internal_more {s : State} {n : InternalNo}
    (h : ∃ d, ∃ w ∈ (s.ch d).ctl.queue, w.owner = .internal n) (c : Chan) (b : BankNo) :
    (s.closeAccess (.internal n) c b).mir = s.mir ∧ (s.closeAccess (.internal n) c b).notices = s.notices ∧
      (s.closeAccess (.internal n) c b).internal n = s.internal n := by
  have hs : (s.closeAccess (.internal n) c b).sides = s.sides := by
    rw [State.sides_closeAccess, State.judgeOwner_internal_more h]
  obtain ⟨hmir, hnotices, -⟩ := State.sides_fields hs
  exact ⟨hmir, hnotices, by rw [State.internal_closeAccess, State.judgeOwner_internal_more h]⟩

/-- Without a leg left, the internal entry is released and its copy complete (R37, R149). -/
theorem State.closeAccess_internal_gone {s : State} {n : InternalNo} (h : s.NoLegs (.internal n)) (c : Chan)
    (b : BankNo) :
    (s.closeAccess (.internal n) c b).internal n = none ∧
      (s.closeAccess (.internal n) c b).mir = ((s.setInternal n none).copyComplete n).mir ∧
      (s.closeAccess (.internal n) c b).notices = ((s.setInternal n none).copyComplete n).notices := by
  have hs : (s.closeAccess (.internal n) c b).sides = ((s.setInternal n none).copyComplete n).sides := by
    rw [State.sides_closeAccess, State.judgeOwner_internal_gone h]
  obtain ⟨hmir, hnotices, -⟩ := State.sides_fields hs
  refine ⟨?_, hmir, hnotices⟩
  rw [State.internal_closeAccess, State.judgeOwner_internal_gone h,
    State.internal_of_table (State.table_copyComplete _ _), State.internal_setInternal_self]

/-- A released entry whose copy is of no rebuild in progress moves nothing (R151). -/
theorem State.closeAccess_internal_leftover {s : State} {n : InternalNo} (h : s.NoLegs (.internal n))
    (hc : ∀ y, s.mir.rebuild = some y → ∀ p ∈ y.copies, p.1 ≠ n) (c : Chan) (b : BankNo) :
    (s.closeAccess (.internal n) c b).mir = s.mir ∧ (s.closeAccess (.internal n) c b).notices = s.notices := by
  obtain ⟨-, hmir, hnotices⟩ := State.closeAccess_internal_gone h c b
  rw [State.copyComplete_other (s := s.setInternal n none) hc] at hmir hnotices
  exact ⟨hmir, hnotices⟩

/-- What a posting makes of the notice table (R187). -/
theorem State.notices_postNotice (s : State) (k : NoticeKind) (c : Option Chan) (f : NoticeFields) :
    (s.postNotice k c f).notices =
      if masked s.conf.noticeMask k = true then s.notices else noticesPost k c f s.notices := by
  unfold State.postNotice
  split <;> rfl

@[simp] theorem State.mir_postNotice (s : State) (k : NoticeKind) (c : Option Chan) (f : NoticeFields) :
    (s.postNotice k c f).mir = s.mir := by
  unfold State.postNotice
  split <;> rfl

@[simp] theorem State.conf_postNotice (s : State) (k : NoticeKind) (c : Option Chan) (f : NoticeFields) :
    (s.postNotice k c f).conf = s.conf := by
  unfold State.postNotice
  split <;> rfl

end Sys2Proof.Machine
end

