-- ==== Sys2Proof/Proofs/S01Writes.lean ====
section
/-! SUPPORT. O55: a WRITE access completes (R13, R47, R52, R149). -/

namespace Sys2Proof.Machine
open Sys2Proof

/-! ### The state before the entry is judged -/

/-- The line record written, the leg gone and its outcome recorded (R28 steps 1 and 2). -/
def State.written (s : State) (c : Chan) (b : BankNo) (l : Leg) : State :=
  (((s.writeEnded c b).stored c l).legGone c l).finishWriting l

theorem exec_writeAccessComplete {s : State} {c : Chan} {b : BankNo} {m : Nat} {l : Leg}
    (h : s.expires (fun y => (y.bank c b).writeAccess) m = true) (hl : (s.atMoment m).accessLeg c b = some l) :
    exec (.writeAccessComplete c b) s =
      .next (((s.atMoment m).written c b l).closeAccess l.owner c b) := by
  refine (State.expiry_expires h fun s => s.completeWrite c b).trans ?_
  rw [State.completeWrite_eq hl]
  rfl

@[simp] theorem State.ch_stored (s : State) (c : Chan) (l : Leg) (d : Chan) : (s.stored c l).ch d = s.ch d := by
  unfold State.stored
  cases d <;> split <;> rfl

@[simp] theorem State.table_stored (s : State) (c : Chan) (l : Leg) : (s.stored c l).table = s.table := by
  unfold State.stored
  split <;> rfl

@[simp] theorem State.sides_stored (s : State) (c : Chan) (l : Leg) : (s.stored c l).sides = s.sides := by
  unfold State.stored
  split <;> rfl

/-- What the record reads after the WRITE (R13). -/
theorem State.read_stored_self {s : State} (h : s.mem.wf = true) (c : Chan) (l : Leg) :
    (s.stored c l).mem.read c l.loc.line =
      match l.store with
      | .absent => s.mem.read c l.loc.line
      | .line d => .intact d
      | .poison => .poisoned := by
  rw [State.mem_stored]
  cases l.store
  · rfl
  · exact Memory.read_write_self _ h _ _ _
  · exact Memory.read_write_self _ h _ _ _

theorem State.read_stored_ne {c d : Chan} {l : Leg} {n : Nat} (h : ¬(d = c ∧ n = l.loc.line)) (s : State) :
    (s.stored c l).mem.read d n = s.mem.read d n := by
  rw [State.mem_stored]
  split
  · rfl
  · exact Memory.read_write_ne _ h _

@[simp] theorem State.ch_finishWriting (s : State) (l : Leg) (d : Chan) : (s.finishWriting l).ch d = s.ch d := by
  unfold State.finishWriting
  (repeat' split) <;> simp

theorem State.finishWriting_draining {s : State} (h : s.table.restarting = true) (l : Leg) :
    s.finishWriting l = s := by
  simp only [State.finishWriting, h, if_true]

theorem State.finishWriting_internal {l : Leg} {n : InternalNo} (h : l.owner = .internal n) (s : State) :
    s.finishWriting l = s := by
  unfold State.finishWriting
  split
  · rfl
  · simp only [h]

theorem State.table_finishWriting (s : State) (l : Leg) :
    (s.finishWriting l).table.answers = s.table.answers ∧
      (s.finishWriting l).table.restarting = s.table.restarting := by
  unfold State.finishWriting
  (repeat' split) <;> exact ⟨rfl, rfl⟩

/-- A WRITE of purpose HOST sets OK where there is no status yet; no other one records a status. -/
theorem State.host_finishWriting {s : State} {l : Leg} {g : Tag} {e : Entry} (ho : l.owner = .host g)
    (h : s.host g = some e) :
    ∃ y, (s.finishWriting l).host g = some { e with status := y } ∧ y.getD .ok = e.status.getD .ok := by
  unfold State.finishWriting
  split
  · exact ⟨e.status, h, rfl⟩
  · split
    · rename_i t hw _
      obtain rfl : t = g := Owner.host.inj (hw.symm.trans ho)
      exact ⟨some (e.status.getD .ok), State.host_modHost_self h _, rfl⟩
    · exact ⟨e.status, h, rfl⟩
    · exact ⟨e.status, h, rfl⟩

section
variable (s : State) (c d : Chan) (b : BankNo) (l : Leg)

theorem State.queue_written :
    ((s.written c b l).ch d).ctl.queue =
      if d = c then eraseLeg l.id (s.ch d).ctl.queue else (s.ch d).ctl.queue := by
  have ended : ((s.writeEnded c b).ch d).ctl.queue = (s.ch d).ctl.queue := by
    rw [State.writeEnded, State.ch_modCtl]
    split
    · subst d
      rfl
    · rfl
  rw [State.written, State.ch_finishWriting, State.queue_legGone, State.ch_stored, ended]

/-- The bank of the access: free, held open by the write recovery (R47, R52). -/
theorem State.bank_written :
    ((s.written c b l).ch c).ctl.bank b =
      { (s.ch c).ctl.bank b with
        access := none
        readAccess := none
        writeAccess := none
        closable := false
        writeRecovery := some (s.clock + Config.writeRecovery) } := by
  rw [State.written, State.ch_finishWriting, State.bank_legGone, State.ch_stored, State.writeEnded,
    State.ctl_modCtl_self, Control.bank_modBank_self, Control.bank_endAccess_self]

theorem State.pathBusy_written : ((s.written c b l).ch c).ctl.pathBusy = false := by
  rw [State.written, State.ch_finishWriting, State.pathBusy_legGone, State.ch_stored, State.writeEnded,
    State.ctl_modCtl_self]
  rfl

theorem State.sides_written : (s.written c b l).sides = s.sides := by
  rw [State.written, State.finishWriting_sides, State.sides_legGone, State.sides_stored]
  exact State.modCtl_sides _ _ _

theorem State.mem_written : (s.written c b l).mem = ((s.writeEnded c b).stored c l).mem :=
  State.mem_of_outer ((State.finishWriting_outer _ _).trans (State.outer_legGone _ _ _))

@[simp] theorem State.table_writeEnded : (s.writeEnded c b).table = s.table := State.table_modCtl _ _ _

theorem State.table_written :
    (s.written c b l).table.answers = s.table.answers ∧
      (s.written c b l).table.restarting = s.table.restarting := by
  obtain ⟨ha, hr⟩ := State.table_finishWriting (((s.writeEnded c b).stored c l).legGone c l) l
  obtain ⟨ha', hr'⟩ := State.table_legGone ((s.writeEnded c b).stored c l) c l
  exact ⟨(ha.trans ha').trans (by simp), (hr.trans hr').trans (by simp)⟩

/-- With no leg of the owner but the one that leaves, none is left. -/
theorem State.noLegs_written {o : Owner} (h : ∀ w ∈ (s.ch c).ctl.queue, w.owner = o → w.id = l.id)
    (h' : ∀ w ∈ (s.ch c.other).ctl.queue, w.owner ≠ o) : (s.written c b l).NoLegs o := by
  intro d w hw ho
  rw [State.queue_written] at hw
  rcases Chan.eq_or_other c d with rfl | rfl
  · rw [if_pos rfl, mem_eraseLeg] at hw
    exact hw.2 (h w hw.1 ho)
  · rw [if_neg (Chan.other_ne c)] at hw
    exact h' w hw ho

end

theorem State.host_before_gone {s : State} {c : Chan} {b : BankNo} {l : Leg} (g : Tag) :
    ((s.writeEnded c b).stored c l).host g = s.host g :=
  State.host_of_table ((State.table_stored _ _ _).trans (State.table_writeEnded _ _ _)) g

theorem State.host_written {s : State} {l : Leg} {g : Tag} {e : Entry} (ho : l.owner = .host g)
    (h : s.host g = some e) (c : Chan) (b : BankNo) :
    ∃ y, (s.written c b l).host g =
        some { e with done := e.done ++ [{ l with state := .done }], status := y } ∧
      y.getD .ok = e.status.getD .ok :=
  State.host_finishWriting ho (State.host_legGone ho ((State.host_before_gone g).trans h) c)

theorem State.host_written_draining {s : State} {l : Leg} {g : Tag} {e : Entry} (ho : l.owner = .host g)
    (h : s.host g = some e) (hr : s.table.restarting = true) (c : Chan) (b : BankNo) :
    (s.written c b l).host g = some { e with done := e.done ++ [{ l with state := .done }] } := by
  have hr' : (((s.writeEnded c b).stored c l).legGone c l).table.restarting = true := by
    rw [(State.table_legGone _ _ _).2, State.table_stored, State.table_writeEnded, hr]
  rw [State.written, State.finishWriting_draining hr']
  exact State.host_legGone ho ((State.host_before_gone g).trans h) c

theorem State.internal_written {s : State} {l : Leg} {n : InternalNo} {e : CopyEntry}
    (ho : l.owner = .internal n) (h : s.internal n = some e) (c : Chan) (b : BankNo) :
    (s.written c b l).internal n = some { e with done := e.done ++ [{ l with state := .done }] } := by
  rw [State.written, State.finishWriting_internal ho]
  refine State.internal_legGone ho ?_ c
  rw [State.internal_of_table ((State.table_stored _ _ _).trans (State.table_writeEnded _ _ _)), h]

/-! ### The outcomes of a completed WRITE -/

section
variable {r : State} {c : Chan} {b : BankNo} {l : Leg}

/-- The record, the bank and the queues (R13, R47, R52). -/
theorem writeCompletes_channel (hw : r.mem.wf = true) :
    let u := (r.written c b l).closeAccess l.owner c b
    u.mem.read c l.loc.line =
        (match l.store with
         | .absent => r.mem.read c l.loc.line
         | .line d => .intact d
         | .poison => .poisoned) ∧
      (∀ d n, ¬(d = c ∧ n = l.loc.line) → u.mem.read d n = r.mem.read d n) ∧
      (u.ch c).ctl.pathBusy = false ∧ (u.ch c).ctl.due = true ∧
      (u.bank c b).access = none ∧ (u.bank c b).closable = false ∧
      (u.bank c b).writeRecovery = some (r.clock + 150) ∧ (u.bank c b).writeAccess = none ∧
      (u.bank c b).state = (r.bank c b).state ∧ (u.bank c b).openRow = (r.bank c b).openRow ∧
      (u.ch c).ctl.queue = eraseLeg l.id (r.ch c).ctl.queue ∧
      (u.ch c.other).ctl.queue = (r.ch c.other).ctl.queue := by
  intro u
  have hmem : u.mem = ((r.writeEnded c b).stored c l).mem :=
    (State.mem_closeAccess _ _ _ _).trans (r.mem_written c b l)
  obtain ⟨hstate, hrow, hclosable, haccess, hwrite, hrecovery⟩ :=
    Bank.fields_of_sansIdle ((r.written c b l).sansIdle_closeAccess l.owner c c b b)
  rw [State.bank_written] at hstate hrow hclosable haccess hwrite hrecovery
  refine ⟨?_, fun d n hne => ?_, ?_, State.due_closeAccess _ _ _ _, haccess, hclosable, hrecovery, hwrite,
    hstate, hrow, ?_, ?_⟩
  · rw [hmem, State.read_stored_self (s := r.writeEnded c b) (by simpa using hw) c l, State.mem_writeEnded]
  · rw [hmem, State.read_stored_ne hne, State.mem_writeEnded]
  · rw [State.pathBusy_closeAccess, State.pathBusy_written]
  · rw [State.queue_closeAccess, State.queue_written, if_pos rfl]
  · rw [State.queue_closeAccess, State.queue_written, if_neg (Chan.other_ne c)]

/-- The entry of a host WRITE in normal work (R28, R30). -/
theorem writeCompletes_host {g : Tag} {e : Entry} (hl : l ∈ (r.ch c).ctl.queue) (ho : l.owner = .host g)
    (he : r.host g = some e) (hr : r.table.restarting = false) (ht : r.tagsOk = true) :
    let u := (r.written c b l).closeAccess (.host g) c b
    u.mir = r.mir ∧ u.notices = r.notices ∧
      ((∀ w ∈ (r.ch c).ctl.queue, w.owner = .host g → w.id = l.id) →
        (∀ w ∈ (r.ch c.other).ctl.queue, w.owner ≠ .host g) →
        u.table.answers =
          r.table.answers ++
            [.answer { kind := reqCode e.req, tag := g, status := e.status.getD .ok,
                       extra := e.extra (e.status.getD .ok) }]) ∧
      (((∃ w ∈ (r.ch c).ctl.queue, w.owner = .host g ∧ w.id ≠ l.id) ∨
          ∃ w ∈ (r.ch c.other).ctl.queue, w.owner = .host g) →
        u.table.answers = r.table.answers) := by
  intro u
  obtain ⟨hanswers, hrestarting⟩ := r.table_written c b l
  have hr' := hrestarting.trans hr
  obtain ⟨hmir, hnotices, -⟩ := State.sides_fields (r.sides_written c b l)
  obtain ⟨hmir', hnotices'⟩ := (r.written c b l).closeAccess_host_sides g c b
  refine ⟨hmir'.trans hmir, hnotices'.trans hnotices, fun hq hq' => ?_, fun hmore => ?_⟩
  · obtain ⟨y, hhost, hy⟩ := State.host_written ho he c b
    obtain ⟨hactive, hmemory⟩ := State.active_of_leg ht hl ho he
    have done := State.answers_judgeOwner_complete hr' hhost hmemory hactive (by simp)
      (r.noLegs_written c b l hq hq')
    rw [State.table_closeAccess, done.2, hanswers, hy]
    rfl
  · have more : ∃ d, ∃ w ∈ ((r.written c b l).ch d).ctl.queue, w.owner = .host g := by
      rcases hmore with ⟨w, hw, ho, hne⟩ | ⟨w, hw, ho⟩
      · exact ⟨c, w, by rw [State.queue_written, if_pos rfl]; exact mem_eraseLeg.mpr ⟨hw, hne⟩, ho⟩
      · exact ⟨c.other, w, by rw [State.queue_written, if_neg (Chan.other_ne c)]; exact hw, ho⟩
    rw [State.table_closeAccess, State.judgeOwner_host hr', State.judgeEntry_waits more, hanswers]

/-- The copies in flight and the frontier after the last leg of a copy in flight (R149). -/
theorem writeCompletes_copy {n : InternalNo} {x : Rebuild} (hn : (r.written c b l).NoLegs (.internal n))
    (hx : r.mir.rebuild = some x) (hp : ∃ p ∈ x.copies, p.1 = n) :
    let u := (r.written c b l).closeAccess (.internal n) c b
    let copies := x.copies.filter fun p => p.1 ≠ n
    let frontier := copies.foldl (fun f p => min f p.2) x.next
    (frontier ≠ 2 ^ 24 → u.notices = r.notices ∧
      u.mir = { r.mir with rebuild := some { x with copies := copies, frontier := frontier } }) ∧
    (frontier = 2 ^ 24 →
      u.mir = { (r.mir.setHealth x.target .inService).setUnc x.target 0 with rebuild := none } ∧
      u.notices =
        (if masked r.conf.noticeMask .rebuildDone = true then r.notices
         else noticesPost .rebuildDone (some x.target) .nothing r.notices)) := by
  intro u copies frontier
  obtain ⟨hmir, hnotices, hconf, -⟩ := State.sides_fields (r.sides_written c b l)
  obtain ⟨-, hu, hun⟩ := State.closeAccess_internal_gone hn c b
  have hx' : ((r.written c b l).setInternal n none).mir.rebuild = some x :=
    (congrArg Mirror.rebuild hmir).trans hx
  have hcopies : (x.copies.filter fun p => p.1 != n) = copies :=
    List.filter_congr fun p _ => by by_cases hpn : p.1 = n <;> simp [hpn]
  rw [State.copyComplete_flight hx' hp] at hu hun
  simp only [hcopies] at hu hun
  refine ⟨fun hf => ?_, fun hf => ?_⟩
  · rw [if_neg (show frontierOf x.next copies ≠ Config.channelLines from hf)] at hu hun
    refine ⟨hun.trans hnotices, hu.trans ?_⟩
    simp only [State.mir_setInternal, hmir]
    rfl
  · rw [if_pos (show frontierOf x.next copies = Config.channelLines from hf)] at hu hun
    rw [State.mir_postNotice] at hu
    rw [State.notices_postNotice] at hun
    refine ⟨hu.trans ?_, hun.trans ?_⟩
    · simp only [State.mir_setInternal, hmir]
    · simp only [State.conf_setInternal, State.notices_setInternal, hconf, hnotices]

end

/-- Settles O55. -/
theorem writeAccessCompletes : Obligations.WriteAccessCompletes := by
  refine ⟨fun s c b m l => ?_, fun s c b m l => ?_⟩
  · intro r q hx hl hw
    have hexec := exec_writeAccessComplete hx hl
    have hmem := State.mem_of_accessLeg hl
    obtain ⟨hread, hothers, hpath, hdue, haccess, hclosable, hrecovery, hwrite, hstate, hrow, hq, hq'⟩ :=
      writeCompletes_channel (b := b) (c := c) (l := l) hw
    refine ⟨_, hexec, hread, hothers, hpath, hdue, haccess, hclosable, hrecovery, hwrite, hstate, hrow, hq, hq',
      fun g e ho he hr ht => ?_⟩
    rw [ho]
    exact writeCompletes_host hmem ho he hr ht
  · intro r q hx hl _
    have hexec := exec_writeAccessComplete hx hl
    have hq (d : Chan) : ((r.written c b l).ch d).ctl.queue = q d := State.queue_written _ _ _ _ _
    obtain ⟨hanswers, hrestarting⟩ := r.table_written c b l
    obtain ⟨hmir, hnotices, -⟩ := State.sides_fields (r.sides_written c b l)
    refine ⟨fun hr g e ho he => ?_, fun n e ho he => ?_⟩
    · rw [ho] at hexec
      obtain ⟨hmir', hnotices'⟩ := (r.written c b l).closeAccess_host_sides g c b
      obtain ⟨hanswers', hgone, hmore⟩ := State.closeAccess_draining (hrestarting.trans hr) g c b
      simp only [State.NoLegs, hq] at hgone hmore
      exact ⟨_, hexec, hmir'.trans hmir, hnotices'.trans hnotices, hanswers'.trans hanswers, hgone,
        fun h => (hmore h).trans (State.host_written_draining ho he hr c b)⟩
    · rw [ho] at hexec
      have gone (h : ∀ d, ∀ w ∈ q d, w.owner ≠ .internal n) : (r.written c b l).NoLegs (.internal n) := by
        simpa only [State.NoLegs, hq] using h
      refine ⟨_, hexec, (State.answers_closeAccess_internal _ _ _ _).trans hanswers, fun hmore => ?_,
        fun hn => ⟨(State.closeAccess_internal_gone (gone hn) c b).1, fun hnone => ?_, fun x hx hp => ?_⟩⟩
      · simp only [← hq] at hmore
        obtain ⟨hmir', hnotices', hkept⟩ := State.closeAccess_internal_more hmore c b
        exact ⟨hmir'.trans hmir, hnotices'.trans hnotices, hkept.trans (State.internal_written ho he c b)⟩
      · rw [← hmir] at hnone
        obtain ⟨hmir', hnotices'⟩ := State.closeAccess_internal_leftover (gone hn) hnone c b
        exact ⟨hmir'.trans hmir, hnotices'.trans hnotices⟩
      · exact writeCompletes_copy (gone hn) hx hp

end Sys2Proof.Machine
end

