-- ==== Sys2Proof/Proofs/S01Reads.lean ====
section
/-! SUPPORT. O53: a READ or FETCH access completes (R9 to R12, R15, R39, R52, R148). -/

namespace Sys2Proof.Machine
open Sys2Proof

/-! ### The condition noted (R11) -/

/-- The notice table after a READ or FETCH on channel `c` found `x` at `loc`. -/
def State.noticesFor (s : State) (c : Chan) (loc : Loc) (x : LineRec) : List Notice :=
  let post (k : NoticeKind) : List Notice :=
    if masked s.conf.noticeMask k = true then s.notices
    else noticesPost k (some c) (.address (lineAddress s.mir.mode c loc.line)) s.notices
  match x with
  | .flawed _ => post .corrected
  | .broken => post .uncorrectable
  | _ => s.notices

/-- Mirror control's record after a READ or FETCH on channel `c` found `x`: BROKEN counts. -/
def Mirror.countedFor (m : Mirror) (c : Chan) : LineRec → Mirror
  | .broken => m.setUnc c (min (m.unc c + 1) 65535)
  | _ => m

theorem Mirror.frame_setUnc (m : Mirror) (c : Chan) (n : Nat) :
    (m.setUnc c n).mode = m.mode ∧ (∀ d, (m.setUnc c n).health d = m.health d) ∧
      (m.setUnc c n).rebuild = m.rebuild := by
  cases c
  · exact ⟨rfl, fun d => by cases d <;> rfl, rfl⟩
  · exact ⟨rfl, fun d => by cases d <;> rfl, rfl⟩

/-- A count is no matter of mode, health and rebuild. -/
theorem Mirror.frame_countedFor (m : Mirror) (c : Chan) (x : LineRec) :
    (m.countedFor c x).mode = m.mode ∧ (∀ d, (m.countedFor c x).health d = m.health d) ∧
      (m.countedFor c x).rebuild = m.rebuild := by
  cases x with
  | broken => exact Mirror.frame_setUnc m c _
  | unset | intact | flawed | poisoned => exact ⟨rfl, fun _ => rfl, rfl⟩

@[simp] theorem State.ch_countUncorrectable (s : State) (c d : Chan) :
    (s.countUncorrectable c).ch d = s.ch d := by
  cases d <;> rfl

section
variable (s : State) (c d : Chan) (loc : Loc) (x : LineRec)

@[simp] theorem State.ch_noteCondition : (s.noteCondition c loc x).ch d = s.ch d := by
  cases x <;> simp only [State.noteCondition, State.ch_countUncorrectable, State.ch_postNotice]

@[simp] theorem State.table_noteCondition : (s.noteCondition c loc x).table = s.table := by
  cases x <;> simp only [State.noteCondition]
  · exact State.table_postNotice _ _ _ _
  · exact State.table_postNotice s .uncorrectable (some c) _

theorem State.conf_noteCondition : (s.noteCondition c loc x).conf = s.conf := by
  cases x <;> simp only [State.noteCondition]
  · exact State.conf_postNotice _ _ _ _
  · exact State.conf_postNotice s .uncorrectable (some c) _

theorem State.notices_noteCondition : (s.noteCondition c loc x).notices = s.noticesFor c loc x := by
  cases x <;> simp only [State.noteCondition]
  · rfl
  · rfl
  · exact State.notices_postNotice _ _ _ _
  · exact State.notices_postNotice s .uncorrectable (some c) _
  · rfl

theorem State.mir_noteCondition : (s.noteCondition c loc x).mir = s.mir.countedFor c x := by
  cases x <;> simp only [State.noteCondition]
  · rfl
  · rfl
  · exact State.mir_postNotice _ _ _ _
  · simp only [State.countUncorrectable, State.mir_postNotice]
    rfl
  · rfl

end

/-! ### The state before the outcome is recorded -/

/-- The path freed, the leg gone, and what it found noted (R11, R28, R52). -/
def State.noted (s : State) (c : Chan) (b : BankNo) (l : Leg) : State :=
  ((s.modCtl c fun k => k.endAccess b).legGone c l).noteCondition c l.loc (s.mem.read c l.loc.line)

theorem exec_readAccessComplete {s : State} {c : Chan} {b : BankNo} {m : Nat} {l : Leg}
    (h : s.expires (fun y => (y.bank c b).readAccess) m = true) (hl : (s.atMoment m).accessLeg c b = some l) :
    exec (.readAccessComplete c b) s =
      .next ((((s.atMoment m).noted c b l).finishReading c l ((s.atMoment m).mem.read c l.loc.line)).closeAccess
        l.owner c b) := by
  refine (State.expiry_expires h fun s => s.completeRead c b).trans ?_
  simp only [State.completeRead, hl]
  rfl

section
variable (s : State) (c d : Chan) (b : BankNo) (l : Leg)

theorem State.queue_noted :
    ((s.noted c b l).ch d).ctl.queue =
      if d = c then eraseLeg l.id (s.ch d).ctl.queue else (s.ch d).ctl.queue := by
  have ended : ((s.modCtl c fun k => k.endAccess b).ch d).ctl.queue = (s.ch d).ctl.queue := by
    rw [State.ch_modCtl]
    split
    · subst d
      rfl
    · rfl
  rw [State.noted, State.ch_noteCondition, State.queue_legGone, ended]

theorem State.access_noted : ((s.noted c b l).ch c).ctl.pathBusy = false ∧
    (((s.noted c b l).ch c).ctl.bank b).access = none := by
  rw [State.noted, State.ch_noteCondition, State.pathBusy_legGone, State.bank_legGone, State.ctl_modCtl_self,
    Control.bank_endAccess_self]
  exact ⟨rfl, rfl⟩

theorem State.pendingPower_noted :
    ((s.noted c b l).ch d).pwr.pendingPower = (s.ch d).pwr.pendingPower := by
  rw [State.noted, State.ch_noteCondition, State.pendingPower_legGone, State.pwr_modCtl]

theorem State.table_noted :
    (s.noted c b l).table.answers = s.table.answers ∧
      (s.noted c b l).table.restarting = s.table.restarting := by
  obtain ⟨ha, hr⟩ := State.table_legGone (s.modCtl c fun k => k.endAccess b) c l
  rw [State.table_modCtl] at ha hr
  rw [State.noted, State.table_noteCondition]
  exact ⟨ha, hr⟩

/-- Mirror control, the notice table and the settings once the condition is noted. -/
theorem State.sides_noted :
    (s.noted c b l).mir = s.mir.countedFor c (s.mem.read c l.loc.line) ∧
      (s.noted c b l).notices = s.noticesFor c l.loc (s.mem.read c l.loc.line) ∧
      (s.noted c b l).conf = s.conf := by
  have hs : ((s.modCtl c fun k => k.endAccess b).legGone c l).sides = s.sides := by
    rw [State.sides_legGone, State.modCtl_sides]
  obtain ⟨hmir, hnotices, hconf, -⟩ := State.sides_fields hs
  refine ⟨?_, ?_, ?_⟩
  · rw [State.noted, State.mir_noteCondition, hmir]
  · rw [State.noted, State.notices_noteCondition]
    unfold State.noticesFor
    rw [hmir, hnotices, hconf]
  · rw [State.noted, State.conf_noteCondition, hconf]

theorem State.mem_noted : (s.noted c b l).mem = s.mem :=
  State.mem_of_outer (by rw [State.noted, State.noteCondition_outer, State.outer_legGone, State.modCtl_outer])

end

theorem State.host_noted {s : State} {l : Leg} {g : Tag} {e : Entry} (ho : l.owner = .host g)
    (h : s.host g = some e) (c : Chan) (b : BankNo) :
    (s.noted c b l).host g = some { e with done := e.done ++ [{ l with state := .done }] } := by
  rw [State.noted, State.host_of_table (State.table_noteCondition _ _ _ _)]
  exact State.host_legGone ho ((State.host_modCtl _ _ _ _).trans h) c

theorem State.internal_noted {s : State} {l : Leg} {n : InternalNo} {e : CopyEntry}
    (ho : l.owner = .internal n) (h : s.internal n = some e) (c : Chan) (b : BankNo) :
    (s.noted c b l).internal n = some { e with done := e.done ++ [{ l with state := .done }] } := by
  rw [State.noted, State.internal_of_table (State.table_noteCondition _ _ _ _)]
  exact State.internal_legGone ho ((State.internal_of_table (State.table_modCtl _ _ _) n).trans h) c

/-! ### BLOCKED WRITE legs settled (R43, R53) -/

/-- What unblocking makes of one leg. -/
def Leg.unblocked (o : Owner) (p : Purpose) (st : Store) (w : Leg) : Leg :=
  if w.isBlockedWrite o p then { w with state := .waiting, store := st } else w

@[simp] theorem Leg.owner_unblocked (o : Owner) (p : Purpose) (st : Store) (w : Leg) :
    (w.unblocked o p st).owner = w.owner := by
  unfold Leg.unblocked
  split <;> rfl

theorem Control.unblock_frame (k : Control) (o : Owner) (p : Purpose) (st : Store) :
    (k.unblock o p st).queue = k.queue.map (Leg.unblocked o p st) ∧ (k.unblock o p st).banks = k.banks ∧
      (k.unblock o p st).pathBusy = k.pathBusy := by
  unfold Control.unblock
  split
  · exact ⟨Control.queue_withQueue _ _, Control.banks_withQueue _ _, Control.pathBusy_withQueue _ _⟩
  · rename_i h
    refine ⟨?_, rfl, rfl⟩
    have none : ∀ w ∈ k.queue, Leg.unblocked o p st w = w := fun w hw => by
      rw [Leg.unblocked, if_neg fun hb => h (List.any_eq_true.mpr ⟨w, hw, hb⟩)]
    rw [List.map_congr_left none, List.map_id']

section
variable (s : State) (o : Owner) (p : Purpose) (st : Store) (d : Chan)

theorem State.ctl_unblock : ((s.unblock o p st).ch d).ctl = (s.ch d).ctl.unblock o p st := by
  cases d <;> rfl

theorem State.queue_unblock :
    ((s.unblock o p st).ch d).ctl.queue = (s.ch d).ctl.queue.map (Leg.unblocked o p st) := by
  rw [State.ctl_unblock, (Control.unblock_frame _ o p st).1]

@[simp] theorem State.table_unblock : (s.unblock o p st).table = s.table := by simp [State.unblock]

/-- Unblocking changes what legs will store, not whose they are. -/
theorem State.noLegs_unblock (o' : Owner) : (s.unblock o p st).NoLegs o' ↔ s.NoLegs o' := by
  simp only [State.NoLegs, State.queue_unblock, List.forall_mem_map, Leg.owner_unblocked]

theorem State.exists_leg_unblock (o' : Owner) :
    (∃ d, ∃ w ∈ ((s.unblock o p st).ch d).ctl.queue, w.owner = o') ↔
      ∃ d, ∃ w ∈ (s.ch d).ctl.queue, w.owner = o' := by
  simp only [State.queue_unblock, List.mem_map]
  constructor
  · rintro ⟨d, w, ⟨v, hv, rfl⟩, ho⟩
    exact ⟨d, v, hv, (Leg.owner_unblocked _ _ _ v).symm.trans ho⟩
  · rintro ⟨d, w, hw, ho⟩
    exact ⟨d, _, ⟨w, hw, rfl⟩, (Leg.owner_unblocked _ _ _ w).trans ho⟩

end

/-! ### The outcome in SPLIT mode (R10, R12, R15) -/

/-- Without another channel to serve, no degrade is due (R141). -/
theorem State.autoDegrade_eq_self {s : State} {c : Chan}
    (h : s.mir.mode = .split ∨ s.mir.health c.other ≠ .inService) (o : Option Owner) :
    s.autoDegrade c o = s := by
  unfold State.autoDegrade
  rw [if_neg]
  rintro ⟨hm, -, -, -, -, hh⟩
  rcases h with h | h
  · rw [h] at hm
    cases hm
  · exact h hh

theorem State.recovers_split {s : State} (h : s.mir.mode = .split) (c : Chan) : s.recovers c = false := by
  simp [State.recovers, h]

/-- In SPLIT mode a READ records what it found and, for a FLAWED line, adds a WRITEBACK. -/
theorem State.finishRead_split {s : State} (h : s.mir.mode = .split) {l : Leg} (hl : l.recovery = false)
    (t : Tag) (c : Chan) (x : LineRec) :
    s.finishRead t c l x = (s.recordRead t c x.readStatus x).addWriteback t c l.loc x := by
  cases x with
  | broken =>
    simp only [State.finishRead, hl, State.brokenRead, State.autoDegrade_eq_self (.inl h),
      State.recovers_split h, Bool.false_eq_true, if_false]
    rfl
  | unset | intact | flawed | poisoned => simp only [State.finishRead, hl, Bool.false_eq_true, if_false]

/-- In SPLIT mode a FETCH gives the entry's BLOCKED WRITE legs what they will store. -/
theorem State.finishFetch_split {s : State} (h : s.mir.mode = .split) {l : Leg} (hl : l.recovery = false)
    (t : Tag) (c : Chan) (x : LineRec) : s.finishFetch t c l x = s.settleFetch t x.fetchStatus x := by
  cases x with
  | broken =>
    simp only [State.finishFetch, State.autoDegrade_eq_self (.inl h), State.recovers_split h, Bool.and_false,
      Bool.false_eq_true, if_false]
    rfl
  | unset | intact | flawed | poisoned => simp only [State.finishFetch, hl, Bool.false_eq_true, if_false]

theorem State.finishReading_draining {s : State} (h : s.table.restarting = true) (c : Chan) (l : Leg)
    (x : LineRec) : s.finishReading c l x = s := by
  simp only [State.finishReading, h, if_true]

section
variable {s : State} {g : Tag} {l : Leg} (hr : s.table.restarting = false) (ho : l.owner = .host g)
include hr ho

theorem State.finishReading_read (hk : l.kind = .read) (c : Chan) (x : LineRec) :
    s.finishReading c l x = s.finishRead g c l x := by
  simp only [State.finishReading, hr, ho, hk, Bool.false_eq_true, if_false]

theorem State.finishReading_fetch (hk : l.kind = .fetch) (c : Chan) (x : LineRec) :
    s.finishReading c l x = s.finishFetch g c l x := by
  simp only [State.finishReading, hr, ho, hk, Bool.false_eq_true, if_false]

theorem State.finishReading_write {p : Purpose} (hk : l.kind = .write p) (c : Chan) (x : LineRec) :
    s.finishReading c l x = s := by
  simp only [State.finishReading, hr, ho, hk, Bool.false_eq_true, if_false]

end

/-- A copy's FETCH with no degrade due gives the COPY WRITE what it will store (R148). -/
theorem State.finishReading_copy {s : State} {n : InternalNo} {l : Leg} {c : Chan}
    (hr : s.table.restarting = false) (ho : l.owner = .internal n)
    (hh : s.mir.health c.other ≠ .inService) (x : LineRec) :
    s.finishReading c l x = s.unblock (.internal n) .copy (copyStore x) := by
  simp only [State.finishReading, hr, ho, Bool.false_eq_true, if_false, State.finishCopyFetch]
  cases x with
  | broken => rw [State.autoDegrade_eq_self (.inr hh)]
  | unset | intact | flawed | poisoned => rfl

/-! ### What recording an outcome leaves alone -/

/-- The outcome of an access of entry `e` of tag `g` on channel `c`: the entry keeps its request and its DONE
legs, and the data path, the access of bank `b`, the drain flag and the records beside the table stay. -/
structure Recorded (s t : State) (g : Tag) (e : Entry) (c : Chan) (b : BankNo) : Prop where
  host : ∃ e', t.host g = some e' ∧ e'.req = e.req ∧ e'.done = e.done
  path : (t.ch c).ctl.pathBusy = (s.ch c).ctl.pathBusy
  bank : ((t.ch c).ctl.bank b).sansIdle = ((s.ch c).ctl.bank b).sansIdle
  restarting : t.table.restarting = s.table.restarting
  sides : t.sides = s.sides

theorem Recorded.refl {s : State} {g : Tag} {e : Entry} (h : s.host g = some e) (c : Chan) (b : BankNo) :
    Recorded s s g e c b := ⟨⟨e, h, rfl, rfl⟩, rfl, rfl, rfl, rfl⟩

theorem Recorded.trans {s t u : State} {g : Tag} {e e' : Entry} {c : Chan} {b : BankNo}
    (h : Recorded s t g e c b) (he : t.host g = some e') (h' : Recorded t u g e' c b) :
    Recorded s u g e c b := by
  obtain ⟨x, hx, hreq, hdone⟩ := h.host
  obtain ⟨y, hy, hreq', hdone'⟩ := h'.host
  cases he.symm.trans hx
  exact ⟨⟨y, hy, hreq'.trans hreq, hdone'.trans hdone⟩, h'.path.trans h.path, h'.bank.trans h.bank,
    h'.restarting.trans h.restarting, h'.sides.trans h.sides⟩

/-- An entry whose status, data and served channel are recorded. -/
theorem recorded_modHost {s : State} {g : Tag} {e : Entry} (h : s.host g = some e) {f : Entry → Entry}
    (hreq : (f e).req = e.req) (hdone : (f e).done = e.done) (c : Chan) (b : BankNo) :
    Recorded s (s.modHost g f) g e c b :=
  ⟨⟨f e, State.host_modHost_self h f, hreq, hdone⟩, by rw [State.ch_modHost], by rw [State.ch_modHost], rfl,
    State.modHost_sides _ _ _⟩

theorem State.sansIdle_placeLeg (s : State) (c : Chan) (l : Leg) (b : BankNo) :
    (((s.placeLeg c l).ch c).ctl.bank b).sansIdle = ((s.ch c).ctl.bank b).sansIdle := by
  rw [State.bank_placeLeg]
  split <;> rfl

theorem State.pathBusy_placeLeg (s : State) (c : Chan) (l : Leg) :
    ((s.placeLeg c l).ch c).ctl.pathBusy = (s.ch c).ctl.pathBusy := by
  rw [Control.pathBusy_of_still (s.still_placeLeg c l), Control.pathBusy_withQueue]
  unfold Control.stopIdleClose
  split <;> rfl

theorem State.TableAborts.restarting {s t : State} {c : Chan} (h : s.TableAborts t c) :
    t.table.restarting = s.table.restarting := by
  rcases h with h | ⟨p, -, h⟩
  · rw [h]
  · rw [h, (State.table_answer s _ _).2.2]

/-- A WRITEBACK leg that joins. -/
theorem recorded_writeback {s : State} {g : Tag} {e : Entry} (h : s.host g = some e) (c : Chan) (b : BankNo)
    (l : Leg) : Recorded s ((s.countLeg g).placeLeg c l) g e c b := by
  have haborts := (s.countLeg g).tableAborts_placeLeg c l
  obtain ⟨x, y, hu⟩ := haborts.host (State.host_countLeg h)
  refine ⟨⟨_, hu, rfl, rfl⟩, ?_, ?_, haborts.restarting, ?_⟩
  · rw [State.pathBusy_placeLeg, State.ch_countLeg]
  · rw [State.sansIdle_placeLeg, State.ch_countLeg]
  · rw [State.placeLeg_sides]
    exact State.modHost_sides _ _ _

theorem recorded_unblock {s : State} {g : Tag} {e : Entry} (h : s.host g = some e) (c : Chan) (b : BankNo)
    (o : Owner) (p : Purpose) (st : Store) : Recorded s (s.unblock o p st) g e c b := by
  obtain ⟨-, hbanks, hpath⟩ := Control.unblock_frame (s.ch c).ctl o p st
  refine ⟨⟨e, (State.host_of_table (s.table_unblock o p st) g).trans h, rfl, rfl⟩, ?_, ?_, ?_, ?_⟩
  · rw [State.ctl_unblock, hpath]
  · rw [State.ctl_unblock, Control.bank, Control.bank, hbanks]
  · rw [State.table_unblock]
  · exact State.unblock_sides _ _ _ _

/-- The WRITEBACK of a FLAWED line (R12). -/
theorem State.addWriteback_flawed {s : State} {g : Tag} {e : Entry} (h : s.host g = some e) {c : Chan}
    (hw : s.conf.writeback = true) (hh : s.mir.health c = .inService) (loc : Loc) (d : Bytes 64) :
    s.addWriteback g c loc (.flawed d) =
      (s.countLeg g).placeLeg c (e.nextLeg g (.write .writeback) .line loc .waiting (.line d) false) := by
  simp only [State.addWriteback, hw, hh, and_self, if_true]
  exact State.addLeg_write h _ _ _ _ _ _ _

/-- No WRITEBACK without a FLAWED line or with WRITEBACK OFF (R12). -/
theorem State.addWriteback_none {s : State} {x : LineRec}
    (h : ¬((∃ d, x = .flawed d) ∧ s.conf.writeback = true)) (g : Tag) (c : Chan) (loc : Loc) :
    s.addWriteback g c loc x = s := by
  cases x with
  | flawed d =>
    have hw : ¬(s.conf.writeback = true ∧ s.mir.health c = .inService) := fun hw => h ⟨⟨d, rfl⟩, hw.1⟩
    simp only [State.addWriteback, if_neg hw]
  | unset | intact | broken | poisoned => rfl

/-! ### A host entry's READ and FETCH in SPLIT mode -/

/-- An entry as a READ that found `x` leaves it (R10). -/
def Entry.afterRead (e : Entry) (c : Chan) (x : LineRec) : Entry :=
  { e with status := some x.readStatus, data := e.readData? x, served := some c }

theorem State.host_recordRead {s : State} {g : Tag} {e : Entry} (h : s.host g = some e) (c : Chan) (x : LineRec) :
    (s.recordRead g c x.readStatus x).host g = some (e.afterRead c x) := State.host_modHost_self h _

/-- A recorded status is the one that the judged entry keeps (R30). -/
theorem State.host_judgeOwner_recorded {s : State} {g : Tag} {e : Entry} {st : Status}
    (hr : s.table.restarting = false) (h : s.host g = some e) (hs : e.status = some st) :
    ∃ y, (s.judgeOwner (.host g)).host g = some { e with state := y } := by
  rw [State.judgeOwner_host hr, State.judgeEntry]
  split
  · rw [h, Option.bind_some, hs, State.answer_of_host h]
    refine ⟨.answered, ?_⟩
    rw [State.host_pushItem, State.host_setHost_self, Option.getD_some]
  · exact ⟨e.state, h⟩

/-- What a READ without a WRITEBACK makes of its entry and of the answer queue (R10, R28, R30). -/
theorem readCompletes_plain {s : State} {g : Tag} {e : Entry} {c : Chan} {b : BankNo} {x : LineRec}
    (hr : s.table.restarting = false) (h : s.host g = some e) :
    let u := (s.recordRead g c x.readStatus x).closeAccess (.host g) c b
    (∃ y, u.host g = some { e.afterRead c x with state := y }) ∧
      (∀ d, (u.ch d).ctl.queue = (s.ch d).ctl.queue) ∧
      (isMemoryReq e.req = true → e.state = .active → e.done ≠ [] → s.NoLegs (.host g) →
        u.host g = some { e.afterRead c x with state := .answered } ∧
        u.table.answers =
          s.table.answers ++
            [.answer { kind := reqCode e.req, tag := g, status := x.readStatus,
                       extra := (e.afterRead c x).extra x.readStatus }]) := by
  intro u
  have hhost := State.host_recordRead h c x
  have hch (d : Chan) : (s.recordRead g c x.readStatus x).ch d = s.ch d := State.ch_modHost _ _ _ _
  refine ⟨?_, fun d => ?_, fun hm ha hd hn => ?_⟩
  · rw [State.host_closeAccess]
    exact State.host_judgeOwner_recorded (s := s.recordRead g c x.readStatus x) hr hhost rfl
  · rw [State.queue_closeAccess, hch]
  · have done := State.answers_judgeOwner_complete (s := s.recordRead g c x.readStatus x) hr hhost hm ha hd
      (by simpa only [State.NoLegs, hch] using hn)
    rw [State.host_closeAccess, State.table_closeAccess]
    exact done

/-- What a READ with a WRITEBACK makes of its entry: the leg keeps it waiting (R12). -/
theorem readCompletes_writeback {s : State} {g : Tag} {e : Entry} {c : Chan} {b : BankNo} {x : LineRec} {l : Leg}
    (hr : s.table.restarting = false) (h : s.host g = some e) (ho : l.owner = .host g)
    (hp : ∀ p, (s.ch c).pwr.pendingPower = some p → p.tag ≠ g) :
    let u := (((s.recordRead g c x.readStatus x).countLeg g).placeLeg c l).closeAccess (.host g) c b
    u.host g = some { e.afterRead c x with legsMade := e.legsMade + 1 } ∧
      (u.ch c).ctl.queue = insertLeg l (s.ch c).ctl.queue := by
  intro u
  let t := (s.recordRead g c x.readStatus x).countLeg g
  have hch (d : Chan) : t.ch d = s.ch d := (State.ch_countLeg _ _ _).trans (State.ch_modHost _ _ _ _)
  have hhost : t.host g = some { e.afterRead c x with legsMade := e.legsMade + 1 } :=
    State.host_countLeg (State.host_recordRead h c x)
  have haborts := t.tableAborts_placeLeg c l
  have hqueue : ((t.placeLeg c l).ch c).ctl.queue = insertLeg l (s.ch c).ctl.queue := by
    rw [State.queue_placeLeg, hch]
  have waits : ∃ d, ∃ w ∈ ((t.placeLeg c l).ch d).ctl.queue, w.owner = .host g :=
    ⟨c, l, by rw [hqueue]; exact mem_insertLeg.mpr (.inl rfl), ho⟩
  refine ⟨?_, ?_⟩
  · rw [State.host_closeAccess, State.judgeOwner_host (haborts.restarting.trans hr),
      State.judgeEntry_waits waits, haborts.host_eq (by rwa [hch]), hhost]
  · rw [State.queue_closeAccess, hqueue]

/-- What a FETCH makes of its entry and of the queues while a WRITE of the entry waits for it (R15). -/
theorem fetchCompletes {s : State} {g : Tag} {e : Entry} {c : Chan} {b : BankNo} {x : LineRec}
    (hr : s.table.restarting = false) (h : s.host g = some e)
    (hw : ∃ d, ∃ w ∈ (s.ch d).ctl.queue, w.owner = .host g) :
    let u := (s.settleFetch g x.fetchStatus x).closeAccess (.host g) c b
    u.host g = some { e with status := some x.fetchStatus } ∧ u.table.answers = s.table.answers ∧
      ∀ d, (u.ch d).ctl.queue = (s.ch d).ctl.queue.map (Leg.unblocked (.host g) .host (e.mergeStore x)) := by
  intro u
  let t := (s.unblock (.host g) .host (e.mergeStore x)).modHost g fun e => { e with status := some x.fetchStatus }
  have ht : s.settleFetch g x.fetchStatus x = t := by
    simp only [State.settleFetch, h]
    rfl
  have hhost : t.host g = some { e with status := some x.fetchStatus } :=
    State.host_modHost_self ((State.host_of_table (s.table_unblock _ _ _) g).trans h) _
  have hch (d : Chan) : t.ch d = (s.unblock (.host g) .host (e.mergeStore x)).ch d := State.ch_modHost _ _ _ _
  have hrt : t.table.restarting = false := hr
  have waits : ∃ d, ∃ w ∈ (t.ch d).ctl.queue, w.owner = .host g := by
    simp only [hch]
    exact (State.exists_leg_unblock _ _ _ _ _).mpr hw
  have judged : t.judgeOwner (.host g) = t := by rw [State.judgeOwner_host hrt, State.judgeEntry_waits waits]
  have hu : u = t.closeAccess (.host g) c b := by rw [← ht]
  rw [hu]
  refine ⟨?_, ?_, fun d => ?_⟩
  · rw [State.host_closeAccess, judged, hhost]
  · rw [State.table_closeAccess, judged]
    rfl
  · rw [State.queue_closeAccess, hch, State.queue_unblock]

/-- What every host access leaves, whatever leg it was of (R52). -/
theorem recorded_finishReading {s : State} {g : Tag} {e : Entry} {l : Leg} (hr : s.table.restarting = false)
    (hm : s.mir.mode = .split) (hrec : l.recovery = false) (ho : l.owner = .host g) (h : s.host g = some e)
    (c : Chan) (b : BankNo) (x : LineRec) : Recorded s (s.finishReading c l x) g e c b := by
  cases hk : l.kind with
  | read =>
    rw [State.finishReading_read hr ho hk, State.finishRead_split hm hrec]
    have hread := recorded_modHost h (f := fun e => e.afterRead c x) rfl rfl c b
    have hhost := State.host_recordRead h c x
    by_cases hw : (∃ d, x = .flawed d) ∧ s.conf.writeback = true ∧ s.mir.health c = .inService
    · obtain ⟨⟨d, rfl⟩, hconf, hhealth⟩ := hw
      have leg := recorded_writeback hhost c b
        ((e.afterRead c (.flawed d)).nextLeg g (.write .writeback) .line l.loc .waiting (.line d) false)
      rw [State.addWriteback_flawed hhost hconf hhealth]
      exact hread.trans hhost leg
    · have same : (s.recordRead g c x.readStatus x).addWriteback g c l.loc x = s.recordRead g c x.readStatus x := by
        cases x with
        | flawed d => exact if_neg fun hw' => hw ⟨⟨d, rfl⟩, hw'⟩
        | unset | intact | broken | poisoned => rfl
      rw [same]
      exact hread
  | fetch =>
    rw [State.finishReading_fetch hr ho hk, State.finishFetch_split hm hrec]
    simp only [State.settleFetch, h]
    have hhost : (s.unblock (.host g) .host (e.mergeStore x)).host g = some e :=
      (State.host_of_table (s.table_unblock _ _ _) g).trans h
    exact (recorded_unblock h c b _ _ _).trans hhost (recorded_modHost hhost rfl rfl c b)
  | write p =>
    rw [State.finishReading_write hr ho hk]
    exact Recorded.refl h c b

/-! ### The outcomes of a completed READ or FETCH -/

/-- `N` is `r` with the access ended, its leg gone and the condition `x` noted: all that the outcomes below
use of it. -/
structure Noted (r N : State) (c : Chan) (b : BankNo) (l : Leg) (x : LineRec) : Prop where
  queue : ∀ d, (N.ch d).ctl.queue = if d = c then eraseLeg l.id (r.ch d).ctl.queue else (r.ch d).ctl.queue
  path : (N.ch c).ctl.pathBusy = false
  access : ((N.ch c).ctl.bank b).access = none
  pending : ∀ d, (N.ch d).pwr.pendingPower = (r.ch d).pwr.pendingPower
  answers : N.table.answers = r.table.answers
  restarting : N.table.restarting = r.table.restarting
  mir : N.mir = r.mir.countedFor c x
  notices : N.notices = r.noticesFor c l.loc x
  conf : N.conf = r.conf
  mem : N.mem = r.mem
  host : ∀ {g e}, l.owner = .host g → r.host g = some e →
    N.host g = some { e with done := e.done ++ [{ l with state := .done }] }
  internal : ∀ {n e}, l.owner = .internal n → r.internal n = some e →
    N.internal n = some { e with done := e.done ++ [{ l with state := .done }] }

theorem State.noted_noted (r : State) (c : Chan) (b : BankNo) (l : Leg) :
    Noted r (r.noted c b l) c b l (r.mem.read c l.loc.line) where
  queue d := r.queue_noted c d b l
  path := (r.access_noted c b l).1
  access := (r.access_noted c b l).2
  pending d := r.pendingPower_noted c d b l
  answers := (r.table_noted c b l).1
  restarting := (r.table_noted c b l).2
  mir := (r.sides_noted c b l).1
  notices := (r.sides_noted c b l).2.1
  conf := (r.sides_noted c b l).2.2
  mem := r.mem_noted c b l
  host ho he := State.host_noted ho he c b
  internal ho he := State.internal_noted ho he c b

section
variable {r N : State} {c : Chan} {b : BankNo} {l : Leg} {x : LineRec}

theorem Noted.queue_self (hN : Noted r N c b l x) : (N.ch c).ctl.queue = eraseLeg l.id (r.ch c).ctl.queue :=
  (hN.queue c).trans (if_pos rfl)

theorem Noted.queue_other (hN : Noted r N c b l x) : (N.ch c.other).ctl.queue = (r.ch c.other).ctl.queue :=
  (hN.queue c.other).trans (if_neg (Chan.other_ne c))

/-- With no leg of the owner but the one that leaves, none is left. -/
theorem Noted.noLegs (hN : Noted r N c b l x) {o : Owner}
    (h : ∀ w ∈ (r.ch c).ctl.queue, w.owner = o → w.id = l.id)
    (h' : ∀ w ∈ (r.ch c.other).ctl.queue, w.owner ≠ o) : N.NoLegs o := by
  intro d w hw ho
  rcases Chan.eq_or_other c d with rfl | rfl
  · rw [hN.queue_self, mem_eraseLeg] at hw
    exact hw.2 (h w hw.1 ho)
  · rw [hN.queue_other] at hw
    exact h' w hw ho

/-- Another leg of the owner than the one that leaves stays in its queue. -/
theorem Noted.hasLeg (hN : Noted r N c b l x) {o : Owner}
    (h : ∃ d, ∃ w ∈ (r.ch d).ctl.queue, w.owner = o ∧ w.id ≠ l.id) :
    ∃ d, ∃ w ∈ (N.ch d).ctl.queue, w.owner = o := by
  obtain ⟨d, w, hw, ho, hne⟩ := h
  refine ⟨d, w, ?_, ho⟩
  rw [hN.queue]
  split
  · exact mem_eraseLeg.mpr ⟨hw, hne⟩
  · exact hw

/-- What the completed access of a host entry leaves in SPLIT mode, of whatever kind its leg is (R9, R52). -/
theorem Noted.completes_host (hN : Noted r N c b l x) {g : Tag} {e : Entry} (ho : l.owner = .host g)
    (he : r.host g = some e) (hrec : l.recovery = false) (hr : r.table.restarting = false)
    (hm : r.mir.mode = .split) :
    let u := (N.finishReading c l x).closeAccess (.host g) c b
    (∃ e', u.host g = some e' ∧ e'.req = e.req ∧ e'.done = e.done ++ [{ l with state := .done }]) ∧
      u.mem = r.mem ∧ (u.ch c).ctl.pathBusy = false ∧ (u.bank c b).access = none ∧ (u.ch c).ctl.due = true ∧
      u.notices = r.noticesFor c l.loc x ∧ u.mir = r.mir.countedFor c x := by
  intro u
  have hmode : N.mir.mode = .split := by rw [hN.mir, (Mirror.frame_countedFor _ _ _).1, hm]
  have kept := recorded_finishReading (hN.restarting.trans hr) hmode hrec ho (hN.host ho he) c b x
  obtain ⟨e1, he1, hreq, hdone⟩ := kept.host
  obtain ⟨y, z, hu⟩ := State.host_judgeOwner (kept.restarting.trans (hN.restarting.trans hr)) he1
  obtain ⟨hmir, hnotices⟩ := (N.finishReading c l x).closeAccess_host_sides g c b
  obtain ⟨hmir', hnotices', -⟩ := State.sides_fields kept.sides
  obtain ⟨-, -, -, haccess, -⟩ := Bank.fields_of_sansIdle
    (((N.finishReading c l x).sansIdle_closeAccess (.host g) c c b b).trans kept.bank)
  refine ⟨⟨_, (State.host_closeAccess _ _ _ _ _).trans hu, hreq, hdone⟩, ?_, ?_, haccess.trans hN.access,
    State.due_closeAccess _ _ _ _, hnotices.trans (hnotices'.trans hN.notices),
    hmir.trans (hmir'.trans hN.mir)⟩
  · rw [State.mem_closeAccess, State.mem_of_outer (State.finishReading_outer _ _ _ _), hN.mem]
  · rw [State.pathBusy_closeAccess, kept.path, hN.path]

/-- The data that an RD records of what its READ found (R10). -/
theorem readData?_rd {e : Entry} {z : Size} {a : Word32} (h : e.req = .rd z a) (x : LineRec) :
    e.readData? x =
      match x with
      | .intact d | .flawed d => some (readData z ((e.decoded.map (·.second)).getD false) d)
      | _ => none := by
  cases x <;> simp [Entry.readData?, h, LineRec.data?]

/-- Only a status that carries data comes with some (R184). -/
theorem afterRead_extra {e : Entry} {z : Size} {a : Word32} (h : e.req = .rd z a) (c : Chan) (x : LineRec) :
    (e.afterRead c x).extra x.readStatus = .read (some c) (e.readData? x) := by
  cases x <;> simp [Entry.extra, Entry.afterRead, h, LineRec.readStatus, Status.carriesData, Entry.readData?,
    LineRec.data?]

/-- The entry of a completed READ in SPLIT mode, its WRITEBACK and its answer (R10, R12, R28, R30). -/
theorem Noted.completes_read (hN : Noted r N c b l x) {g : Tag} {e e' : Entry} {z : Size} {a : Word32}
    (hl : l ∈ (r.ch c).ctl.queue) (ho : l.owner = .host g) (he : r.host g = some e) (hrec : l.recovery = false)
    (hr : r.table.restarting = false) (hm : r.mir.mode = .split) (hok : r.mir.ok) (ht : r.tagsOk = true)
    (hk : l.kind = .read) (hq : e.req = .rd z a) :
    let u := (N.finishReading c l x).closeAccess (.host g) c b
    let q := (r.ch c).ctl.queue
    u.host g = some e' →
    e'.status = some x.readStatus ∧ e'.data = e.readData? x ∧ e'.served = some c ∧
      (u.ch c).ctl.queue =
        (match (generalizing := false) x with
         | .flawed d =>
           if r.conf.writeback = true then
             insertLeg
               { owner := .host g, no := e.legsMade, age := e.age, kind := .write .writeback, size := .line,
                 loc := l.loc, state := .waiting, store := .line d, recovery := false }
               (eraseLeg l.id q)
           else eraseLeg l.id q
         | _ => eraseLeg l.id q) ∧
      (¬((∃ d, x = .flawed d) ∧ r.conf.writeback = true) →
        (∀ w ∈ q, w.owner = .host g → w.id = l.id) →
        (∀ w ∈ (r.ch c.other).ctl.queue, w.owner ≠ .host g) →
        e'.state = .answered ∧
        u.table.answers =
          r.table.answers ++
            [.answer { kind := 1, tag := g, status := x.readStatus,
                       extra := .read (some c) (e.readData? x) }]) := by
  intro u q hu
  have hr' := hN.restarting.trans hr
  have hmode : N.mir.mode = .split := by rw [hN.mir, (Mirror.frame_countedFor _ _ _).1, hm]
  have hhealth : N.mir.health c = .inService := by
    rw [hN.mir, (Mirror.frame_countedFor _ _ _).2.1]
    obtain ⟨hA, hB, -⟩ := hok.1 hm
    cases c
    · exact hA
    · exact hB
  obtain ⟨hactive, hmemory⟩ := State.active_of_leg ht hl ho he
  have fresh : ∀ p, (N.ch c).pwr.pendingPower = some p → p.tag ≠ g := by
    rw [hN.pending]
    refine State.pending_ne ht (fun e₂ he₂ _ => ?_) c
    cases he.symm.trans he₂
    simp [hq, reqCode]
  have hF : N.finishReading c l x = (N.recordRead g c x.readStatus x).addWriteback g c l.loc x := by
    rw [State.finishReading_read hr' ho hk, State.finishRead_split hmode hrec]
  by_cases hw : (∃ d, x = .flawed d) ∧ r.conf.writeback = true
  · obtain ⟨⟨d, rfl⟩, hconf⟩ := hw
    have hF' := hF.trans (State.addWriteback_flawed (State.host_recordRead (hN.host ho he) c (.flawed d))
      (c := c) ((congrArg Settings.writeback hN.conf).trans hconf) hhealth l.loc d)
    obtain ⟨hhost, hqueue⟩ := readCompletes_writeback (b := b) (x := .flawed d) hr' (hN.host ho he)
      (l := ((_ : Entry).afterRead c (.flawed d)).nextLeg g (.write .writeback) .line l.loc .waiting (.line d) false)
      rfl fresh
    rw [← hF'] at hhost hqueue
    obtain rfl := Option.some.inj (hu.symm.trans hhost)
    refine ⟨rfl, rfl, rfl, ?_, fun h => absurd ⟨⟨d, rfl⟩, hconf⟩ h⟩
    rw [hqueue, hN.queue_self]
    simp only [hconf, if_true]
    rfl
  · have hF' := hF.trans (State.addWriteback_none (s := N.recordRead g c x.readStatus x)
      (fun h => hw ⟨h.1, (congrArg Settings.writeback hN.conf).symm.trans h.2⟩) g c l.loc)
    obtain ⟨⟨y, hhost⟩, hqueue, hdone⟩ := readCompletes_plain (c := c) (b := b) (x := x) hr' (hN.host ho he)
    rw [← hF'] at hhost hqueue hdone
    have he' := Option.some.inj (hu.symm.trans hhost)
    refine ⟨by rw [he']; rfl, by rw [he']; rfl, by rw [he']; rfl, ?_, fun _ hown hother => ?_⟩
    · rw [hqueue, hN.queue_self]
      cases x with
      | flawed d => exact (if_neg fun h => hw ⟨⟨d, rfl⟩, h⟩).symm
      | unset | intact | broken | poisoned => rfl
    · obtain ⟨hstate, hanswers⟩ := hdone hmemory hactive (by simp) (hN.noLegs hown hother)
      rw [Option.some.inj (hu.symm.trans hstate)]
      have kind : reqCode e.req = 1 := by rw [hq]; rfl
      refine ⟨rfl, ?_⟩
      rw [hanswers, hN.answers,
        afterRead_extra (e := { e with done := e.done ++ [{ l with state := .done }] }) hq c x]
      simp only [kind]
      rfl

/-- The entry of a completed FETCH in SPLIT mode and its WRITE legs (R15, R135). -/
theorem Noted.completes_fetch (hN : Noted r N c b l x) {g : Tag} {e e' : Entry} {z : Size}
    {fm : Option (BitVec 64)} {a : Word32} {data : Bytes 64} (hl : l ∈ (r.ch c).ctl.queue)
    (ho : l.owner = .host g) (he : r.host g = some e) (hrec : l.recovery = false)
    (hr : r.table.restarting = false) (hm : r.mir.mode = .split) (ht : r.tagsOk = true) (hk : l.kind = .fetch)
    (hq : e.req = .wr z fm a data)
    (hw : ∃ d, ∃ w ∈ (r.ch d).ctl.queue, w.isBlockedWrite (.host g) .host = true ∧ w.id ≠ l.id) :
    let u := (N.finishReading c l x).closeAccess (.host g) c b
    u.host g = some e' →
    e'.state = .active ∧ u.table.answers = r.table.answers ∧ e'.status = some x.fetchStatus ∧
      ∀ d, (u.ch d).ctl.queue =
        (N.ch d).ctl.queue.map (Leg.unblocked (.host g) .host
          (mergeStore z ((e.decoded.map (·.second)).getD false) fm data x)) := by
  intro u hu
  have hr' := hN.restarting.trans hr
  have hmode : N.mir.mode = .split := by rw [hN.mir, (Mirror.frame_countedFor _ _ _).1, hm]
  have more : ∃ d, ∃ w ∈ (N.ch d).ctl.queue, w.owner = .host g := by
    obtain ⟨d, w, hmem, hblocked, hne⟩ := hw
    simp only [Leg.isBlockedWrite, Bool.and_eq_true, beq_iff_eq] at hblocked
    obtain ⟨⟨howner, -⟩, -⟩ := hblocked
    exact hN.hasLeg ⟨d, w, hmem, howner, hne⟩
  have hF : N.finishReading c l x = N.settleFetch g x.fetchStatus x := by
    rw [State.finishReading_fetch hr' ho hk, State.finishFetch_split hmode hrec]
  obtain ⟨hhost, hanswers, hqueue⟩ := fetchCompletes (c := c) (b := b) (x := x) hr' (hN.host ho he) more
  rw [← hF] at hhost hanswers hqueue
  obtain rfl := Option.some.inj (hu.symm.trans hhost)
  refine ⟨(State.active_of_leg ht hl ho he).1, hanswers.trans hN.answers, rfl, fun d => (hqueue d).trans ?_⟩
  simp only [Entry.mergeStore, hq]

/-- The entry of a READ or FETCH that completes while a RESTART drains (R39). -/
theorem Noted.completes_draining (hN : Noted r N c b l x) {g : Tag} {e : Entry} (ho : l.owner = .host g)
    (he : r.host g = some e) (hr : r.table.restarting = true) :
    let u := (N.finishReading c l x).closeAccess (.host g) c b
    u.mem = r.mem ∧ u.mir = r.mir.countedFor c x ∧ u.notices = r.noticesFor c l.loc x ∧
      u.table.answers = r.table.answers ∧ (∀ d, (u.ch d).ctl.queue = (N.ch d).ctl.queue) ∧
      (N.NoLegs (.host g) → u.host g = none) ∧
      ((∃ d, ∃ w ∈ (N.ch d).ctl.queue, w.owner = .host g) →
        u.host g = some { e with done := e.done ++ [{ l with state := .done }] }) := by
  intro u
  have hr' := hN.restarting.trans hr
  have hu : u = N.closeAccess (.host g) c b :=
    congrArg (fun v : State => v.closeAccess (.host g) c b) (State.finishReading_draining hr' c l x)
  obtain ⟨hmir, hnotices⟩ := N.closeAccess_host_sides g c b
  obtain ⟨hanswers, hgone, hmore⟩ := State.closeAccess_draining hr' g c b
  rw [hu]
  exact ⟨(State.mem_closeAccess _ _ _ _).trans hN.mem, hmir.trans hN.mir, hnotices.trans hN.notices,
    hanswers.trans hN.answers, fun d => State.queue_closeAccess _ _ _ _ _, hgone,
    fun h => (hmore h).trans (hN.host ho he)⟩

/-- The internal entry of a copy's access, once its outcome `t` is there: it waits for a leg that is left, and
is released without one (R37, R148, R151). -/
theorem Noted.completes_copy (hN : Noted r N c b l x) {t : State} {n : InternalNo} {e : CopyEntry}
    (ho : l.owner = .internal n) (he : r.internal n = some e) (hs : t.sides = N.sides) (htable : t.table = N.table)
    (hmem : t.mem = N.mem) :
    let u := t.closeAccess (.internal n) c b
    u.mem = r.mem ∧ u.table.answers = r.table.answers ∧ (∀ d, (u.ch d).ctl.queue = (t.ch d).ctl.queue) ∧
      ((∃ d, ∃ w ∈ (t.ch d).ctl.queue, w.owner = .internal n) →
        u.mir = r.mir.countedFor c x ∧ u.notices = r.noticesFor c l.loc x ∧
          u.internal n = some { e with done := e.done ++ [{ l with state := .done }] }) ∧
      (t.NoLegs (.internal n) → u.internal n = none ∧
        ((∀ y, r.mir.rebuild = some y → ∀ p ∈ y.copies, p.1 ≠ n) →
          u.mir = r.mir.countedFor c x ∧ u.notices = r.noticesFor c l.loc x)) := by
  intro u
  obtain ⟨hmir, hnotices, -⟩ := State.sides_fields hs
  have hmir' := hmir.trans hN.mir
  have hnotices' := hnotices.trans hN.notices
  refine ⟨(State.mem_closeAccess _ _ _ _).trans (hmem.trans hN.mem), ?_,
    fun d => State.queue_closeAccess _ _ _ _ _, fun hmore => ?_, fun hn => ⟨?_, fun hc => ?_⟩⟩
  · rw [State.answers_closeAccess_internal, htable, hN.answers]
  · obtain ⟨hu, hun, hkept⟩ := State.closeAccess_internal_more hmore c b
    exact ⟨hu.trans hmir', hun.trans hnotices',
      hkept.trans ((State.internal_of_table htable n).trans (hN.internal ho he))⟩
  · exact (State.closeAccess_internal_gone hn c b).1
  · have hrebuild : t.mir.rebuild = r.mir.rebuild := by rw [hmir', (Mirror.frame_countedFor _ _ _).2.2]
    obtain ⟨hu, hun⟩ := State.closeAccess_internal_leftover hn (by rwa [hrebuild]) c b
    exact ⟨hu.trans hmir', hun.trans hnotices'⟩

end

/-! ### Halves (R5, R10) -/

theorem halfOf_get (second : Bool) (d : Bytes 64) {k : Nat} (hk : k < 32) :
    (halfOf second d)[k]? = d[if second = true then 32 + k else k]? := by
  cases second
  · simp [halfOf, hk, show k < 64 by omega]
  · simp [halfOf, hk, show 32 + k < 64 by omega]

/-- Settles O53: the state with the condition noted is the same in every case; a host entry then takes its
outcome, a draining one only loses its leg, and a copy's WRITE gets what it will store. -/
theorem readAccessCompletes : Obligations.ReadAccessCompletes := by
  refine ⟨fun s c b m l g e => ?_, fun second d => ⟨rfl, halfOf second d, rfl, fun k hk => halfOf_get second d hk⟩,
    fun s c b m l => ?_⟩
  · intro r q x post hx hl ho he hrec hr hsplit hok ht
    have hexec := exec_readAccessComplete hx hl
    have hmem := State.mem_of_accessLeg hl
    have hN : Noted r (r.noted c b l) c b l x := r.noted_noted c b l
    rw [ho] at hexec
    obtain ⟨⟨e', hu, hreq, hdone⟩, hm, hpath, haccess, hdue, hnotices, hmir⟩ :=
      hN.completes_host ho he hrec hr hsplit
    refine ⟨_, e', hexec, hu, hm, hpath, haccess, hdue, hnotices.trans ?_, hmir, hreq, hdone,
      fun z a hk hq => ?_, fun z fm a data hk hq hw => ?_⟩
    · unfold State.noticesFor
      rw [hsplit] <;> rfl
    · have hread := hN.completes_read hmem ho he hrec hr hsplit hok ht hk hq hu
      rw [readData?_rd hq] at hread
      exact hread
    · obtain ⟨hstate, hanswers, hstatus, hqueue⟩ :=
        hN.completes_fetch hmem ho he hrec hr hsplit ht hk hq hw hu
      refine ⟨hstate, hanswers, hstatus.trans ?_, fun d => ?_⟩
      · cases x <;> rfl
      · rw [hqueue, hN.queue]
        split
        · subst d
          rfl
        · rfl
  · intro r q x post counted noticed hx hl _
    have hexec := exec_readAccessComplete hx hl
    have hN : Noted r (r.noted c b l) c b l x := r.noted_noted c b l
    have hq (d : Chan) : ((r.noted c b l).ch d).ctl.queue = q d := hN.queue d
    refine ⟨fun hr g e ho he => ?_, fun hr n e ho he => ?_, fun hr hh _ n e ho hk he => ?_⟩
    · rw [ho] at hexec
      obtain ⟨hm, hmir, hnotices, hanswers, hqueue, hgone, hmore⟩ := hN.completes_draining ho he hr
      simp only [State.NoLegs, hq] at hqueue hgone hmore
      exact ⟨_, hexec, hm, hmir, hnotices, hanswers, hqueue, hgone, hmore⟩
    · rw [ho, State.finishReading_draining (hN.restarting.trans hr)] at hexec
      obtain ⟨hm, hanswers, hqueue, hmore, hgone⟩ := hN.completes_copy ho he rfl rfl rfl
      simp only [State.NoLegs, hq] at hqueue hmore hgone
      exact ⟨_, hexec, hm, hanswers, hqueue, hmore, hgone⟩
    · have hhealth : (r.noted c b l).mir.health c.other ≠ .inService := by
        rwa [hN.mir, (Mirror.frame_countedFor _ _ _).2.1]
      rw [ho, State.finishReading_copy (hN.restarting.trans hr) ho hhealth] at hexec
      obtain ⟨hm, hanswers, hqueue, hmore, hgone⟩ := hN.completes_copy ho he (State.unblock_sides _ _ _ _)
        (State.table_unblock _ (.internal n) .copy (copyStore x)) (State.mem_of_outer (State.unblock_outer _ _ _ _))
      rw [State.exists_leg_unblock] at hmore
      rw [State.noLegs_unblock] at hgone
      simp only [State.queue_unblock, State.NoLegs, hq] at hqueue hmore hgone
      exact ⟨_, hexec, hm, hanswers, hqueue, hmore, hgone⟩

end Sys2Proof.Machine
end

