-- ==== Sys2Proof/Proofs/S05Thermal.lean ====
section
/-! SUPPORT. O8, O9, O10: the zone of a reading, its fall with hysteresis, and the monitor's record after a
sample. -/

namespace Sys2Proof.Machine
open Sys2Proof

/-! ### The rising zone and the rise (R99) -/

/-- The four ranges of readings and the zone of each (R99). -/
theorem risingZone_cases (t : Int) :
    (t ≤ 84 ∧ risingZone t = .normal) ∨ (85 ≤ t ∧ t ≤ 104 ∧ risingZone t = .warm) ∨
      (105 ≤ t ∧ t ≤ 124 ∧ risingZone t = .hot) ∨ (125 ≤ t ∧ risingZone t = .critical) := by
  unfold risingZone
  split
  · simp; omega
  split
  · simp; omega
  split <;> simp <;> omega

theorem hysteresisZone_of_rise {z : Zone} {t : Int} (h : z.rank < (risingZone t).rank) :
    hysteresisZone z t = risingZone t := if_pos h

theorem hysteresisZone_of_fall {z : Zone} {t : Int} (h : (risingZone t).rank ≤ z.rank) :
    hysteresisZone z t = fallZone z t := if_neg (Nat.not_lt.mpr h)

/-! ### The fall (R100) -/

/-- The reading at or below which a zone is left downward (R100): NORMAL has none, so a value below every
reading stands for it. -/
def Zone.downLimit : Zone → Int
  | .critical => 121
  | .hot => 101
  | .warm => 81
  | .normal => -41

theorem fallZone_normal (t : Int) : fallZone .normal t = .normal := rfl

theorem fallZone_warm (t : Int) :
    fallZone .warm t = if t ≤ Zone.warm.downLimit then fallZone .normal t else .warm := rfl

theorem fallZone_hot (t : Int) :
    fallZone .hot t = if t ≤ Zone.hot.downLimit then fallZone .warm t else .hot := rfl

theorem fallZone_critical (t : Int) :
    fallZone .critical t = if t ≤ Zone.critical.downLimit then fallZone .hot t else .critical := rfl

/-- The fall from `z` at reading `t` ends in `w` (R100). -/
structure FallsTo (z : Zone) (t : Int) (w : Zone) : Prop where
  down : w.rank ≤ z.rank
  left : ∀ x : Zone, w.rank < x.rank → x.rank ≤ z.rank → t ≤ x.downLimit
  stops : w ≠ .normal → w.downLimit < t

theorem Zone.eq_of_rank_eq {x y : Zone} (h : x.rank = y.rank) : x = y := by
  cases x <;> cases y <;> first | rfl | cases h

/-- A zone whose limit the reading exceeds is not left. -/
theorem FallsTo.stay {z : Zone} {t : Int} (h : z ≠ .normal → z.downLimit < t) : FallsTo z t z where
  down := Nat.le_refl _
  left _ above below := absurd below (Nat.not_le.mpr above)
  stops := h

/-- A zone whose limit is met is left for the one a step below, and the fall goes on from there. -/
theorem FallsTo.leave {z below w : Zone} {t : Int} (step : z.rank = below.rank + 1) (met : t ≤ z.downLimit)
    (h : FallsTo below t w) : FallsTo z t w where
  down := by have := h.down; omega
  left x above hx := by
    rcases Nat.lt_or_ge below.rank x.rank with hlt | hle
    · rwa [Zone.eq_of_rank_eq (x := x) (y := z) (by omega)]
    · exact h.left x above hle
  stops := h.stops

/-- One turn of the fall: from `z`, or on from the zone a step below (R100). -/
theorem FallsTo.turn {z below w : Zone} {t : Int} (step : z.rank = below.rank + 1) (h : FallsTo below t w) :
    FallsTo z t (if t ≤ z.downLimit then w else z) := by
  split
  case isTrue met => exact h.leave step met
  case isFalse exceeds => exact .stay fun _ => by omega

theorem fallsTo_fallZone (z : Zone) (t : Int) : FallsTo z t (fallZone z t) := by
  have normal : FallsTo .normal t (fallZone .normal t) := .stay fun h => absurd rfl h
  have warm : FallsTo .warm t (fallZone .warm t) := fallZone_warm t ▸ normal.turn rfl
  have hot : FallsTo .hot t (fallZone .hot t) := fallZone_hot t ▸ warm.turn rfl
  cases z with
  | normal => exact normal
  | warm => exact warm
  | hot => exact hot
  | critical => exact fallZone_critical t ▸ hot.turn rfl

/-- Each downward limit lies below the rising threshold of the same zone (R100). -/
theorem downLimit_risingZone_lt {t : Int} (h : risingZone t ≠ .normal) : (risingZone t).downLimit < t := by
  rcases risingZone_cases t with ⟨_, hz⟩ | ⟨_, _, hz⟩ | ⟨_, _, hz⟩ | ⟨_, hz⟩
  · exact absurd hz h
  all_goals rw [hz]; simp only [Zone.downLimit]; omega

/-- A fall does not end below the rising zone: that zone's limit would have been met. -/
theorem FallsTo.risingZone_le {z w : Zone} {t : Int} (h : FallsTo z t w)
    (hz : (risingZone t).rank ≤ z.rank) : (risingZone t).rank ≤ w.rank := by
  refine Nat.le_of_not_lt fun above => ?_
  have met : t ≤ (risingZone t).downLimit := h.left (risingZone t) above hz
  have rises : risingZone t ≠ .normal := fun hn => Nat.not_lt_zero w.rank (by rwa [hn] at above)
  have exceeded : (risingZone t).downLimit < t := downLimit_risingZone_lt rises
  omega

/-- Settles O8: the ranges of the rising zone, and what hysteresis does to a rise and to a fall. -/
theorem zoneRises : Obligations.ZoneRises := by
  intro z t
  refine ⟨?_, hysteresisZone_of_rise, fun h => ?_⟩
  · rcases risingZone_cases t with ⟨_, hz⟩ | ⟨_, _, hz⟩ | ⟨_, _, hz⟩ | ⟨_, hz⟩ <;> rw [hz] <;> simp <;> omega
  · rw [hysteresisZone_of_fall h]
    exact (fallsTo_fallZone z t).down

/-- Settles O9: without a rise hysteresis is the fall, which goes zone by zone. -/
theorem zoneFalls : Obligations.ZoneFalls := by
  intro z t h limit w
  have falls : FallsTo z t (hysteresisZone z t) := (hysteresisZone_of_fall h).symm ▸ fallsTo_fallZone z t
  have hlimit (x : Zone) : limit x = x.downLimit := by cases x <;> rfl
  simp only [hlimit]
  exact ⟨falls.down, falls.left, falls.stops, falls.risingZone_le h⟩

/-! ### What a zone change leaves outside the channels (R105, R106) -/

@[simp] theorem State.zoneForRefresh_outer (s : State) (z : Zone) (c : Chan) :
    (s.zoneForRefresh z c).outer = s.outer := by simp [State.zoneForRefresh]

@[simp] theorem State.zoneForRefresh_sides (s : State) (z : Zone) (c : Chan) :
    (s.zoneForRefresh z c).sides = s.sides := by simp [State.zoneForRefresh]

theorem State.heatRise_sides (s : State) (c : Chan) : (s.heatRise c).sides = s.sides := by
  unfold State.heatRise; split <;> simp

@[simp] theorem State.therm_postNotice (s : State) (k : NoticeKind) (c : Option Chan) (f : NoticeFields) :
    (s.postNotice k c f).therm = s.therm := congrArg Outer.therm (s.postNotice_outer k c f)

@[simp] theorem State.heatRises_outer (s : State) : s.heatRises.outer = s.outer := by
  unfold State.heatRises
  split
  · exact foldl_keeps State.outer _ State.heatRise_outer _ { s with draws := s.draws + 1 }
  · simp [State.heatRise_outer]

/-- Both rises leave the records beside the channels but for the free order that is drawn. -/
theorem State.heatRises_sides (s : State) : ∃ n, s.heatRises.sides = { s.sides with draws := n } := by
  unfold State.heatRises
  split
  · exact ⟨_, foldl_keeps State.sides _ State.heatRise_sides _ { s with draws := s.draws + 1 }⟩
  · exact ⟨s.draws, by simp only [State.heatRise_sides]; rfl⟩

@[simp] theorem State.mir_heatRises (s : State) : s.heatRises.mir = s.mir := by
  obtain ⟨_, h⟩ := s.heatRises_sides
  exact congrArg Sides.mir h

@[simp] theorem State.conf_heatRises (s : State) : s.heatRises.conf = s.conf := by
  obtain ⟨_, h⟩ := s.heatRises_sides
  exact congrArg Sides.conf h

@[simp] theorem State.mir_zoneForRefresh (s : State) (z : Zone) (c : Chan) :
    (s.zoneForRefresh z c).mir = s.mir := congrArg Sides.mir (s.zoneForRefresh_sides z c)

@[simp] theorem State.conf_zoneForRefresh (s : State) (z : Zone) (c : Chan) :
    (s.zoneForRefresh z c).conf = s.conf := congrArg Sides.conf (s.zoneForRefresh_sides z c)

/-- The outer part with the zone replaced. -/
def Outer.inZone (o : Outer) (z : Zone) : Outer := { o with therm := { o.therm with zone := z } }

/-- Of the outer part a zone change changes the zone alone (R105). -/
theorem State.moveZone_outer (s : State) (z : Zone) (x : Option Int) :
    (s.moveZone z x).outer = s.outer.inZone z := by
  simp only [State.moveZone]
  split
  case isTrue same => rw [same]; rfl
  case isFalse => rw [State.postNotice_outer]; split <;> simp <;> rfl

theorem State.moveZone_keeps_mir_conf (s : State) (z : Zone) (x : Option Int) :
    (s.moveZone z x).mir = s.mir ∧ (s.moveZone z x).conf = s.conf := by
  simp only [State.moveZone]
  (repeat' split) <;> simp

/-! ### The monitor's record after a sample (R101 to R104) -/

/-- The record after a sample with reading `v`: hysteresis only where the sensor was OK (R101, R102, R104). -/
def Thermal.afterReading (r : Thermal) (v : Int) : Thermal :=
  { r with
    zone :=
      match r.sensor with
      | .ok => hysteresisZone r.zone v
      | .awaiting | .lost => risingZone v
    sensor := .ok
    lastTemp := some v
    missed := 0 }

/-- The record after the sample at which the sensor is lost (R103). -/
def Thermal.afterLoss (r : Thermal) : Thermal :=
  { r with zone := if r.zone.isHot then r.zone else .hot, sensor := .lost, lastTemp := none, missed := 3 }

/-- The record after a sample without a reading (R101 to R104). -/
def Thermal.afterMiss (r : Thermal) : Thermal :=
  match r.sensor with
  | .lost => r
  | .awaiting | .ok => if r.missed + 1 < 3 then { r with missed := r.missed + 1 } else r.afterLoss

/-- The record after a sample (R98). -/
def Thermal.afterSample (r : Thermal) : Sample → Thermal
  | .reading v => r.afterReading (sensorRange v)
  | .noReading => r.afterMiss

theorem State.takeReading_outer (s : State) (v : Int) :
    (s.takeReading v).outer = { s.outer with therm := s.therm.afterReading v } := by
  cases was : s.therm.sensor <;>
    simp only [State.takeReading, Thermal.afterReading, was, State.moveZone_outer, State.postNotice_outer] <;> rfl

theorem State.loseSensor_outer (s : State) :
    s.loseSensor.outer = { s.outer with therm := s.therm.afterLoss } := by
  simp only [State.loseSensor, Thermal.afterLoss, State.therm_postNotice]
  split <;> simp only [State.moveZone_outer, State.postNotice_outer] <;> rfl

theorem State.missSample_outer (s : State) :
    s.missSample.outer = { s.outer with therm := s.therm.afterMiss } := by
  cases sensor : s.therm.sensor with
  | lost => simp only [State.missSample, Thermal.afterMiss, sensor]; rfl
  | awaiting | ok =>
    simp only [State.missSample, Thermal.afterMiss, sensor]
    split
    · rfl
    · exact s.loseSensor_outer

/-- Of the outer part a sample changes the monitor's record alone (R98). -/
theorem State.takeSample_outer (s : State) (x : Sample) :
    (s.takeSample x).outer = { s.outer with therm := s.therm.afterSample x } := by
  cases x with
  | reading v => exact s.takeReading_outer (sensorRange v)
  | noReading => exact s.missSample_outer

theorem State.takeSample_keeps_mir_conf (s : State) (x : Sample) :
    (s.takeSample x).mir = s.mir ∧ (s.takeSample x).conf = s.conf := by
  cases x with
  | reading v =>
    simp only [State.takeSample, State.takeReading]
    split <;> simp [State.moveZone_keeps_mir_conf]
  | noReading =>
    simp only [State.takeSample, State.missSample, State.loseSensor]
    (repeat' split) <;> simp [State.moveZone_keeps_mir_conf]

/-- A sample event that is taken (R98). -/
theorem exec_sensorSample {s : State} (x : Sample) (hlive : s.live = true)
    (htake : s.settled.mayTake s.settled.sampleMoment = true) :
    exec (.sensorSample x) s = .next (s.settled.sampleAtMoment s.settled.sampleMoment x).conclude :=
  (if_pos hlive).trans (if_pos htake)

/-- What a sample event leaves in the outer part (R98). -/
theorem State.sampleAtMoment_outer (s : State) (m : Nat) (x : Sample) :
    (s.sampleAtMoment m x).outer =
      { s.outer with
        clock := max s.clock m
        therm := { s.therm with sampleAt := m + Config.sensorPeriod, sampled := true }.afterSample x } :=
  State.takeSample_outer _ x

/-- Settles O10: the record by the sample and the sensor state, and the records that a sample leaves. -/
theorem sampleUpdatesMonitor : Obligations.SampleUpdatesMonitor := by
  intro x s hlive t m htake next reading
  have hexec := exec_sensorSample x hlive htake
  have houter := (State.conclude_outer _).trans (t.sampleAtMoment_outer t.sampleMoment x)
  obtain ⟨hmir, hconf⟩ := State.takeSample_keeps_mir_conf
    { t with
      clock := max t.clock m
      therm := { t.therm with sampleAt := m + Config.sensorPeriod, sampled := true } } x
  refine ⟨_, hexec, congrArg Outer.clock houter, (congrArg Outer.mem houter).trans s.mem_settled,
    (State.conf_conclude _).trans hconf, (State.mir_conclude _).trans hmir,
    (congrArg Outer.therm houter).trans ?_⟩
  cases x with
  | reading v =>
    cases sensor : t.therm.sensor <;> simp only [Thermal.afterSample, Thermal.afterReading, sensor] <;> rfl
  | noReading =>
    have hot : (t.therm.zone.isHot = true) = (2 ≤ t.therm.zone.rank) := decide_eq_true_eq
    cases sensor : t.therm.sensor <;>
      simp only [Thermal.afterSample, Thermal.afterMiss, Thermal.afterLoss, sensor, hot] <;> rfl

end Sys2Proof.Machine
end
